-- ==== Sys2Proof/Word.lean ====
section
/-! DEFINITION. The words and bytes of the block (spec/00_scope.md R5, spec/20_memory.md R72, R74, R75). -/

namespace Sys2Proof

/-- A register, descriptor word or address: 32 bits (R72, R101). -/
abbrev Word := BitVec 32

/-- One byte of host memory or of the scratch buffer (R70). -/
abbrev Byte := BitVec 8

/-- The index of one of the eight data word-slots: a bounded index whose arithmetic wraps modulo 8 (R75). -/
abbrev Slot := Fin 8

end Sys2Proof
end

