-- ==== Sys2Proof/Config.lean ====
section
/-! DEFINITION. The parameters of spec/00_scope.md R4: the fixed numbers, the OPEN parameters, and the one free value. -/

namespace Sys2Proof.Config

/-- Number of 32-bit data word-slots (R4). -/
abbrev nSlots : Nat := 8
/-- Bytes held by the data registers in one load (R4). -/
abbrev nonburstCap : Nat := 32
/-- Bytes of one write burst unit (R4). -/
abbrev wrBurstBytes : Nat := 4
/-- Most units refilled in one handler run (R4, R230). -/
abbrev refillUnits : Nat := 4
/-- Largest byte count of any transfer (R4). -/
abbrev countMax : Nat := 65535
/-- Largest write payload of a restart-mode transfer (R4). -/
abbrev restartWrCap : Nat := 32
/-- Size in bytes of the DMA scratch buffer (R4, D34). -/
abbrev scratchSize : Nat := 65535
/-- Width of the slave-address field (R4, D14). -/
abbrev addrWidth : Nat := 7
/-- Width of the clock-divisor field; the spec's number, not the source's (R4, G1). -/
abbrev divWidth : Nat := 11
/-- Largest divisor, `2 ^ DIV_WIDTH - 1` (R4). -/
abbrev divMax : Nat := 2 ^ divWidth - 1

/-- The OPEN parameters of R4 that a rule reads, fixed for one machine.
`NUM_DEVICES` is the length of the machine's list of instances; `TIMEOUT` is read by no rule (R322).
They are an argument of the model: State carries them and no step writes them. DESIGN CHOICE, log 2. -/
structure Params where
  /-- `SRC_FREQ_KHZ`, the source clock of the divider (D3). -/
  srcFreqKhz : Nat
  /-- `BURST16`: the 16-byte burst-flag convention is enabled (D6). -/
  burst16 : Bool
deriving DecidableEq, Repr

/-- `RD_BURST_BYTES` (R4): bytes of one read burst unit. -/
abbrev Params.rdBurstBytes (p : Params) : Nat := if p.burst16 then 16 else 4

/-- The parameters of the reset machine: the spec's default clock; `BURST16` off. DESIGN CHOICE, log 2. -/
def Params.atReset : Params where
  srcFreqKhz := 27000
  burst16 := false

/-- The free contents of the scratch buffer (R51, U7): byte `i` of instance `d`'s buffer in its `epoch`-th lifetime,
where nothing has written it. No body, so no proof can see what it is. DESIGN CHOICE, log 10. -/
opaque scratchByte (d epoch i : Nat) : Byte

end Sys2Proof.Config
end

