-- ==== Sys2Proof/Syntax.lean ====
section
/-! DEFINITION. The operations of the block: one constructor of Instr for each row of spec/opcode_table.json. -/

namespace Sys2Proof

/-- The four commands (spec/30_encoding.md R102). -/
inductive Op where
  | read
  | write
  | dmaRead
  | dmaWrite
deriving DecidableEq, Repr

/-- The fields of a command descriptor other than `op` (R101). -/
structure Args where
  restart : Bool
  dev : BitVec 8
  addr : BitVec Config.addrWidth
  freq : Word
  wlen : Word
  rlen : Word
  wbuf : Word
  rbuf : Word
deriving DecidableEq, Repr

/-- A decoded command descriptor: what `CMDL` holds (R26, R101). -/
structure Cmd where
  op : Op
  args : Args
deriving DecidableEq, Repr

/-- The field mask a `MODE_SET` is issued with (spec/40_register_ops.md R144):
all of 0x70, 0x30 (`RW`, `RESTART`; step S4) or 0x40 (`AUTO`; step S6). -/
inductive ModeMask where
  | all
  | direction
  | auto
deriving DecidableEq, Repr

/-- The two register blocks (spec/20_memory.md R70). -/
inductive Block where
  | mb
  | db
deriving DecidableEq, Repr

/-- The operations of the block (R100): commands, events and register primitives. -/
inductive Instr where
  /-- `READ` (R187). -/
  | read (a : Args)
  /-- `WRITE` (R186). -/
  | write (a : Args)
  /-- `DMA_READ` (R189). -/
  | dmaRead (a : Args)
  /-- `DMA_WRITE` (R188). -/
  | dmaWrite (a : Args)
  /-- `EV_ACTIVE_DONE` (R226, R237). -/
  | evActiveDone
  /-- `EV_ADDR_NACK` (R227, R233). -/
  | evAddrNack
  /-- `EV_DATA_NACK` (R227, R233). -/
  | evDataNack
  /-- `EV_EMPTY_THRESHOLD` (R230). -/
  | evEmptyThreshold
  /-- `EV_FIFO_EMPTY` (R229). -/
  | evFifoEmpty
  /-- `EV_FIFO_FULL` (R238). -/
  | evFifoFull
  /-- `EV_SCL_HOLD` (R228, R234). -/
  | evSclHold
  /-- `EV_RD_OVERFLOW` (R235). -/
  | evRdOverflow
  /-- `EV_BURST_SLOT` (R236). -/
  | evBurstSlot
  /-- `EV_DMA_DONE` (R240). -/
  | evDmaDone
  /-- `EV_DMA_WCNT_ERR` (R241). -/
  | evDmaWcntErr
  /-- `EV_DMA_WBEN_ERR` (R241). -/
  | evDmaWbenErr
  /-- `EV_DMA_GDMA_TIMEOUT` (R241). -/
  | evDmaGdmaTimeout
  /-- `EV_DMA_IP_TIMEOUT` (R241). -/
  | evDmaIpTimeout
  /-- `EV_DMA_ZERO_LEN` (R241). -/
  | evDmaZeroLen
  /-- `CTRL_RESET` (R141). -/
  | ctrlReset
  /-- `CLKDIV_SET(freq)` (R142). -/
  | clkdivSet (freq : Word)
  /-- `ADDR_SET(addr)` (R143). -/
  | addrSet (addr : BitVec Config.addrWidth)
  /-- `MODE_SET(rw, restart, auto)` with the mask it is issued with (R144). -/
  | modeSet (m : ModeMask) (rw restart auto : Bool)
  /-- `CNT_SET(wr, rd)` (R145). -/
  | cntSet (wr rd : BitVec 16)
  /-- `DATA_LOAD32(src, n)` (R146). -/
  | dataLoad32 (src : Word) (n : BitVec 6)
  /-- `DATA_PUT(slot, w)` (R147). -/
  | dataPut (slot : Slot) (w : Word)
  /-- `DATA_GET(slot)` (R148). -/
  | dataGet (slot : Slot)
  /-- `INTEN_SET(mask)` (R149). -/
  | intenSet (mask : BitVec 9)
  /-- `INTEN_CLR(mask)` (R150). -/
  | intenClr (mask : BitVec 9)
  /-- `STATUS_GET` (R151). -/
  | statusGet
  /-- `STATUS_CLEAR(mask)` (R152). -/
  | statusClear (mask : BitVec 7)
  /-- `OVF_GET` (R153). -/
  | ovfGet
  /-- `RDFLAG_GET` (R154). -/
  | rdflagGet
  /-- `RDFLAG_CLEAR(mask)` (R155). -/
  | rdflagClear (mask : BitVec 8)
  /-- `TRIGGER` (R156). -/
  | trigger
  /-- `DMA_ADDR_SET(a)` (R157). -/
  | dmaAddrSet (a : Word)
  /-- `DMA_LEN_SET(n)` (R158). -/
  | dmaLenSet (n : BitVec 16)
  /-- `DMA_DIR_SET(dir)` (R159). -/
  | dmaDirSet (dir : Bool)
  /-- `DMA_INTEN_SET(mask)` (R160). -/
  | dmaIntenSet (mask : BitVec 6)
  /-- `DMA_GO` (R161). -/
  | dmaGo
  /-- `DMA_STATUS_GETCLR` (R162). -/
  | dmaStatusGetclr
deriving DecidableEq, Repr

/-- The formats operations are encoded in (R100). An event's format is the register its pattern is read from.
`rdf` also carries what its selection depends on (R107): the burst convention and the cursor. -/
inductive Format where
  | cmd
  | mst
  | ovf
  | rdf (burst16 : Bool) (cursor : Slot)
  | dst
  | reg
deriving DecidableEq, Repr

/-- An encoded operation: its format and its 32-bit words, first word first. -/
structure Packet where
  fmt : Format
  words : List Word
deriving DecidableEq, Repr

end Sys2Proof
end

