-- ==== Sys2Proof/WellFormed.lean ====
section
/-! DEFINITION. Which instructions are well-formed: the operand ranges the spec gives that a field's width does not. -/

namespace Sys2Proof

/-- Well-formedness. A count, a device index or a frequency of a command is never ill-formed: the command returns a
result code for it (spec/30_encoding.md R115). The three checks are operand ranges of primitives. -/
def Instr.wf : Instr → Bool
  | .read _ | .write _ | .dmaRead _ | .dmaWrite _ => true
  | .evActiveDone | .evAddrNack | .evDataNack | .evEmptyThreshold | .evFifoEmpty | .evFifoFull | .evSclHold => true
  | .evRdOverflow | .evBurstSlot => true
  | .evDmaDone | .evDmaWcntErr | .evDmaWbenErr | .evDmaGdmaTimeout | .evDmaIpTimeout | .evDmaZeroLen => true
  | .ctrlReset | .clkdivSet _ | .addrSet _ | .cntSet _ _ => true
  -- R144, U14: `restart = 1` with `rw = 0` is never programmed; with mask 0x40 the two are not programmed at all
  | .modeSet m rw restart _ => m == .auto || rw || !restart
  -- R146: `n`, 1..32
  | .dataLoad32 _ n => 1 ≤ n.toNat && n.toNat ≤ 32
  | .dataPut _ _ | .dataGet _ | .intenSet _ | .intenClr _ | .statusGet | .statusClear _ => true
  | .ovfGet | .rdflagGet | .rdflagClear _ | .trigger | .dmaAddrSet _ => true
  -- R158: `1 <= n <= 65535`
  | .dmaLenSet n => 1 ≤ n.toNat
  | .dmaDirSet _ | .dmaIntenSet _ | .dmaGo | .dmaStatusGetclr => true

end Sys2Proof
end

