-- ==== Sys2Proof/Decode.lean ====
section
/-! DEFINITION. The decoder, total on any packet of words and rejecting by name, and after it the encoder, both written
from spec/30_encoding.md. The serialisation of the register primitives, which the spec selects by block, offset and field
mask without giving a bit layout, is this model's own (DESIGN CHOICE, log 13). -/

namespace Sys2Proof

/-- Why the decoder rejects a packet. -/
inductive Reject where
  /-- Not the number of words the format has. -/
  | badLength
  /-- A reserved bit of `W0` is set (R104), or a bit of a primitive's image that no field uses. -/
  | reservedBits
  /-- The pattern read selects no event (R107, R108). -/
  | noEvent
  /-- The pattern read selects more than one event: which is acted on is the priority chain's to say (R107). -/
  | severalEvents
  /-- A register access that is not at a multiple of 4 (R72, U11). -/
  | misaligned
  /-- A register access outside the block (R72, U11). -/
  | outsideBlock
  /-- No primitive has this block, offset, mask and access (R113). -/
  | noPrimitive
  /-- An operand outside its field or its range. -/
  | operandRange
deriving DecidableEq, Repr

/-! ### Commands, format CMD (R101 to R104) -/

/-- `op` values (R102). -/
def Op.ofCode (c : BitVec 2) : Op :=
  if c = 0 then .read else if c = 1 then .write else if c = 2 then .dmaRead else .dmaWrite

/-- The command an `op` and its fields stand for. -/
def Cmd.instr (c : Cmd) : Instr :=
  match c.op with
  | .read => .read c.args
  | .write => .write c.args
  | .dmaRead => .dmaRead c.args
  | .dmaWrite => .dmaWrite c.args

/-- The reserved bits of `W0`, 7:3 and 31:23, are all 0 (R104). -/
def reservedClear (w0 : Word) : Bool :=
  w0.extractLsb' 3 5 == 0 && w0.extractLsb' 23 9 == 0

/-- The fields of a descriptor (R101). -/
def descriptorArgs (w0 w1 w2 w3 w4 w5 : Word) : Args where
  restart := w0.getLsbD 2
  dev := w0.extractLsb' 8 8
  addr := w0.extractLsb' 16 7
  freq := w1
  wlen := w2
  rlen := w3
  wbuf := w4
  rbuf := w5

/-- Decode a command descriptor (R101, R102, R104, R114). -/
def decodeCmd (ws : List Word) : Except Reject Instr :=
  match ws with
  | [w0, w1, w2, w3, w4, w5] =>
    if reservedClear w0 then
      .ok (Cmd.instr { op := Op.ofCode (w0.extractLsb' 0 2), args := descriptorArgs w0 w1 w2 w3 w4 w5 })
    else .error .reservedBits
  | _ => .error .badLength

/-! ### Events, formats MST, OVF, RDF, DST (R107, R108) -/

/-- The events of `M_STATUS[6:0]` by the bit that selects each (R107). -/
def mstTable : List (BitVec 7 × Instr) :=
  [(0x01, .evActiveDone), (0x02, .evAddrNack), (0x04, .evDataNack), (0x08, .evEmptyThreshold),
   (0x10, .evFifoEmpty), (0x20, .evFifoFull), (0x40, .evSclHold)]

/-- The events of `D_STATUS[5:0]` by the bit that selects each (R108). -/
def dstTable : List (BitVec 6 × Instr) :=
  [(0x01, .evDmaDone), (0x02, .evDmaWcntErr), (0x04, .evDmaWbenErr),
   (0x08, .evDmaGdmaTimeout), (0x10, .evDmaIpTimeout), (0x20, .evDmaZeroLen)]

/-- The one event a pattern selects. Reserved bits were dropped before: they are never decoded (R115).
A pattern with several bits selects several events (R107), so it is no single operation. DEDUCED, log 14. -/
def decodePattern {n : Nat} (table : List (BitVec n × Instr)) (p : BitVec n) : Except Reject Instr :=
  match table.find? (fun row => row.1 == p) with
  | some row => .ok row.2
  | none => if p = 0 then .error .noEvent else .error .severalEvents

/-- The flag bits of `n` word-slots from slot `s` on, in ring order (spec/42_irq_events.md R236). -/
def slotMask : Nat → Slot → Byte
  | 0, _ => 0
  | n + 1, s => (1#8 <<< s.val) ||| slotMask n (s + 1)

/-- `W`, the word-slots of one burst slot (R31, R236). -/
def burstWords (burst16 : Bool) : Nat := if burst16 then 4 else 1

/-- Decode a pattern read from a status register. -/
def decodeEvent (fmt : Format) (w : Word) : Except Reject Instr :=
  match fmt with
  | .mst => decodePattern mstTable (w.extractLsb' 0 7)
  | .dst => decodePattern dstTable (w.extractLsb' 0 6)
  | .ovf => if w.extractLsb' 0 8 = 0 then .error .noEvent else .ok .evRdOverflow
  | .rdf burst16 cursor =>
    let m := slotMask (burstWords burst16) cursor
    if w.extractLsb' 0 8 &&& m = m then .ok .evBurstSlot else .error .noEvent
  | .cmd | .reg => .error .noEvent

/-! ### Register primitives, format REG (R113) -/

/-- How a primitive accesses its register (the `access` column of the operation table). -/
inductive Access where
  | get
  | fullWrite
  | fullWrite8
  | rmw
  | rmwSet
  | rmwClear
  | strobe
  | pulse
  | getClear
deriving DecidableEq, Repr

/-- What selects a primitive: block, offset and field mask (R113), and the access. -/
structure RegSel where
  block : Block
  off : Nat
  mask : Word
  access : Access
deriving DecidableEq, Repr

/-- An operand that must fit `n` bits. -/
def narrow (n : Nat) (a : Word) : Except Reject (BitVec n) :=
  if a.toNat < 2 ^ n then .ok (a.setWidth n) else .error .operandRange

/-- A primitive without operands. -/
def nullary (i : Instr) (a b : Word) : Except Reject Instr :=
  if a = 0 ∧ b = 0 then .ok i else .error .operandRange

/-- A primitive with one operand of `n` bits. -/
def unary (n : Nat) (f : BitVec n → Instr) (a b : Word) : Except Reject Instr :=
  if b = 0 then (narrow n a).map f else .error .operandRange

/-- A primitive with two operands, of `n` and `m` bits. -/
def binary (n m : Nat) (f : BitVec n → BitVec m → Instr) (a b : Word) : Except Reject Instr :=
  match narrow n a, narrow m b with
  | .ok x, .ok y => .ok (f x y)
  | _, _ => .error .operandRange

/-- `MODE_SET`'s operand word: `rw << 4`, `restart << 5`, `auto << 6` (R144). -/
def modeOperand (rw restart auto : Bool) : Word :=
  0#25 ++ BitVec.ofBool auto ++ BitVec.ofBool restart ++ BitVec.ofBool rw ++ 0#4

/-- `MODE_SET` from its operand word. -/
def modeOf (m : ModeMask) (a b : Word) : Except Reject Instr :=
  if b = 0 ∧ a = modeOperand (a.getLsbD 4) (a.getLsbD 5) (a.getLsbD 6) then
    .ok (.modeSet m (a.getLsbD 4) (a.getLsbD 5) (a.getLsbD 6))
  else .error .operandRange

/-- The field mask of a `MODE_SET` (R144). -/
def ModeMask.bits : ModeMask → Word
  | .all => 0x70
  | .direction => 0x30
  | .auto => 0x40

/-- The byte offset of word-slot `i` (spec/10_state.md R43). -/
def dataOffset (i : Slot) : Nat := 0x40 + 4 * i.val

/-- The selector of each register primitive, as the rows of the operation table give it; none for the rest. -/
def Instr.regSel : Instr → Option RegSel
  | .ctrlReset => some ⟨.mb, 0x00, 0x00000001, .strobe⟩
  | .clkdivSet _ => some ⟨.mb, 0x04, 0x000007FF, .rmw⟩
  | .addrSet _ => some ⟨.mb, 0x08, 0x0000007F, .rmw⟩
  | .modeSet m _ _ _ => some ⟨.mb, 0x00, m.bits, .rmw⟩
  | .cntSet _ _ => some ⟨.mb, 0x0C, 0xFFFFFFFF, .fullWrite⟩
  | .dataLoad32 _ _ => some ⟨.mb, 0x40, 0xFFFFFFFF, .fullWrite8⟩
  | .dataPut slot _ => some ⟨.mb, dataOffset slot, 0xFFFFFFFF, .fullWrite⟩
  | .dataGet slot => some ⟨.mb, dataOffset slot, 0xFFFFFFFF, .get⟩
  | .intenSet _ => some ⟨.mb, 0x10, 0x000001FF, .rmwSet⟩
  | .intenClr _ => some ⟨.mb, 0x10, 0x000001FF, .rmwClear⟩
  | .statusGet => some ⟨.mb, 0x14, 0x0000007F, .get⟩
  | .statusClear _ => some ⟨.mb, 0x18, 0x0000007F, .pulse⟩
  | .ovfGet => some ⟨.mb, 0x1C, 0x000000FF, .get⟩
  | .rdflagGet => some ⟨.mb, 0x20, 0x000000FF, .get⟩
  | .rdflagClear _ => some ⟨.mb, 0x24, 0x000000FF, .pulse⟩
  | .trigger => some ⟨.mb, 0x00, 0x00000002, .strobe⟩
  | .dmaAddrSet _ => some ⟨.db, 0x04, 0xFFFFFFFF, .fullWrite⟩
  | .dmaLenSet _ => some ⟨.db, 0x08, 0x0000FFFF, .rmw⟩
  | .dmaDirSet _ => some ⟨.db, 0x00, 0x00000002, .rmw⟩
  | .dmaIntenSet _ => some ⟨.db, 0x10, 0x0000003F, .rmwSet⟩
  | .dmaGo => some ⟨.db, 0x00, 0x00000001, .strobe⟩
  | .dmaStatusGetclr => some ⟨.db, 0x0C, 0x0000003F, .getClear⟩
  | .read _ | .write _ | .dmaRead _ | .dmaWrite _ => none
  | .evActiveDone | .evAddrNack | .evDataNack | .evEmptyThreshold | .evFifoEmpty | .evFifoFull | .evSclHold => none
  | .evRdOverflow | .evBurstSlot => none
  | .evDmaDone | .evDmaWcntErr | .evDmaWbenErr | .evDmaGdmaTimeout | .evDmaIpTimeout | .evDmaZeroLen => none

/-- The eight word-slots. -/
def slots : List Slot := [0, 1, 2, 3, 4, 5, 6, 7]

/-- The primitives by what selects them (the REG rows of the operation table), each with the reading of its operand words. -/
def regTable : List (RegSel × (Word → Word → Except Reject Instr)) :=
  [(⟨.mb, 0x00, 0x00000001, .strobe⟩, nullary .ctrlReset),
   (⟨.mb, 0x00, 0x00000002, .strobe⟩, nullary .trigger),
   (⟨.mb, 0x00, 0x00000070, .rmw⟩, modeOf .all),
   (⟨.mb, 0x00, 0x00000030, .rmw⟩, modeOf .direction),
   (⟨.mb, 0x00, 0x00000040, .rmw⟩, modeOf .auto),
   (⟨.mb, 0x04, 0x000007FF, .rmw⟩, unary 32 .clkdivSet),
   (⟨.mb, 0x08, 0x0000007F, .rmw⟩, unary 7 .addrSet),
   (⟨.mb, 0x0C, 0xFFFFFFFF, .fullWrite⟩, binary 16 16 .cntSet),
   (⟨.mb, 0x10, 0x000001FF, .rmwSet⟩, unary 9 .intenSet),
   (⟨.mb, 0x10, 0x000001FF, .rmwClear⟩, unary 9 .intenClr),
   (⟨.mb, 0x14, 0x0000007F, .get⟩, nullary .statusGet),
   (⟨.mb, 0x18, 0x0000007F, .pulse⟩, unary 7 .statusClear),
   (⟨.mb, 0x1C, 0x000000FF, .get⟩, nullary .ovfGet),
   (⟨.mb, 0x20, 0x000000FF, .get⟩, nullary .rdflagGet),
   (⟨.mb, 0x24, 0x000000FF, .pulse⟩, unary 8 .rdflagClear),
   (⟨.mb, 0x40, 0xFFFFFFFF, .fullWrite8⟩, binary 32 6 .dataLoad32)] ++
  [(⟨.db, 0x00, 0x00000001, .strobe⟩, nullary .dmaGo),
   (⟨.db, 0x00, 0x00000002, .rmw⟩, unary 1 (fun d => .dmaDirSet (d.getLsbD 0))),
   (⟨.db, 0x04, 0xFFFFFFFF, .fullWrite⟩, unary 32 .dmaAddrSet),
   (⟨.db, 0x08, 0x0000FFFF, .rmw⟩, unary 16 .dmaLenSet),
   (⟨.db, 0x0C, 0x0000003F, .getClear⟩, nullary .dmaStatusGetclr),
   (⟨.db, 0x10, 0x0000003F, .rmwSet⟩, unary 6 .dmaIntenSet)] ++
  slots.map (fun i => (⟨.mb, dataOffset i, 0xFFFFFFFF, .fullWrite⟩, unary 32 (.dataPut i))) ++
  slots.map (fun i => (⟨.mb, dataOffset i, 0xFFFFFFFF, .get⟩, nullary (.dataGet i)))

/-- The access codes of a primitive's image (this model's own, log 13). -/
def Access.code : Access → BitVec 4
  | .get => 0
  | .fullWrite => 1
  | .fullWrite8 => 2
  | .rmw => 3
  | .rmwSet => 4
  | .rmwClear => 5
  | .strobe => 6
  | .pulse => 7
  | .getClear => 8

/-- The access a code stands for. -/
def Access.ofCode (c : BitVec 4) : Option Access :=
  [Access.get, .fullWrite, .fullWrite8, .rmw, .rmwSet, .rmwClear, .strobe, .pulse, .getClear].find? (fun a => a.code == c)

/-- Block size in bytes: 0x80 and 0x20 (R70). -/
def Block.size : Block → Nat
  | .mb => 0x80
  | .db => 0x20

/-- The first word of a primitive's image: offset in 15:0, block in 16, access in 20:17 (log 13). -/
def RegSel.word (r : RegSel) : Word :=
  0#11 ++ r.access.code ++ BitVec.ofBool (r.block == .db) ++ BitVec.ofNat 16 r.off

/-- Decode a primitive's image: selector word, field mask, two operand words (log 13). -/
def decodeReg (ws : List Word) : Except Reject Instr :=
  match ws with
  | [sel, mask, a, b] =>
    let block := if sel.getLsbD 16 then Block.db else Block.mb
    let off := (sel.extractLsb' 0 16).toNat
    if sel.extractLsb' 21 11 ≠ 0 then .error .reservedBits
    else if off % 4 ≠ 0 then .error .misaligned
    else if block.size ≤ off then .error .outsideBlock
    else
      match Access.ofCode (sel.extractLsb' 17 4) with
      | none => .error .noPrimitive
      | some access =>
        match regTable.find? (fun row => row.1 == ⟨block, off, mask, access⟩) with
        | none => .error .noPrimitive
        | some row => row.2 a b
  | _ => .error .badLength

/-! ### The decoder -/

/-- Decode by format, before the operand ranges are checked. -/
def decodeRaw (p : Packet) : Except Reject Instr :=
  match p.fmt with
  | .cmd => decodeCmd p.words
  | .reg => decodeReg p.words
  | fmt =>
    match p.words with
    | [w] => decodeEvent fmt w
    | _ => .error .badLength

/-- The decoder: total on any packet; what it accepts is well-formed. -/
def decode (p : Packet) : Except Reject Instr :=
  match decodeRaw p with
  | .ok i => if i.wf then .ok i else .error .operandRange
  | .error e => .error e

/-! ### The encoder -/

/-- `op` codes (R102). -/
def Op.code : Op → BitVec 2
  | .read => 0
  | .write => 1
  | .dmaRead => 2
  | .dmaWrite => 3

/-- The six words of a descriptor (R101). -/
def encodeCmd (op : Op) (a : Args) : List Word :=
  [0#9 ++ a.addr ++ a.dev ++ 0#5 ++ BitVec.ofBool a.restart ++ op.code, a.freq, a.wlen, a.rlen, a.wbuf, a.rbuf]

/-- The image of a primitive with its operand words (log 13). -/
def encodeReg (sel : Option RegSel) (a b : Word) : Packet :=
  match sel with
  | some r => ⟨.reg, [r.word, r.mask, a, b]⟩
  | none => ⟨.reg, []⟩

/-- The encoder. For `EV_RD_OVERFLOW` and `EV_BURST_SLOT`, which many patterns select, it gives the least pattern. -/
def encode (i : Instr) : Packet :=
  match i with
  | .read a => ⟨.cmd, encodeCmd .read a⟩
  | .write a => ⟨.cmd, encodeCmd .write a⟩
  | .dmaRead a => ⟨.cmd, encodeCmd .dmaRead a⟩
  | .dmaWrite a => ⟨.cmd, encodeCmd .dmaWrite a⟩
  | .evActiveDone => ⟨.mst, [0x01]⟩
  | .evAddrNack => ⟨.mst, [0x02]⟩
  | .evDataNack => ⟨.mst, [0x04]⟩
  | .evEmptyThreshold => ⟨.mst, [0x08]⟩
  | .evFifoEmpty => ⟨.mst, [0x10]⟩
  | .evFifoFull => ⟨.mst, [0x20]⟩
  | .evSclHold => ⟨.mst, [0x40]⟩
  | .evRdOverflow => ⟨.ovf, [0x01]⟩
  | .evBurstSlot => ⟨.rdf false 0, [0x01]⟩
  | .evDmaDone => ⟨.dst, [0x01]⟩
  | .evDmaWcntErr => ⟨.dst, [0x02]⟩
  | .evDmaWbenErr => ⟨.dst, [0x04]⟩
  | .evDmaGdmaTimeout => ⟨.dst, [0x08]⟩
  | .evDmaIpTimeout => ⟨.dst, [0x10]⟩
  | .evDmaZeroLen => ⟨.dst, [0x20]⟩
  | .ctrlReset => encodeReg i.regSel 0 0
  | .clkdivSet freq => encodeReg i.regSel freq 0
  | .addrSet addr => encodeReg i.regSel (addr.setWidth 32) 0
  | .modeSet _ rw restart auto => encodeReg i.regSel (modeOperand rw restart auto) 0
  | .cntSet wr rd => encodeReg i.regSel (wr.setWidth 32) (rd.setWidth 32)
  | .dataLoad32 src n => encodeReg i.regSel src (n.setWidth 32)
  | .dataPut _ w => encodeReg i.regSel w 0
  | .dataGet _ => encodeReg i.regSel 0 0
  | .intenSet mask => encodeReg i.regSel (mask.setWidth 32) 0
  | .intenClr mask => encodeReg i.regSel (mask.setWidth 32) 0
  | .statusGet => encodeReg i.regSel 0 0
  | .statusClear mask => encodeReg i.regSel (mask.setWidth 32) 0
  | .ovfGet => encodeReg i.regSel 0 0
  | .rdflagGet => encodeReg i.regSel 0 0
  | .rdflagClear mask => encodeReg i.regSel (mask.setWidth 32) 0
  | .trigger => encodeReg i.regSel 0 0
  | .dmaAddrSet a => encodeReg i.regSel a 0
  | .dmaLenSet n => encodeReg i.regSel (n.setWidth 32) 0
  | .dmaDirSet dir => encodeReg i.regSel ((BitVec.ofBool dir).setWidth 32) 0
  | .dmaIntenSet mask => encodeReg i.regSel (mask.setWidth 32) 0
  | .dmaGo => encodeReg i.regSel 0 0
  | .dmaStatusGetclr => encodeReg i.regSel 0 0

/-! ### The operation table's numbering -/

/-- Word `k` of an image whose bits are numbered on from the first word's bit 0. -/
def tableWord (w k : Nat) : Word := BitVec.ofNat 32 (w >>> (32 * k))

/-- The packet of an operation-table word: 8 bits are a status pattern, more are a descriptor.
The patterns of formats MST and DST have the same width and the same values; a bare 8-bit word is read as format MST
(DESIGN CHOICE, log 12). -/
def tablePacket (nbits w : Nat) : Packet :=
  if nbits ≤ 8 then ⟨.mst, [BitVec.ofNat 32 w]⟩
  else ⟨.cmd, [tableWord w 0, tableWord w 1, tableWord w 2, tableWord w 3, tableWord w 4, tableWord w 5]⟩

/-- The instruction the decoder reads from an operation-table word. -/
def decodeTableWord (nbits w : Nat) : Option Instr :=
  match decode (tablePacket nbits w) with
  | .ok i => some i
  | .error _ => none

end Sys2Proof
end

