-- ==== Sys2Proof/Machine/State.lean ====
section
/-! DEFINITION. The state of the machine as plain data (spec/10_state.md), the reasons a step can stop, and reset. -/

namespace Sys2Proof.Machine

/-! ### Codes -/

/-- Phases (spec/30_encoding.md R106). Codes 5 to 7 never occur and have no constructor. -/
inductive Phase where
  | idle
  | write
  | read
  | dmaWrite
  | dmaRead
deriving DecidableEq, Repr

/-- Result codes (R105). Codes 10 to 15 are never produced and have no constructor. -/
inductive Result where
  | success
  | busy
  | invalidDevice
  | invalidCount
  | timeout
  | remoteNack
  | clockHeldTooLong
  | fifoEmpty
  | readOverflow
  | irqRegistrationFailed
deriving DecidableEq, Repr

/-- Values of the sequencer's step register (R26): the step the sequencer takes next (DEDUCED, log 6). -/
inductive SeqStep where
  | sidle
  | s0
  | s1
  | s2
  | s3
  | s4
  | s5
  | s6
  | s7
  | s8
  | s9
  | s10
  | s11
deriving DecidableEq, Repr

/-! ### TransferProgress -/

/-- `TP.irq`, the structured interrupt-flag set (R27). -/
structure IrqFlags where
  activeDone : Bool
  addrNack : Bool
  dataNack : Bool
  emptyThreshold : Bool
  fifoEmpty : Bool
  fifoFull : Bool
  sclHold : Bool
  rdOverflow : Bool
deriving DecidableEq, Repr

/-- `TP.dma`, the structured DMA-flag set (R28). -/
structure DmaFlags where
  done : Bool
  wcntErr : Bool
  wbenErr : Bool
  gdmaTimeout : Bool
  ipTimeout : Bool
  zeroLen : Bool
deriving DecidableEq, Repr

/-- `TP`, the TransferProgress snapshot (R21). -/
structure TP where
  phase : Phase
  irq : IrqFlags
  dma : DmaFlags
  dev : BitVec 8
  burstCnt : BitVec 16
  burstRem : BitVec 4
  dataOff : Word
  regIdx : Slot
  totalLen : BitVec 16
  busy : Bool
  result : Result
  buf : Word
deriving DecidableEq, Repr

/-- All flags clear (R27). -/
def IrqFlags.zero : IrqFlags := ⟨false, false, false, false, false, false, false, false⟩

/-- All flags clear (R28). -/
def DmaFlags.zero : DmaFlags := ⟨false, false, false, false, false, false⟩

/-- `TP` all zero (R23, R51). -/
def TP.zero : TP where
  phase := .idle
  irq := .zero
  dma := .zero
  dev := 0
  burstCnt := 0
  burstRem := 0
  dataOff := 0
  regIdx := 0
  totalLen := 0
  busy := false
  result := .success
  buf := 0

/-! ### Register blocks. A register holds exactly its defined bits: reserved bits have no storage (R44, R49). -/

/-- The stored bits of `M_CTRL` (R33); `RESET` and `TRIG` are strobes. -/
structure Ctrl where
  rw : Bool
  restart : Bool
  auto : Bool
deriving DecidableEq, Repr

/-- The master register block (R33 to R43). -/
structure MBlock where
  ctrl : Ctrl
  clk : BitVec Config.divWidth
  addr : BitVec Config.addrWidth
  wrcnt : BitVec 16
  rdcnt : BitVec 16
  inten : BitVec 9
  status : BitVec 7
  stclr : BitVec 7
  ovf : Byte
  rdflag : Byte
  rdfclr : Byte
  data : Vector Word 8
deriving DecidableEq, Repr

/-- The DMA register block (R45 to R49); `GO` is a strobe. -/
structure DBlock where
  dir : Bool
  addr : Word
  len : BitVec 16
  status : BitVec 6
  inten : BitVec 6
deriving DecidableEq, Repr

/-- Every register of `MB` zero (R51). -/
def MBlock.zero : MBlock where
  ctrl := ⟨false, false, false⟩
  clk := 0
  addr := 0
  wrcnt := 0
  rdcnt := 0
  inten := 0
  status := 0
  stclr := 0
  ovf := 0
  rdflag := 0
  rdfclr := 0
  data := Vector.replicate 8 0

/-- Every register of `DB` zero (R51). -/
def DBlock.zero : DBlock where
  dir := false
  addr := 0
  len := 0
  status := 0
  inten := 0

/-- The registers of the two blocks by name (R33 to R49); reserved offsets are one name a block. -/
inductive Reg where
  | mCtrl
  | mClk
  | mAddr
  | mCnt
  | mInten
  | mStatus
  | mStclr
  | mOvf
  | mRdflag
  | mRdfclr
  | mData (i : Slot)
  | mReserved
  | dCtrl
  | dAddr
  | dLen
  | dStatus
  | dInten
  | dReserved
deriving DecidableEq, Repr

/-! ### Moves of the environment and of the schedule -/

/-- Moves of the bus engine (spec/44_environment.md R282). -/
inductive BeMove where
  | set (mask : BitVec 7)
  | fill (i : Slot) (w : Word)
  | partialFill (i : Slot) (w : Word)
  | take (i : Slot)
deriving DecidableEq, Repr

/-- Moves of the DMA engine (R283). -/
inductive DeMove where
  | set (mask : BitVec 6)
  | read (i : BitVec 16)
  | write (i : BitVec 16) (b : Byte)
deriving DecidableEq, Repr

/-- What can fall between two accesses of an instance's own agents (R8, R80, R280): a move of any environment agent of any
instance, or an access of a host to its memory. What another instance's sequencer or handler does to this one is a store into
host memory as well (log 34). -/
inductive EnvMove where
  /-- A move of `d`'s bus engine (R282). -/
  | be (d : Nat) (m : BeMove)
  /-- A move of `d`'s DMA engine (R283). -/
  | de (d : Nat) (m : DeMove)
  /-- The timeout of `d` fires (R284). -/
  | expire (d : Nat)
  /-- The answer the mapping oracle will give to `d` (R285). -/
  | mapAnswer (d : Nat) (r : Option Word)
  /-- A store into host memory (R85). -/
  | store (a : Word) (b : Byte)
  /-- The host frees a byte of its memory (R354). -/
  | free (a : Word)
  /-- Host `h` issues a command (R286). -/
  | command (h : Nat) (c : Cmd)
deriving DecidableEq, Repr

/-- One entry of the schedule: which agent moves next, and the inputs of its move (R50, R280; the lines of R116). -/
inductive Move where
  /-- Host `h` issues a command: the words of its descriptor (R286). -/
  | host (h : Nat) (ws : List Word)
  /-- The host stores a byte into its memory, allocating it (R85). -/
  | hostStore (a : Word) (b : Byte)
  /-- The host frees a byte of its memory (R354). -/
  | hostFree (a : Word)
  /-- The answer the mapping oracle will give to instance `d`: `Ok(a)` or `Fail` (R285). -/
  | mapAnswer (d : Nat) (r : Option Word)
  /-- The sequencer of `d` takes its next step (R170). -/
  | seq (d : Nat)
  /-- The timeout of `d` fires (R284). -/
  | tmr (d : Nat)
  /-- A handler run of `d` (R220). -/
  | irq (d : Nat)
  /-- A move of `d`'s bus engine (R282). -/
  | be (d : Nat) (m : BeMove)
  /-- A move of `d`'s DMA engine (R283). -/
  | de (d : Nat) (m : DeMove)
deriving DecidableEq, Repr

/-- What a model of the block observes besides its state (spec/00_scope.md R12): register writes, results returned, the
calls of the mapping oracle (spec/43_dma.md R261, R268), and the bytes the device sees (spec/20_memory.md R86). -/
inductive Obs where
  | wrote (d : Nat) (r : Reg) (v : Word)
  | returned (host : Nat) (dev : BitVec 8) (r : Result)
  | mapped (d : Nat) (buf : Word) (len : Word) (dir : Bool) (answer : Option Word)
  | unmapped (d : Nat) (buf : Word) (len : Word) (dir : Bool)
  | fetched (d : Nat) (i : BitVec 16) (b : Byte)
deriving DecidableEq, Repr

/-! ### One instance -/

/-- `MAP`, the mapping record (R26, R261). -/
structure MapRec where
  useScratch : Bool
  devAddr : Word
  valid : Bool
deriving DecidableEq, Repr

/-- The platform's part of the controller handle `CH` (R29, R77): parameters, written by no step. -/
structure Handle where
  mbase : Word
  dbase : Word
  irqNumber : Nat
  scratchDev : Word
deriving DecidableEq, Repr

/-- The agents of an instance that have made an access the spec gives no meaning: each takes no further step
(spec/20_memory.md R78, U15). Model's own (log 28). -/
structure Stuck where
  /-- The sequencer. -/
  seq : Bool
  /-- The interrupt event processor. -/
  iep : Bool
  /-- The DMA engine. -/
  de : Bool
deriving DecidableEq, Repr

/-- All state of one controller instance (R20). -/
structure Device where
  /-- TransferProgress (R21). -/
  tp : TP
  /-- Sequencer step (R26). -/
  seq : SeqStep
  /-- Private copy of the descriptor (R26). -/
  cmdl : Cmd
  /-- Result latched at S10 (R26). -/
  res : Result
  /-- Mapping record (R26). -/
  map : MapRec
  /-- Completion-signal latch `SIG` (R30). -/
  sig : Bool
  /-- Pending-interrupt latch `IRQ_PEND` (R31). -/
  irqPend : Bool
  /-- A handler run is in progress, `IEP_RUN` (R31). -/
  iepRun : Bool
  /-- The bus engine is running (R32). -/
  beActive : Bool
  /-- The DMA engine is running (R32). -/
  deActive : Bool
  /-- Master register block (R33 to R43). -/
  mb : MBlock
  /-- DMA register block (R45 to R49). -/
  db : DBlock
  /-- Scratch buffer bytes written in this epoch, by rising index (R29, R70). -/
  scratch : List Host.Cell
  /-- Platform parameters of the controller handle (R29). -/
  handle : Handle
  /-- Model's own: lifetime of the scratch contents, the index of their free values (log 10). -/
  epoch : Nat
  /-- Model's own: the host whose transaction is in flight (log 27). -/
  caller : Nat
  /-- Model's own: the value the last read primitive returned (log 17). -/
  ret : Word
  /-- Model's own: the answer `dma_map` will give (log 11). -/
  oracle : Option Word
  /-- Model's own: the moves that fall before each of the next accesses of the instance's own agents (log 4). -/
  inter : List (List EnvMove)
  /-- Model's own: which agents are stuck (R78, log 28). -/
  stuck : Stuck
deriving DecidableEq, Repr

/-- Host memory: the allocated bytes by strictly rising address (log 7). -/
abbrev Memory := List Host.Cell

/-- The whole machine. -/
structure State where
  /-- The OPEN parameters (R4), written by no step. -/
  params : Config.Params
  /-- The instances; `NUM_DEVICES` is their number (R4, R20). -/
  devs : List Device
  /-- Host memory `HOSTMEM` (spec/20_memory.md R70). -/
  mem : Memory
  /-- `CMDL` of the calling context: the descriptor sampled by the call in hand (R193). -/
  callCmd : Cmd
  /-- Model's own: the calling context in hand (log 27). -/
  host : Nat
  /-- Model's own: the instance in hand for an event or a primitive executed by itself (log 15). -/
  cur : Nat
  /-- Model's own: the schedule, next move first (log 3). -/
  agenda : List Move
  /-- Model's own: what was observed, latest first (R12, log 18). -/
  trace : List Obs
deriving DecidableEq, Repr

/-- An instance in the hand of one of its agents, with the rest of the machine about it: the instances `before` and `after`
it, host memory, the command port and the trace. The agent itself reaches its own instance and host memory only (R20, R71, R320);
the rest is there for the moves that fall between its accesses (R80, R280). -/
structure Ctx where
  id : Nat
  params : Config.Params
  dev : Device
  mem : Memory
  trace : List Obs
  before : List Device
  after : List Device
  callCmd : Cmd
  host : Nat
deriving DecidableEq, Repr

/-- The block's own agents of one instance (spec/00_scope.md R7). -/
inductive Agent where
  | seq
  | iep
deriving DecidableEq, Repr

/-! ### Why a step stops -/

/-- Faults: there are none. The block has no traps, and an access to host memory that is not allocated leaves only its agent
stuck (R78, U15), which is a next state (log 28). -/
inductive Fault where
deriving DecidableEq, Repr

/-- Refusals. -/
inductive Refusal where
  /-- Raised by exec for an instruction that has no meaning yet. Safe. -/
  | notModelled (mnemonic : String)
  /-- Raised by step for a descriptor the decoder rejects: a reserved bit of `W0` set (R104, U10), or not six words. Safe. -/
  | badDescriptor (why : Reject)
  /-- Raised by an event or a primitive executed by itself when the instance in hand does not exist (U22). Safe. -/
  | noInstance
  /-- Raised by `MODE_SET` of `RESTART` without `RW` (R144, U14). Safe. -/
  | restartWithoutRead
  /-- Raised by `DMA_GO` when `D_CTRL.DIR` differs from `M_CTRL.RW` (R264, U13). Safe. -/
  | directionMismatch
deriving DecidableEq, Repr

/-- How an operation of one instance's agent ends: it goes on, or its agent is stuck at an access with everything before that
access done (R78), or it is refused. -/
inductive Res where
  | next (l : Ctx)
  | stuck (l : Ctx)
  | refused (e : Refusal)
deriving DecidableEq, Repr

/-! ### Reset (R51, R340) -/

/-- An unspecified descriptor's value: all fields zero. DESIGN CHOICE, log 9. -/
def Cmd.zero : Cmd where
  op := .read
  args := ⟨false, 0, 0, 0, 0, 0, 0, 0⟩

/-- The platform parameters of the reset machine. DESIGN CHOICE, log 22. -/
def Handle.atReset : Handle := ⟨0, 0, 0, 0x80000000⟩

/-- One instance after power-on reset (R51). -/
def Device.reset : Device where
  tp := .zero
  seq := .sidle
  cmdl := Cmd.zero
  res := .success
  map := ⟨false, 0, false⟩
  sig := false
  irqPend := false
  iepRun := false
  beActive := false
  deActive := false
  mb := .zero
  db := .zero
  scratch := []
  handle := .atReset
  epoch := 0
  caller := 0
  ret := 0
  oracle := none
  inter := []
  stuck := ⟨false, false, false⟩

/-- The machine after power-on reset (R51, R340): every instance idle, nothing allocated, nothing scheduled. -/
def State.reset : State where
  params := .atReset
  devs := [.reset]
  mem := []
  callCmd := Cmd.zero
  host := 0
  cur := 0
  agenda := []
  trace := []

end Sys2Proof.Machine
end

