-- ==== Sys2Proof/Machine/Operands.lean ====
section
/-! DEFINITION. Operand forms: byte order, register offsets and images, the clock divisor, sizing, and the per-command
choices of mode, counts and enables. -/

namespace Sys2Proof.Machine

/-! ### Byte order (spec/20_memory.md R74) -/

/-- Byte `k` of a word: bits `8k+7 : 8k`. -/
def wordByte (w : Word) (k : Nat) : Byte := w.extractLsb' (8 * k) 8

/-- The four bytes of a word, lowest buffer offset first. -/
def wordBytes (w : Word) : List Byte := [wordByte w 0, wordByte w 1, wordByte w 2, wordByte w 3]

/-- The word of four bytes, lowest buffer offset first. -/
def wordOf (b0 b1 b2 b3 : Byte) : Word := b3 ++ b2 ++ b1 ++ b0

/-! ### Codes (spec/30_encoding.md R105, R106) -/

/-- Result code numbers (R105). -/
def Result.code : Result → BitVec 4
  | .success => 0
  | .busy => 1
  | .invalidDevice => 2
  | .invalidCount => 3
  | .timeout => 4
  | .remoteNack => 5
  | .clockHeldTooLong => 6
  | .fifoEmpty => 7
  | .readOverflow => 8
  | .irqRegistrationFailed => 9

/-- Phase code numbers (R106). -/
def Phase.code : Phase → BitVec 3
  | .idle => 0
  | .write => 1
  | .read => 2
  | .dmaWrite => 3
  | .dmaRead => 4

/-- The command-to-phase map (R106). -/
def phaseOf : Op → Phase
  | .read => .read
  | .write => .write
  | .dmaRead => .dmaRead
  | .dmaWrite => .dmaWrite

/-- The DMA commands. -/
def isDmaOp : Op → Bool
  | .read | .write => false
  | .dmaRead | .dmaWrite => true

/-- The commands with a read phase; `M_CTRL.RW` and the DMA direction (R177, R264). -/
def isReadOp : Op → Bool
  | .read | .dmaRead => true
  | .write | .dmaWrite => false

/-! ### Register offsets (spec/10_state.md R33 to R49) -/

/-- The byte offset of a named register in its block; a reserved name gets the block's first reserved offset. -/
def Reg.offset : Reg → Nat
  | .mCtrl => 0x00
  | .mClk => 0x04
  | .mAddr => 0x08
  | .mCnt => 0x0C
  | .mInten => 0x10
  | .mStatus => 0x14
  | .mStclr => 0x18
  | .mOvf => 0x1C
  | .mRdflag => 0x20
  | .mRdfclr => 0x24
  | .mData i => dataOffset i
  | .mReserved => 0x28
  | .dCtrl => 0x00
  | .dAddr => 0x04
  | .dLen => 0x08
  | .dStatus => 0x0C
  | .dInten => 0x10
  | .dReserved => 0x14

/-- The register at a byte offset of a block; none for an access the spec gives no meaning: not a multiple of 4, or outside
the block (R72, U11). -/
def regAt (b : Block) (off : Nat) : Option Reg :=
  if off % 4 ≠ 0 ∨ b.size ≤ off then none
  else
    match b with
    | .mb =>
      if off = 0x00 then some .mCtrl
      else if off = 0x04 then some .mClk
      else if off = 0x08 then some .mAddr
      else if off = 0x0C then some .mCnt
      else if off = 0x10 then some .mInten
      else if off = 0x14 then some .mStatus
      else if off = 0x18 then some .mStclr
      else if off = 0x1C then some .mOvf
      else if off = 0x20 then some .mRdflag
      else if off = 0x24 then some .mRdfclr
      else if 0x40 ≤ off ∧ off < 0x60 then some (.mData (Fin.ofNat 8 ((off - 0x40) / 4)))
      else some .mReserved
    | .db =>
      if off = 0x00 then some .dCtrl
      else if off = 0x04 then some .dAddr
      else if off = 0x08 then some .dLen
      else if off = 0x0C then some .dStatus
      else if off = 0x10 then some .dInten
      else some .dReserved

/-! ### Register images: what a read returns (R33 to R49); strobes and reserved bits read 0 -/

/-- The value a register reads as (spec/20_memory.md R73: a read changes nothing). -/
def peek (r : Reg) (d : Device) : Word :=
  match r with
  | .mCtrl => modeOperand d.mb.ctrl.rw d.mb.ctrl.restart d.mb.ctrl.auto
  | .mClk => d.mb.clk.setWidth 32
  | .mAddr => d.mb.addr.setWidth 32
  | .mCnt => d.mb.rdcnt ++ d.mb.wrcnt
  | .mInten => d.mb.inten.setWidth 32
  | .mStatus => d.mb.status.setWidth 32
  | .mStclr => d.mb.stclr.setWidth 32
  | .mOvf => d.mb.ovf.setWidth 32
  | .mRdflag => d.mb.rdflag.setWidth 32
  | .mRdfclr => d.mb.rdfclr.setWidth 32
  | .mData i => d.mb.data[i]
  | .mReserved => 0
  | .dCtrl => 0#30 ++ BitVec.ofBool d.db.dir ++ 0#1
  | .dAddr => d.db.addr
  | .dLen => d.db.len.setWidth 32
  | .dStatus => d.db.status.setWidth 32
  | .dInten => d.db.inten.setWidth 32
  | .dReserved => 0

/-! ### The clock divisor (R109, R163) -/

/-- `ceil(a / b)` in unbounded integers (spec/00_scope.md R5). -/
def ceilDiv (a b : Nat) : Nat := (a + b - 1) / b

/-- `div_of(freq)` (R109): the field's maximum at frequency 0 and on overflow. -/
def divOf (srcFreqKhz freq : Nat) : Nat :=
  if freq = 0 then Config.divMax else min (ceilDiv srcFreqKhz freq - 1) Config.divMax

/-! ### Counts and sizing (spec/41_commands.md R173, R174, R190, R191) -/

/-- A used count is 1 to 65535 (R173). -/
def countValid (n : Word) : Bool := 1 ≤ n.toNat && n.toNat ≤ Config.countMax

/-- The count check of S0 (R173). -/
def countsValid (c : Cmd) : Bool :=
  if isReadOp c.op then
    countValid c.args.rlen &&
      (!c.args.restart || (1 ≤ c.args.wlen.toNat && c.args.wlen.toNat ≤ Config.restartWrCap))
  else countValid c.args.wlen

/-- The caller's buffer of the transfer (R174). -/
def cmdBuf (c : Cmd) : Word := if isReadOp c.op then c.args.rbuf else c.args.wbuf

/-- The length of the transfer (R174). -/
def cmdLen (c : Cmd) : Word := if isReadOp c.op then c.args.rlen else c.args.wlen

/-- `TP.burst_cnt` at S1 (R190, R191; 0 for the DMA commands, R270). -/
def burstCount (p : Config.Params) (c : Cmd) : Nat :=
  match c.op with
  | .write =>
    if c.args.wlen.toNat ≤ Config.nonburstCap then 0
    else ceilDiv (c.args.wlen.toNat - Config.nonburstCap) Config.wrBurstBytes
  | .read => c.args.rlen.toNat / p.rdBurstBytes
  | .dmaWrite | .dmaRead => 0

/-- `TP.burst_rem` at S1 (R190, R191; 0 for the DMA commands, R270). -/
def burstRemainder (p : Config.Params) (c : Cmd) : Nat :=
  match c.op with
  | .read => c.args.rlen.toNat % p.rdBurstBytes
  | .write | .dmaWrite | .dmaRead => 0

/-! ### What the entry sequence programs (R177, R180) -/

/-- The restart flag as programmed: honoured only where a read phase follows (R103, R177). -/
def cmdRestart (c : Cmd) : Bool := isReadOp c.op && c.args.restart

/-- `WRCNT` (R177): the write length where a write phase exists, else 0. -/
def cmdWrCnt (c : Cmd) : BitVec 16 :=
  if isReadOp c.op && !c.args.restart then 0 else c.args.wlen.setWidth 16

/-- `RDCNT` (R177). -/
def cmdRdCnt (c : Cmd) : BitVec 16 := if isReadOp c.op then c.args.rlen.setWidth 16 else 0

/-- The interrupt enables of the chosen path (R180). -/
def cmdInten (c : Cmd) (burstCnt : BitVec 16) : BitVec 9 :=
  match c.op with
  | .write => if burstCnt = 0 then 0x047 else 0x05F
  | .read => if c.args.rlen.toNat ≤ Config.nonburstCap then 0x0C7 else 0x1C7
  | .dmaWrite => 0x046
  | .dmaRead => 0x0C6

/-- The ring position of a buffer offset (R75, R230). -/
def slotOfOffset (off : Nat) : Slot := Fin.ofNat 8 (off / 4)

end Sys2Proof.Machine
end

