-- ==== Sys2Proof/Machine/Admission.lean ====
section
/-! DEFINITION. Admission as one instance sees it: the checks of S0 and the set-up of S1 (spec/41_commands.md R171 to R174), and a
host that waits for its result (spec/44_environment.md R286). -/

namespace Sys2Proof.Machine

/-- What S0 answers for an instance that is there: busy before count (R172, R173); none where the command is admitted. -/
def admission (d : Device) (c : Cmd) : Option Result :=
  if d.tp.busy then some .busy
  else if !countsValid c then some .invalidCount
  else none

/-- `TP` at S1 (R174): all zero, then the new transaction's values. -/
def startTP (p : Config.Params) (c : Cmd) : TP :=
  { TP.zero with
    busy := true
    phase := phaseOf c.op
    dev := c.args.dev
    buf := cmdBuf c
    totalLen := (cmdLen c).setWidth 16
    burstCnt := BitVec.ofNat 16 (burstCount p c)
    burstRem := BitVec.ofNat 4 (burstRemainder p c) }

/-- S1 on an idle instance (R174): the snapshot, `SIG <- 0`, and the instance's copy of the descriptor. -/
def startTransaction (p : Config.Params) (host : Nat) (c : Cmd) (d : Device) : Device :=
  { d with
    tp := startTP p c
    sig := false
    cmdl := c
    caller := host
    seq := .s2 }

/-- A host that has issued a command waits until the result comes back: some instance is busy with its transaction (R286). -/
def waiting (h : Nat) (devs : List Device) : Bool := devs.any fun d => d.tp.busy && d.caller == h

end Sys2Proof.Machine
end

