-- ==== Sys2Proof/Machine/Flags.lean ====
section
/-! DEFINITION. Flag computations: the flag sets decoded from the status registers, the interrupt line and its latch, and
the two priority chains. -/

namespace Sys2Proof.Machine

/-- The seven flags of `M_STATUS[6:0]`; the overflow flag is kept (spec/42_irq_events.md R220 step I3, R221). -/
def irqOfStatus (st : BitVec 7) (f : IrqFlags) : IrqFlags where
  activeDone := st.getLsbD 0
  addrNack := st.getLsbD 1
  dataNack := st.getLsbD 2
  emptyThreshold := st.getLsbD 3
  fifoEmpty := st.getLsbD 4
  fifoFull := st.getLsbD 5
  sclHold := st.getLsbD 6
  rdOverflow := f.rdOverflow

/-- The six flags of `D_STATUS[5:0]` (R28, R220 step I7). -/
def dmaOfStatus (ds : BitVec 6) : DmaFlags where
  done := ds.getLsbD 0
  wcntErr := ds.getLsbD 1
  wbenErr := ds.getLsbD 2
  gdmaTimeout := ds.getLsbD 3
  ipTimeout := ds.getLsbD 4
  zeroLen := ds.getLsbD 5

/-! ### The interrupt line (spec/10_state.md R31) -/

/-- `slot_done(f, g)`: all flag bits of the burst slot whose first word-slot is `s`. -/
def slotDone (burst16 : Bool) (f : Byte) (s : Slot) : Bool :=
  f &&& slotMask (burstWords burst16) s == slotMask (burstWords burst16) s

/-- Some burst slot is complete: the aligned groups of `W` word-slots (R31). -/
def someSlotDone (burst16 : Bool) (f : Byte) : Bool :=
  if burst16 then slotDone true f 0 || slotDone true f 4
  else slots.any (slotDone false f)

/-- `IRQ_LEVEL` (R31). -/
def irqLevel (p : Config.Params) (d : Device) : Bool :=
  d.mb.status &&& d.mb.inten.setWidth 7 != 0
    || (d.mb.inten.getLsbD 7 && d.mb.ovf != 0)
    || (d.mb.inten.getLsbD 8 && someSlotDone p.burst16 d.mb.rdflag)
    || d.db.status &&& d.db.inten != 0

/-- `IRQ_PEND` after a change of the instance from `old` to `new` (R31, R220, R243): the latch is set while the line is
high outside a handler run, and by a rise of the line during one. DEDUCED, log 5. -/
def latch (p : Config.Params) (old new : Device) : Device :=
  { new with irqPend := new.irqPend || (irqLevel p new && (!irqLevel p old || !new.iepRun)) }

/-! ### The priority chains -/

/-- What a handler run acts on (R225, R232). -/
inductive Arm where
  /-- Nothing applies. -/
  | none
  /-- Write phases: success (R226). -/
  | done
  /-- NACK (R227, R233). -/
  | nack
  /-- Clock held too long (R228, R234). -/
  | sclHold
  /-- Write phases: FIFO emptied unexpectedly (R229). -/
  | fifoEmpty
  /-- Read phases: overflow (R235). -/
  | overflow
  /-- Phase `Write` with burst units left: refill (R230). -/
  | refill
  /-- Read phases without an error: drain, then finish (R236, R237). -/
  | deliver
deriving DecidableEq, Repr

/-- The write chain (R225). -/
def writeArm (tp : TP) : Arm :=
  if tp.irq.activeDone then .done
  else if tp.irq.addrNack || tp.irq.dataNack then .nack
  else if tp.irq.sclHold then .sclHold
  else if tp.irq.fifoEmpty then .fifoEmpty
  else if tp.burstCnt ≠ 0 ∧ tp.phase = .write then .refill
  else .none

/-- The read chain (R232). -/
def readArm (tp : TP) : Arm :=
  if tp.irq.addrNack || tp.irq.dataNack then .nack
  else if tp.irq.sclHold then .sclHold
  else if tp.irq.rdOverflow then .overflow
  else .deliver

/-- Dispatch on the phase, while `SIG = 0` (R224). -/
def dispatchArm (d : Device) : Arm :=
  if d.sig then .none
  else
    match d.tp.phase with
    | .idle => .none
    | .write | .dmaWrite => writeArm d.tp
    | .read | .dmaRead => readArm d.tp

/-- The two DMA phases (R106). -/
def Phase.isDma (p : Phase) : Bool := p == .dmaWrite || p == .dmaRead

/-- The write phases (R106). -/
def Phase.isWrite (p : Phase) : Bool := p == .write || p == .dmaWrite

/-- The read phases (R106). -/
def Phase.isRead (p : Phase) : Bool := p == .read || p == .dmaRead

end Sys2Proof.Machine
end

