-- ==== Sys2Proof/Machine/Memory.lean ====
section
/-! DEFINITION. Sparse byte memories in canonical form: cells by strictly rising address. Host memory and the scratch
buffer are both of this form (spec/20_memory.md R70). -/

namespace Sys2Proof.Machine

/-- The byte at an address, if one is listed. In host memory an unlisted byte is not allocated (log 7). -/
def cellRead : List Host.Cell → Nat → Option Byte
  | [], _ => none
  | (k, b) :: rest, a => if k = a then some b else cellRead rest a

/-- List a byte at an address, in place of the one there. -/
def cellWrite : List Host.Cell → Nat → Byte → List Host.Cell
  | [], a, b => [(a, b)]
  | (k, c) :: rest, a, b =>
    if a < k then (a, b) :: (k, c) :: rest
    else if a = k then (a, b) :: rest
    else (k, c) :: cellWrite rest a b

/-- Unlist an address. -/
def cellErase : List Host.Cell → Nat → List Host.Cell
  | [], _ => []
  | (k, c) :: rest, a => if k = a then cellErase rest a else (k, c) :: cellErase rest a

/-- Addresses strictly rise from `lo` on and stay below `hi`. -/
def cellsRise : Nat → Nat → List Host.Cell → Bool
  | _, _, [] => true
  | lo, hi, (k, _) :: rest => lo ≤ k && k < hi && cellsRise (k + 1) hi rest

/-- Host memory's canonical form: strictly rising 32-bit addresses. No entry equals what an unlisted address reads as,
since an unlisted address reads as nothing. -/
def Memory.wf (m : Memory) : Bool := cellsRise 0 (2 ^ 32) m

/-- The scratch buffer's canonical form: strictly rising indices below `SCRATCH_SIZE`. -/
def scratchWf (m : List Host.Cell) : Bool := cellsRise 0 Config.scratchSize m

/-- `MemWrite(addr, 1, b)` (spec/00_scope.md R6): none if the byte is not allocated (R78). -/
def memStore (m : Memory) (a : Nat) (b : Byte) : Option Memory :=
  match cellRead m a with
  | some _ => some (cellWrite m a b)
  | none => none

end Sys2Proof.Machine
end

