-- ==== Sys2Proof/Machine/Engines.lean ====
section
/-! DEFINITION. The moves of the environment agents (spec/44_environment.md): bus engine, DMA engine, timer, mapping oracle,
hosts; and their falling between two accesses of an instance's own agents. A move that is not enabled changes nothing: the agent
does not move (log 19). -/

namespace Sys2Proof.Machine

/-- Change the instance. -/
def Ctx.mapDev (f : Device → Device) (l : Ctx) : Ctx := { l with dev := f l.dev }

/-- Change the snapshot. -/
def Ctx.mapTP (f : TP → TP) (l : Ctx) : Ctx := l.mapDev fun d => { d with tp := f d.tp }

/-! ### The bus engine -/

/-- Read data arrive in word-slot `i`, whole or partial: the slot is overwritten, and its overflow bit is set if its completion
flag is still 1 (spec/10_state.md R40, spec/70_reset_and_hazards.md R349). -/
def deliverWord (i : Slot) (w : Word) (mb : MBlock) : MBlock :=
  { mb with
    data := mb.data.set i.val w i.isLt
    ovf := if mb.rdflag.getLsbD i.val then mb.ovf ||| (1#8 <<< i.val) else mb.ovf }

/-- The completion flag of word-slot `i` is set unless its clear strobe is held (R41, R42, R282). -/
def completeSlot (i : Slot) (mb : MBlock) : MBlock :=
  { mb with rdflag := mb.rdflag ||| ((1#8 <<< i.val) &&& ~~~mb.rdfclr) }

/-- The effect of a bus-engine move on the registers (R282, R40). `FILL` and `PARTIAL` belong to a read direction and both deliver
read data; `PARTIAL`, fewer than four fresh bytes, sets no completion flag. `TAKE` has no architectural effect. -/
def beEffect (m : BeMove) (mb : MBlock) : MBlock :=
  match m with
  | .set mask => { mb with status := mb.status ||| (mask &&& ~~~mb.stclr) }
  | .fill i w => if mb.ctrl.rw then completeSlot i (deliverWord i w mb) else mb
  | .partialFill i w => if mb.ctrl.rw then deliverWord i w mb else mb
  | .take _ => mb

/-- A bus-engine move: only while `BE_ACTIVE = 1` (R281, R282). -/
def beMove (p : Config.Params) (m : BeMove) (d : Device) : Device :=
  if d.beActive then latch p d { d with mb := beEffect m d.mb } else d

/-! ### The DMA engine -/

/-- Where a byte the DMA engine addresses lives. -/
inductive Target where
  | host (a : Nat)
  | scratch (i : Nat)
deriving DecidableEq, Repr

/-- Resolve the device address `D_ADDR + i` through the mapping record: device address `dev_addr + j` names host byte
`buf + j`, or scratch byte `j`, for `j` below the mapped length (spec/43_dma.md R261, R271, R283). DEDUCED, log 25. -/
def resolve (d : Device) (i : Nat) : Option Target :=
  let x := d.db.addr.toNat + i
  let base := d.map.devAddr.toNat
  if d.map.valid ∧ base ≤ x ∧ x - base < (cmdLen d.cmdl).toNat then
    if d.map.useScratch then
      if x - base < Config.scratchSize then some (.scratch (x - base)) else none
    else some (.host ((cmdBuf d.cmdl).toNat + (x - base)))
  else none

/-- The contents of the scratch buffer: free where nothing has written them (U7, log 10). -/
def scratchRead (l : Ctx) (i : Nat) : Byte :=
  (cellRead l.dev.scratch i).getD (Config.scratchByte l.id l.dev.epoch i)

/-- The DMA engine has touched a byte that is not allocated: it takes no further step (R78, U15). -/
def haltEngine (l : Ctx) : Ctx := l.mapDev fun d => { d with stuck := { d.stuck with de := true } }

/-- `DE.READ(i)`: the device sees the byte the address names as it stands (R80, R86, U15); observed (log 37). -/
def deRead (i : BitVec 16) (l : Ctx) : Ctx :=
  match resolve l.dev i.toNat with
  | some (.host a) =>
    match cellRead l.mem a with
    | some b => { l with trace := .fetched l.id i b :: l.trace }
    | none => haltEngine l
  | some (.scratch j) => { l with trace := .fetched l.id i (scratchRead l j) :: l.trace }
  | none => l

/-- `DE.WRITE(i, b)`: the byte is stored at once, and every agent sees it thereafter (R80, R86). -/
def deWrite (i : BitVec 16) (b : Byte) (l : Ctx) : Ctx :=
  match resolve l.dev i.toNat with
  | some (.host a) =>
    match memStore l.mem a b with
    | some mem => { l with mem := mem }
    | none => haltEngine l
  | some (.scratch j) => l.mapDev fun d => { d with scratch := cellWrite d.scratch j b }
  | none => l

/-- A DMA-engine move: only while `DE_ACTIVE = 1` (R283). `READ` belongs to direction 0 and `WRITE` to direction 1, each below
`D_LEN`. -/
def deMove (m : DeMove) (l : Ctx) : Ctx :=
  if l.dev.deActive && !l.dev.stuck.de then
    match m with
    | .set mask =>
      let db := { l.dev.db with status := l.dev.db.status ||| mask }
      { l with dev := latch l.params l.dev { l.dev with db := db } }
    | .read i => if !l.dev.db.dir && i.toNat < l.dev.db.len.toNat then deRead i l else l
    | .write i b => if l.dev.db.dir && i.toNat < l.dev.db.len.toNat then deWrite i b l else l
  else l

/-! ### The timer and the mapping oracle -/

/-- The sequencer can step: no handler run holds it (R8, R316), and it is not stuck (R78). -/
def seqEnabled (d : Device) : Bool := !d.iepRun && !d.stuck.seq

/-- S10 by wake, in one step with the observation of `SIG = 1` (spec/41_commands.md R183). -/
def wake (l : Ctx) : Ctx := l.mapDev fun d => { d with res := d.tp.result, seq := .s11 }

/-- S10 by timeout: the snapshot is not consulted (R184). -/
def expire (l : Ctx) : Ctx := l.mapDev fun d => { d with res := .timeout, seq := .s11 }

/-- `TMR.EXPIRE` (R284): enabled while the sequencer is in S9; the signal wins (R182, R315). -/
def timerExpire (l : Ctx) : Ctx :=
  if l.dev.seq = .s9 ∧ seqEnabled l.dev then
    if l.dev.sig then wake l else expire l
  else l

/-- The oracle's next answer (R285, log 11). -/
def answerMap (r : Option Word) (l : Ctx) : Ctx := l.mapDev fun d => { d with oracle := r }

/-! ### Other instances and hosts, seen from an instance in hand -/

/-- Every instance, in order. -/
def Ctx.devices (l : Ctx) : List Device := l.before ++ l.dev :: l.after

/-- Another instance. -/
def Ctx.peer? (k : Nat) (l : Ctx) : Option Device :=
  if k < l.id then l.before[k]? else l.after[k - l.id - 1]?

/-- Put another instance back. -/
def Ctx.setPeer (k : Nat) (v : Device) (l : Ctx) : Ctx :=
  if k < l.id then { l with before := l.before.set k v } else { l with after := l.after.set (k - l.id - 1) v }

/-- A move of an agent of another instance: it changes that instance, host memory and the trace. -/
def onPeer (k : Nat) (f : Ctx → Ctx) (l : Ctx) : Ctx :=
  match l.peer? k with
  | none => l
  | some v =>
    let r := f { l with id := k, dev := v }
    { l with mem := r.mem, trace := r.trace }.setPeer k r.dev

/-- A move of an environment agent of instance `k`. -/
def onAny (k : Nat) (f : Ctx → Ctx) (l : Ctx) : Ctx := if k = l.id then f l else onPeer k f l

/-- A result code goes back to host `h` (R300). -/
def answer (h : Nat) (c : Cmd) (r : Result) (l : Ctx) : Ctx :=
  { l with callCmd := c, host := h, trace := .returned h c.args.dev r :: l.trace }

/-- A command issued while an agent of the instance in hand is between two accesses (R286, R280). A waiting host issues none.
The instance in hand itself, while its own sequencer or handler is at work, only rejects: its S0 and S1 are steps of the
sequencer, which is not free to take them (R8). -/
def hostCommand (h : Nat) (c : Cmd) (l : Ctx) : Ctx :=
  let k := c.args.dev.toNat
  if waiting h l.devices then l
  else if k = l.id then if l.dev.tp.busy then answer h c .busy l else l
  else
    match l.peer? k with
    | none => answer h c .invalidDevice l
    | some v =>
      match admission v c with
      | some r => answer h c r l
      | none => { l with callCmd := c, host := h }.setPeer k (startTransaction l.params h c v)

/-! ### Between two accesses -/

/-- One move between two accesses (R80, R280). The instance's own timeout waits for the end of the sequencer's step or of
the handler run (R8). -/
def envMove (l : Ctx) (m : EnvMove) : Ctx :=
  match m with
  | .be k m => onAny k (fun l => l.mapDev (beMove l.params m)) l
  | .de k m => onAny k (deMove m) l
  | .expire k => if k = l.id then l else onPeer k timerExpire l
  | .mapAnswer k r => onAny k (answerMap r) l
  | .store a b => { l with mem := cellWrite l.mem a.toNat b }
  | .free a => { l with mem := cellErase l.mem a.toNat }
  | .command h c => hostCommand h c l

/-- What falls before the next access of the instance's own agents, to a register or to memory (R8, R80, log 4). -/
def pump (l : Ctx) : Ctx :=
  match l.dev.inter with
  | [] => l
  | moves :: rest => moves.foldl envMove (l.mapDev fun d => { d with inter := rest })

end Sys2Proof.Machine
end

