-- ==== Sys2Proof/Machine/Ops.lean ====
section
/-! DEFINITION. The shared operations of one instance's contexts: register accesses, host-memory accesses, the signal, and
the block's forms of taking an exception and returning from one (handler entry and return, the error procedure, the return of
a result code). -/

namespace Sys2Proof.Machine

/-! ### Outcomes -/

/-- Go on with `f` where an operation went on. -/
def andThen (r : Res) (f : Ctx → Res) : Res :=
  match r with
  | .next l => f l
  | .stuck l => .stuck l
  | .refused e => .refused e

/-! ### Register accesses (R6, R72, R73, R140) -/

/-- The controller reset (spec/40_register_ops.md R141): both register blocks zero, both engines stopped, nothing else. -/
def resetController (d : Device) : Device :=
  { d with mb := .zero, db := .zero, beActive := false, deActive := false }

/-- The effect of storing a word to a register (R33 to R49, R73). -/
def poke (r : Reg) (v : Word) (d : Device) : Device :=
  match r with
  | .mCtrl =>
    -- R33: RESET discards the other bits of the same write; TRIG starts the bus engine while AUTO = 0
    if v.getLsbD 0 then resetController d
    else
      { d with
        mb := { d.mb with ctrl := { rw := v.getLsbD 4, restart := v.getLsbD 5, auto := v.getLsbD 6 } }
        beActive := d.beActive || (v.getLsbD 1 && !d.mb.ctrl.auto) }
  | .mClk => { d with mb := { d.mb with clk := v.setWidth Config.divWidth } }
  | .mAddr => { d with mb := { d.mb with addr := v.setWidth Config.addrWidth } }
  | .mCnt => { d with mb := { d.mb with wrcnt := v.extractLsb' 0 16, rdcnt := v.extractLsb' 16 16 } }
  | .mInten => { d with mb := { d.mb with inten := v.setWidth 9 } }
  -- R39: while a strobe bit is 1 its status bit is held 0
  | .mStclr => { d with mb := { d.mb with stclr := v.setWidth 7, status := d.mb.status &&& ~~~(v.setWidth 7) } }
  | .mRdfclr => { d with mb := { d.mb with rdfclr := v.setWidth 8, rdflag := d.mb.rdflag &&& ~~~(v.setWidth 8) } }
  | .mData i => { d with mb := { d.mb with data := d.mb.data.set i.val v i.isLt } }
  -- R45: GO starts the DMA engine and, in auto mode, the bus engine
  | .dCtrl =>
    { d with
      db := { d.db with dir := v.getLsbD 1 }
      deActive := d.deActive || v.getLsbD 0
      beActive := d.beActive || (v.getLsbD 0 && d.mb.ctrl.auto) }
  | .dAddr => { d with db := { d.db with addr := v } }
  | .dLen => { d with db := { d.db with len := v.setWidth 16 } }
  -- R48: write-one-to-clear
  | .dStatus => { d with db := { d.db with status := d.db.status &&& ~~~(v.setWidth 6) } }
  | .dInten => { d with db := { d.db with inten := v.setWidth 6 } }
  -- read-only and reserved: writes are ignored (R44, R49, R73)
  | .mStatus | .mOvf | .mRdflag | .mReserved | .dReserved => d

/-- `RegRead` (R6, R73). -/
def regRead (r : Reg) (l : Ctx) : Word × Ctx := (peek r (pump l).dev, pump l)

/-- `RegWrite` (R6): the store, its side effects, and the interrupt latch; observed (R12). -/
def regWrite (r : Reg) (v : Word) (l : Ctx) : Ctx :=
  let l := pump l
  { l with dev := latch l.params l.dev (poke r v l.dev), trace := .wrote l.id r v :: l.trace }

/-- `rmw(B, off, mask, v)` (R140). -/
def rmw (r : Reg) (mask v : Word) (l : Ctx) : Ctx :=
  let (t, l) := regRead r l
  regWrite r ((t &&& ~~~mask) ||| (v &&& mask)) l

/-- `pulse(B, off, mask)`: write 1 then write 0 (R6, R152). -/
def pulse (r : Reg) (mask : Word) (l : Ctx) : Ctx := regWrite r 0 (regWrite r mask l)

/-! ### Host-memory accesses, byte by byte (R70, R78, R80) -/

/-- `MemRead(a, 1)`, and go on with the byte; the agent is stuck where it is not allocated (R78). -/
def readByte (a : Nat) (f : Byte → Ctx → Res) (l : Ctx) : Res :=
  match cellRead (pump l).mem a with
  | some b => f b (pump l)
  | none => .stuck (pump l)

/-- `MemWrite(a, 1, b)`; the agent is stuck where the byte is not allocated (R78). -/
def writeByte (a : Nat) (b : Byte) (l : Ctx) : Res :=
  match memStore (pump l).mem a b with
  | some mem => .next { pump l with mem := mem }
  | none => .stuck (pump l)

/-- Byte stores in ascending address order (R76). -/
def writeBytes : Nat → List Byte → Ctx → Res
  | _, [], l => .next l
  | a, b :: rest, l => andThen (writeByte a b l) (writeBytes (a + 1) rest)

/-- The byte of a buffer at an offset, 0 past its `total` bytes and then not read (R146, R230). -/
def padByte (base off total : Nat) (f : Byte → Ctx → Res) (l : Ctx) : Res :=
  if off < total then readByte (base + off) f l else f 0 l

/-- The four-byte unit of a buffer at an offset, zero-padded past its end (R146). -/
def loadWord (base off total : Nat) (f : Word → Ctx → Res) (l : Ctx) : Res :=
  padByte base off total (fun b0 =>
    padByte base (off + 1) total fun b1 =>
      padByte base (off + 2) total fun b2 =>
        padByte base (off + 3) total fun b3 => f (wordOf b0 b1 b2 b3)) l

/-- The sequencer reads a byte of the scratch buffer (R268). -/
def scratchGet (i : Nat) (l : Ctx) : Byte × Ctx := (scratchRead (pump l) i, pump l)

/-- The sequencer writes a byte of the scratch buffer (R262). -/
def scratchPut (i : Nat) (b : Byte) (l : Ctx) : Ctx :=
  (pump l).mapDev fun d => { d with scratch := cellWrite d.scratch i b }

/-! ### The signal and the error procedure -/

/-- `signal`: `SIG <- 1` (R30, R242). -/
def signal (d : Device) : Device := { d with sig := true }

/-- Mark success and signal (R226, R237, R240). -/
def succeed (l : Ctx) : Ctx := (l.mapTP fun tp => { tp with result := .success }).mapDev signal

/-- `terminate(E)` (spec/42_irq_events.md R231): map to the error, force active-done, signal, reset the controller. -/
def terminate (e : Result) (l : Ctx) : Ctx :=
  let l := l.mapTP fun tp => { tp with result := e, irq := { tp.irq with activeDone := true } }
  rmw .mCtrl 1 1 (l.mapDev signal)

/-! ### Handler entry and return (spec/60_exceptions.md R316, R317) -/

/-- A handler run may start when `IRQ_PEND = 1` and `IEP_RUN = 0` (R31, R220), and the handler is not stuck (R78). -/
def handlerEnabled (d : Device) : Bool := d.irqPend && !d.iepRun && !d.stuck.iep

/-- Entry, I0: `IRQ_PEND <- 0 ; IEP_RUN <- 1`. Nothing is saved and no stack is switched (R316). -/
def handlerEnter (l : Ctx) : Ctx := l.mapDev fun d => { d with irqPend := false, iepRun := true }

/-- Return, I9: `IEP_RUN <- 0`; a line that is still high is pending again (R243). -/
def handlerReturn (l : Ctx) : Ctx := { l with dev := latch l.params l.dev { l.dev with iepRun := false } }

/-! ### Instances of the machine (R20) -/

/-- Instance `d`, in state `v`, in the hand of one of its agents. -/
def State.ctx (s : State) (d : Nat) (v : Device) : Ctx where
  id := d
  params := s.params
  dev := v
  mem := s.mem
  trace := s.trace
  before := s.devs.take d
  after := s.devs.drop (d + 1)
  callCmd := s.callCmd
  host := s.host

/-- Put back what an instance's agents, and the moves between their accesses, changed. -/
def State.putCtx (s : State) (l : Ctx) : State :=
  { s with devs := l.devices, mem := l.mem, trace := l.trace, callCmd := l.callCmd, host := l.host }

/-- An agent of the block is stuck (R78, U15): it takes no further step. A stuck handler run never ends, so `IEP_RUN` stays 1 and
holds the sequencer (R8). -/
def halt (ag : Agent) (d : Device) : Device :=
  match ag with
  | .seq => { d with stuck := { d.stuck with seq := true } }
  | .iep => { d with stuck := { d.stuck with iep := true } }

/-- Run an operation of an agent of instance `d`. Instances share nothing but host memory (R20, R324). -/
def onInstance (ag : Agent) (d : Nat) (f : Ctx → Res) (s : State) : Host.Outcome State Fault Refusal :=
  match s.devs[d]? with
  | none => .refused .noInstance
  | some v =>
    match f (s.ctx d v) with
    | .next l => .next (s.putCtx l)
    | .stuck l => .next (s.putCtx (l.mapDev (halt ag)))
    | .refused e => .refused e

/-- Run an operation that touches no host memory of its own and cannot stop. -/
def onInstanceDo (d : Nat) (f : Ctx → Ctx) (s : State) : Host.Outcome State Fault Refusal :=
  onInstance .seq d (fun l => .next (f l)) s

/-- Return a result code to the calling host (R300): the return of a command, and of a rejected call. -/
def State.respond (s : State) (dev : BitVec 8) (r : Result) : State :=
  { s with trace := .returned s.host dev r :: s.trace }

end Sys2Proof.Machine
end

