-- ==== Sys2Proof/Machine/Control.lean ====
section
/-! DEFINITION. Register primitives that program the master block: control, clock, address, mode, counts, enables, trigger
(spec/40_register_ops.md section 2). Each has its operation on an instance, used by the sequencer and the handler, and its meaning
as an instruction of the instance in hand. -/

namespace Sys2Proof.Machine

/-- `CTRL_RESET` (R141). -/
def ctrlReset (l : Ctx) : Ctx := rmw .mCtrl 0x00000001 0x00000001 l

/-- `CLKDIV_SET(freq)` (R142). -/
def clkdivSet (freq : Word) (l : Ctx) : Ctx :=
  rmw .mClk (BitVec.ofNat 32 Config.divMax) (BitVec.ofNat 32 (divOf l.params.srcFreqKhz freq.toNat)) l

/-- `ADDR_SET(addr)` (R143). -/
def addrSet (addr : BitVec Config.addrWidth) (l : Ctx) : Ctx := rmw .mAddr 0x0000007F (addr.setWidth 32) l

/-- `MODE_SET(rw, restart, auto)` under the mask it is issued with (R144). -/
def modeSet (m : ModeMask) (rw restart auto : Bool) (l : Ctx) : Ctx :=
  rmw .mCtrl m.bits (modeOperand rw restart auto) l

/-- `CNT_SET(wr, rd)`: one full-register write (R145). -/
def cntSet (wr rd : BitVec 16) (l : Ctx) : Ctx := regWrite .mCnt (rd ++ wr) l

/-- `INTEN_SET(mask)` (R149). -/
def intenSet (mask : BitVec 9) (l : Ctx) : Ctx := rmw .mInten (mask.setWidth 32) (mask.setWidth 32) l

/-- `INTEN_CLR(mask)` (R150). -/
def intenClr (mask : BitVec 9) (l : Ctx) : Ctx := rmw .mInten (mask.setWidth 32) 0 l

/-- `TRIGGER` (R156). -/
def trigger (l : Ctx) : Ctx := rmw .mCtrl 0x00000002 0x00000002 l

/-- `RESTART = 1` with `RW = 0` is never programmed and is refused (R144, U14). -/
def modeAllowed (m : ModeMask) (rw restart : Bool) : Bool := m == .auto || rw || !restart

/-- Meaning of `CTRL_RESET` (R141). -/
def execCtrlReset (s : State) : Host.Outcome State Fault Refusal := onInstanceDo s.cur ctrlReset s

/-- Meaning of `CLKDIV_SET` (R142). -/
def execClkdivSet (freq : Word) (s : State) : Host.Outcome State Fault Refusal := onInstanceDo s.cur (clkdivSet freq) s

/-- Meaning of `ADDR_SET` (R143). -/
def execAddrSet (addr : BitVec Config.addrWidth) (s : State) : Host.Outcome State Fault Refusal :=
  onInstanceDo s.cur (addrSet addr) s

/-- Meaning of `MODE_SET` (R144). -/
def execModeSet (m : ModeMask) (rw restart auto : Bool) (s : State) : Host.Outcome State Fault Refusal :=
  if modeAllowed m rw restart then onInstanceDo s.cur (modeSet m rw restart auto) s
  else .refused .restartWithoutRead

/-- Meaning of `CNT_SET` (R145). -/
def execCntSet (wr rd : BitVec 16) (s : State) : Host.Outcome State Fault Refusal := onInstanceDo s.cur (cntSet wr rd) s

/-- Meaning of `INTEN_SET` (R149). -/
def execIntenSet (mask : BitVec 9) (s : State) : Host.Outcome State Fault Refusal := onInstanceDo s.cur (intenSet mask) s

/-- Meaning of `INTEN_CLR` (R150). -/
def execIntenClr (mask : BitVec 9) (s : State) : Host.Outcome State Fault Refusal := onInstanceDo s.cur (intenClr mask) s

/-- Meaning of `TRIGGER` (R156). -/
def execTrigger (s : State) : Host.Outcome State Fault Refusal := onInstanceDo s.cur trigger s

end Sys2Proof.Machine
end

