-- ==== Sys2Proof/Machine/DataRegs.lean ====
section
/-! DEFINITION. Register primitives over the eight data word-slots (spec/40_register_ops.md R146 to R148). -/

namespace Sys2Proof.Machine

/-- `DATA_PUT(slot, w)` (R147). -/
def dataPut (slot : Slot) (w : Word) (l : Ctx) : Ctx := regWrite (.mData slot) w l

/-- `DATA_GET(slot)` (R148). -/
def dataGet (slot : Slot) (l : Ctx) : Word × Ctx := regRead (.mData slot) l

/-- The loop of `DATA_LOAD32` from word-slot `i` on, `k` slots to go (R146). -/
def loadSlots (src n : Nat) : Nat → Nat → Ctx → Res
  | _, 0, l => .next l
  | i, k + 1, l =>
    loadWord src (4 * i) n (fun w l => loadSlots src n (i + 1) k (dataPut (Fin.ofNat 8 i) w l)) l

/-- `DATA_LOAD32(src, n)`: all eight slots are written, bytes past `n` are 0 and not read (R146). -/
def dataLoad32 (src n : Nat) (l : Ctx) : Res := loadSlots src n 0 Config.nSlots l

/-- Leave the value a read primitive returns with the issuing context (log 17). -/
def returning (r : Word × Ctx) : Ctx := r.2.mapDev fun d => { d with ret := r.1 }

/-- Meaning of `DATA_LOAD32` (R146). -/
def execDataLoad32 (src : Word) (n : BitVec 6) (s : State) : Host.Outcome State Fault Refusal :=
  onInstance .seq s.cur (dataLoad32 src.toNat n.toNat) s

/-- Meaning of `DATA_PUT` (R147). -/
def execDataPut (slot : Slot) (w : Word) (s : State) : Host.Outcome State Fault Refusal :=
  onInstanceDo s.cur (dataPut slot w) s

/-- Meaning of `DATA_GET` (R148). -/
def execDataGet (slot : Slot) (s : State) : Host.Outcome State Fault Refusal :=
  onInstanceDo s.cur (fun l => returning (dataGet slot l)) s

end Sys2Proof.Machine
end

