-- ==== Sys2Proof/Machine/StatusRegs.lean ====
section
/-! DEFINITION. Register primitives over the status registers: main status, overflow word, completion flags
(spec/40_register_ops.md R151 to R155). -/

namespace Sys2Proof.Machine

/-- `STATUS_GET` (R151): the raw status, whatever is enabled. -/
def statusGet (l : Ctx) : BitVec 7 × Ctx :=
  let (v, l) := regRead .mStatus l
  (v.setWidth 7, l)

/-- `STATUS_CLEAR(mask)` (R152). -/
def statusClear (mask : BitVec 7) (l : Ctx) : Ctx := pulse .mStclr (mask.setWidth 32) l

/-- `OVF_GET` (R153). -/
def ovfGet (l : Ctx) : Word × Ctx := regRead .mOvf l

/-- `RDFLAG_GET` (R154). -/
def rdflagGet (l : Ctx) : Byte × Ctx :=
  let (v, l) := regRead .mRdflag l
  (v.setWidth 8, l)

/-- `RDFLAG_CLEAR(mask)` (R155). -/
def rdflagClear (mask : Byte) (l : Ctx) : Ctx := pulse .mRdfclr (mask.setWidth 32) l

/-- Meaning of `STATUS_GET` (R151). -/
def execStatusGet (s : State) : Host.Outcome State Fault Refusal :=
  onInstanceDo s.cur (fun l => returning ((statusGet l).1.setWidth 32, (statusGet l).2)) s

/-- Meaning of `STATUS_CLEAR` (R152). -/
def execStatusClear (mask : BitVec 7) (s : State) : Host.Outcome State Fault Refusal :=
  onInstanceDo s.cur (statusClear mask) s

/-- Meaning of `OVF_GET` (R153). -/
def execOvfGet (s : State) : Host.Outcome State Fault Refusal := onInstanceDo s.cur (fun l => returning (ovfGet l)) s

/-- Meaning of `RDFLAG_GET` (R154). -/
def execRdflagGet (s : State) : Host.Outcome State Fault Refusal :=
  onInstanceDo s.cur (fun l => returning ((rdflagGet l).1.setWidth 32, (rdflagGet l).2)) s

/-- Meaning of `RDFLAG_CLEAR` (R155). -/
def execRdflagClear (mask : BitVec 8) (s : State) : Host.Outcome State Fault Refusal :=
  onInstanceDo s.cur (rdflagClear mask) s

end Sys2Proof.Machine
end

