-- ==== Sys2Proof/Machine/DmaRegs.lean ====
section
/-! DEFINITION. Register primitives over the DMA block (spec/40_register_ops.md R157 to R162). -/

namespace Sys2Proof.Machine

/-- `DMA_ADDR_SET(a)` (R157). -/
def dmaAddrSet (a : Word) (l : Ctx) : Ctx := regWrite .dAddr a l

/-- `DMA_LEN_SET(n)` (R158). -/
def dmaLenSet (n : BitVec 16) (l : Ctx) : Ctx := rmw .dLen 0x0000FFFF (n.setWidth 32) l

/-- `DMA_DIR_SET(dir)` (R159). -/
def dmaDirSet (dir : Bool) (l : Ctx) : Ctx := rmw .dCtrl 0x00000002 (0#30 ++ BitVec.ofBool dir ++ 0#1) l

/-- `DMA_INTEN_SET(mask)` (R160). -/
def dmaIntenSet (mask : BitVec 6) (l : Ctx) : Ctx := rmw .dInten (mask.setWidth 32) (mask.setWidth 32) l

/-- `DMA_GO` (R161); a direction that disagrees with the master's is refused (R264). -/
def dmaGo (l : Ctx) : Res :=
  if l.dev.db.dir = l.dev.mb.ctrl.rw then .next (rmw .dCtrl 0x00000001 0x00000001 l)
  else .refused .directionMismatch

/-- `DMA_STATUS_GETCLR` (R162): only the bits read as 1 are cleared. -/
def dmaStatusGetclr (l : Ctx) : BitVec 6 × Ctx :=
  let (v, l) := regRead .dStatus l
  let s : BitVec 6 := v.setWidth 6
  (s, regWrite .dStatus (s.setWidth 32) l)

/-- Meaning of `DMA_ADDR_SET` (R157). -/
def execDmaAddrSet (a : Word) (s : State) : Host.Outcome State Fault Refusal := onInstanceDo s.cur (dmaAddrSet a) s

/-- Meaning of `DMA_LEN_SET` (R158). -/
def execDmaLenSet (n : BitVec 16) (s : State) : Host.Outcome State Fault Refusal := onInstanceDo s.cur (dmaLenSet n) s

/-- Meaning of `DMA_DIR_SET` (R159). -/
def execDmaDirSet (dir : Bool) (s : State) : Host.Outcome State Fault Refusal := onInstanceDo s.cur (dmaDirSet dir) s

/-- Meaning of `DMA_INTEN_SET` (R160). -/
def execDmaIntenSet (mask : BitVec 6) (s : State) : Host.Outcome State Fault Refusal :=
  onInstanceDo s.cur (dmaIntenSet mask) s

/-- Meaning of `DMA_GO` (R161). -/
def execDmaGo (s : State) : Host.Outcome State Fault Refusal := onInstance .seq s.cur dmaGo s

/-- Meaning of `DMA_STATUS_GETCLR` (R162). -/
def execDmaStatusGetclr (s : State) : Host.Outcome State Fault Refusal :=
  onInstanceDo s.cur (fun l => returning ((dmaStatusGetclr l).1.setWidth 32, (dmaStatusGetclr l).2)) s

end Sys2Proof.Machine
end

