-- ==== Sys2Proof/Machine/Events.lean ====
section
/-! DEFINITION. The events (spec/42_irq_events.md). An event records its flag in the snapshot and then takes its rule's action
where the dispatch chains let it (R224, R225, R232, R240). DEDUCED, log 16. -/

namespace Sys2Proof.Machine

/-- Record in `TP.irq`. -/
def setIrq (f : IrqFlags → IrqFlags) (l : Ctx) : Ctx := l.mapTP fun tp => { tp with irq := f tp.irq }

/-- Record in `TP.dma`. -/
def setDma (f : DmaFlags → DmaFlags) (l : Ctx) : Ctx := l.mapTP fun tp => { tp with dma := f tp.dma }

/-! ### The refill (R230) -/

/-- The next byte of the write buffer, 0 past its end; `data_off` grows by 1. -/
def nextByte (f : Byte → Ctx → Res) (l : Ctx) : Res :=
  padByte l.dev.tp.buf.toNat l.dev.tp.dataOff.toNat l.dev.tp.totalLen.toNat
    (fun b l => f b (l.mapTP fun tp => { tp with dataOff := tp.dataOff + 1 })) l

/-- The next four bytes of the write buffer as a word. -/
def nextWord (f : Word → Ctx → Res) (l : Ctx) : Res :=
  nextByte (fun b0 => nextByte fun b1 => nextByte fun b2 => nextByte fun b3 => f (wordOf b0 b1 b2 b3)) l

/-- One unit: the zero-padded word at `TP.data_off` goes to its ring slot; `data_off` grows by 4, `burst_cnt` drops by 1.
The last unit disables `EMPTY_THRESHOLD` and `FIFO_EMPTY` and ends the loop. `k` units may still go in this run. -/
def refillUnits : Nat → Ctx → Res
  | 0, l => .next l
  | k + 1, l =>
    let slot := slotOfOffset l.dev.tp.dataOff.toNat
    nextWord (fun w l =>
      let l := (dataPut slot w l).mapTP fun tp => { tp with burstCnt := tp.burstCnt - 1 }
      if l.dev.tp.burstCnt = 0 then .next (intenClr 0x18 l) else refillUnits k l) l

/-- The refill of `EV_EMPTY_THRESHOLD`: up to `REFILL_UNITS` units, then the threshold flag is cleared. -/
def refill (l : Ctx) : Res := andThen (refillUnits Config.refillUnits l) fun l => .next (statusClear 0x08 l)

/-! ### The burst drain (R236) -/

/-- `n` word-slots from `s` on into the buffer at `TP.data_off`. -/
def drainWords : Nat → Slot → Ctx → Res
  | 0, _, l => .next l
  | n + 1, s, l =>
    let (w, l) := dataGet s l
    andThen (writeBytes (l.dev.tp.buf.toNat + l.dev.tp.dataOff.toNat) (wordBytes w) l) fun l =>
      drainWords n (s + 1) (l.mapTP fun tp => { tp with dataOff := tp.dataOff + 4 })

/-- The loop over burst slots from the cursor, with the flags `f` sampled once. Each turn removes its slot's bits from `f`, so
eight turns are enough. -/
def drainSlots : Nat → Byte → Ctx → Res
  | 0, _, l => .next l
  | k + 1, f, l =>
    let w := burstWords l.params.burst16
    let s := l.dev.tp.regIdx
    let m := slotMask w s
    if l.dev.tp.burstCnt = 0 ∨ f &&& m ≠ m then .next l
    else
      andThen (drainWords w s l) fun l =>
        drainSlots k (f &&& ~~~m)
          ((rdflagClear m l).mapTP fun tp =>
            { tp with regIdx := s + Fin.ofNat 8 w, burstCnt := tp.burstCnt - 1 })

/-- The burst drain of `EV_BURST_SLOT`. -/
def burstDrain (l : Ctx) : Res :=
  let (f, l) := rdflagGet l
  drainSlots 8 f l

/-! ### The finish (R237) -/

/-- The bytes of `n` word-slots from `s` on: the handler's temporary. -/
def gatherWords : Nat → Slot → Ctx → List Byte × Ctx
  | 0, _, l => ([], l)
  | n + 1, s, l =>
    let (w, l) := dataGet s l
    let (rest, l) := gatherWords n (s + 1) l
    (wordBytes w ++ rest, l)

/-- Deliver the remainder, mark success and signal. -/
def finishRead (l : Ctx) : Res :=
  let n := l.dev.tp.burstRem.toNat
  if n = 0 then .next (succeed l)
  else
    let (tmp, l) := gatherWords (ceilDiv n 4) l.dev.tp.regIdx l
    andThen (writeBytes (l.dev.tp.buf.toNat + l.dev.tp.dataOff.toNat) (tmp.take n) l) fun l =>
      .next (succeed (l.mapTP fun tp => { tp with dataOff := tp.dataOff + BitVec.ofNat 32 n }))

/-! ### The events -/

/-- `EV_ACTIVE_DONE`: success in a write phase (R226), the finish in a read phase (R237). -/
def evActiveDone (l : Ctx) : Res :=
  let l := setIrq (fun f => { f with activeDone := true }) l
  match dispatchArm l.dev with
  | .done => .next (succeed l)
  | .deliver => finishRead l
  | _ => .next l

/-- The NACK arms of both chains (R227, R233). -/
def nackAct (l : Ctx) : Ctx :=
  match dispatchArm l.dev with
  | .nack => terminate .remoteNack l
  | _ => l

/-- `EV_ADDR_NACK` (R227, R233). -/
def evAddrNack (l : Ctx) : Ctx := nackAct (setIrq (fun f => { f with addrNack := true }) l)

/-- `EV_DATA_NACK` (R227, R233). -/
def evDataNack (l : Ctx) : Ctx := nackAct (setIrq (fun f => { f with dataNack := true }) l)

/-- `EV_EMPTY_THRESHOLD` (R230). -/
def evEmptyThreshold (l : Ctx) : Res :=
  let l := setIrq (fun f => { f with emptyThreshold := true }) l
  match dispatchArm l.dev with
  | .refill => refill l
  | _ => .next l

/-- `EV_FIFO_EMPTY` (R229). -/
def evFifoEmpty (l : Ctx) : Ctx :=
  let l := setIrq (fun f => { f with fifoEmpty := true }) l
  match dispatchArm l.dev with
  | .fifoEmpty => terminate .fifoEmpty l
  | _ => l

/-- `EV_FIFO_FULL`: recorded only (R238). -/
def evFifoFull (l : Ctx) : Ctx := setIrq (fun f => { f with fifoFull := true }) l

/-- `EV_SCL_HOLD` (R228, R234). -/
def evSclHold (l : Ctx) : Ctx :=
  let l := setIrq (fun f => { f with sclHold := true }) l
  match dispatchArm l.dev with
  | .sclHold => terminate .clockHeldTooLong l
  | _ => l

/-- `EV_RD_OVERFLOW` (R235). -/
def evRdOverflow (l : Ctx) : Ctx :=
  let l := setIrq (fun f => { f with rdOverflow := true }) l
  match dispatchArm l.dev with
  | .overflow => terminate .readOverflow l
  | _ => l

/-- `EV_BURST_SLOT` (R236): no flag of its own. -/
def evBurstSlot (l : Ctx) : Res :=
  match dispatchArm l.dev with
  | .deliver => if l.dev.tp.burstCnt ≠ 0 ∧ l.dev.tp.phase = .read then burstDrain l else .next l
  | _ => .next l

/-- `EV_DMA_DONE` (R240, R220 step I8). -/
def evDmaDone (l : Ctx) : Ctx :=
  let l := setDma (fun f => { f with done := true }) l
  if !l.dev.sig && l.dev.tp.phase.isDma then succeed l else l

/-- `EV_DMA_WCNT_ERR`: captured only (R241). -/
def evDmaWcntErr (l : Ctx) : Ctx := setDma (fun f => { f with wcntErr := true }) l

/-- `EV_DMA_WBEN_ERR`: captured only (R241). -/
def evDmaWbenErr (l : Ctx) : Ctx := setDma (fun f => { f with wbenErr := true }) l

/-- `EV_DMA_GDMA_TIMEOUT`: captured only (R241). -/
def evDmaGdmaTimeout (l : Ctx) : Ctx := setDma (fun f => { f with gdmaTimeout := true }) l

/-- `EV_DMA_IP_TIMEOUT`: captured only (R241). -/
def evDmaIpTimeout (l : Ctx) : Ctx := setDma (fun f => { f with ipTimeout := true }) l

/-- `EV_DMA_ZERO_LEN`: captured only (R241). -/
def evDmaZeroLen (l : Ctx) : Ctx := setDma (fun f => { f with zeroLen := true }) l

/-! ### Meanings: the event of the instance in hand -/

/-- Meaning of `EV_ACTIVE_DONE` (R226, R237). -/
def execEvActiveDone (s : State) : Host.Outcome State Fault Refusal := onInstance .iep s.cur evActiveDone s

/-- Meaning of `EV_ADDR_NACK` (R227, R233). -/
def execEvAddrNack (s : State) : Host.Outcome State Fault Refusal := onInstanceDo s.cur evAddrNack s

/-- Meaning of `EV_DATA_NACK` (R227, R233). -/
def execEvDataNack (s : State) : Host.Outcome State Fault Refusal := onInstanceDo s.cur evDataNack s

/-- Meaning of `EV_EMPTY_THRESHOLD` (R230). -/
def execEvEmptyThreshold (s : State) : Host.Outcome State Fault Refusal := onInstance .iep s.cur evEmptyThreshold s

/-- Meaning of `EV_FIFO_EMPTY` (R229). -/
def execEvFifoEmpty (s : State) : Host.Outcome State Fault Refusal := onInstanceDo s.cur evFifoEmpty s

/-- Meaning of `EV_FIFO_FULL` (R238). -/
def execEvFifoFull (s : State) : Host.Outcome State Fault Refusal := onInstanceDo s.cur evFifoFull s

/-- Meaning of `EV_SCL_HOLD` (R228, R234). -/
def execEvSclHold (s : State) : Host.Outcome State Fault Refusal := onInstanceDo s.cur evSclHold s

/-- Meaning of `EV_RD_OVERFLOW` (R235). -/
def execEvRdOverflow (s : State) : Host.Outcome State Fault Refusal := onInstanceDo s.cur evRdOverflow s

/-- Meaning of `EV_BURST_SLOT` (R236). -/
def execEvBurstSlot (s : State) : Host.Outcome State Fault Refusal := onInstance .iep s.cur evBurstSlot s

/-- Meaning of `EV_DMA_DONE` (R240). -/
def execEvDmaDone (s : State) : Host.Outcome State Fault Refusal := onInstanceDo s.cur evDmaDone s

/-- Meaning of `EV_DMA_WCNT_ERR` (R241). -/
def execEvDmaWcntErr (s : State) : Host.Outcome State Fault Refusal := onInstanceDo s.cur evDmaWcntErr s

/-- Meaning of `EV_DMA_WBEN_ERR` (R241). -/
def execEvDmaWbenErr (s : State) : Host.Outcome State Fault Refusal := onInstanceDo s.cur evDmaWbenErr s

/-- Meaning of `EV_DMA_GDMA_TIMEOUT` (R241). -/
def execEvDmaGdmaTimeout (s : State) : Host.Outcome State Fault Refusal := onInstanceDo s.cur evDmaGdmaTimeout s

/-- Meaning of `EV_DMA_IP_TIMEOUT` (R241). -/
def execEvDmaIpTimeout (s : State) : Host.Outcome State Fault Refusal := onInstanceDo s.cur evDmaIpTimeout s

/-- Meaning of `EV_DMA_ZERO_LEN` (R241). -/
def execEvDmaZeroLen (s : State) : Host.Outcome State Fault Refusal := onInstanceDo s.cur evDmaZeroLen s

end Sys2Proof.Machine
end

