-- ==== Sys2Proof/Machine/Handler.lean ====
section
/-! DEFINITION. One run of the interrupt event processor, I0 to I9 (spec/42_irq_events.md R220). The run is one step of the model;
moves of the environment may fall between its accesses (R8, log 4). -/

namespace Sys2Proof.Machine

/-- I0 to I4: entry; read and clear the main status; decode the eight flags (R221, R222). -/
def handlerStatus (l : Ctx) : Ctx :=
  let l := handlerEnter l
  let (st, l) := statusGet l
  let l := setIrq (irqOfStatus st) (statusClear 0x7F l)
  let (ov, l) := ovfGet l
  setIrq (fun f => { f with rdOverflow := ov != 0 }) l

/-- I5: the priority chain selects the events to act on (R224, R225, R232, R114). -/
def dispatch (l : Ctx) : Res :=
  match dispatchArm l.dev with
  | .none => .next l
  | .done => evActiveDone l
  | .nack => .next (if l.dev.tp.irq.addrNack then evAddrNack l else evDataNack l)
  | .sclHold => .next (evSclHold l)
  | .fifoEmpty => .next (evFifoEmpty l)
  | .overflow => .next (evRdOverflow l)
  | .refill => if l.dev.tp.irq.emptyThreshold then evEmptyThreshold l else .next l
  | .deliver =>
    andThen (evBurstSlot l) fun l => if l.dev.tp.irq.activeDone then evActiveDone l else .next l

/-- I6 to I9: read and clear the DMA status, decode its flags, the bare done flag, return (R239, R240). -/
def handlerDma (l : Ctx) : Ctx :=
  let (ds, l) := dmaStatusGetclr l
  let l := setDma (fun _ => dmaOfStatus ds) l
  handlerReturn (if l.dev.tp.dma.done then evDmaDone l else l)

/-- One handler run (R220). -/
def handlerRun (l : Ctx) : Res := andThen (dispatch (handlerStatus l)) fun l => .next (handlerDma l)

/-- A handler run starts only when one is pending and none is in progress (R31). -/
def irqMove (l : Ctx) : Res := if handlerEnabled l.dev then handlerRun l else .next l

end Sys2Proof.Machine
end

