-- ==== Sys2Proof/Machine/Commands.lean ====
section
/-! DEFINITION. The four commands as the host issues them: S0, admission and validation, and S1, snapshot set-up, one atomic
step (spec/41_commands.md R170 to R174, spec/20_memory.md R84). The sequencer runs the rest, S2 to S11. -/

namespace Sys2Proof.Machine

/-- S0 and S1 of a command. The checks stand in the order device, busy, count (R171 to R173, R315); a rejected call writes
only the calling context's `CMDL` and returns its code (R193). -/
def issue (op : Op) (a : Args) (s : State) : State :=
  let c : Cmd := { op := op, args := a }
  let s := { s with callCmd := c }
  match s.devs[a.dev.toNat]? with
  | none => s.respond a.dev .invalidDevice
  | some d =>
    match admission d c with
    | some r => s.respond a.dev r
    | none => { s with devs := s.devs.set a.dev.toNat (startTransaction s.params s.host c d) }

/-- Meaning of `READ` (R187). -/
def execRead (a : Args) (s : State) : Host.Outcome State Fault Refusal := .next (issue .read a s)

/-- Meaning of `WRITE` (R186). -/
def execWrite (a : Args) (s : State) : Host.Outcome State Fault Refusal := .next (issue .write a s)

/-- Meaning of `DMA_READ` (R189). -/
def execDmaRead (a : Args) (s : State) : Host.Outcome State Fault Refusal := .next (issue .dmaRead a s)

/-- Meaning of `DMA_WRITE` (R188). -/
def execDmaWrite (a : Args) (s : State) : Host.Outcome State Fault Refusal := .next (issue .dmaWrite a s)

end Sys2Proof.Machine
end

