-- ==== Sys2Proof/Machine/Sequencer.lean ====
section
/-! DEFINITION. The sequencer's steps S2 to S11 (spec/41_commands.md) with the DMA coordinator's part of S5 and S11
(spec/43_dma.md). S0 and S1 are in Admission and Commands; S10 is in Engines. -/

namespace Sys2Proof.Machine

/-- Advance the step register (R26). -/
def goto (q : SeqStep) (l : Ctx) : Ctx := l.mapDev fun d => { d with seq := q }

/-! ### S5, data staging (R178) -/

/-- Case (b): the restart-mode pre-load of a read (R178). -/
def restartLoad (l : Ctx) : Res :=
  if cmdRestart l.dev.cmdl then dataLoad32 l.dev.cmdl.args.wbuf.toNat l.dev.cmdl.args.wlen.toNat l else .next l

/-- Case (a): the first 32 bytes of a plain write (R178). -/
def writeLoad (l : Ctx) : Res :=
  let n := min l.dev.cmdl.args.wlen.toNat Config.nonburstCap
  andThen (dataLoad32 l.dev.cmdl.args.wbuf.toNat n l) fun l =>
    .next (l.mapTP fun tp => { tp with dataOff := BitVec.ofNat 32 n })

/-- Map the caller's buffer: the oracle's answer selects the buffer or the scratch buffer (R261). -/
def dmaMap (l : Ctx) : Ctx :=
  let c := l.dev.cmdl
  let map : MapRec :=
    match l.dev.oracle with
    | some a => { useScratch := false, devAddr := a, valid := true }
    | none => { useScratch := true, devAddr := l.dev.handle.scratchDev, valid := true }
  { l with
    dev := { l.dev with map := map }
    trace := .mapped l.id (cmdBuf c) (cmdLen c) (isReadOp c.op) l.dev.oracle :: l.trace }

/-- Copy `n` bytes from host memory at `src` into the scratch buffer, from index `i` on (R262). -/
def copyBytesIn (src : Nat) : Nat → Nat → Ctx → Res
  | _, 0, l => .next l
  | i, n + 1, l => readByte (src + i) (fun b l => copyBytesIn src (i + 1) n (scratchPut i b l)) l

/-- The scratch fallback's copy-in (R262). -/
def copyIn (l : Ctx) : Res :=
  let a := l.dev.cmdl.args
  if l.dev.map.useScratch ∧ l.dev.cmdl.op = .dmaWrite then copyBytesIn a.wbuf.toNat 0 a.wlen.toNat l else .next l

/-- Program address, length and direction, in this order (R263, R264). -/
def dmaProgram (l : Ctx) : Ctx :=
  let c := l.dev.cmdl
  dmaDirSet (isReadOp c.op) (dmaLenSet ((cmdLen c).setWidth 16) (dmaAddrSet l.dev.map.devAddr l))

/-- S5 (R178). -/
def stage (l : Ctx) : Res :=
  match l.dev.cmdl.op with
  | .write => writeLoad l
  | .read => restartLoad l
  | .dmaRead | .dmaWrite =>
    andThen (restartLoad l) fun l => andThen (copyIn (dmaMap l)) fun l => .next (dmaProgram l)

/-! ### S11, exit (R185, R268) -/

/-- Copy `n` bytes of the scratch buffer, from index `i` on, to host memory at `dst` (R268). -/
def copyBytesOut (dst : Nat) : Nat → Nat → Ctx → Res
  | _, 0, l => .next l
  | i, n + 1, l =>
    let (b, l) := scratchGet i l
    andThen (writeByte (dst + i) b l) (copyBytesOut dst (i + 1) n)

/-- The DMA finish (R268): copy-out only on success through the scratch buffer, unmap on every mapped path. The scratch
contents are unspecified afterwards (R262): a new epoch begins (log 10). -/
def dmaFinish (l : Ctx) : Res :=
  let c := l.dev.cmdl
  let copied :=
    if c.op = .dmaRead ∧ l.dev.map.useScratch ∧ l.dev.res = .success then
      copyBytesOut c.args.rbuf.toNat 0 c.args.rlen.toNat l
    else .next l
  andThen copied fun l =>
    .next { l with
      dev := { l.dev with map := { l.dev.map with valid := false }, scratch := [], epoch := l.dev.epoch + 1 }
      trace :=
        if l.dev.map.useScratch then l.trace
        else .unmapped l.id (cmdBuf c) (cmdLen c) (isReadOp c.op) :: l.trace }

/-- The end of S11: busy is cleared last, and the result returned to the host (R185). -/
def leave (l : Ctx) : Ctx :=
  let l := l.mapDev fun d => { d with tp := { d.tp with busy := false }, seq := .sidle }
  { l with trace := .returned l.dev.caller l.dev.cmdl.args.dev l.dev.res :: l.trace }

/-- S11 (R185): phase first, busy last. -/
def exitTransaction (l : Ctx) : Res :=
  let l := ctrlReset (l.mapTP fun tp => { tp with phase := .idle })
  andThen (if isDmaOp l.dev.cmdl.op then dmaFinish l else .next l) fun l => .next (leave l)

/-! ### The steps -/

/-- S7 (R180). -/
def arm (l : Ctx) : Ctx :=
  let c := l.dev.cmdl
  let l := intenSet (cmdInten c l.dev.tp.burstCnt) l
  if isDmaOp c.op then dmaIntenSet 0x01 l else l

/-- S8 (R181, R266). -/
def start (l : Ctx) : Res := if isDmaOp l.dev.cmdl.op then dmaGo l else .next (trigger l)

/-- One step of the sequencer (R170). At `SIDLE` it has no move; at `S9` its move is the wake, enabled when `SIG = 1`; `S0`, `S1`
and `S10` are parts of atomic steps and are never where it rests (log 6). -/
def seqStep (l : Ctx) : Res :=
  let c := l.dev.cmdl
  match l.dev.seq with
  | .sidle | .s0 | .s1 | .s10 => .next l
  | .s2 => .next (goto .s3 (ctrlReset l))
  | .s3 => .next (goto .s4 (addrSet c.args.addr (clkdivSet c.args.freq l)))
  | .s4 =>
    .next (goto .s5 (cntSet (cmdWrCnt c) (cmdRdCnt c) (modeSet .direction (isReadOp c.op) (cmdRestart c) false l)))
  | .s5 => andThen (stage l) fun l => .next (goto .s6 l)
  | .s6 => .next (goto .s7 (modeSet .auto false false (isDmaOp c.op) l))
  | .s7 => .next (goto .s8 (arm l))
  | .s8 => andThen (start l) fun l => .next (goto .s9 l)
  | .s9 => .next (if l.dev.sig then wake l else l)
  | .s11 => exitTransaction l

/-- The sequencer does not step while a handler run is in progress (R8), nor when it is stuck (R78). -/
def seqMove (l : Ctx) : Res := if seqEnabled l.dev then seqStep l else .next l

end Sys2Proof.Machine
end

