-- ==== Sys2Proof/Machine/Dispatch.lean ====
section
/-! DEFINITION. The meaning of each instruction, one arm a constructor. -/

namespace Sys2Proof.Machine

def exec (i : Instr) (s : State) : Host.Outcome State Fault Refusal :=
  match i with
  | .read a => Sys2Proof.Machine.execRead a s
  | .write a => Sys2Proof.Machine.execWrite a s
  | .dmaRead a => Sys2Proof.Machine.execDmaRead a s
  | .dmaWrite a => Sys2Proof.Machine.execDmaWrite a s
  | .evActiveDone => Sys2Proof.Machine.execEvActiveDone s
  | .evAddrNack => Sys2Proof.Machine.execEvAddrNack s
  | .evDataNack => Sys2Proof.Machine.execEvDataNack s
  | .evEmptyThreshold => Sys2Proof.Machine.execEvEmptyThreshold s
  | .evFifoEmpty => Sys2Proof.Machine.execEvFifoEmpty s
  | .evFifoFull => Sys2Proof.Machine.execEvFifoFull s
  | .evSclHold => Sys2Proof.Machine.execEvSclHold s
  | .evRdOverflow => Sys2Proof.Machine.execEvRdOverflow s
  | .evBurstSlot => Sys2Proof.Machine.execEvBurstSlot s
  | .evDmaDone => Sys2Proof.Machine.execEvDmaDone s
  | .evDmaWcntErr => Sys2Proof.Machine.execEvDmaWcntErr s
  | .evDmaWbenErr => Sys2Proof.Machine.execEvDmaWbenErr s
  | .evDmaGdmaTimeout => Sys2Proof.Machine.execEvDmaGdmaTimeout s
  | .evDmaIpTimeout => Sys2Proof.Machine.execEvDmaIpTimeout s
  | .evDmaZeroLen => Sys2Proof.Machine.execEvDmaZeroLen s
  | .ctrlReset => Sys2Proof.Machine.execCtrlReset s
  | .clkdivSet freq => Sys2Proof.Machine.execClkdivSet freq s
  | .addrSet addr => Sys2Proof.Machine.execAddrSet addr s
  | .modeSet m rw restart auto => Sys2Proof.Machine.execModeSet m rw restart auto s
  | .cntSet wr rd => Sys2Proof.Machine.execCntSet wr rd s
  | .dataLoad32 src n => Sys2Proof.Machine.execDataLoad32 src n s
  | .dataPut slot w => Sys2Proof.Machine.execDataPut slot w s
  | .dataGet slot => Sys2Proof.Machine.execDataGet slot s
  | .intenSet mask => Sys2Proof.Machine.execIntenSet mask s
  | .intenClr mask => Sys2Proof.Machine.execIntenClr mask s
  | .statusGet => Sys2Proof.Machine.execStatusGet s
  | .statusClear mask => Sys2Proof.Machine.execStatusClear mask s
  | .ovfGet => Sys2Proof.Machine.execOvfGet s
  | .rdflagGet => Sys2Proof.Machine.execRdflagGet s
  | .rdflagClear mask => Sys2Proof.Machine.execRdflagClear mask s
  | .trigger => Sys2Proof.Machine.execTrigger s
  | .dmaAddrSet a => Sys2Proof.Machine.execDmaAddrSet a s
  | .dmaLenSet n => Sys2Proof.Machine.execDmaLenSet n s
  | .dmaDirSet dir => Sys2Proof.Machine.execDmaDirSet dir s
  | .dmaIntenSet mask => Sys2Proof.Machine.execDmaIntenSet mask s
  | .dmaGo => Sys2Proof.Machine.execDmaGo s
  | .dmaStatusGetclr => Sys2Proof.Machine.execDmaStatusGetclr s

end Sys2Proof.Machine
end

