-- ==== Sys2Proof/Machine/Schedule.lean ====
section
/-! DEFINITION. One entry of the schedule: how each agent's move runs, and how a command is fetched from the command port. -/

namespace Sys2Proof.Machine

/-- Run a move of an agent of instance `d`; where there is no such instance nothing moves (log 19). -/
def moveOn (ag : Agent) (d : Nat) (f : Ctx → Res) (s : State) : Host.Outcome State Fault Refusal :=
  if d < s.devs.length then onInstance ag d f s else .next s

/-- Run a move of an environment agent of instance `d`, which cannot stop. -/
def envOn (d : Nat) (f : Ctx → Ctx) (s : State) : Host.Outcome State Fault Refusal :=
  moveOn .seq d (fun l => .next (f l)) s

/-- A command enters: its descriptor is decoded (R114) and executed for the calling host; one the decoder rejects is
refused (R104). A host that waits for a result issues nothing (R286). -/
def commandPort (h : Nat) (ws : List Word) (s : State) : Host.Outcome State Fault Refusal :=
  if waiting h s.devs then .next s
  else
    match decode ⟨.cmd, ws⟩ with
    | .ok i => exec i { s with host := h }
    | .error e => .refused (.badDescriptor e)

/-- One move (spec/00_scope.md R7, spec/44_environment.md R280). -/
def runMove (m : Move) (s : State) : Host.Outcome State Fault Refusal :=
  match m with
  | .host h ws => commandPort h ws s
  | .hostStore a b => .next { s with mem := cellWrite s.mem a.toNat b }
  | .hostFree a => .next { s with mem := cellErase s.mem a.toNat }
  | .mapAnswer d r => envOn d (answerMap r) s
  | .seq d => moveOn .seq d seqMove s
  | .tmr d => envOn d timerExpire s
  | .irq d => moveOn .iep d irqMove s
  | .be d m => envOn d (fun l => l.mapDev (beMove l.params m)) s
  | .de d m => envOn d (deMove m) s

/-- Present a status pattern to an instance's handler: it stands in `M_STATUS`, and a run is pending and can start. -/
def presentStatus (pattern : BitVec 7) (d : Device) : Device :=
  { d with mb := { d.mb with status := pattern }, irqPend := true, iepRun := false, stuck := { d.stuck with iep := false } }

/-- The first host that waits for no result: there is one, since an instance serves one host. -/
def freeHost (devs : List Device) : Nat :=
  ((List.range (devs.length + 1)).find? fun h => !waiting h devs).getD 0

/-- The next move fetches the given operation-table word: a descriptor enters the command port; a status pattern is read by
a handler run of instance 0 (log 20). -/
def fetchNext (s : State) (nbits w : Nat) : State :=
  if nbits ≤ 8 then
    { s with
      devs := s.devs.modify 0 (presentStatus (BitVec.ofNat 7 w))
      agenda := .irq 0 :: s.agenda }
  else { s with agenda := .host (freeHost s.devs) (tablePacket nbits w).words :: s.agenda }

end Sys2Proof.Machine
end

