-- ==== Sys2Proof/Safety.lean ====
section
/-! DEFINITION. The terms claims are stated in: quiet and settled instances, the invariants of the machine, and the programs of
primitives and events the sequencer's steps and a handler run are made of. -/

namespace Sys2Proof.Machine

/-! ### Premises on one instance -/

/-- The instance in hand is `d` (R6, R20). -/
def State.InHand (s : State) (d : Device) : Prop := s.devs[s.cur]? = some d

/-- Nothing falls between the next accesses of the instance's own agents (R8, R80). -/
def Device.Quiet (d : Device) : Prop := d.inter = []

/-- The instance an environment move acts on; none for an access of a host to its memory. -/
def EnvMove.owner : EnvMove → Option Nat
  | .be k _ | .de k _ | .expire k | .mapAnswer k _ => some k
  | .command _ c => some c.args.dev.toNat
  | .store _ _ | .free _ => none

/-- Of everything that falls between the next accesses of the instance's own agents, `Q` holds. -/
def Device.Gaps (Q : EnvMove → Prop) (d : Device) : Prop := ∀ moves ∈ d.inter, ∀ m ∈ moves, Q m

/-- No host frees memory between the next accesses (R85, R354). -/
def Device.NoFrees (d : Device) : Prop := d.Gaps fun m => ∀ a, m ≠ .free a

/-- No host and no DMA engine stores into memory, and no host frees any, between the next accesses. -/
def Device.NoStores (d : Device) : Prop :=
  d.Gaps fun m => (∀ a, m ≠ .free a) ∧ (∀ a b, m ≠ .store a b) ∧ ∀ k i b, m ≠ .de k (.write i b)

/-- Whether an agent of the block is stuck (R78). -/
def Device.isStuck (ag : Agent) (d : Device) : Bool :=
  match ag with
  | .seq => d.stuck.seq
  | .iep => d.stuck.iep

/-- Whether an agent of the instance in hand is stuck. -/
def State.isStuck (ag : Agent) (s : State) : Bool := s.devs[s.cur]?.any (Device.isStuck ag)

/-- The latch rule of R31: outside a handler run a line that is high is pending. In a run only a rise of the line sets the latch
(log 5). -/
def Device.Latched (p : Config.Params) (d : Device) : Prop := d.iepRun = false → irqLevel p d = true → d.irqPend = true

/-- No handler run is in progress, and a line that is high is pending. -/
def Device.Settled (p : Config.Params) (d : Device) : Prop := d.iepRun = false ∧ d.Latched p

/-- The state in which the instance in hand has become `v`, with the given host memory and further observations, latest first. -/
def State.become (s : State) (v : Device) (mem : Memory) (obs : List Obs) : State :=
  { s with devs := s.devs.set s.cur v, mem := mem, trace := obs ++ s.trace }

/-- Host memory holds `n` allocated bytes from an address on. -/
def Allocated (m : Memory) (a n : Nat) : Prop := ∀ k, k < n → (cellRead m (a + k)).isSome = true

/-- What a command's buffers owe the block (spec/20_memory.md R78): the bytes it reads and the bytes it writes are allocated. -/
def BuffersAllocated (m : Memory) (c : Cmd) : Prop :=
  (isReadOp c.op = false ∨ c.args.restart = true → Allocated m c.args.wbuf.toNat c.args.wlen.toNat) ∧
  (isReadOp c.op = true → Allocated m c.args.rbuf.toNat c.args.rlen.toNat)

/-- A byte of a buffer, 0 past its `n` bytes. -/
def bufferByte (m : Memory) (base n k : Nat) : Byte := if k < n then (cellRead m (base + k)).getD 0 else 0

/-- The word of a buffer at an offset, zero-padded past its `n` bytes. -/
def bufferWord (m : Memory) (base n off : Nat) : Word :=
  wordOf (bufferByte m base n off) (bufferByte m base n (off + 1)) (bufferByte m base n (off + 2))
    (bufferByte m base n (off + 3))

/-- Nothing the block programs differs: the control, clock, address, count, enable and strobe registers of both blocks, the
snapshot, the sequencer's context, the signal, the handler's run bit, and that no agent of the block is newly stuck
(spec/70_reset_and_hazards.md R355, R280). -/
def Device.SameProgramme (d v : Device) : Prop :=
  v.mb.ctrl = d.mb.ctrl ∧ v.mb.clk = d.mb.clk ∧ v.mb.addr = d.mb.addr ∧ v.mb.wrcnt = d.mb.wrcnt ∧
  v.mb.rdcnt = d.mb.rdcnt ∧ v.mb.inten = d.mb.inten ∧ v.mb.stclr = d.mb.stclr ∧ v.mb.rdfclr = d.mb.rdfclr ∧
  v.db.dir = d.db.dir ∧ v.db.addr = d.db.addr ∧ v.db.len = d.db.len ∧ v.db.inten = d.db.inten ∧
  v.tp = d.tp ∧ v.seq = d.seq ∧ v.cmdl = d.cmdl ∧ v.res = d.res ∧ v.map = d.map ∧ v.sig = d.sig ∧
  v.iepRun = d.iepRun ∧ v.beActive = d.beActive ∧ v.deActive = d.deActive ∧ v.handle = d.handle ∧
  v.epoch = d.epoch ∧ v.caller = d.caller ∧ v.ret = d.ret ∧ v.stuck.seq = d.stuck.seq ∧ v.stuck.iep = d.stuck.iep

/-- How many burst slots in ring order from `s` on are complete, of at most `k` (spec/42_irq_events.md R236). -/
def readySlots (burst16 : Bool) (f : Byte) : Nat → Slot → Nat
  | 0, _ => 0
  | k + 1, s =>
    if slotDone burst16 f s then 1 + readySlots burst16 f k (s + Fin.ofNat 8 (burstWords burst16)) else 0

/-- The flag bits of `k` burst slots from `s` on. -/
def readyMask (burst16 : Bool) (k : Nat) (s : Slot) : Byte := slotMask (k * burstWords burst16) s

/-- The instance a move belongs to; none for a move of the host into its own memory. -/
def Move.owner : Move → Option Nat
  | .host _ (w0 :: _) => some (w0.extractLsb' 8 8).toNat
  | .host _ [] | .hostStore _ _ | .hostFree _ => none
  | .mapAnswer d _ | .seq d | .tmr d | .irq d | .be d _ | .de d _ => some d

/-! ### Runs -/

/-- `n` steps of the machine. -/
def runSteps : Nat → State → Host.Outcome State Fault Refusal
  | 0, s => .next s
  | n + 1, s =>
    match step s with
    | .next t => runSteps n t
    | .fault e => .fault e
    | .refused e => .refused e

/-- How many bytes of the write buffer S5 stages in the data word-slots (R178). -/
def stagedLen (c : Cmd) : Nat :=
  if c.op = .write then min c.args.wlen.toNat 32
  else if isReadOp c.op && c.args.restart then c.args.wlen.toNat
  else 0

/-! ### The sequencer's steps -/

/-- The steps between S1 and the end of S11: the instance is busy exactly there (R22). -/
def SeqStep.active : SeqStep → Bool
  | .s2 | .s3 | .s4 | .s5 | .s6 | .s7 | .s8 | .s9 | .s11 => true
  | .sidle | .s0 | .s1 | .s10 => false

/-- The register primitives of one sequencer step, in order (R175 to R181); S5, S9, S11 and the idle positions have more than
primitives to do. -/
def seqProgram (d : Device) : Option (List Instr × SeqStep) :=
  let c := d.cmdl
  match d.seq with
  | .s2 => some ([.ctrlReset], .s3)
  | .s3 => some ([.clkdivSet c.args.freq, .addrSet c.args.addr], .s4)
  | .s4 => some ([.modeSet .direction (isReadOp c.op) (cmdRestart c) false, .cntSet (cmdWrCnt c) (cmdRdCnt c)], .s5)
  | .s6 => some ([.modeSet .auto false false (isDmaOp c.op)], .s7)
  | .s7 => some (.intenSet (cmdInten c d.tp.burstCnt) :: (if isDmaOp c.op then [.dmaIntenSet 0x01] else []), .s8)
  | .s8 => some ([if isDmaOp c.op then .dmaGo else .trigger], .s9)
  | .s5 | .s9 | .s11 | .sidle | .s0 | .s1 | .s10 => none

/-- Execute instructions one after another, until their agent is stuck (R78). -/
def execAll (ag : Agent) : List Instr → State → Host.Outcome State Fault Refusal
  | [], s => .next s
  | i :: rest, s =>
    match exec i s with
    | .next t => if t.isStuck ag then .next t else execAll ag rest t
    | .fault e => .fault e
    | .refused e => .refused e

/-- The events the dispatch of a handler run acts on, by phase and flags (R224, R225, R232). -/
def selectedEvents (d : Device) : List Instr :=
  let f := d.tp.irq
  if d.sig then []
  else if d.tp.phase = .write ∨ d.tp.phase = .dmaWrite then
    if f.activeDone then [.evActiveDone]
    else if f.addrNack then [.evAddrNack]
    else if f.dataNack then [.evDataNack]
    else if f.sclHold then [.evSclHold]
    else if f.fifoEmpty then [.evFifoEmpty]
    else if d.tp.phase = .write ∧ d.tp.burstCnt ≠ 0 ∧ f.emptyThreshold then [.evEmptyThreshold]
    else []
  else if d.tp.phase = .read ∨ d.tp.phase = .dmaRead then
    if f.addrNack then [.evAddrNack]
    else if f.dataNack then [.evDataNack]
    else if f.sclHold then [.evSclHold]
    else if f.rdOverflow then [.evRdOverflow]
    else if f.activeDone then [.evBurstSlot, .evActiveDone]
    else [.evBurstSlot]
  else []

/-! ### The invariants -/

/-- Control: which states an instance passes through (R22, R192, R194, R281, R358, R264, R78). -/
structure Device.Control (p : Config.Params) (d : Device) : Prop where
  /-- Busy exactly between S1 and the end of S11 (R22). -/
  busy_iff : d.tp.busy = d.seq.active
  /-- The sequencer never rests inside an atomic step. -/
  rests : d.seq ≠ .s0 ∧ d.seq ≠ .s1 ∧ d.seq ≠ .s10
  /-- The phase is the command's while busy and `Idle` otherwise (R192); a sequencer stuck in S11 has left the phase before
  it could clear busy (R185, R78). -/
  phase_eq : d.tp.phase = (if d.tp.busy then phaseOf d.cmdl.op else .idle) ∨
    (d.tp.phase = .idle ∧ d.stuck.seq = true ∧ d.seq = .s11)
  /-- A command past S0 has valid counts (R173). -/
  counts : d.tp.busy = true → countsValid d.cmdl = true
  /-- Between transactions the registers are at the baseline, the engines stopped, nothing mapped (R194). -/
  baseline : d.tp.busy = false →
    d.mb = .zero ∧ d.db = .zero ∧ d.beActive = false ∧ d.deActive = false ∧ d.map.valid = false
  /-- Only a DMA command maps. -/
  mapped : d.map.valid = true → isDmaOp d.cmdl.op = true
  /-- Between steps a handler run is in progress only if the handler is stuck in it (R8, R78). -/
  run_stuck : d.iepRun = d.stuck.iep
  /-- Outside a handler run a high line is pending (R31). -/
  pending : d.Latched p
  /-- The clear strobes are released (R39, R42). -/
  strobes : d.mb.stclr = 0 ∧ d.mb.rdfclr = 0
  /-- An engine runs only from the trigger to the exit (R281). -/
  triggered : d.beActive = true ∨ d.deActive = true → d.seq = .s9 ∨ d.seq = .s11
  /-- A stopped bus engine has left nothing in the status registers (R281, R358). -/
  master_quiet : d.beActive = false → d.mb.status = 0 ∧ d.mb.ovf = 0 ∧ d.mb.rdflag = 0
  /-- A stopped DMA engine has left nothing in its status register (R281, R358). -/
  dma_quiet : d.deActive = false → d.db.status = 0
  /-- A running DMA engine serves a DMA command in that command's direction (R264, R271). -/
  dma_runs : d.deActive = true → isDmaOp d.cmdl.op = true ∧ d.db.dir = isReadOp d.cmdl.op
  /-- The direction programmed at S4 stands until the trigger (R177). -/
  direction : d.seq = .s5 ∨ d.seq = .s6 ∨ d.seq = .s7 ∨ d.seq = .s8 → d.mb.ctrl.rw = isReadOp d.cmdl.op
  /-- The DMA direction programmed at S5 agrees with the master's until the trigger (R264). -/
  dma_direction : isDmaOp d.cmdl.op = true → d.seq = .s6 ∨ d.seq = .s7 ∨ d.seq = .s8 → d.db.dir = d.mb.ctrl.rw
  /-- The trigger mode selected at S6 stands until the trigger (R179). -/
  trigger_mode : d.seq = .s7 ∨ d.seq = .s8 → d.mb.ctrl.auto = isDmaOp d.cmdl.op

/-- Sizing: the snapshot's counters conserve the transfer's bytes (R174, R190, R191, R244, R245, R270). -/
structure Device.Sizing (p : Config.Params) (d : Device) : Prop where
  /-- The snapshot records the command's buffer, length and device (R174). -/
  recorded : d.tp.busy = true →
    d.tp.buf = cmdBuf d.cmdl ∧ d.tp.totalLen.toNat = (cmdLen d.cmdl).toNat ∧ d.tp.dev = d.cmdl.args.dev
  /-- A read before its finish: delivered bytes, whole burst units left and the remainder make up the length (R191, R244). A
  handler stuck in its run has not reached the counters (R78). -/
  read_conserves : d.iepRun = false → d.tp.busy = true → d.cmdl.op = .read → d.sig = false →
    d.tp.dataOff.toNat + p.rdBurstBytes * d.tp.burstCnt.toNat + d.tp.burstRem.toNat = d.cmdl.args.rlen.toNat
  /-- A write past its staging: staged bytes and units left make up the padded length (R190, R245). -/
  write_conserves : d.iepRun = false → d.tp.busy = true → d.cmdl.op = .write →
    d.seq = .s6 ∨ d.seq = .s7 ∨ d.seq = .s8 ∨ d.seq = .s9 ∨ d.seq = .s11 →
    d.tp.dataOff.toNat + 4 * d.tp.burstCnt.toNat =
      if d.cmdl.args.wlen.toNat ≤ 32 then d.cmdl.args.wlen.toNat
      else 32 + 4 * ((d.cmdl.args.wlen.toNat - 32 + 3) / 4)
  /-- A write not yet staged (R174, R190). -/
  write_unstaged : d.tp.busy = true → d.cmdl.op = .write →
    d.seq = .s2 ∨ d.seq = .s3 ∨ d.seq = .s4 ∨ d.seq = .s5 →
    d.tp.dataOff = 0 ∧ d.tp.burstCnt.toNat =
      if d.cmdl.args.wlen.toNat ≤ 32 then 0 else (d.cmdl.args.wlen.toNat - 32 + 3) / 4
  /-- On a DMA path every sizing field stays 0 (R270). -/
  dma_zero : d.tp.busy = true → isDmaOp d.cmdl.op = true →
    d.tp.burstCnt = 0 ∧ d.tp.burstRem = 0 ∧ d.tp.dataOff = 0 ∧ d.tp.regIdx = 0
  /-- The cursor stays at the start of a burst slot (R236). -/
  cursor_aligned : p.burst16 = true → d.tp.busy = true → d.tp.regIdx = 0 ∨ d.tp.regIdx = 4

/-- A host has at most one command in flight (R286). -/
def OneCommandPerHost (devs : List Device) : Prop :=
  ∀ (i j : Nat) (d v : Device), devs[i]? = some d → devs[j]? = some v → d.tp.busy = true → v.tp.busy = true →
    d.caller = v.caller → i = j

/-- Every instance meets the control invariant, and no host has two commands in flight. -/
def State.ControlInv (s : State) : Prop := (∀ d ∈ s.devs, d.Control s.params) ∧ OneCommandPerHost s.devs

/-- The control invariant, and every instance meets the sizing invariant. -/
def State.SizingInv (s : State) : Prop := s.ControlInv ∧ ∀ d ∈ s.devs, d.Sizing s.params

/-- Host memory and every scratch buffer are in canonical form. -/
def State.MemoryInv (s : State) : Prop :=
  Memory.wf s.mem = true ∧ ∀ d ∈ s.devs, scratchWf d.scratch = true

end Sys2Proof.Machine
end

