-- ==== Sys2Proof/Certificates/Slice0/Obligations.lean ====
section
/-! DEFINITION. The statements for the provers, from the numbered rules of spec/. A statement about an event or a primitive is
about the instance in hand (`InHand`). `Quiet` says that nothing falls between its accesses to registers and memory; the
statements named UnderEngineMoves do not assume it, and hold whatever the engines, the timers, the oracle, the hosts and the
other instances do there (log 4, log 34). -/

section

open Sys2Proof Sys2Proof.Machine

/-! ## Encodings -/

/-- Words written out from R101, R102, R107, R108 and the operation table, and the operations they stand for. -/
def Obligations.SampleWordsDecode : Prop :=
  decode ⟨.cmd, [0x00500001, 0x190, 0x28, 0, 0x1000, 0]⟩ =
      .ok (.write ⟨false, 0, 0x50, 400, 40, 0, 0x1000, 0⟩) ∧
    decode ⟨.cmd, [0x00680104, 100, 2, 18, 0x3000, 0x2000]⟩ =
      .ok (.read ⟨true, 1, 0x68, 100, 2, 18, 0x3000, 0x2000⟩) ∧
    decode ⟨.cmd, [0x007F0003, 0, 0x10000, 0, 0, 0]⟩ =
      .ok (.dmaWrite ⟨false, 0, 0x7F, 0, 65536, 0, 0, 0⟩) ∧
    decode ⟨.cmd, [0x0001FF02, 1, 0, 1, 0, 7]⟩ = .ok (.dmaRead ⟨false, 255, 1, 1, 0, 1, 0, 7⟩) ∧
    decode ⟨.mst, [0x40]⟩ = .ok .evSclHold ∧
    decode ⟨.mst, [0xFFFFFF82]⟩ = .ok .evAddrNack ∧
    decode ⟨.dst, [0x20]⟩ = .ok .evDmaZeroLen ∧
    decode ⟨.rdf true 4, [0xF0]⟩ = .ok .evBurstSlot ∧
    decode ⟨.ovf, [0x100]⟩ = .error .noEvent

/-- Decoding the encoding of any well-formed instruction, with operands at every value, gives it back. -/
def Obligations.DecodeInvertsEncode : Prop := ∀ i : Instr, i.wf = true → decode (encode i) = .ok i

/-- R104: a descriptor with a reserved bit of `W0` (7:3 or 31:23) set is refused, by the decoder and by the step in which a host
that is free to issue presents it. -/
def Obligations.ReservedDescriptorBitsRefused : Prop :=
  ∀ w0 w1 w2 w3 w4 w5 : Word, w0.toNat / 2 ^ 3 % 2 ^ 5 ≠ 0 ∨ w0.toNat / 2 ^ 23 ≠ 0 →
    decode ⟨.cmd, [w0, w1, w2, w3, w4, w5]⟩ = .error .reservedBits ∧
      ∀ (s : State) (h : Nat) (rest : List Move), s.agenda = .host h [w0, w1, w2, w3, w4, w5] :: rest →
        waiting h s.devs = false → step s = .refused (.badDescriptor .reservedBits)

/-- R101, R102: where the reserved bits are 0 the descriptor decodes, to the command `W0[1:0]` selects and to the fields of the
table, each by its bit positions. There is no illegal `op`. -/
def Obligations.CommandDescriptorFields : Prop :=
  ∀ w0 w1 w2 w3 w4 w5 : Word, w0.toNat / 2 ^ 3 % 2 ^ 5 = 0 → w0.toNat / 2 ^ 23 = 0 →
    ∃ c : Cmd,
      decode ⟨.cmd, [w0, w1, w2, w3, w4, w5]⟩ = .ok c.instr ∧
      (c.op = .read ↔ w0 &&& 3 = 0) ∧ (c.op = .write ↔ w0 &&& 3 = 1) ∧
      (c.op = .dmaRead ↔ w0 &&& 3 = 2) ∧ (c.op = .dmaWrite ↔ w0 &&& 3 = 3) ∧
      (c.args.restart = true ↔ w0.toNat / 2 ^ 2 % 2 = 1) ∧
      c.args.dev.toNat = w0.toNat / 2 ^ 8 % 2 ^ 8 ∧
      c.args.addr.toNat = w0.toNat / 2 ^ 16 % 2 ^ 7 ∧
      c.args.freq = w1 ∧ c.args.wlen = w2 ∧ c.args.rlen = w3 ∧ c.args.wbuf = w4 ∧ c.args.rbuf = w5

/-! ## What a step runs -/

/-- R114, R286: a step whose next move is a command runs the instruction its descriptor decodes to, for the calling host, with the
move taken off the schedule. A host that waits for its result issues nothing: its move changes nothing. -/
def Obligations.StepRunsDecodedCommand : Prop :=
  ∀ (s : State) (h : Nat) (ws : List Word) (rest : List Move) (i : Instr),
    s.agenda = .host h ws :: rest → decode ⟨.cmd, ws⟩ = .ok i →
      (waiting h s.devs = false → step s = exec i { s with agenda := rest, host := h }) ∧
      (waiting h s.devs = true → step s = .next { s with agenda := rest })

/-- R220, R224, R225, R232, R114: a handler run reads and clears the status, executes the events the priority chains select
from the phase and the flags it read, one after another, and then does the DMA part; a handler that an unallocated byte has left
stuck (R78) goes no further. -/
def Obligations.HandlerRunExecutesSelectedEvents : Prop :=
  ∀ (s : State) (d : Device) (rest : List Move),
    s.agenda = .irq s.cur :: rest → s.InHand d → handlerEnabled d = true →
      let l := handlerStatus (s.ctx s.cur d)
      step s =
        match execAll .iep (selectedEvents l.dev) ({ s with agenda := rest }.putCtx l) with
        | .next t => if t.isStuck .iep then .next t else onInstanceDo s.cur handlerDma t
        | .fault e => .fault e
        | .refused e => .refused e

/-- R170, R175 to R177, R179 to R181: a sequencer step S2, S3, S4, S6, S7 or S8 executes the register primitives its rule names,
in order, and advances the step register. -/
def Obligations.SequencerStepsExecuteTheirPrograms : Prop :=
  ∀ (s : State) (d : Device) (rest : List Move) (is : List Instr) (q : SeqStep),
    s.agenda = .seq s.cur :: rest → s.InHand d → seqEnabled d = true → seqProgram d = some (is, q) →
      step s =
        match execAll .seq is { s with agenda := rest } with
        | .next t => onInstanceDo s.cur (goto q) t
        | .fault e => .fault e
        | .refused e => .refused e

/-! ## The commands: admission, S0 and S1 -/

/-- R171, R172, R173, R301, R302, R303: the admission checks in their order. An index that selects no instance returns
`InvalidDevice`, whatever else holds; a busy instance returns `Busy`, whatever the counts; on an idle instance a used count of 0 or
above 65535, or a restart-mode write payload of 0 or above 32, returns `InvalidCount`. Nothing changes but the calling context's
descriptor. -/
def Obligations.AdmissionChecksInOrder : Prop :=
  ∀ (c : Cmd) (s : State),
    (s.devs.length ≤ c.args.dev.toNat →
      exec c.instr s =
        .next { s with callCmd := c, trace := .returned s.host c.args.dev .invalidDevice :: s.trace }) ∧
    ∀ d : Device, s.devs[c.args.dev.toNat]? = some d →
      (d.tp.busy = true →
        exec c.instr s = .next { s with callCmd := c, trace := .returned s.host c.args.dev .busy :: s.trace }) ∧
      (d.tp.busy = false →
        ((c.op = .write ∨ c.op = .dmaWrite) ∧ (c.args.wlen.toNat = 0 ∨ 65535 < c.args.wlen.toNat)) ∨
          ((c.op = .read ∨ c.op = .dmaRead) ∧
            (c.args.rlen.toNat = 0 ∨ 65535 < c.args.rlen.toNat ∨
              (c.args.restart = true ∧ (c.args.wlen.toNat = 0 ∨ 32 < c.args.wlen.toNat)))) →
        exec c.instr s =
          .next { s with callCmd := c, trace := .returned s.host c.args.dev .invalidCount :: s.trace })

/-- R174, R190, R191, R23, R106: a command to an idle instance with valid counts is admitted. The snapshot is zeroed and given
the new transaction's values, the signal is cleared, and nothing else of the instance changes but the sequencer's context;
no register and no byte of memory is touched. -/
def Obligations.AdmissionSetsUpTheSnapshot : Prop :=
  ∀ (c : Cmd) (s : State) (d : Device), s.devs[c.args.dev.toNat]? = some d → d.tp.busy = false →
    ((c.op = .write ∨ c.op = .dmaWrite) ∧ 1 ≤ c.args.wlen.toNat ∧ c.args.wlen.toNat ≤ 65535) ∨
      ((c.op = .read ∨ c.op = .dmaRead) ∧ 1 ≤ c.args.rlen.toNat ∧ c.args.rlen.toNat ≤ 65535 ∧
        (c.args.restart = true → 1 ≤ c.args.wlen.toNat ∧ c.args.wlen.toNat ≤ 32)) →
    ∃ tp : TP,
      exec c.instr s =
        .next { s with
          callCmd := c
          devs := s.devs.set c.args.dev.toNat { d with tp := tp, sig := false, cmdl := c, caller := s.host, seq := .s2 } } ∧
      tp.busy = true ∧ tp.result = .success ∧ tp.irq = .zero ∧ tp.dma = .zero ∧ tp.dataOff = 0 ∧ tp.regIdx = 0 ∧
      tp.dev = c.args.dev ∧
      (c.op = .write → tp.phase = .write ∧ tp.buf = c.args.wbuf ∧ tp.totalLen.toNat = c.args.wlen.toNat ∧
        tp.burstRem = 0 ∧
        tp.burstCnt.toNat = if c.args.wlen.toNat ≤ 32 then 0 else (c.args.wlen.toNat - 32 + 3) / 4) ∧
      (c.op = .dmaWrite → tp.phase = .dmaWrite ∧ tp.buf = c.args.wbuf ∧ tp.totalLen.toNat = c.args.wlen.toNat ∧
        tp.burstRem = 0 ∧ tp.burstCnt = 0) ∧
      (c.op = .read → tp.phase = .read ∧ tp.buf = c.args.rbuf ∧ tp.totalLen.toNat = c.args.rlen.toNat ∧
        tp.burstCnt.toNat = c.args.rlen.toNat / (if s.params.burst16 then 16 else 4) ∧
        tp.burstRem.toNat = c.args.rlen.toNat % (if s.params.burst16 then 16 else 4) ∧
        (if s.params.burst16 then 16 else 4) * tp.burstCnt.toNat + tp.burstRem.toNat = c.args.rlen.toNat) ∧
      (c.op = .dmaRead → tp.phase = .dmaRead ∧ tp.buf = c.args.rbuf ∧ tp.totalLen.toNat = c.args.rlen.toNat ∧
        tp.burstRem = 0 ∧ tp.burstCnt = 0)

/-- R193: a command that returns at S0 returns one of the three admission codes and leaves every other part of the state as it
was: no register, no byte of memory, no snapshot and no signal of any instance. -/
def Obligations.RejectedCommandTouchesNothing : Prop :=
  ∀ (c : Cmd) (s t : State), exec c.instr s = .next t → t.trace ≠ s.trace →
    ∃ r : Result, (r = .busy ∨ r = .invalidDevice ∨ r = .invalidCount) ∧
      t = { s with callCmd := c, trace := .returned s.host c.args.dev r :: s.trace }

/-- R84, R315, R356: of two commands of two hosts, with valid counts, that race for an idle instance, the one whose move comes
first is admitted and the other returns `Busy`, leaving the first one's transaction as it was. -/
def Obligations.AdmissionIsAtomic : Prop :=
  ∀ (c₁ c₂ : Cmd) (s : State) (d : Device) (h₁ h₂ : Nat) (ws₁ ws₂ : List Word) (rest : List Move),
    decode ⟨.cmd, ws₁⟩ = .ok c₁.instr → decode ⟨.cmd, ws₂⟩ = .ok c₂.instr →
    s.agenda = .host h₁ ws₁ :: .host h₂ ws₂ :: rest →
    h₁ ≠ h₂ → waiting h₁ s.devs = false → waiting h₂ s.devs = false →
    c₂.args.dev = c₁.args.dev → s.devs[c₁.args.dev.toNat]? = some d → d.tp.busy = false →
    countsValid c₁ = true → countsValid c₂ = true →
      ∃ (t u : State) (v : Device),
        step s = .next t ∧ step t = .next u ∧
        t.devs[c₁.args.dev.toNat]? = some v ∧ v.tp.busy = true ∧ v.cmdl = c₁ ∧ v.caller = h₁ ∧ t.trace = s.trace ∧
        u.devs = t.devs ∧ u.mem = s.mem ∧ u.callCmd = c₂ ∧
        u.trace = .returned h₂ c₂.args.dev .busy :: s.trace

/-! ## The sequencer -/

/-- R175 to R181: from S2, seven sequencer steps with nothing between them programme the path from the command alone, whatever the
registers held, and start the engines the path uses. -/
def Obligations.EntrySequenceProgramsThePath : Prop :=
  ∀ (s : State) (d : Device) (rest : List Move),
    s.agenda = List.replicate 7 (.seq s.cur) ++ rest → s.InHand d → d.Quiet → d.Settled s.params → d.stuck.seq = false →
    d.seq = .s2 → countsValid d.cmdl = true → BuffersAllocated s.mem d.cmdl →
      let c := d.cmdl
      ∃ (t : State) (v : Device),
        runSteps 7 s = .next t ∧ t.agenda = rest ∧ t.devs[s.cur]? = some v ∧ t.mem = s.mem ∧ v.seq = .s9 ∧
        -- S3
        v.mb.clk.toNat = divOf s.params.srcFreqKhz c.args.freq.toNat ∧ v.mb.addr = c.args.addr ∧
        -- S4
        v.mb.ctrl.rw = isReadOp c.op ∧ v.mb.ctrl.restart = (isReadOp c.op && c.args.restart) ∧
        v.mb.wrcnt.toNat = (if isReadOp c.op = true ∧ c.args.restart = false then 0 else c.args.wlen.toNat) ∧
        v.mb.rdcnt.toNat = (if isReadOp c.op = true then c.args.rlen.toNat else 0) ∧
        -- S5
        (∀ i : Slot, v.mb.data[i] = bufferWord s.mem c.args.wbuf.toNat (stagedLen c) (4 * i.val)) ∧
        v.tp = { d.tp with
          dataOff := if c.op = .write then BitVec.ofNat 32 (min c.args.wlen.toNat 32) else d.tp.dataOff } ∧
        (isDmaOp c.op = false → v.map = d.map ∧ v.db = .zero) ∧
        (isDmaOp c.op = true → v.map.valid = true ∧ v.db.dir = isReadOp c.op ∧ v.db.addr = v.map.devAddr ∧
          v.db.len.toNat = (cmdLen c).toNat ∧ v.db.status = 0) ∧
        -- S6
        v.mb.ctrl.auto = isDmaOp c.op ∧
        -- S7
        v.mb.inten =
          (match c.op with
          | .write => if d.tp.burstCnt = 0 then 0x047 else 0x05F
          | .read => if c.args.rlen.toNat ≤ 32 then 0x0C7 else 0x1C7
          | .dmaWrite => 0x046
          | .dmaRead => 0x0C6) ∧
        (isDmaOp c.op = true → v.db.inten = 0x01) ∧
        -- S8
        v.beActive = true ∧ v.deActive = isDmaOp c.op ∧
        -- nothing pending, nothing else
        v.mb.status = 0 ∧ v.mb.stclr = 0 ∧ v.mb.ovf = 0 ∧ v.mb.rdflag = 0 ∧ v.mb.rdfclr = 0 ∧
        v.irqPend = d.irqPend ∧ v.sig = d.sig ∧ v.cmdl = c ∧ v.res = d.res ∧ v.caller = d.caller

/-- R261, R262, R263, R178: step S5 of a DMA command maps the caller's buffer; the oracle's answer selects the buffer's device
address or the scratch buffer, and address, length and direction are programmed. Through the scratch buffer `DMA_WRITE` copies the
caller's bytes in and `DMA_READ` copies nothing in. Without a restart payload no data word-slot changes. -/
def Obligations.DmaStagingMapsCopiesPrograms : Prop :=
  ∀ (s : State) (d : Device) (rest : List Move),
    s.agenda = .seq s.cur :: rest → s.InHand d → d.Quiet → d.Settled s.params → d.stuck.seq = false → d.seq = .s5 →
    isDmaOp d.cmdl.op = true → countsValid d.cmdl = true → BuffersAllocated s.mem d.cmdl →
      let c := d.cmdl
      ∃ (t : State) (v : Device),
        step s = .next t ∧ t.devs[s.cur]? = some v ∧ t.mem = s.mem ∧ v.seq = .s6 ∧
        v.map =
          (match d.oracle with
          | some a => { useScratch := false, devAddr := a, valid := true }
          | none => { useScratch := true, devAddr := d.handle.scratchDev, valid := true }) ∧
        v.db = { d.db with dir := isReadOp c.op, addr := v.map.devAddr, len := (cmdLen c).setWidth 16 } ∧
        v.tp = d.tp ∧
        (c.op = .dmaWrite ∨ c.args.restart = false → v.mb = d.mb) ∧
        (c.op = .dmaRead → c.args.restart = true →
          v.mb = { d.mb with data := v.mb.data } ∧
          ∀ i : Slot, v.mb.data[i] = bufferWord s.mem c.args.wbuf.toNat c.args.wlen.toNat (4 * i.val)) ∧
        .mapped s.cur (cmdBuf c) (cmdLen c) (isReadOp c.op) d.oracle ∈ t.trace ∧
        (c.op = .dmaWrite ∧ d.oracle = none →
          ∀ k, cellRead v.scratch k =
            if k < c.args.wlen.toNat then cellRead s.mem (c.args.wbuf.toNat + k) else cellRead d.scratch k) ∧
        (c.op = .dmaRead ∨ d.oracle ≠ none → v.scratch = d.scratch)

/-- R182, R183, R184, R284, R315: at S9 the wake is enabled exactly when `SIG = 1` and latches the snapshot's result; a firing
timeout latches `Timeout` only while `SIG = 0`, since the signal wins; elsewhere the timer has no move. -/
def Obligations.SignalWakesAndTimeoutExpires : Prop :=
  ∀ (s : State) (d : Device) (m : Move) (rest : List Move),
    s.agenda = m :: rest → s.InHand d → seqEnabled d = true → m = .seq s.cur ∨ m = .tmr s.cur →
      (d.seq = .s9 → d.sig = true →
        step s = .next ({ s with agenda := rest }.become { d with res := d.tp.result, seq := .s11 } s.mem [])) ∧
      (d.seq = .s9 → d.sig = false → m = .tmr s.cur →
        step s = .next ({ s with agenda := rest }.become { d with res := .timeout, seq := .s11 } s.mem [])) ∧
      (d.seq = .s9 → d.sig = false → m = .seq s.cur → step s = .next { s with agenda := rest }) ∧
      (d.seq ≠ .s9 → m = .tmr s.cur → step s = .next { s with agenda := rest })

/-- R185, R194: whatever falls between its accesses and whatever the result, S11 leaves the instance in phase `Idle` and not busy,
every register of both blocks 0, both engines inactive and nothing mapped, and returns the latched result to the calling host.
The caller's read buffer is allocated and no host frees memory meanwhile, as R78 and R85 require of the host. -/
def Obligations.ExitReturnsToIdle : Prop :=
  ∀ (s : State) (d : Device) (rest : List Move),
    s.agenda = .seq s.cur :: rest → s.InHand d → d.Control s.params → seqEnabled d = true → d.seq = .s11 →
    BuffersAllocated s.mem d.cmdl → d.NoFrees →
      ∃ (t : State) (v : Device) (obs : List Obs),
        step s = .next t ∧ t.devs[s.cur]? = some v ∧
        v.tp = { d.tp with phase := .idle, busy := false } ∧ v.seq = .sidle ∧ v.mb = .zero ∧ v.db = .zero ∧
        v.beActive = false ∧ v.deActive = false ∧ v.map.valid = false ∧
        v.sig = d.sig ∧ v.res = d.res ∧ v.cmdl = d.cmdl ∧
        t.trace = .returned d.caller d.cmdl.args.dev d.res :: obs ++ s.trace

/-- R268: at S11 a `DMA_READ` through the scratch buffer that succeeded copies exactly its bytes out to the read buffer; every
other path leaves host memory as it was. The buffer is unmapped exactly where it was mapped. -/
def Obligations.CopyOutOnlyOnSuccess : Prop :=
  ∀ (s : State) (d : Device) (rest : List Move),
    s.agenda = .seq s.cur :: rest → s.InHand d → d.Control s.params → d.Quiet → seqEnabled d = true → d.seq = .s11 →
    BuffersAllocated s.mem d.cmdl →
      let c := d.cmdl
      ∃ t : State,
        step s = .next t ∧
        (c.op = .dmaRead ∧ d.map.useScratch = true ∧ d.res = .success →
          ∀ a, cellRead t.mem a =
            if c.args.rbuf.toNat ≤ a ∧ a < c.args.rbuf.toNat + c.args.rlen.toNat then
              some (scratchRead (s.ctx s.cur d) (a - c.args.rbuf.toNat))
            else cellRead s.mem a) ∧
        (¬(c.op = .dmaRead ∧ d.map.useScratch = true ∧ d.res = .success) → t.mem = s.mem) ∧
        (isDmaOp c.op = true →
          (.unmapped s.cur (cmdBuf c) (cmdLen c) (isReadOp c.op) ∈ t.trace ↔
            d.map.useScratch = false ∨ .unmapped s.cur (cmdBuf c) (cmdLen c) (isReadOp c.op) ∈ s.trace))

/-! ## The events -/

/-- R226: `EV_ACTIVE_DONE` in a write phase is success: the result and the signal are written and nothing else changes; no reset
is issued. -/
def Obligations.ActiveDoneEndsWrite : Prop :=
  ∀ (s : State) (d : Device), s.InHand d → d.sig = false → d.tp.phase = .write ∨ d.tp.phase = .dmaWrite →
    exec .evActiveDone s =
      .next (s.become
        { d with
          tp := { d.tp with irq := { d.tp.irq with activeDone := true }, result := .success }
          sig := true }
        s.mem [])

/-- R227, R233, R231: `EV_ADDR_NACK` and `EV_DATA_NACK` in an active phase (in a write phase with no active-done) end the
transaction with `RemoteNack`: active-done forced, signal, controller reset, and nothing else. -/
def Obligations.NackEventsTerminate : Prop :=
  ∀ (s : State) (d : Device), s.InHand d → d.Quiet → d.sig = false →
    ((d.tp.phase = .write ∨ d.tp.phase = .dmaWrite) ∧ d.tp.irq.activeDone = false) ∨ d.tp.phase = .read ∨
      d.tp.phase = .dmaRead →
    exec .evAddrNack s =
        .next (s.become
          { d with
            tp := { d.tp with irq := { d.tp.irq with addrNack := true, activeDone := true }, result := .remoteNack }
            sig := true, mb := .zero, db := .zero, beActive := false, deActive := false }
          s.mem [.wrote s.cur .mCtrl (peek .mCtrl d ||| 1)]) ∧
      exec .evDataNack s =
        .next (s.become
          { d with
            tp := { d.tp with irq := { d.tp.irq with dataNack := true, activeDone := true }, result := .remoteNack }
            sig := true, mb := .zero, db := .zero, beActive := false, deActive := false }
          s.mem [.wrote s.cur .mCtrl (peek .mCtrl d ||| 1)])

/-- R228, R234, R231: `EV_SCL_HOLD` in an active phase with no NACK flag (in a write phase with no active-done either) ends the
transaction with `ClockHeldTooLong`. -/
def Obligations.ClockHoldTerminates : Prop :=
  ∀ (s : State) (d : Device), s.InHand d → d.Quiet → d.sig = false →
    ((d.tp.phase = .write ∨ d.tp.phase = .dmaWrite) ∧ d.tp.irq.activeDone = false) ∨ d.tp.phase = .read ∨
      d.tp.phase = .dmaRead →
    d.tp.irq.addrNack = false → d.tp.irq.dataNack = false →
    exec .evSclHold s =
      .next (s.become
        { d with
          tp := { d.tp with irq := { d.tp.irq with sclHold := true, activeDone := true }, result := .clockHeldTooLong }
          sig := true, mb := .zero, db := .zero, beActive := false, deActive := false }
        s.mem [.wrote s.cur .mCtrl (peek .mCtrl d ||| 1)])

/-- R229, R231: `EV_FIFO_EMPTY` in a write phase with no active-done, NACK or clock-hold flag ends the transaction with
`FifoEmpty`, armed or not. R235: `EV_RD_OVERFLOW` in a read phase with no NACK or clock-hold flag ends it with `ReadOverflow`. -/
def Obligations.FifoEmptyAndOverflowTerminate : Prop :=
  ∀ (s : State) (d : Device), s.InHand d → d.Quiet → d.sig = false →
    d.tp.irq.addrNack = false → d.tp.irq.dataNack = false → d.tp.irq.sclHold = false →
    (d.tp.phase = .write ∨ d.tp.phase = .dmaWrite → d.tp.irq.activeDone = false →
      exec .evFifoEmpty s =
        .next (s.become
          { d with
            tp := { d.tp with irq := { d.tp.irq with fifoEmpty := true, activeDone := true }, result := .fifoEmpty }
            sig := true, mb := .zero, db := .zero, beActive := false, deActive := false }
          s.mem [.wrote s.cur .mCtrl (peek .mCtrl d ||| 1)])) ∧
    (d.tp.phase = .read ∨ d.tp.phase = .dmaRead →
      exec .evRdOverflow s =
        .next (s.become
          { d with
            tp := { d.tp with irq := { d.tp.irq with rdOverflow := true, activeDone := true }, result := .readOverflow }
            sig := true, mb := .zero, db := .zero, beActive := false, deActive := false }
          s.mem [.wrote s.cur .mCtrl (peek .mCtrl d ||| 1)]))

/-- R231 whatever falls between accesses: the error procedure of every error event completes with its result, active-done forced, the
signal raised, every register of both blocks 0 and both engines inactive, whatever falls between its two accesses. -/
def Obligations.TerminationUnderEngineMoves : Prop :=
  ∀ (s : State) (d : Device) (i : Instr) (e : Result), s.InHand d → d.sig = false →
    d.tp.irq.activeDone = false → d.tp.irq.addrNack = false → d.tp.irq.dataNack = false → d.tp.irq.sclHold = false →
    ((i = .evAddrNack ∨ i = .evDataNack) ∧ e = .remoteNack ∧ d.tp.phase ≠ .idle) ∨
      (i = .evSclHold ∧ e = .clockHeldTooLong ∧ d.tp.phase ≠ .idle) ∨
      (i = .evFifoEmpty ∧ e = .fifoEmpty ∧ (d.tp.phase = .write ∨ d.tp.phase = .dmaWrite)) ∨
      (i = .evRdOverflow ∧ e = .readOverflow ∧ (d.tp.phase = .read ∨ d.tp.phase = .dmaRead)) →
    ∃ (t : State) (v : Device),
      exec i s = .next t ∧ t.devs[s.cur]? = some v ∧
      v.tp = { d.tp with irq := v.tp.irq, result := e } ∧ v.tp.irq.activeDone = true ∧ v.sig = true ∧
      v.mb = .zero ∧ v.db = .zero ∧ v.beActive = false ∧ v.deActive = false ∧
      v.seq = d.seq ∧ v.cmdl = d.cmdl ∧ v.res = d.res ∧ v.map = d.map ∧ v.iepRun = d.iepRun

/-- R230: the refill. With no terminal flag, burst units left and phase `Write`, `EV_EMPTY_THRESHOLD` moves `min(4, burst_cnt)`
units, each the zero-padded word of the buffer at its offset, into the ring slots of their offsets; the enables of
EMPTY_THRESHOLD and FIFO_EMPTY are cleared with the last unit, the threshold flag always; nothing else changes. It holds inside a
handler run, where the block itself refills (R220), and outside one. -/
def Obligations.RefillMovesUnits : Prop :=
  ∀ (s : State) (d : Device), s.InHand d → d.Quiet → d.Latched s.params → d.sig = false → d.tp.phase = .write →
    d.tp.irq.activeDone = false → d.tp.irq.addrNack = false → d.tp.irq.dataNack = false →
    d.tp.irq.sclHold = false → d.tp.irq.fifoEmpty = false → d.tp.burstCnt ≠ 0 → d.tp.dataOff.toNat ≤ 65536 →
    Allocated s.mem d.tp.buf.toNat d.tp.totalLen.toNat →
      let n := min 4 d.tp.burstCnt.toNat
      let off := d.tp.dataOff.toNat
      ∃ (data : Vector Word 8) (obs : List Obs),
        exec .evEmptyThreshold s =
          .next (s.become
            { d with
              tp := { d.tp with
                irq := { d.tp.irq with emptyThreshold := true }
                dataOff := BitVec.ofNat 32 (off + 4 * n)
                burstCnt := BitVec.ofNat 16 (d.tp.burstCnt.toNat - n) }
              mb := { d.mb with
                data := data
                inten := if d.tp.burstCnt.toNat = n then d.mb.inten &&& ~~~0x18 else d.mb.inten
                stclr := 0
                status := d.mb.status &&& ~~~0x08 } }
            s.mem obs) ∧
        ∀ i : Slot,
          data[i] =
            if (i - Fin.ofNat 8 (off / 4)).val < n then
              bufferWord s.mem d.tp.buf.toNat d.tp.totalLen.toNat (off + 4 * (i - Fin.ofNat 8 (off / 4)).val)
            else d.mb.data[i]

/-- R236: the burst drain. With no error flag and phase `Read`, `EV_BURST_SLOT` delivers the burst slots complete in ring order
from the cursor, at most `burst_cnt` of them, to the buffer in offset order, clears exactly their flags, and advances cursor,
offset and counter; every other byte of memory, register and flag is unchanged. It holds inside a handler run, where the block
itself drains (R220), and outside one. -/
def Obligations.BurstDrainDeliversSlots : Prop :=
  ∀ (s : State) (d : Device), s.InHand d → d.Quiet → d.Latched s.params → d.sig = false → d.tp.phase = .read →
    d.tp.irq.addrNack = false → d.tp.irq.dataNack = false → d.tp.irq.sclHold = false → d.tp.irq.rdOverflow = false →
      let w := burstWords s.params.burst16
      let n := min d.tp.burstCnt.toNat (readySlots s.params.burst16 d.mb.rdflag (8 / w) d.tp.regIdx)
      let base := d.tp.buf.toNat + d.tp.dataOff.toNat
      d.tp.dataOff.toNat + 4 * w * n ≤ 65535 → Allocated s.mem base (4 * w * n) →
      ∃ (mem : Memory) (obs : List Obs),
        exec .evBurstSlot s =
          .next (s.become
            { d with
              tp := { d.tp with
                dataOff := BitVec.ofNat 32 (d.tp.dataOff.toNat + 4 * w * n)
                regIdx := d.tp.regIdx + Fin.ofNat 8 (w * n)
                burstCnt := BitVec.ofNat 16 (d.tp.burstCnt.toNat - n) }
              mb := { d.mb with
                rdflag := d.mb.rdflag &&& ~~~(readyMask s.params.burst16 n d.tp.regIdx)
                rdfclr := if n = 0 then d.mb.rdfclr else 0 } }
            mem obs) ∧
        ∀ a, cellRead mem a =
          if base ≤ a ∧ a < base + 4 * w * n then
            some (wordByte d.mb.data[d.tp.regIdx + Fin.ofNat 8 ((a - base) / 4)] ((a - base) % 4))
          else cellRead s.mem a

/-- R237: the finish. With no error flag, `EV_ACTIVE_DONE` in a read phase delivers exactly the remainder from the cursor's
word-slots, marks success and signals; the cursor, the burst counter, the completion flags, every register and every other byte
of memory are unchanged. -/
def Obligations.FinishDeliversRemainder : Prop :=
  ∀ (s : State) (d : Device), s.InHand d → d.Quiet → d.sig = false → d.tp.phase = .read ∨ d.tp.phase = .dmaRead →
    d.tp.irq.addrNack = false → d.tp.irq.dataNack = false → d.tp.irq.sclHold = false → d.tp.irq.rdOverflow = false →
      let n := d.tp.burstRem.toNat
      let base := d.tp.buf.toNat + d.tp.dataOff.toNat
      Allocated s.mem base n →
      ∃ mem : Memory,
        exec .evActiveDone s =
          .next (s.become
            { d with
              tp := { d.tp with
                irq := { d.tp.irq with activeDone := true }
                dataOff := d.tp.dataOff + BitVec.ofNat 32 n
                result := .success }
              sig := true }
            mem []) ∧
        ∀ a, cellRead mem a =
          if base ≤ a ∧ a < base + n then
            some (wordByte d.mb.data[d.tp.regIdx + Fin.ofNat 8 ((a - base) / 4)] ((a - base) % 4))
          else cellRead s.mem a

/-- R238, R241: the flags with no action. `EV_FIFO_FULL` in every phase and the five DMA failure events are recorded and change
nothing else; in read phases so are `EV_FIFO_EMPTY` and `EV_EMPTY_THRESHOLD`, in write phases `EV_RD_OVERFLOW`, and in
`DmaWrite` `EV_EMPTY_THRESHOLD` where the write chain selects nothing else. -/
def Obligations.RecordedOnlyEvents : Prop :=
  ∀ (s : State) (d : Device), s.InHand d →
    let irqIs (f : IrqFlags) : Host.Outcome State Fault Refusal :=
      .next (s.become { d with tp := { d.tp with irq := f } } s.mem [])
    let dmaIs (f : DmaFlags) : Host.Outcome State Fault Refusal :=
      .next (s.become { d with tp := { d.tp with dma := f } } s.mem [])
    exec .evFifoFull s = irqIs { d.tp.irq with fifoFull := true } ∧
      exec .evDmaWcntErr s = dmaIs { d.tp.dma with wcntErr := true } ∧
      exec .evDmaWbenErr s = dmaIs { d.tp.dma with wbenErr := true } ∧
      exec .evDmaGdmaTimeout s = dmaIs { d.tp.dma with gdmaTimeout := true } ∧
      exec .evDmaIpTimeout s = dmaIs { d.tp.dma with ipTimeout := true } ∧
      exec .evDmaZeroLen s = dmaIs { d.tp.dma with zeroLen := true } ∧
      (d.tp.phase = .read ∨ d.tp.phase = .dmaRead →
        exec .evFifoEmpty s = irqIs { d.tp.irq with fifoEmpty := true } ∧
          exec .evEmptyThreshold s = irqIs { d.tp.irq with emptyThreshold := true }) ∧
      (d.tp.phase = .write ∨ d.tp.phase = .dmaWrite →
        exec .evRdOverflow s = irqIs { d.tp.irq with rdOverflow := true }) ∧
      (d.tp.phase = .dmaWrite → exec .evEmptyThreshold s = irqIs { d.tp.irq with emptyThreshold := true })

/-- R240: in the two DMA phases a bare done flag is success, whatever the failure flags, unless the transaction has already
signalled; in every other phase it is recorded and ignored. -/
def Obligations.DmaDoneCompletes : Prop :=
  ∀ (s : State) (d : Device), s.InHand d →
    (d.sig = false → d.tp.phase = .dmaWrite ∨ d.tp.phase = .dmaRead →
      exec .evDmaDone s =
        .next (s.become
          { d with tp := { d.tp with dma := { d.tp.dma with done := true }, result := .success }, sig := true } s.mem [])) ∧
    (d.sig = true ∨ d.tp.phase = .idle ∨ d.tp.phase = .write ∨ d.tp.phase = .read →
      exec .evDmaDone s =
        .next (s.become { d with tp := { d.tp with dma := { d.tp.dma with done := true } } } s.mem []))

/-- R224: once the transaction has signalled, or in phase `Idle`, no event acts: each is recorded in its own flag, and result,
signal, counters, registers and memory stay as they are. -/
def Obligations.EventsAfterSignalActOnNothing : Prop :=
  ∀ (s : State) (d : Device), s.InHand d → d.sig = true ∨ d.tp.phase = .idle →
    let irqIs (f : IrqFlags) : Host.Outcome State Fault Refusal :=
      .next (s.become { d with tp := { d.tp with irq := f } } s.mem [])
    exec .evActiveDone s = irqIs { d.tp.irq with activeDone := true } ∧
      exec .evAddrNack s = irqIs { d.tp.irq with addrNack := true } ∧
      exec .evDataNack s = irqIs { d.tp.irq with dataNack := true } ∧
      exec .evEmptyThreshold s = irqIs { d.tp.irq with emptyThreshold := true } ∧
      exec .evFifoEmpty s = irqIs { d.tp.irq with fifoEmpty := true } ∧
      exec .evSclHold s = irqIs { d.tp.irq with sclHold := true } ∧
      exec .evRdOverflow s = irqIs { d.tp.irq with rdOverflow := true } ∧
      exec .evBurstSlot s = .next s

/-! ## The handler run -/

/-- R225, R314, R240: one handler run in a write phase acts on the highest of the flags it read. -/
def Obligations.WritePhasePriority : Prop :=
  ∀ (s : State) (d : Device) (rest : List Move),
    s.agenda = .irq s.cur :: rest → s.InHand d → d.Quiet → handlerEnabled d = true → d.sig = false →
    d.tp.phase = .write ∨ d.tp.phase = .dmaWrite → d.tp.dataOff.toNat ≤ 65536 →
    Allocated s.mem d.tp.buf.toNat d.tp.totalLen.toNat →
      let st := d.mb.status
      ∃ (t : State) (v : Device),
        step s = .next t ∧ t.devs[s.cur]? = some v ∧ v.tp.phase = d.tp.phase ∧ v.tp.busy = d.tp.busy ∧ t.mem = s.mem ∧
        if st.getLsbD 0 then v.tp.result = .success ∧ v.sig = true
        else if st.getLsbD 1 || st.getLsbD 2 then
          v.tp.result = .remoteNack ∧ v.sig = true ∧ v.mb = .zero ∧ v.db = .zero ∧ v.tp.dma = .zero
        else if st.getLsbD 6 then
          v.tp.result = .clockHeldTooLong ∧ v.sig = true ∧ v.mb = .zero ∧ v.db = .zero ∧ v.tp.dma = .zero
        else if st.getLsbD 4 then
          v.tp.result = .fifoEmpty ∧ v.sig = true ∧ v.mb = .zero ∧ v.db = .zero ∧ v.tp.dma = .zero
        else if d.tp.phase = .dmaWrite ∧ d.db.status.getLsbD 0 = true then v.tp.result = .success ∧ v.sig = true
        else v.tp.result = d.tp.result ∧ v.sig = false

/-- R232, R314, R240: one handler run in a read phase acts on the highest of the flags it read; drain and finish come together. -/
def Obligations.ReadPhasePriority : Prop :=
  ∀ (s : State) (d : Device) (rest : List Move),
    s.agenda = .irq s.cur :: rest → s.InHand d → d.Quiet → handlerEnabled d = true → d.sig = false →
    d.tp.phase = .read ∨ d.tp.phase = .dmaRead →
    d.tp.dataOff.toNat + s.params.rdBurstBytes * d.tp.burstCnt.toNat + d.tp.burstRem.toNat ≤ d.tp.totalLen.toNat →
    Allocated s.mem d.tp.buf.toNat d.tp.totalLen.toNat →
      let st := d.mb.status
      ∃ (t : State) (v : Device),
        step s = .next t ∧ t.devs[s.cur]? = some v ∧ v.tp.phase = d.tp.phase ∧ v.tp.busy = d.tp.busy ∧
        if st.getLsbD 1 || st.getLsbD 2 then
          v.tp.result = .remoteNack ∧ v.sig = true ∧ v.mb = .zero ∧ v.db = .zero ∧ v.tp.dma = .zero ∧ t.mem = s.mem
        else if st.getLsbD 6 then
          v.tp.result = .clockHeldTooLong ∧ v.sig = true ∧ v.mb = .zero ∧ v.db = .zero ∧ v.tp.dma = .zero ∧ t.mem = s.mem
        else if d.mb.ovf ≠ 0 then
          v.tp.result = .readOverflow ∧ v.sig = true ∧ v.mb = .zero ∧ v.db = .zero ∧ v.tp.dma = .zero ∧ t.mem = s.mem
        else if st.getLsbD 0 then v.tp.result = .success ∧ v.sig = true
        else if d.tp.phase = .dmaRead ∧ d.db.status.getLsbD 0 = true then v.tp.result = .success ∧ v.sig = true
        else v.tp.result = d.tp.result ∧ v.sig = false

/-- R224, R311, R242, whatever falls between accesses: once a transaction has signalled, a handler run completes and changes nothing of
the snapshot but the two flag sets; the first terminal condition fixes the result. -/
def Obligations.FirstTerminalConditionFixesResult : Prop :=
  ∀ (s : State) (d : Device) (rest : List Move),
    s.agenda = .irq s.cur :: rest → s.InHand d → handlerEnabled d = true → d.sig = true →
      ∃ (t : State) (v : Device),
        step s = .next t ∧ t.devs[s.cur]? = some v ∧
        v.tp = { d.tp with irq := v.tp.irq, dma := v.tp.dma } ∧ v.sig = true

/-- R224, R318, R355: the late handler run. Between transactions it finds `Idle`; from S2 to S8 of the next transaction, and wherever
no engine is running, it finds an active phase with all-zero status. In both cases it completes and changes nothing but the two
flag sets, to zeros, and the pending latch. -/
def Obligations.LateRunIsDiscarded : Prop :=
  ∀ (s : State) (d : Device) (rest : List Move),
    s.agenda = .irq s.cur :: rest → s.InHand d → d.Control s.params → d.Quiet → handlerEnabled d = true →
    d.tp.busy = false ∨ (d.seq ≠ .s9 ∧ d.seq ≠ .s11) ∨ (d.beActive = false ∧ d.deActive = false) →
      ∃ obs : List Obs,
        step s =
          .next ({ s with agenda := rest }.become
            { d with tp := { d.tp with irq := .zero, dma := .zero }, irqPend := false } s.mem obs)

/-- R316, R317, R243, R223, whatever falls between accesses: a handler run saves nothing and gives control back where it was: the
sequencer's context, the phase, busy and the transaction's constants are unchanged and the run bit is 0, but for a handler that is
stuck in its run (R78); a line still high at the end of the run is pending again. A run that is not pending does not start. -/
def Obligations.HandlerEntryAndReturn : Prop :=
  ∀ (s : State) (d : Device) (rest : List Move), s.agenda = .irq s.cur :: rest → s.InHand d →
    (handlerEnabled d = false → step s = .next { s with agenda := rest }) ∧
    (handlerEnabled d = true → ∀ (t : State) (v : Device), step s = .next t → t.devs[s.cur]? = some v →
      v.iepRun = v.stuck.iep ∧ (v.iepRun = false → irqLevel s.params v = true → v.irqPend = true) ∧
      v.seq = d.seq ∧ v.cmdl = d.cmdl ∧ v.res = d.res ∧ v.map = d.map ∧ v.caller = d.caller ∧ v.stuck.seq = d.stuck.seq ∧
      v.handle = d.handle ∧ v.epoch = d.epoch ∧
      v.tp.phase = d.tp.phase ∧ v.tp.busy = d.tp.busy ∧ v.tp.dev = d.tp.dev ∧ v.tp.buf = d.tp.buf ∧
      v.tp.totalLen = d.tp.totalLen ∧ v.tp.burstRem = d.tp.burstRem)

/-- R346: the lost status event. Of the bits the bus engine sets between the status read and the first strobe, and of those it
tries to set between the two strobes, neither is returned by the read and none is left in the register. -/
def Obligations.StatusEventCanBeLost : Prop :=
  ∀ (s : State) (d : Device) (m₁ m₂ : BitVec 7) (rest : List (List EnvMove)), s.InHand d → d.beActive = true →
    d.stuck.iep = false → d.inter = [] :: [.be s.cur (.set m₁)] :: [.be s.cur (.set m₂)] :: rest →
      ∃ (t : State) (v : Device),
        execAll .iep [.statusGet, .statusClear 0x7F] s = .next t ∧ t.devs[s.cur]? = some v ∧
        v.ret = d.mb.status.setWidth 32 ∧ v.mb.status = 0 ∧ v.mb.stclr = 0 ∧ v.inter = rest ∧ t.mem = s.mem

/-! ## The register primitives -/

/-- R141, R33, R342: with nothing between its two accesses `CTRL_RESET` zeroes every register of both blocks and stops both
engines, and touches nothing else; so a second one changes nothing more of the instance. -/
def Obligations.ControllerResetEffect : Prop :=
  ∀ (s : State) (d : Device), s.InHand d → d.Quiet →
    exec .ctrlReset s =
      .next (s.become { d with mb := .zero, db := .zero, beActive := false, deActive := false } s.mem
        [.wrote s.cur .mCtrl (peek .mCtrl d ||| 1)]) ∧
    irqLevel s.params { d with mb := .zero, db := .zero, beActive := false, deActive := false } = false

/-- R142, R109, R34: `CLKDIV_SET` stores the ceiling quotient minus one, saturated to 2047, and 2047 for frequency 0; nothing
else changes. -/
def Obligations.ClockDivisorIsProgrammed : Prop :=
  ∀ (s : State) (d : Device) (freq : Word), s.InHand d → d.Quiet → d.Settled s.params →
    ∃ div : BitVec 11,
      exec (.clkdivSet freq) s =
        .next (s.become { d with mb := { d.mb with clk := div } } s.mem [.wrote s.cur .mClk (div.setWidth 32)]) ∧
      (freq.toNat = 0 → div.toNat = 2047) ∧
      (freq.toNat ≠ 0 →
        div.toNat = min ((s.params.srcFreqKhz + freq.toNat - 1) / freq.toNat - 1) 2047)

/-- R143, R144, R145: address, mode and counts. `MODE_SET` writes the bits of the mask it is issued with and keeps the other mode
bits; each primitive changes its own fields only. -/
def Obligations.AddressModeAndCountsAreProgrammed : Prop :=
  ∀ (s : State) (d : Device), s.InHand d → d.Quiet → d.Settled s.params →
    (∀ addr : BitVec 7,
      exec (.addrSet addr) s =
        .next (s.become { d with mb := { d.mb with addr := addr } } s.mem [.wrote s.cur .mAddr (addr.setWidth 32)])) ∧
    (∀ rw restart auto : Bool, rw = true ∨ restart = false →
      exec (.modeSet .all rw restart auto) s =
        .next (s.become { d with mb := { d.mb with ctrl := ⟨rw, restart, auto⟩ } } s.mem
          [.wrote s.cur .mCtrl (modeOperand rw restart auto)]) ∧
      exec (.modeSet .direction rw restart auto) s =
        .next (s.become { d with mb := { d.mb with ctrl := ⟨rw, restart, d.mb.ctrl.auto⟩ } } s.mem
          [.wrote s.cur .mCtrl (modeOperand rw restart d.mb.ctrl.auto)])) ∧
    (∀ rw restart auto : Bool,
      exec (.modeSet .auto rw restart auto) s =
        .next (s.become { d with mb := { d.mb with ctrl := ⟨d.mb.ctrl.rw, d.mb.ctrl.restart, auto⟩ } } s.mem
          [.wrote s.cur .mCtrl (modeOperand d.mb.ctrl.rw d.mb.ctrl.restart auto)])) ∧
    (∀ wr rd : BitVec 16,
      exec (.cntSet wr rd) s =
        .next (s.become { d with mb := { d.mb with wrcnt := wr, rdcnt := rd } } s.mem
          [.wrote s.cur .mCnt (rd ++ wr)]))

/-- R144, R264: the two programmings the spec never makes. `RESTART` without `RW` is refused, and so is a DMA trigger whose
direction disagrees with the master's; the other DMA trigger is not. -/
def Obligations.ForbiddenProgrammingIsRefused : Prop :=
  ∀ (s : State) (d : Device), s.InHand d →
    (∀ auto : Bool,
      exec (.modeSet .all false true auto) s = .refused .restartWithoutRead ∧
        exec (.modeSet .direction false true auto) s = .refused .restartWithoutRead) ∧
    (exec .dmaGo s = .refused .directionMismatch ↔ d.db.dir ≠ d.mb.ctrl.rw)

/-- R149, R150, R160, R31: the enable registers. Setting ORs the mask in, and a status bit that is already set becomes a pending
interrupt at once; clearing removes the mask; nothing else changes. -/
def Obligations.EnablesAreSetAndCleared : Prop :=
  ∀ (s : State) (d : Device), s.InHand d → d.Quiet → d.Settled s.params →
    (∀ mask : BitVec 9,
      let v := { d with mb := { d.mb with inten := d.mb.inten ||| mask } }
      exec (.intenSet mask) s =
          .next (s.become { v with irqPend := d.irqPend || irqLevel s.params v } s.mem
            [.wrote s.cur .mInten ((d.mb.inten ||| mask).setWidth 32)]) ∧
        exec (.intenClr mask) s =
          .next (s.become { d with mb := { d.mb with inten := d.mb.inten &&& ~~~mask } } s.mem
            [.wrote s.cur .mInten ((d.mb.inten &&& ~~~mask).setWidth 32)])) ∧
    (∀ mask : BitVec 6,
      let v := { d with db := { d.db with inten := d.db.inten ||| mask } }
      exec (.dmaIntenSet mask) s =
        .next (s.become { v with irqPend := d.irqPend || irqLevel s.params v } s.mem
          [.wrote s.cur .dInten ((d.db.inten ||| mask).setWidth 32)]))

/-- R147, R148: one word-slot is written, or read with no side effect. -/
def Obligations.DataSlotIsPutAndGot : Prop :=
  ∀ (s : State) (d : Device) (slot : Slot) (w : Word), s.InHand d → d.Quiet → d.Latched s.params →
    (∃ data : Vector Word 8,
      exec (.dataPut slot w) s =
        .next (s.become { d with mb := { d.mb with data := data } } s.mem [.wrote s.cur (.mData slot) w]) ∧
      ∀ i : Slot, data[i] = if i = slot then w else d.mb.data[i]) ∧
    exec (.dataGet slot) s = .next (s.become { d with ret := d.mb.data[slot] } s.mem [])

/-- R146, R112, R74: `DATA_LOAD32` writes all eight slots with the little-endian words of the buffer, zeros past its `n` bytes,
which are not read; memory and everything else are unchanged. -/
def Obligations.DataLoadFillsAllSlots : Prop :=
  ∀ (s : State) (d : Device) (src : Word) (n : BitVec 6), s.InHand d → d.Quiet → d.Settled s.params →
    1 ≤ n.toNat → n.toNat ≤ 32 → Allocated s.mem src.toNat n.toNat →
      ∃ (data : Vector Word 8) (obs : List Obs),
        exec (.dataLoad32 src n) s = .next (s.become { d with mb := { d.mb with data := data } } s.mem obs) ∧
        ∀ (i : Slot) (k : Nat), k < 4 →
          wordByte data[i] k = bufferByte s.mem src.toNat n.toNat (4 * i.val + k)

/-- R151, R153, R154, R73: the status reads return their register whatever is enabled, and change nothing. -/
def Obligations.StatusReadsHaveNoSideEffect : Prop :=
  ∀ (s : State) (d : Device), s.InHand d → d.Quiet →
    exec .statusGet s = .next (s.become { d with ret := d.mb.status.setWidth 32 } s.mem []) ∧
      exec .ovfGet s = .next (s.become { d with ret := d.mb.ovf.setWidth 32 } s.mem []) ∧
      exec .rdflagGet s = .next (s.become { d with ret := d.mb.rdflag.setWidth 32 } s.mem [])

/-- R152, R155, R39, R42: the clear pulses clear the selected bits and release the strobes; nothing else changes. -/
def Obligations.ClearPulsesReleaseTheStrobes : Prop :=
  ∀ (s : State) (d : Device), s.InHand d → d.Quiet → d.Latched s.params →
    (∀ mask : BitVec 7,
      exec (.statusClear mask) s =
        .next (s.become { d with mb := { d.mb with status := d.mb.status &&& ~~~mask, stclr := 0 } } s.mem
          [.wrote s.cur .mStclr 0, .wrote s.cur .mStclr (mask.setWidth 32)])) ∧
    (∀ mask : BitVec 8,
      exec (.rdflagClear mask) s =
        .next (s.become { d with mb := { d.mb with rdflag := d.mb.rdflag &&& ~~~mask, rdfclr := 0 } } s.mem
          [.wrote s.cur .mRdfclr 0, .wrote s.cur .mRdfclr (mask.setWidth 32)]))

/-- R156, R161, R33, R45: the triggers, with nothing between their two accesses, on a settled instance. `TRIGGER` starts the bus
engine in manual mode only; `DMA_GO`, where the directions agree, starts the DMA engine and, in auto mode, the bus engine; the
strobes read back 0 and nothing else changes. -/
def Obligations.TriggersStartTheEngines : Prop :=
  ∀ (s : State) (d : Device), s.InHand d → d.Quiet → d.Settled s.params →
    exec .trigger s =
        .next (s.become { d with beActive := d.beActive || !d.mb.ctrl.auto } s.mem
          [.wrote s.cur .mCtrl (peek .mCtrl d ||| 2)]) ∧
      (d.db.dir = d.mb.ctrl.rw →
        exec .dmaGo s =
          .next (s.become { d with deActive := true, beActive := d.beActive || d.mb.ctrl.auto } s.mem
            [.wrote s.cur .dCtrl (peek .dCtrl d ||| 1)]))

/-- R157, R158, R159, R162: DMA address, length and direction are programmed, and the DMA status is read and the bits read as 1
are cleared; each primitive changes its own register only. -/
def Obligations.DmaRegistersAreProgrammed : Prop :=
  ∀ (s : State) (d : Device), s.InHand d → d.Quiet → d.Latched s.params →
    (∀ a : Word,
      exec (.dmaAddrSet a) s =
        .next (s.become { d with db := { d.db with addr := a } } s.mem [.wrote s.cur .dAddr a])) ∧
    (∀ n : BitVec 16, 1 ≤ n.toNat →
      exec (.dmaLenSet n) s =
        .next (s.become { d with db := { d.db with len := n } } s.mem [.wrote s.cur .dLen (n.setWidth 32)])) ∧
    (∀ dir : Bool,
      exec (.dmaDirSet dir) s =
        .next (s.become { d with db := { d.db with dir := dir } } s.mem
          [.wrote s.cur .dCtrl (if dir = true then 2 else 0)])) ∧
    exec .dmaStatusGetclr s =
      .next (s.become { d with db := { d.db with status := 0 }, ret := d.db.status.setWidth 32 } s.mem
        [.wrote s.cur .dStatus (d.db.status.setWidth 32)])

/-- R72, R355, R140, whatever falls between accesses: each of the eighteen primitives that write a register completes, its field
holds the operand afterwards, cleared bits are 0 and the strobes released, no other status bit is lost, and nothing an engine does
between its accesses disturbs another programmed register, the snapshot or the sequencer's context. R146: where the bus engine
fills no slot and nothing is stored or freed meanwhile, `DATA_LOAD32` leaves the buffer's words. R162: `DMA_STATUS_GETCLR` returns
the status as it stands at the read and clears those bits at the write; every bit the DMA engine sets between the two that was
not read survives. -/
def Obligations.ProgrammingUnderEngineMoves : Prop :=
  ∀ (s : State) (d : Device), s.InHand d →
    let ends (i : Instr) (e : Device → Prop) : Prop :=
      ∃ (t : State) (v : Device), exec i s = .next t ∧ t.devs[s.cur]? = some v ∧ e v
    ends .ctrlReset (fun v =>
      Device.SameProgramme { d with mb := .zero, db := .zero, beActive := false, deActive := false } v ∧
        v.mb = .zero ∧ v.db = .zero) ∧
    (∀ freq : Word, ends (.clkdivSet freq) fun v =>
      v.mb.clk.toNat = divOf s.params.srcFreqKhz freq.toNat ∧
        Device.SameProgramme { d with mb := { d.mb with clk := v.mb.clk } } v) ∧
    (∀ addr : BitVec 7, ends (.addrSet addr) fun v =>
      Device.SameProgramme { d with mb := { d.mb with addr := addr } } v) ∧
    (∀ rw restart auto : Bool, rw = true ∨ restart = false →
      ends (.modeSet .all rw restart auto) (fun v =>
        Device.SameProgramme { d with mb := { d.mb with ctrl := ⟨rw, restart, auto⟩ } } v) ∧
      ends (.modeSet .direction rw restart auto) fun v =>
        Device.SameProgramme { d with mb := { d.mb with ctrl := ⟨rw, restart, d.mb.ctrl.auto⟩ } } v) ∧
    (∀ rw restart auto : Bool, ends (.modeSet .auto rw restart auto) fun v =>
      Device.SameProgramme { d with mb := { d.mb with ctrl := ⟨d.mb.ctrl.rw, d.mb.ctrl.restart, auto⟩ } } v) ∧
    (∀ wr rd : BitVec 16, ends (.cntSet wr rd) fun v =>
      Device.SameProgramme { d with mb := { d.mb with wrcnt := wr, rdcnt := rd } } v) ∧
    (∀ (src : Word) (n : BitVec 6), 1 ≤ n.toNat → n.toNat ≤ 32 → Allocated s.mem src.toNat n.toNat → d.NoFrees →
      ends (.dataLoad32 src n) fun v =>
        d.SameProgramme v ∧
        (d.beActive = false ∨ d.mb.ctrl.rw = false → d.NoStores → ∀ (i : Slot) (k : Nat), k < 4 →
          wordByte v.mb.data[i] k = bufferByte s.mem src.toNat n.toNat (4 * i.val + k))) ∧
    (∀ (slot : Slot) (w : Word), ends (.dataPut slot w) fun v => v.mb.data[slot] = w ∧ d.SameProgramme v) ∧
    (∀ mask : BitVec 9,
      ends (.intenSet mask) (fun v =>
        Device.SameProgramme { d with mb := { d.mb with inten := d.mb.inten ||| mask } } v) ∧
      ends (.intenClr mask) fun v =>
        Device.SameProgramme { d with mb := { d.mb with inten := d.mb.inten &&& ~~~mask } } v) ∧
    (∀ mask : BitVec 7, ends (.statusClear mask) fun v =>
      v.mb.status &&& mask = 0 ∧ d.mb.status &&& ~~~mask &&& ~~~v.mb.status = 0 ∧
        Device.SameProgramme { d with mb := { d.mb with stclr := 0 } } v) ∧
    (∀ mask : BitVec 8, ends (.rdflagClear mask) fun v =>
      v.mb.rdflag &&& mask = 0 ∧ d.mb.rdflag &&& ~~~mask &&& ~~~v.mb.rdflag = 0 ∧
        Device.SameProgramme { d with mb := { d.mb with rdfclr := 0 } } v) ∧
    ends .trigger (fun v => Device.SameProgramme { d with beActive := d.beActive || !d.mb.ctrl.auto } v) ∧
    (∀ a : Word, ends (.dmaAddrSet a) fun v => Device.SameProgramme { d with db := { d.db with addr := a } } v) ∧
    (∀ n : BitVec 16, 1 ≤ n.toNat → ends (.dmaLenSet n) fun v =>
      Device.SameProgramme { d with db := { d.db with len := n } } v) ∧
    (∀ dir : Bool, ends (.dmaDirSet dir) fun v => Device.SameProgramme { d with db := { d.db with dir := dir } } v) ∧
    (∀ mask : BitVec 6, ends (.dmaIntenSet mask) fun v =>
      Device.SameProgramme { d with db := { d.db with inten := d.db.inten ||| mask } } v) ∧
    (d.db.dir = d.mb.ctrl.rw → ends .dmaGo fun v =>
      Device.SameProgramme { d with deActive := true, beActive := d.beActive || d.mb.ctrl.auto } v) ∧
    (let read := pump (s.ctx s.cur d)
      let written := pump read
      d.db.status &&& ~~~read.dev.db.status = 0 ∧ read.dev.db.status &&& ~~~written.dev.db.status = 0 ∧
        ends .dmaStatusGetclr fun v =>
          v.ret = read.dev.db.status.setWidth 32 ∧
          v.db.status = written.dev.db.status &&& ~~~read.dev.db.status ∧
          Device.SameProgramme { d with ret := v.ret } v) ∧
    (∀ (m₁ m₂ : BitVec 6) (rest : List (List EnvMove)), d.deActive = true → d.stuck.de = false →
      d.inter = [.de s.cur (.set m₁)] :: [.de s.cur (.set m₂)] :: rest →
        ends .dmaStatusGetclr fun v =>
          v.ret = (d.db.status ||| m₁).setWidth 32 ∧ v.db.status = m₂ &&& ~~~(d.db.status ||| m₁))

/-- 40_register_ops.md, whatever falls between accesses: a well-formed primitive completes (a load with its buffer allocated and no host
freeing memory meanwhile, a DMA trigger with the directions in agreement), and none of them writes the snapshot, the sequencer's
context, the signal or the scratch buffer, nor leaves an agent of the block stuck. -/
def Obligations.PrimitivesNeverFailNorWriteTP : Prop :=
  ∀ (s : State) (d : Device) (i : Instr), s.InHand d → i.regSel ≠ none → i.wf = true →
    (∀ src n, i = .dataLoad32 src n → Allocated s.mem src.toNat n.toNat ∧ d.NoFrees) →
    (i = .dmaGo → d.db.dir = d.mb.ctrl.rw) →
    ∃ (t : State) (v : Device),
      exec i s = .next t ∧ t.devs[s.cur]? = some v ∧
      v.tp = d.tp ∧ v.seq = d.seq ∧ v.cmdl = d.cmdl ∧ v.res = d.res ∧ v.map = d.map ∧ v.sig = d.sig ∧
      v.iepRun = d.iepRun ∧ v.epoch = d.epoch ∧ v.stuck.seq = d.stuck.seq ∧ v.stuck.iep = d.stuck.iep ∧
      (d.irqPend = true → v.irqPend = true) ∧ (d.deActive = false → v.scratch = d.scratch)

/-! ## The environment -/

/-- R282, R39, R40, R41: the moves of a running bus engine. A status bit is set unless its strobe is held; a filled slot gets its
word and its flag, a partly filled one its word and no flag, and either the overflow bit where the flag was still set; nothing
else changes but the pending latch. -/
def Obligations.BusEngineMoves : Prop :=
  ∀ (s : State) (d : Device) (m : BeMove) (rest : List Move),
    s.agenda = .be s.cur m :: rest → s.InHand d → d.Settled s.params → d.beActive = true →
      ∃ v : Device,
        step s =
          .next ({ s with agenda := rest }.become { v with irqPend := d.irqPend || irqLevel s.params v } s.mem []) ∧
        match m with
        | .set mask => v = { d with mb := { d.mb with status := d.mb.status ||| (mask &&& ~~~d.mb.stclr) } }
        | .fill i w =>
          if d.mb.ctrl.rw = true then
            v.mb.data[i] = w ∧ (∀ j : Slot, j ≠ i → v.mb.data[j] = d.mb.data[j]) ∧
            (∀ j : Slot, v.mb.rdflag.getLsbD j.val =
              (d.mb.rdflag.getLsbD j.val || (decide (j = i) && !d.mb.rdfclr.getLsbD i.val))) ∧
            (∀ j : Slot, v.mb.ovf.getLsbD j.val =
              (d.mb.ovf.getLsbD j.val || (decide (j = i) && d.mb.rdflag.getLsbD i.val))) ∧
            v = { d with mb := { d.mb with data := v.mb.data, rdflag := v.mb.rdflag, ovf := v.mb.ovf } }
          else v = d
        | .partialFill i w =>
          if d.mb.ctrl.rw = true then
            v.mb.data[i] = w ∧ (∀ j : Slot, j ≠ i → v.mb.data[j] = d.mb.data[j]) ∧
            (∀ j : Slot, v.mb.ovf.getLsbD j.val =
              (d.mb.ovf.getLsbD j.val || (decide (j = i) && d.mb.rdflag.getLsbD i.val))) ∧
            v = { d with mb := { d.mb with data := v.mb.data, ovf := v.mb.ovf } }
          else v = d
        | .take _ => v = d

/-- R283, R271, R261, R86, R78: the moves of a running DMA engine. A status bit is set. For `i < D_LEN`, device address `D_ADDR + i`
names the mapped host byte or the scratch byte of that offset: in direction 0 a read lets the device see that byte, in direction 1
a write stores there; nothing else changes. A host byte that is not allocated leaves the engine, and only it, stuck. -/
def Obligations.DmaEngineMoves : Prop :=
  ∀ (s : State) (d : Device) (m : DeMove) (rest : List Move),
    s.agenda = .de s.cur m :: rest → s.InHand d → d.Settled s.params → d.deActive = true → d.stuck.de = false →
      let s' := { s with agenda := rest }
      let stuck := { d with stuck := { d.stuck with de := true } }
      let mapped (i : BitVec 16) : Prop :=
        i.toNat < d.db.len.toNat ∧ d.map.valid = true ∧ d.db.addr = d.map.devAddr ∧
          d.db.len.toNat ≤ (cmdLen d.cmdl).toNat
      (∀ mask : BitVec 6, m = .set mask →
        let v := { d with db := { d.db with status := d.db.status ||| mask } }
        step s = .next (s'.become { v with irqPend := d.irqPend || irqLevel s.params v } s.mem [])) ∧
      (∀ i : BitVec 16, m = .read i → d.db.dir = false → mapped i →
        (d.map.useScratch = false →
          ∀ o : Option Byte, cellRead s.mem ((cmdBuf d.cmdl).toNat + i.toNat) = o →
            step s =
              match o with
              | some b => .next (s'.become d s.mem [.fetched s.cur i b])
              | none => .next (s'.become stuck s.mem [])) ∧
        (d.map.useScratch = true → i.toNat < 65535 →
          step s = .next (s'.become d s.mem [.fetched s.cur i (scratchRead (s.ctx s.cur d) i.toNat)]))) ∧
      (∀ (i : BitVec 16) (b : Byte), m = .write i b → d.db.dir = true → mapped i →
        (d.map.useScratch = false → (cellRead s.mem ((cmdBuf d.cmdl).toNat + i.toNat)).isSome = true →
          ∃ mem : Memory,
            step s = .next (s'.become d mem []) ∧
            ∀ a, cellRead mem a =
              if a = (cmdBuf d.cmdl).toNat + i.toNat then some b else cellRead s.mem a) ∧
        (d.map.useScratch = false → cellRead s.mem ((cmdBuf d.cmdl).toNat + i.toNat) = none →
          step s = .next (s'.become stuck s.mem [])) ∧
        (d.map.useScratch = true → i.toNat < 65535 →
          ∃ scratch : List Host.Cell,
            step s = .next (s'.become { d with scratch := scratch } s.mem []) ∧
            ∀ k, cellRead scratch k = if k = i.toNat then some b else cellRead d.scratch k)) ∧
      (∀ (i : BitVec 16) (b : Byte), d.db.len.toNat ≤ i.toNat →
        m = .read i ∨ m = .write i b → step s = .next s') ∧
      (∀ (i : BitVec 16) (b : Byte),
        (m = .read i ∧ d.db.dir = true) ∨ (m = .write i b ∧ d.db.dir = false) → step s = .next s')

/-- R281, R82, R355, R280: an engine that is not running has no move, and no engine move, running or not, changes a programmed
register, the snapshot, the sequencer's context or the signal. -/
def Obligations.EnginesStayInTheirLane : Prop :=
  ∀ (s : State) (d : Device) (rest : List Move), s.InHand d →
    (∀ m : BeMove, s.agenda = .be s.cur m :: rest →
      (d.beActive = false → step s = .next { s with agenda := rest }) ∧
      ∃ (t : State) (v : Device), step s = .next t ∧ t.devs[s.cur]? = some v ∧ d.SameProgramme v ∧ t.mem = s.mem) ∧
    (∀ m : DeMove, s.agenda = .de s.cur m :: rest →
      (d.deActive = false → step s = .next { s with agenda := rest }) ∧
      ∃ (t : State) (v : Device), step s = .next t ∧ t.devs[s.cur]? = some v ∧ d.SameProgramme v ∧ v.mb = d.mb)

/-! ## Reset and the whole machine -/

/-- R51, R340, R345: after power-on every instance is idle with every register zero, so that no interrupt is enabled and the line
is low; and there is at least one instance. -/
def Obligations.PowerOnState : Prop :=
  State.reset.devs ≠ [] ∧
  ∀ d ∈ State.reset.devs,
    d.tp = .zero ∧ d.tp.phase = .idle ∧ d.tp.busy = false ∧ d.tp.result = .success ∧ d.seq = .sidle ∧
    d.map.valid = false ∧ d.sig = false ∧ d.irqPend = false ∧ d.iepRun = false ∧ d.beActive = false ∧
    d.deActive = false ∧ (∀ r : Reg, peek r d = 0) ∧ irqLevel State.reset.params d = false

/-- The power-on state meets the three invariants. -/
def Obligations.ResetMeetsInvariants : Prop :=
  State.reset.SizingInv ∧ State.reset.MemoryInv

/-- R22, R192, R194, R281, R358, R264, R286: every step keeps the control invariant, and with it that a host has one command in
flight, whatever falls between accesses. -/
def Obligations.StepKeepsControlInvariant : Prop :=
  ∀ s t : State, s.ControlInv → step s = .next t → t.ControlInv

/-- R244, R245, R190, R191, R270: every step keeps the conservation of the transfer's bytes. -/
def Obligations.StepKeepsSizingInvariant : Prop :=
  ∀ s t : State, s.SizingInv → step s = .next t → t.SizingInv

/-- Every step keeps host memory and the scratch buffers in canonical form. -/
def Obligations.StepKeepsMemoryCanonical : Prop :=
  ∀ s t : State, s.ControlInv → s.MemoryInv → step s = .next t → t.MemoryInv

/-- R192, R25: the phase changes only from `Idle` to the phase of a command that is admitted at S1, or from an active phase to
`Idle`, by the sequencer's exit, which leaves the registers at the reset baseline. -/
def Obligations.PhaseChangesPassThroughIdle : Prop :=
  ∀ (s t : State) (k : Nat) (d v : Device), s.ControlInv → step s = .next t →
    s.devs[k]? = some d → t.devs[k]? = some v → v.tp.phase ≠ d.tp.phase →
      (d.tp.phase = .idle ∧ d.tp.busy = false ∧ v.tp.busy = true ∧ v.seq = .s2 ∧ v.cmdl.args.dev.toNat = k ∧
        v.tp.phase = phaseOf v.cmdl.op ∧
        ((∃ h ws rest, s.agenda = .host h ws :: rest ∧ decode ⟨.cmd, ws⟩ = .ok v.cmdl.instr) ∨
          ∃ (e : Device) (moves : List EnvMove) (h : Nat), e ∈ s.devs ∧ moves ∈ e.inter ∧ .command h v.cmdl ∈ moves)) ∨
      (v.tp.phase = .idle ∧ v.mb = .zero ∧ v.db = .zero ∧ ∃ rest, s.agenda = .seq k :: rest ∧ d.seq = .s11)

/-- R20, R324: instances share no state. A step that is not a move of an instance, and between whose accesses no move of that
instance falls, leaves the instance exactly as it was. -/
def Obligations.InstancesShareNothing : Prop :=
  ∀ (s t : State) (m : Move) (rest : List Move) (k : Nat), s.agenda = m :: rest → step s = .next t →
    m.owner ≠ some k → (∀ (j : Nat) (d : Device), m.owner = some j → s.devs[j]? = some d → d.Gaps fun e => e.owner ≠ some k) →
      t.devs[k]? = s.devs[k]? ∧ t.devs.length = s.devs.length ∧ t.params = s.params

/-- Nothing but a descriptor the decoder rejects is ever refused: under the control invariant the block itself never reaches a
programming the spec forbids (R144, R264). -/
def Obligations.OnlyBadDescriptorsAreRefused : Prop :=
  ∀ (s : State) (r : Refusal), s.ControlInv → step s = .refused r →
    ∃ (h : Nat) (ws : List Word) (rest : List Move) (e : Reject),
      s.agenda = .host h ws :: rest ∧ decode ⟨.cmd, ws⟩ = .error e ∧ r = .badDescriptor e

/-- R78: with the ranges the commands in flight name allocated, no host freeing memory between accesses, and under the invariants,
no step leaves an agent of any instance stuck: the block and its engines touch no byte outside those ranges that is not
allocated. -/
def Obligations.AllocatedBuffersLeaveNoAgentStuck : Prop :=
  ∀ s t : State, s.SizingInv → (∀ d ∈ s.devs, d.tp.busy = true → BuffersAllocated s.mem d.cmdl) →
    (∀ d ∈ s.devs, d.NoFrees) → step s = .next t →
      ∀ (k : Nat) (d v : Device), s.devs[k]? = some d → t.devs[k]? = some v → v.stuck = d.stuck

/-- R78, U15: an access to host memory that is not allocated leaves its agent, and only it, stuck. Every effect before the access
stands: the word-slots `DATA_LOAD32` has filled, the bytes the finish has stored; what comes after it does not happen. A stuck
sequencer, handler or DMA engine takes no further step, and its timeout does not expire. -/
def Obligations.UnallocatedAccessLeavesOnlyItsAgentStuck : Prop :=
  ∀ (s : State) (d : Device), s.InHand d →
    (∀ (src : Word) (n : BitVec 6) (j : Nat), d.Quiet → d.Settled s.params → n.toNat ≤ 32 → j < n.toNat →
      Allocated s.mem src.toNat j → cellRead s.mem (src.toNat + j) = none →
        ∃ (data : Vector Word 8) (obs : List Obs),
          exec (.dataLoad32 src n) s =
            .next (s.become
              { d with mb := { d.mb with data := data }, stuck := { d.stuck with seq := true } } s.mem obs) ∧
          ∀ i : Slot,
            data[i] = if i.val < j / 4 then bufferWord s.mem src.toNat n.toNat (4 * i.val) else d.mb.data[i]) ∧
    (∀ j : Nat, d.Quiet → d.sig = false → d.tp.phase = .read ∨ d.tp.phase = .dmaRead →
      d.tp.irq.addrNack = false → d.tp.irq.dataNack = false → d.tp.irq.sclHold = false → d.tp.irq.rdOverflow = false →
      j < d.tp.burstRem.toNat →
      let base := d.tp.buf.toNat + d.tp.dataOff.toNat
      Allocated s.mem base j → cellRead s.mem (base + j) = none →
        ∃ mem : Memory,
          exec .evActiveDone s =
            .next (s.become
              { d with
                tp := { d.tp with irq := { d.tp.irq with activeDone := true } }
                stuck := { d.stuck with iep := true } }
              mem []) ∧
          ∀ a, cellRead mem a =
            if base ≤ a ∧ a < base + j then
              some (wordByte d.mb.data[d.tp.regIdx + Fin.ofNat 8 ((a - base) / 4)] ((a - base) % 4))
            else cellRead s.mem a) ∧
    ∀ (m : Move) (rest : List Move), s.agenda = m :: rest →
      (d.stuck.seq = true ∧ (m = .seq s.cur ∨ m = .tmr s.cur)) ∨ (d.stuck.iep = true ∧ m = .irq s.cur) ∨
        (d.stuck.de = true ∧ ∃ e, m = .de s.cur e) →
      step s = .next { s with agenda := rest }

/-- R78, R320: a step of an instance's own agents, with only moves of that instance between its accesses, writes host memory only in
the read buffer of its read command in flight; where no read is in flight, it writes none. -/
def Obligations.WritesStayInTheReadBuffer : Prop :=
  ∀ (s t : State) (d : Device) (m : Move) (rest : List Move) (k a : Nat),
    s.SizingInv → s.agenda = m :: rest → s.devs[k]? = some d → (d.Gaps fun e => e.owner = some k) → step s = .next t →
    (m = .seq k ∨ m = .irq k ∨ m = .tmr k ∨ (∃ b, m = .be k b) ∨ (∃ e, m = .de k e)) →
    ¬(d.tp.busy = true ∧ isReadOp d.cmdl.op = true ∧
      d.cmdl.args.rbuf.toNat ≤ a ∧ a < d.cmdl.args.rbuf.toNat + d.cmdl.args.rlen.toNat) →
      cellRead t.mem a = cellRead s.mem a

end
end

