-- ==== Sys2Proof/Laws/State.lean ====
section
/-! SUPPORT. One lemma per field per update of the state, each true by definition, so that no proof unfolds an update. -/

namespace Sys2Proof.Machine

/-! ### Contexts -/

@[simp] theorem Ctx.mapDev_id (f : Device → Device) (l : Ctx) : (l.mapDev f).id = l.id := rfl
@[simp] theorem Ctx.mapDev_params (f : Device → Device) (l : Ctx) : (l.mapDev f).params = l.params := rfl
@[simp] theorem Ctx.mapDev_mem (f : Device → Device) (l : Ctx) : (l.mapDev f).mem = l.mem := rfl
@[simp] theorem Ctx.mapDev_trace (f : Device → Device) (l : Ctx) : (l.mapDev f).trace = l.trace := rfl
@[simp] theorem Ctx.mapDev_before (f : Device → Device) (l : Ctx) : (l.mapDev f).before = l.before := rfl
@[simp] theorem Ctx.mapDev_after (f : Device → Device) (l : Ctx) : (l.mapDev f).after = l.after := rfl
@[simp] theorem Ctx.mapDev_callCmd (f : Device → Device) (l : Ctx) : (l.mapDev f).callCmd = l.callCmd := rfl
@[simp] theorem Ctx.mapDev_host (f : Device → Device) (l : Ctx) : (l.mapDev f).host = l.host := rfl
@[simp] theorem Ctx.mapDev_dev (f : Device → Device) (l : Ctx) : (l.mapDev f).dev = f l.dev := rfl
@[simp] theorem Ctx.mapTP_id (f : TP → TP) (l : Ctx) : (l.mapTP f).id = l.id := rfl
@[simp] theorem Ctx.mapTP_params (f : TP → TP) (l : Ctx) : (l.mapTP f).params = l.params := rfl
@[simp] theorem Ctx.mapTP_mem (f : TP → TP) (l : Ctx) : (l.mapTP f).mem = l.mem := rfl
@[simp] theorem Ctx.mapTP_trace (f : TP → TP) (l : Ctx) : (l.mapTP f).trace = l.trace := rfl
@[simp] theorem Ctx.mapTP_before (f : TP → TP) (l : Ctx) : (l.mapTP f).before = l.before := rfl
@[simp] theorem Ctx.mapTP_after (f : TP → TP) (l : Ctx) : (l.mapTP f).after = l.after := rfl
@[simp] theorem Ctx.mapTP_callCmd (f : TP → TP) (l : Ctx) : (l.mapTP f).callCmd = l.callCmd := rfl
@[simp] theorem Ctx.mapTP_host (f : TP → TP) (l : Ctx) : (l.mapTP f).host = l.host := rfl
@[simp] theorem Ctx.mapTP_dev (f : TP → TP) (l : Ctx) : (l.mapTP f).dev = { l.dev with tp := f l.dev.tp } := rfl

/-! ### Outcomes -/

@[simp] theorem andThen_next (l : Ctx) (f : Ctx → Res) : andThen (.next l) f = f l := rfl
@[simp] theorem andThen_stuck (l : Ctx) (f : Ctx → Res) : andThen (.stuck l) f = .stuck l := rfl
@[simp] theorem andThen_refused (e : Refusal) (f : Ctx → Res) : andThen (.refused e) f = .refused e := rfl

/-! ### The interrupt latch touches `IRQ_PEND` only -/

@[simp] theorem latch_tp (p : Config.Params) (old new : Device) : (latch p old new).tp = new.tp := rfl
@[simp] theorem latch_seq (p : Config.Params) (old new : Device) : (latch p old new).seq = new.seq := rfl
@[simp] theorem latch_cmdl (p : Config.Params) (old new : Device) : (latch p old new).cmdl = new.cmdl := rfl
@[simp] theorem latch_res (p : Config.Params) (old new : Device) : (latch p old new).res = new.res := rfl
@[simp] theorem latch_map (p : Config.Params) (old new : Device) : (latch p old new).map = new.map := rfl
@[simp] theorem latch_sig (p : Config.Params) (old new : Device) : (latch p old new).sig = new.sig := rfl
@[simp] theorem latch_iepRun (p : Config.Params) (old new : Device) : (latch p old new).iepRun = new.iepRun := rfl
@[simp] theorem latch_beActive (p : Config.Params) (old new : Device) : (latch p old new).beActive = new.beActive := rfl
@[simp] theorem latch_deActive (p : Config.Params) (old new : Device) : (latch p old new).deActive = new.deActive := rfl
@[simp] theorem latch_mb (p : Config.Params) (old new : Device) : (latch p old new).mb = new.mb := rfl
@[simp] theorem latch_db (p : Config.Params) (old new : Device) : (latch p old new).db = new.db := rfl
@[simp] theorem latch_scratch (p : Config.Params) (old new : Device) : (latch p old new).scratch = new.scratch := rfl
@[simp] theorem latch_handle (p : Config.Params) (old new : Device) : (latch p old new).handle = new.handle := rfl
@[simp] theorem latch_epoch (p : Config.Params) (old new : Device) : (latch p old new).epoch = new.epoch := rfl
@[simp] theorem latch_caller (p : Config.Params) (old new : Device) : (latch p old new).caller = new.caller := rfl
@[simp] theorem latch_ret (p : Config.Params) (old new : Device) : (latch p old new).ret = new.ret := rfl
@[simp] theorem latch_oracle (p : Config.Params) (old new : Device) : (latch p old new).oracle = new.oracle := rfl
@[simp] theorem latch_inter (p : Config.Params) (old new : Device) : (latch p old new).inter = new.inter := rfl
@[simp] theorem latch_stuck (p : Config.Params) (old new : Device) : (latch p old new).stuck = new.stuck := rfl
@[simp] theorem latch_irqPend (p : Config.Params) (old new : Device) : (latch p old new).irqPend = (new.irqPend || (irqLevel p new && (!irqLevel p old || !new.iepRun))) := rfl

/-! ### The controller reset keeps everything but the registers and the engines -/

@[simp] theorem resetController_tp (d : Device) : (resetController d).tp = d.tp := rfl
@[simp] theorem resetController_seq (d : Device) : (resetController d).seq = d.seq := rfl
@[simp] theorem resetController_cmdl (d : Device) : (resetController d).cmdl = d.cmdl := rfl
@[simp] theorem resetController_res (d : Device) : (resetController d).res = d.res := rfl
@[simp] theorem resetController_map (d : Device) : (resetController d).map = d.map := rfl
@[simp] theorem resetController_sig (d : Device) : (resetController d).sig = d.sig := rfl
@[simp] theorem resetController_irqPend (d : Device) : (resetController d).irqPend = d.irqPend := rfl
@[simp] theorem resetController_iepRun (d : Device) : (resetController d).iepRun = d.iepRun := rfl
@[simp] theorem resetController_beActive (d : Device) : (resetController d).beActive = false := rfl
@[simp] theorem resetController_deActive (d : Device) : (resetController d).deActive = false := rfl
@[simp] theorem resetController_mb (d : Device) : (resetController d).mb = .zero := rfl
@[simp] theorem resetController_db (d : Device) : (resetController d).db = .zero := rfl
@[simp] theorem resetController_scratch (d : Device) : (resetController d).scratch = d.scratch := rfl
@[simp] theorem resetController_handle (d : Device) : (resetController d).handle = d.handle := rfl
@[simp] theorem resetController_epoch (d : Device) : (resetController d).epoch = d.epoch := rfl
@[simp] theorem resetController_caller (d : Device) : (resetController d).caller = d.caller := rfl
@[simp] theorem resetController_ret (d : Device) : (resetController d).ret = d.ret := rfl
@[simp] theorem resetController_oracle (d : Device) : (resetController d).oracle = d.oracle := rfl
@[simp] theorem resetController_inter (d : Device) : (resetController d).inter = d.inter := rfl
@[simp] theorem resetController_stuck (d : Device) : (resetController d).stuck = d.stuck := rfl

/-! ### The signal -/

@[simp] theorem signal_tp (d : Device) : (signal d).tp = d.tp := rfl
@[simp] theorem signal_seq (d : Device) : (signal d).seq = d.seq := rfl
@[simp] theorem signal_cmdl (d : Device) : (signal d).cmdl = d.cmdl := rfl
@[simp] theorem signal_res (d : Device) : (signal d).res = d.res := rfl
@[simp] theorem signal_map (d : Device) : (signal d).map = d.map := rfl
@[simp] theorem signal_sig (d : Device) : (signal d).sig = true := rfl
@[simp] theorem signal_irqPend (d : Device) : (signal d).irqPend = d.irqPend := rfl
@[simp] theorem signal_iepRun (d : Device) : (signal d).iepRun = d.iepRun := rfl
@[simp] theorem signal_beActive (d : Device) : (signal d).beActive = d.beActive := rfl
@[simp] theorem signal_deActive (d : Device) : (signal d).deActive = d.deActive := rfl
@[simp] theorem signal_mb (d : Device) : (signal d).mb = d.mb := rfl
@[simp] theorem signal_db (d : Device) : (signal d).db = d.db := rfl
@[simp] theorem signal_scratch (d : Device) : (signal d).scratch = d.scratch := rfl
@[simp] theorem signal_handle (d : Device) : (signal d).handle = d.handle := rfl
@[simp] theorem signal_epoch (d : Device) : (signal d).epoch = d.epoch := rfl
@[simp] theorem signal_caller (d : Device) : (signal d).caller = d.caller := rfl
@[simp] theorem signal_ret (d : Device) : (signal d).ret = d.ret := rfl
@[simp] theorem signal_oracle (d : Device) : (signal d).oracle = d.oracle := rfl
@[simp] theorem signal_inter (d : Device) : (signal d).inter = d.inter := rfl
@[simp] theorem signal_stuck (d : Device) : (signal d).stuck = d.stuck := rfl

/-! ### The machine -/

@[simp] theorem State.putCtx_params (s : State) (l : Ctx) : (s.putCtx l).params = s.params := rfl
@[simp] theorem State.putCtx_cur (s : State) (l : Ctx) : (s.putCtx l).cur = s.cur := rfl
@[simp] theorem State.putCtx_agenda (s : State) (l : Ctx) : (s.putCtx l).agenda = s.agenda := rfl
@[simp] theorem State.putCtx_callCmd (s : State) (l : Ctx) : (s.putCtx l).callCmd = l.callCmd := rfl
@[simp] theorem State.putCtx_host (s : State) (l : Ctx) : (s.putCtx l).host = l.host := rfl
@[simp] theorem State.putCtx_mem (s : State) (l : Ctx) : (s.putCtx l).mem = l.mem := rfl
@[simp] theorem State.putCtx_trace (s : State) (l : Ctx) : (s.putCtx l).trace = l.trace := rfl
@[simp] theorem State.putCtx_devs (s : State) (l : Ctx) : (s.putCtx l).devs = l.devices := rfl
@[simp] theorem State.ctx_id (s : State) (d : Nat) (v : Device) : (s.ctx d v).id = d := rfl
@[simp] theorem State.ctx_params (s : State) (d : Nat) (v : Device) : (s.ctx d v).params = s.params := rfl
@[simp] theorem State.ctx_dev (s : State) (d : Nat) (v : Device) : (s.ctx d v).dev = v := rfl
@[simp] theorem State.ctx_mem (s : State) (d : Nat) (v : Device) : (s.ctx d v).mem = s.mem := rfl
@[simp] theorem State.ctx_trace (s : State) (d : Nat) (v : Device) : (s.ctx d v).trace = s.trace := rfl
@[simp] theorem State.ctx_before (s : State) (d : Nat) (v : Device) : (s.ctx d v).before = s.devs.take d := rfl
@[simp] theorem State.ctx_after (s : State) (d : Nat) (v : Device) : (s.ctx d v).after = s.devs.drop (d + 1) := rfl
@[simp] theorem State.ctx_callCmd (s : State) (d : Nat) (v : Device) : (s.ctx d v).callCmd = s.callCmd := rfl
@[simp] theorem State.ctx_host (s : State) (d : Nat) (v : Device) : (s.ctx d v).host = s.host := rfl
@[simp] theorem State.become_params (s : State) (v : Device) (mem : Memory) (obs : List Obs) : (s.become v mem obs).params = s.params := rfl
@[simp] theorem State.become_callCmd (s : State) (v : Device) (mem : Memory) (obs : List Obs) : (s.become v mem obs).callCmd = s.callCmd := rfl
@[simp] theorem State.become_host (s : State) (v : Device) (mem : Memory) (obs : List Obs) : (s.become v mem obs).host = s.host := rfl
@[simp] theorem State.become_cur (s : State) (v : Device) (mem : Memory) (obs : List Obs) : (s.become v mem obs).cur = s.cur := rfl
@[simp] theorem State.become_agenda (s : State) (v : Device) (mem : Memory) (obs : List Obs) : (s.become v mem obs).agenda = s.agenda := rfl
@[simp] theorem State.become_mem (s : State) (v : Device) (mem : Memory) (obs : List Obs) : (s.become v mem obs).mem = mem := rfl
@[simp] theorem State.become_trace (s : State) (v : Device) (mem : Memory) (obs : List Obs) : (s.become v mem obs).trace = obs ++ s.trace := rfl
@[simp] theorem State.become_devs (s : State) (v : Device) (mem : Memory) (obs : List Obs) : (s.become v mem obs).devs = s.devs.set s.cur v := rfl

end Sys2Proof.Machine
end

