-- ==== Sys2Proof/Laws/Memory.lean ====
section
/-! SUPPORT. Laws of the sparse memories: read after write, and that every operation keeps the canonical form. -/

namespace Sys2Proof.Machine

/-! ### Read after write -/

@[simp] theorem cellRead_nil (a : Nat) : cellRead [] a = none := rfl

theorem cellRead_cons (k : Nat) (c : Byte) (m : List Host.Cell) (a : Nat) :
    cellRead ((k, c) :: m) a = if k = a then some c else cellRead m a := rfl

theorem cellRead_cellWrite (m : List Host.Cell) (a x : Nat) (b : Byte) :
    cellRead (cellWrite m a b) x = if x = a then some b else cellRead m x := by
  induction m with
  | nil => simp [cellWrite, cellRead_cons, eq_comm]
  | cons kc m ih =>
    obtain ⟨k, c⟩ := kc
    rw [cellWrite]
    by_cases h1 : a < k
    · rw [if_pos h1, cellRead_cons]; simp only [eq_comm]
    · rw [if_neg h1]
      by_cases h2 : a = k
      · subst h2; rw [if_pos rfl, cellRead_cons, cellRead_cons]
        by_cases h3 : x = a
        · simp [h3]
        · simp [h3, show ¬ a = x from fun h => h3 h.symm]
      · rw [if_neg h2, cellRead_cons, cellRead_cons, ih]
        by_cases h3 : x = a
        · subst h3; simp [show ¬ k = x from fun h => h2 h.symm]
        · simp [h3]

theorem cellRead_cellErase (m : List Host.Cell) (a x : Nat) :
    cellRead (cellErase m a) x = if x = a then none else cellRead m x := by
  induction m with
  | nil => simp [cellErase]
  | cons kc m ih =>
    obtain ⟨k, c⟩ := kc
    simp only [cellErase]
    by_cases h : k = a
    · subst h; by_cases hx : x = k
      · subst hx; simpa using ih
      · simp [hx, ih, cellRead_cons, show ¬ k = x from fun h => hx h.symm]
    · by_cases hx : x = a
      · subst hx; simp [h, cellRead_cons, ih]
      · simp [h, cellRead_cons, ih, hx]

/-- List bytes from an address on, in ascending order. -/
def cellWriteAll : List Host.Cell → Nat → List Byte → List Host.Cell
  | m, _, [] => m
  | m, a, b :: rest => cellWriteAll (cellWrite m a b) (a + 1) rest

/-- Bytes listed from an address on read back in order, and nothing else changes. -/
theorem cellRead_cellWriteAll (m : List Host.Cell) (a x : Nat) (bs : List Byte) :
    cellRead (cellWriteAll m a bs) x = if a ≤ x ∧ x < a + bs.length then bs[x - a]? else cellRead m x := by
  induction bs generalizing m a with
  | nil => simp [cellWriteAll]
  | cons b bs ih =>
    rw [cellWriteAll, ih, cellRead_cellWrite]
    by_cases h : x = a
    · subst h; simp
    · by_cases h1 : a ≤ x ∧ x < a + (b :: bs).length
      · have h2 : a + 1 ≤ x ∧ x < a + 1 + bs.length := by simp only [List.length_cons] at h1; omega
        rw [if_pos h1, if_pos h2, show x - a = (x - (a + 1)) + 1 by omega, List.getElem?_cons_succ]
      · have h2 : ¬(a + 1 ≤ x ∧ x < a + 1 + bs.length) := by simp only [List.length_cons] at h1; omega
        rw [if_neg h1, if_neg h2, if_neg h]

/-! ### Loads and stores of the block -/

/-- A store of a byte succeeds exactly where the byte is allocated, and is then a write. -/
theorem memStore_eq_some {m m' : Memory} {a : Nat} {b : Byte} :
    memStore m a b = some m' ↔ (cellRead m a).isSome = true ∧ m' = cellWrite m a b := by
  unfold memStore; cases h : cellRead m a <;> simp [eq_comm]

/-- Stores keep every allocated byte allocated. -/
theorem cellWrite_isSome {m : List Host.Cell} {a x : Nat} {b : Byte} (h : (cellRead m x).isSome = true) :
    (cellRead (cellWrite m a b) x).isSome = true := by
  rw [cellRead_cellWrite]; split <;> simp [h]

theorem Allocated.cellWrite {m : Memory} {a n x : Nat} {b : Byte} (h : Allocated m a n) :
    Allocated (cellWrite m x b) a n := fun k hk => cellWrite_isSome (h k hk)

theorem Allocated.mono {m : Memory} {a n a' n' : Nat} (h : Allocated m a n) (h1 : a ≤ a') (h2 : a' + n' ≤ a + n) :
    Allocated m a' n' := fun k hk => by
  have := h (a' - a + k) (by omega); rwa [show a + (a' - a + k) = a' + k by omega] at this

/-! ### The canonical form -/

theorem cellsRise_mono {lo lo' hi : Nat} {m : List Host.Cell} (h : cellsRise lo hi m = true) (hlo : lo' ≤ lo) :
    cellsRise lo' hi m = true := by
  cases m with
  | nil => rfl
  | cons kc m =>
    obtain ⟨k, c⟩ := kc
    simp only [cellsRise, Bool.and_eq_true, decide_eq_true_eq] at h ⊢
    exact ⟨⟨by omega, h.1.2⟩, h.2⟩

/-- A write below the bound keeps the canonical form. -/
theorem cellWrite_cellsRise {lo hi a : Nat} {b : Byte} {m : List Host.Cell} (h : cellsRise lo hi m = true) (h1 : lo ≤ a)
    (h2 : a < hi) : cellsRise lo hi (cellWrite m a b) = true := by
  induction m generalizing lo with
  | nil => simp [cellWrite, cellsRise, h1, h2]
  | cons kc m ih =>
    obtain ⟨k, c⟩ := kc
    simp only [cellsRise, Bool.and_eq_true, decide_eq_true_eq] at h
    simp only [cellWrite]
    split_ifs with h3 h4
    · simp only [cellsRise, Bool.and_eq_true, decide_eq_true_eq]
      exact ⟨⟨h1, h2⟩, ⟨by omega, h.1.2⟩, h.2⟩
    · subst h4
      simp only [cellsRise, Bool.and_eq_true, decide_eq_true_eq]
      exact ⟨⟨h1, h2⟩, h.2⟩
    · simp only [cellsRise, Bool.and_eq_true, decide_eq_true_eq]
      exact ⟨h.1, ih h.2 (by omega)⟩

/-- Unlisting an address keeps the canonical form. -/
theorem cellErase_cellsRise {lo hi a : Nat} {m : List Host.Cell} (h : cellsRise lo hi m = true) :
    cellsRise lo hi (cellErase m a) = true := by
  induction m generalizing lo with
  | nil => rfl
  | cons kc m ih =>
    obtain ⟨k, c⟩ := kc
    simp only [cellsRise, Bool.and_eq_true, decide_eq_true_eq] at h
    simp only [cellErase]
    split_ifs
    · exact cellsRise_mono (ih h.2) (by omega)
    · simp only [cellsRise, Bool.and_eq_true, decide_eq_true_eq]
      exact ⟨h.1, ih h.2⟩

theorem cellWriteAll_cellsRise {lo hi a : Nat} {bs : List Byte} {m : List Host.Cell} (h : cellsRise lo hi m = true)
    (h1 : lo ≤ a) (h2 : a + bs.length ≤ hi) : cellsRise lo hi (cellWriteAll m a bs) = true := by
  induction bs generalizing m a with
  | nil => exact h
  | cons b bs ih =>
    simp only [List.length_cons] at h2
    exact ih (cellWrite_cellsRise h h1 (by omega)) (by omega) (by omega)

/-- A listed address is in range. -/
theorem cellRead_lt {lo hi a : Nat} {m : List Host.Cell} (h : cellsRise lo hi m = true)
    (ha : (cellRead m a).isSome = true) : a < hi := by
  induction m generalizing lo with
  | nil => simp at ha
  | cons kc m ih =>
    obtain ⟨k, c⟩ := kc
    simp only [cellsRise, Bool.and_eq_true, decide_eq_true_eq] at h
    rw [cellRead_cons] at ha
    split_ifs at ha with hk
    · omega
    · exact ih h.2 ha

/-- A write below 2^32 keeps host memory canonical. -/
theorem Memory.wf_cellWrite {m : Memory} {a : Nat} {b : Byte} (h : Memory.wf m = true) (ha : a < 2 ^ 32) :
    Memory.wf (Sys2Proof.Machine.cellWrite m a b) = true := cellWrite_cellsRise h (Nat.zero_le _) ha

/-- Unlisting keeps host memory canonical. -/
theorem Memory.wf_cellErase {m : Memory} {a : Nat} (h : Memory.wf m = true) :
    Memory.wf (Sys2Proof.Machine.cellErase m a) = true := cellErase_cellsRise h

/-- A store of the block keeps host memory canonical: the byte was allocated. -/
theorem Memory.wf_memStore {m m' : Memory} {a : Nat} {b : Byte} (h : Memory.wf m = true)
    (hs : memStore m a b = some m') : Memory.wf m' = true := by
  obtain ⟨ha, rfl⟩ := memStore_eq_some.mp hs
  exact Memory.wf_cellWrite h (cellRead_lt h ha)

/-- Writes below the buffer's size keep the scratch buffer canonical. -/
theorem scratchWf_cellWrite {m : List Host.Cell} {i : Nat} {b : Byte} (h : scratchWf m = true)
    (hi : i < Config.scratchSize) : scratchWf (Sys2Proof.Machine.cellWrite m i b) = true :=
  cellWrite_cellsRise h (Nat.zero_le _) hi

theorem scratchWf_cellWriteAll {m : List Host.Cell} {bs : List Byte} (h : scratchWf m = true)
    (hn : bs.length ≤ Config.scratchSize) : scratchWf (Sys2Proof.Machine.cellWriteAll m 0 bs) = true :=
  cellWriteAll_cellsRise h (Nat.zero_le _) (by omega)

/-- The memory of the reset machine is canonical. -/
theorem reset_memory_wf : Memory.wf State.reset.mem = true := rfl

end Sys2Proof.Machine
end

