-- ==== Sys2Proof/Laws/Engines.lean ====
section
/-! SUPPORT. What the moves of the environment can do: their frame, said once, and the one induction over the moves that fall before
an access. -/

namespace Sys2Proof.Machine

/-! ### The interrupt latch -/

/-- Outside a handler run, and where a high line was pending, the latch is set exactly by a high line. -/
theorem latch_settled {p : Config.Params} {old new : Device} (h : old.Settled p) (hr : new.iepRun = false)
    (hp : new.irqPend = old.irqPend) :
    latch p old new = { new with irqPend := old.irqPend || irqLevel p new } := by
  have h2 := h.2 h.1
  unfold latch
  rw [hp, hr]
  cases irqLevel p old <;> cases irqLevel p new <;> cases hq : old.irqPend <;> simp_all

/-- A change that cannot raise the line leaves the latch alone, in a handler run and outside one. -/
theorem latch_of_not_raised {p : Config.Params} {old new : Device} (h : old.Latched p) (hr : new.iepRun = old.iepRun)
    (hp : new.irqPend = old.irqPend) (hl : irqLevel p new = true → irqLevel p old = true) : latch p old new = new := by
  have e : (new.irqPend || (irqLevel p new && (!irqLevel p old || !new.iepRun))) = new.irqPend := by
    rw [hr, hp]
    cases hn : irqLevel p new with
    | false => simp
    | true =>
      cases ho : old.iepRun with
      | false => simp [h ho (hl hn)]
      | true => simp [hl hn]
  unfold latch
  rw [e]

/-- A low line leaves the latch alone. -/
theorem latch_of_low {p : Config.Params} {old new : Device} (hl : irqLevel p new = false) : latch p old new = new := by
  simp [latch, hl]

/-- The latch keeps an instance settled. -/
theorem latch_keeps_settled {p : Config.Params} {old new : Device} (hr : new.iepRun = false) :
    (latch p old new).Settled p := by
  refine ⟨hr, fun _ h => ?_⟩
  have h' : irqLevel p new = true := h
  simp [hr, h']

/-- With every enable clear the line is low. -/
theorem irqLevel_zero {p : Config.Params} {d : Device} (h1 : d.mb = .zero) (h2 : d.db = .zero) : irqLevel p d = false := by
  simp [irqLevel, h1, h2, MBlock.zero, DBlock.zero]

@[simp] theorem irqLevel_resetController (p : Config.Params) (d : Device) : irqLevel p (resetController d) = false :=
  irqLevel_zero rfl rfl

/-- The line depends on the registers only. -/
theorem irqLevel_congr {p : Config.Params} {d v : Device} (h1 : v.mb.status = d.mb.status) (h2 : v.mb.inten = d.mb.inten)
    (h3 : v.mb.ovf = d.mb.ovf) (h4 : v.mb.rdflag = d.mb.rdflag) (h5 : v.db.status = d.db.status)
    (h6 : v.db.inten = d.db.inten) : irqLevel p v = irqLevel p d := by
  simp [irqLevel, h1, h2, h3, h4, h5, h6]

/-! ### The programmed state -/

theorem Device.SameProgramme.refl (d : Device) : d.SameProgramme d := by simp [Device.SameProgramme]

theorem Device.SameProgramme.trans {a b c : Device} (h1 : a.SameProgramme b) (h2 : b.SameProgramme c) :
    a.SameProgramme c := by
  simp only [Device.SameProgramme] at *
  simp [h1, h2]

/-- A bus-engine move changes no programmed register and no context. -/
theorem beMove_sameProgramme (p : Config.Params) (m : BeMove) (d : Device) : d.SameProgramme (beMove p m d) := by
  unfold beMove
  split
  · cases m <;> simp only [beEffect, completeSlot, deliverWord] <;> (try split) <;> simp [Device.SameProgramme]
  · exact .refl d

/-! ### The instances about the one in hand -/

/-- The instance in hand stands where its number says. -/
def Ctx.Placed (l : Ctx) : Prop := l.before.length = l.id

@[simp] theorem Ctx.mapDev_devices (f : Device → Device) (l : Ctx) :
    (l.mapDev f).devices = l.before ++ f l.dev :: l.after := rfl

/-- The instance in hand among all. -/
theorem Ctx.devices_self {l : Ctx} (h : l.Placed) : l.devices[l.id]? = some l.dev := by
  rw [← show l.before.length = l.id from h]; simp [Ctx.devices]

/-- Every other instance is a peer. -/
theorem Ctx.peer?_eq {l : Ctx} (h : l.Placed) {k : Nat} (hk : k ≠ l.id) : l.peer? k = l.devices[k]? := by
  have h' : l.before.length = l.id := h
  unfold Ctx.peer? Ctx.devices
  split_ifs with h1
  · rw [List.getElem?_append_left (by omega)]
  · rw [List.getElem?_append_right (by omega), h']
    obtain ⟨n, hn⟩ : ∃ n, k - l.id = n + 1 := ⟨k - l.id - 1, by omega⟩
    rw [hn, List.getElem?_cons_succ, Nat.add_sub_cancel]

/-- Putting the instance in hand back. -/
theorem Ctx.devices_dev {l : Ctx} (h : l.Placed) (v : Device) : ({ l with dev := v } : Ctx).devices = l.devices.set l.id v := by
  rw [← show l.before.length = l.id from h]; simp [Ctx.devices]

/-- Putting another instance back. -/
theorem Ctx.devices_setPeer {l : Ctx} (h : l.Placed) {k : Nat} (hk : k ≠ l.id) (v : Device) :
    (l.setPeer k v).devices = l.devices.set k v := by
  have h' : l.before.length = l.id := h
  unfold Ctx.setPeer Ctx.devices
  split_ifs with h1
  · rw [List.set_append_left _ _ (by omega)]
  · rw [List.set_append_right _ _ (by omega), h']
    obtain ⟨n, hn⟩ : ∃ n, k - l.id = n + 1 := ⟨k - l.id - 1, by omega⟩
    rw [hn, List.set_cons_succ, Nat.add_sub_cancel]

/-! ### The DMA engine -/

/-- Everything a DMA-engine move can do (R283, R78). -/
theorem deMove_cases (m : DeMove) (l : Ctx) :
    deMove m l = l ∨
    (l.dev.deActive = true ∧ l.dev.stuck.de = false ∧
      ((∃ mask, m = .set mask ∧ deMove m l =
          { l with dev := latch l.params l.dev { l.dev with db := { l.dev.db with status := l.dev.db.status ||| mask } } }) ∨
      (∃ i b, m = .read i ∧ l.dev.db.dir = false ∧ i.toNat < l.dev.db.len.toNat ∧
        deMove m l = { l with trace := .fetched l.id i b :: l.trace }) ∨
      (∃ i b a, m = .write i b ∧ l.dev.db.dir = true ∧ i.toNat < l.dev.db.len.toNat ∧
        resolve l.dev i.toNat = some (.host a) ∧ (cellRead l.mem a).isSome = true ∧
        deMove m l = { l with mem := cellWrite l.mem a b }) ∨
      (∃ i b j, m = .write i b ∧ l.dev.db.dir = true ∧ i.toNat < l.dev.db.len.toNat ∧
        resolve l.dev i.toNat = some (.scratch j) ∧
        deMove m l = { l with dev := { l.dev with scratch := cellWrite l.dev.scratch j b } }) ∨
      (∃ i a, (m = .read i ∧ l.dev.db.dir = false ∨ ∃ b, m = .write i b ∧ l.dev.db.dir = true) ∧
        i.toNat < l.dev.db.len.toNat ∧ resolve l.dev i.toNat = some (.host a) ∧ cellRead l.mem a = none ∧
        deMove m l = haltEngine l))) := by
  by_cases ha : (l.dev.deActive && !l.dev.stuck.de) = true
  · have ha' : l.dev.deActive = true ∧ l.dev.stuck.de = false := by simpa using ha
    cases m with
    | set mask => exact .inr ⟨ha'.1, ha'.2, .inl ⟨mask, rfl, by simp [deMove, ha]⟩⟩
    | read i =>
      by_cases hd : (!l.dev.db.dir && decide (i.toNat < l.dev.db.len.toNat)) = true
      · have hd' : l.dev.db.dir = false ∧ i.toNat < l.dev.db.len.toNat := by simpa using hd
        have e : deMove (.read i) l = deRead i l := by unfold deMove; rw [if_pos ha]; exact if_pos hd
        rw [e]; unfold deRead
        cases hr : resolve l.dev i.toNat with
        | none => exact .inl rfl
        | some x =>
          cases x with
          | host a =>
            cases hm : cellRead l.mem a with
            | none =>
              exact .inr ⟨ha'.1, ha'.2, .inr (.inr (.inr (.inr
                ⟨i, a, .inl ⟨rfl, hd'.1⟩, hd'.2, hr, hm, by simp [hm]⟩)))⟩
            | some b => exact .inr ⟨ha'.1, ha'.2, .inr (.inl ⟨i, b, rfl, hd'.1, hd'.2, by simp [hm]⟩)⟩
          | scratch j => exact .inr ⟨ha'.1, ha'.2, .inr (.inl ⟨i, _, rfl, hd'.1, hd'.2, rfl⟩)⟩
      · exact .inl (by unfold deMove; rw [if_pos ha]; exact if_neg hd)
    | write i b =>
      by_cases hd : (l.dev.db.dir && decide (i.toNat < l.dev.db.len.toNat)) = true
      · have hd' : l.dev.db.dir = true ∧ i.toNat < l.dev.db.len.toNat := by simpa using hd
        have e : deMove (.write i b) l = deWrite i b l := by unfold deMove; rw [if_pos ha]; exact if_pos hd
        rw [e]; unfold deWrite
        cases hr : resolve l.dev i.toNat with
        | none => exact .inl rfl
        | some x =>
          cases x with
          | host a =>
            cases hm : memStore l.mem a b with
            | none =>
              refine .inr ⟨ha'.1, ha'.2, .inr (.inr (.inr (.inr
                ⟨i, a, .inr ⟨b, rfl, hd'.1⟩, hd'.2, hr, ?_, by simp [hm]⟩)))⟩
              cases hc : cellRead l.mem a with
              | none => rfl
              | some c => simp [memStore, hc] at hm
            | some mem =>
              obtain ⟨h1, rfl⟩ := memStore_eq_some.mp hm
              exact .inr ⟨ha'.1, ha'.2, .inr (.inr (.inl ⟨i, b, a, rfl, hd'.1, hd'.2, hr, h1, by simp [hm]⟩))⟩
          | scratch j =>
            exact .inr ⟨ha'.1, ha'.2, .inr (.inr (.inr (.inl ⟨i, b, j, rfl, hd'.1, hd'.2, hr, rfl⟩)))⟩
      · exact .inl (by unfold deMove; rw [if_pos ha]; exact if_neg hd)
  · exact .inl (by unfold deMove; exact if_neg ha)

/-- Where the DMA engine reads and writes: inside the transfer's buffer, or inside the scratch buffer. -/
theorem resolve_eq_some {d : Device} {i : Nat} {x : Target} (h : resolve d i = some x) :
    d.map.valid = true ∧
      ∃ j, j < (cmdLen d.cmdl).toNat ∧ d.map.devAddr.toNat + j = d.db.addr.toNat + i ∧
        ((x = .host ((cmdBuf d.cmdl).toNat + j) ∧ d.map.useScratch = false) ∨
          (x = .scratch j ∧ d.map.useScratch = true ∧ j < Config.scratchSize)) := by
  unfold resolve at h
  simp only at h
  split at h
  · rename_i hc
    refine ⟨hc.1, d.db.addr.toNat + i - d.map.devAddr.toNat, hc.2.2, by omega, ?_⟩
    split at h
    · split at h
      · injection h with h; exact .inr ⟨h.symm, ‹_›, ‹_›⟩
      · cases h
    · injection h with h
      exact .inl ⟨h.symm, by simpa using ‹¬d.map.useScratch = true›⟩
  · cases h

/-! ### What a move of the environment leaves -/

/-! `x &&& ~~~y = 0` says that every bit of `x` is a bit of `y`. -/

theorem bits_kept_or {w : Nat} (x y : BitVec w) : x &&& ~~~(x ||| y) = 0 := by
  apply BitVec.eq_of_getLsbD_eq
  intro i hi
  simp only [BitVec.getLsbD_and, BitVec.getLsbD_not, BitVec.getLsbD_or, hi, decide_true, Bool.true_and]
  cases x.getLsbD i <;> simp

theorem bits_kept_trans {w : Nat} {x y z : BitVec w} (h1 : x &&& ~~~y = 0) (h2 : y &&& ~~~z = 0) : x &&& ~~~z = 0 := by
  apply BitVec.eq_of_getLsbD_eq
  intro i hi
  have e1 := congrArg (fun x => BitVec.getLsbD x i) h1
  have e2 := congrArg (fun x => BitVec.getLsbD x i) h2
  simp only [BitVec.getLsbD_and, BitVec.getLsbD_not, hi, decide_true, Bool.true_and] at e1 e2 ⊢
  revert e1 e2
  cases x.getLsbD i <;> cases y.getLsbD i <;> simp

/-- The engines only set bits of the status registers: none is lost from one instance to the next (R282, R283). -/
structure Device.Raised (d v : Device) : Prop where
  status : d.mb.status &&& ~~~v.mb.status = 0
  ovf : d.mb.ovf &&& ~~~v.mb.ovf = 0
  rdflag : d.mb.rdflag &&& ~~~v.mb.rdflag = 0
  dma : d.db.status &&& ~~~v.db.status = 0

theorem Device.Raised.of_eq {d v : Device} (h1 : v.mb = d.mb) (h2 : v.db = d.db) : d.Raised v := by
  constructor <;> simp [h1, h2]

theorem Device.Raised.trans {a b c : Device} (h1 : a.Raised b) (h2 : b.Raised c) : a.Raised c :=
  ⟨bits_kept_trans h1.status h2.status, bits_kept_trans h1.ovf h2.ovf, bits_kept_trans h1.rdflag h2.rdflag,
    bits_kept_trans h1.dma h2.dma⟩

theorem beMove_raised (p : Config.Params) (m : BeMove) (d : Device) : d.Raised (beMove p m d) := by
  unfold beMove
  split
  · cases m <;> simp only [beEffect, completeSlot, deliverWord] <;> (try split) <;> (try split) <;> constructor <;>
      simp [bits_kept_or]
  · exact .of_eq rfl rfl

/-- What every move that falls between two accesses leaves of the instance in hand and about it. -/
structure EnvFrame (l r : Ctx) : Prop where
  id : r.id = l.id
  params : r.params = l.params
  before : r.before.length = l.before.length
  after : r.after.length = l.after.length
  programme : l.dev.SameProgramme r.dev
  raised : l.dev.Raised r.dev
  pend : l.dev.irqPend = true → r.dev.irqPend = true
  scratch : l.dev.deActive = false → r.dev.scratch = l.dev.scratch
  trace : ∃ obs, r.trace = obs ++ l.trace

theorem EnvFrame.refl (l : Ctx) : EnvFrame l l := ⟨rfl, rfl, rfl, rfl, .refl _, .of_eq rfl rfl, fun h => h, fun _ => rfl, [], rfl⟩

theorem EnvFrame.trans {a b c : Ctx} (h1 : EnvFrame a b) (h2 : EnvFrame b c) : EnvFrame a c where
  id := h2.id.trans h1.id
  params := h2.params.trans h1.params
  before := h2.before.trans h1.before
  after := h2.after.trans h1.after
  programme := h1.programme.trans h2.programme
  raised := h1.raised.trans h2.raised
  pend := fun h => h2.pend (h1.pend h)
  scratch := fun h => by
    have hd : b.dev.deActive = a.dev.deActive := by
      have := h1.programme; simp only [Device.SameProgramme] at this; simp [this]
    rw [h2.scratch (by rw [hd, h]), h1.scratch h]
  trace := by
    obtain ⟨o1, e1⟩ := h1.trace
    obtain ⟨o2, e2⟩ := h2.trace
    exact ⟨o2 ++ o1, by rw [e2, e1, List.append_assoc]⟩

theorem beMove_frame (m : BeMove) (l : Ctx) : EnvFrame l (l.mapDev (beMove l.params m)) where
  id := rfl
  params := rfl
  before := rfl
  after := rfl
  programme := beMove_sameProgramme _ _ _
  raised := beMove_raised _ _ _
  pend := fun h => by simp only [Ctx.mapDev_dev, beMove]; split <;> simp [h]
  scratch := fun _ => by simp only [Ctx.mapDev_dev, beMove]; split <;> simp
  trace := ⟨[], rfl⟩

theorem deMove_frame (m : DeMove) (l : Ctx) : EnvFrame l (deMove m l) := by
  rcases deMove_cases m l with h | ⟨ha, -, ⟨_, -, h⟩ | ⟨_, _, -, -, -, h⟩ | ⟨_, _, _, -, -, -, -, -, h⟩ |
      ⟨_, _, _, -, -, -, -, h⟩ | ⟨_, _, -, -, -, -, h⟩⟩ <;> rw [h]
  · exact .refl l
  · exact ⟨rfl, rfl, rfl, rfl, by simp [Device.SameProgramme], by constructor <;> simp [bits_kept_or],
      fun h => by simp [h], fun _ => rfl, [], rfl⟩
  · exact ⟨rfl, rfl, rfl, rfl, .refl _, .of_eq rfl rfl, fun h => h, fun _ => rfl, [_], rfl⟩
  · exact ⟨rfl, rfl, rfl, rfl, .refl _, .of_eq rfl rfl, fun h => h, fun _ => rfl, [], rfl⟩
  · exact ⟨rfl, rfl, rfl, rfl, by simp [Device.SameProgramme], .of_eq rfl rfl, fun h => h,
      fun h => by simp [h] at ha, [], rfl⟩
  · exact ⟨rfl, rfl, rfl, rfl, by simp [haltEngine, Device.SameProgramme], .of_eq rfl rfl, fun h => h, fun _ => rfl, [], rfl⟩

theorem answerMap_frame (r : Option Word) (l : Ctx) : EnvFrame l (answerMap r l) :=
  ⟨rfl, rfl, rfl, rfl, by simp [answerMap, Device.SameProgramme], .of_eq rfl rfl, fun h => h, fun _ => rfl, [], rfl⟩

theorem timerExpire_trace (l : Ctx) : (timerExpire l).trace = l.trace := by
  unfold timerExpire wake expire; split_ifs <;> rfl

@[simp] theorem Ctx.setPeer_dev (k : Nat) (v : Device) (l : Ctx) : (l.setPeer k v).dev = l.dev := by
  unfold Ctx.setPeer; split <;> rfl
@[simp] theorem Ctx.setPeer_mem (k : Nat) (v : Device) (l : Ctx) : (l.setPeer k v).mem = l.mem := by
  unfold Ctx.setPeer; split <;> rfl
@[simp] theorem Ctx.setPeer_trace (k : Nat) (v : Device) (l : Ctx) : (l.setPeer k v).trace = l.trace := by
  unfold Ctx.setPeer; split <;> rfl
@[simp] theorem Ctx.setPeer_id (k : Nat) (v : Device) (l : Ctx) : (l.setPeer k v).id = l.id := by
  unfold Ctx.setPeer; split <;> rfl
@[simp] theorem Ctx.setPeer_params (k : Nat) (v : Device) (l : Ctx) : (l.setPeer k v).params = l.params := by
  unfold Ctx.setPeer; split <;> rfl
@[simp] theorem Ctx.setPeer_callCmd (k : Nat) (v : Device) (l : Ctx) : (l.setPeer k v).callCmd = l.callCmd := by
  unfold Ctx.setPeer; split <;> rfl
@[simp] theorem Ctx.setPeer_host (k : Nat) (v : Device) (l : Ctx) : (l.setPeer k v).host = l.host := by
  unfold Ctx.setPeer; split <;> rfl
@[simp] theorem Ctx.setPeer_before (k : Nat) (v : Device) (l : Ctx) : (l.setPeer k v).before.length = l.before.length := by
  unfold Ctx.setPeer; split <;> simp
@[simp] theorem Ctx.setPeer_after (k : Nat) (v : Device) (l : Ctx) : (l.setPeer k v).after.length = l.after.length := by
  unfold Ctx.setPeer; split <;> simp

/-- A move on another instance leaves the one in hand as it is. -/
theorem onPeer_dev (k : Nat) (f : Ctx → Ctx) (l : Ctx) : (onPeer k f l).dev = l.dev := by
  unfold onPeer; split <;> simp

/-- Everything a move on another instance can do. -/
theorem onPeer_cases (k : Nat) (f : Ctx → Ctx) (l : Ctx) :
    (l.peer? k = none ∧ onPeer k f l = l) ∨
    ∃ v, l.peer? k = some v ∧
      onPeer k f l =
        { l with
          mem := (f { l with id := k, dev := v }).mem
          trace := (f { l with id := k, dev := v }).trace }.setPeer k (f { l with id := k, dev := v }).dev := by
  unfold onPeer
  cases h : l.peer? k with
  | none => exact .inl ⟨rfl, rfl⟩
  | some v => exact .inr ⟨v, rfl, rfl⟩

theorem onPeer_frame (k : Nat) {f : Ctx → Ctx} (hf : ∀ l, ∃ obs, (f l).trace = obs ++ l.trace) (l : Ctx) :
    EnvFrame l (onPeer k f l) := by
  have hd := onPeer_dev k f l
  rcases onPeer_cases k f l with ⟨-, h⟩ | ⟨v, -, h⟩
  · rw [h]; exact .refl l
  · refine ⟨by simp [h], by simp [h], by simp [h], by simp [h], by rw [hd]; exact .refl _,
      by rw [hd]; exact .of_eq rfl rfl, by rw [hd]; exact id,
      fun _ => by rw [hd], ?_⟩
    obtain ⟨obs, e⟩ := hf { l with id := k, dev := v }
    exact ⟨obs, by rw [h]; simpa using e⟩

theorem onAny_frame (k : Nat) {f : Ctx → Ctx} (hf : ∀ l, EnvFrame l (f l)) (l : Ctx) : EnvFrame l (onAny k f l) := by
  unfold onAny; split
  · exact hf l
  · exact onPeer_frame k (fun l => (hf l).trace) l

/-- A command that falls between two accesses leaves the instance in hand as it is. -/
theorem hostCommand_dev (h : Nat) (c : Cmd) (l : Ctx) : (hostCommand h c l).dev = l.dev := by
  unfold hostCommand answer; simp only; split_ifs <;> try rfl
  split
  · rfl
  · split <;> simp

/-- Everything a command that falls between two accesses can do. -/
theorem hostCommand_cases (h : Nat) (c : Cmd) (l : Ctx) :
    hostCommand h c l = l ∨ (∃ r, hostCommand h c l = answer h c r l) ∨
    (c.args.dev.toNat ≠ l.id ∧ waiting h l.devices = false ∧ ∃ v, l.peer? c.args.dev.toNat = some v ∧ v.tp.busy = false ∧
      countsValid c = true ∧
      hostCommand h c l =
        { l with callCmd := c, host := h }.setPeer c.args.dev.toNat (startTransaction l.params h c v)) := by
  unfold hostCommand; simp only
  split_ifs with h1 h2 h3
  · exact .inl rfl
  · exact .inr (.inl ⟨_, rfl⟩)
  · exact .inl rfl
  · cases hp : l.peer? c.args.dev.toNat with
    | none => exact .inr (.inl ⟨_, rfl⟩)
    | some v =>
      simp only
      cases ha : admission v c with
      | some r => exact .inr (.inl ⟨r, rfl⟩)
      | none =>
        refine .inr (.inr ⟨h2, by simpa using h1, v, rfl, ?_⟩)
        unfold admission at ha
        split_ifs at ha with hb hc
        exact ⟨by simpa using hb, by simpa using hc, rfl⟩

theorem hostCommand_frame (h : Nat) (c : Cmd) (l : Ctx) : EnvFrame l (hostCommand h c l) := by
  have hd := hostCommand_dev h c l
  rcases hostCommand_cases h c l with e | ⟨r, e⟩ | ⟨-, -, v, -, -, -, e⟩
  · rw [e]; exact .refl l
  · rw [e]; exact ⟨rfl, rfl, rfl, rfl, .refl _, .of_eq rfl rfl, fun h => h, fun _ => rfl, [_], rfl⟩
  · exact ⟨by simp [e], by simp [e], by simp [e], by simp [e], by rw [hd]; exact .refl _,
      by rw [hd]; exact .of_eq rfl rfl, by rw [hd]; exact id,
      fun _ => by rw [hd], [], by simp [e]⟩

/-- The frame of every move that falls between two accesses (R280). -/
theorem envMove_frame (l : Ctx) (m : EnvMove) : EnvFrame l (envMove l m) := by
  cases m with
  | be k m => exact onAny_frame k (fun l => beMove_frame m l) l
  | de k m => exact onAny_frame k (fun l => deMove_frame m l) l
  | expire k =>
    show EnvFrame l (if k = l.id then l else onPeer k timerExpire l)
    split
    · exact .refl l
    · exact onPeer_frame k (fun l => ⟨[], timerExpire_trace l⟩) l
  | mapAnswer k r => exact onAny_frame k (fun l => answerMap_frame r l) l
  | store a b => exact ⟨rfl, rfl, rfl, rfl, .refl _, .of_eq rfl rfl, fun h => h, fun _ => rfl, [], rfl⟩
  | free a => exact ⟨rfl, rfl, rfl, rfl, .refl _, .of_eq rfl rfl, fun h => h, fun _ => rfl, [], rfl⟩
  | command h c => exact hostCommand_frame h c l

/-- A DMA-engine move unlists no byte of host memory. -/
theorem deMove_isSome {l : Ctx} {m : DeMove} {a : Nat} (h : (cellRead l.mem a).isSome = true) :
    (cellRead (deMove m l).mem a).isSome = true := by
  rcases deMove_cases m l with e | ⟨-, -, ⟨_, -, e⟩ | ⟨_, _, -, -, -, e⟩ | ⟨_, _, _, -, -, -, -, -, e⟩ |
      ⟨_, _, _, -, -, -, -, e⟩ | ⟨_, _, -, -, -, -, e⟩⟩ <;> rw [e]
  all_goals first | exact h | exact cellWrite_isSome h

theorem onPeer_mem {k : Nat} {f : Ctx → Ctx} {P : Memory → Prop} (hf : ∀ l, P l.mem → P (f l).mem) {l : Ctx} (h : P l.mem) :
    P (onPeer k f l).mem := by
  rcases onPeer_cases k f l with ⟨-, e⟩ | ⟨v, -, e⟩ <;> rw [e]
  · exact h
  · rw [Ctx.setPeer_mem]; exact hf { l with id := k, dev := v } h

theorem onAny_mem {k : Nat} {f : Ctx → Ctx} {P : Memory → Prop} (hf : ∀ l, P l.mem → P (f l).mem) {l : Ctx} (h : P l.mem) :
    P (onAny k f l).mem := by
  unfold onAny; split
  · exact hf l h
  · exact onPeer_mem hf h

theorem timerExpire_mem (l : Ctx) : (timerExpire l).mem = l.mem := by
  unfold timerExpire wake expire; split_ifs <;> rfl

theorem hostCommand_mem (h : Nat) (c : Cmd) (l : Ctx) : (hostCommand h c l).mem = l.mem := by
  rcases hostCommand_cases h c l with e | ⟨r, e⟩ | ⟨-, -, v, -, -, -, e⟩ <;> rw [e] <;> simp [answer]

/-- No move but a host's free unlists a byte of host memory. -/
theorem envMove_isSome {l : Ctx} {m : EnvMove} {a : Nat} (hm : ∀ x, m ≠ .free x) (h : (cellRead l.mem a).isSome = true) :
    (cellRead (envMove l m).mem a).isSome = true := by
  cases m with
  | be k m =>
    exact onAny_mem (f := fun l => l.mapDev (beMove l.params m)) (P := fun m => (cellRead m a).isSome = true) (fun _ h => h) h
  | de k m => exact onAny_mem (P := fun m => (cellRead m a).isSome = true) (fun _ h => deMove_isSome h) h
  | expire k =>
    show (cellRead (if k = l.id then l else onPeer k timerExpire l).mem a).isSome = true
    split
    · exact h
    · exact onPeer_mem (P := fun m => (cellRead m a).isSome = true) (fun l h => by rw [timerExpire_mem]; exact h) h
  | mapAnswer k r => exact onAny_mem (f := answerMap r) (P := fun m => (cellRead m a).isSome = true) (fun _ h => h) h
  | store x b => exact cellWrite_isSome h
  | free x => exact absurd rfl (hm x)
  | command k c => rw [show envMove l (.command k c) = hostCommand k c l from rfl, hostCommand_mem]; exact h

/-- Every move that falls between two accesses keeps host memory canonical. -/
theorem envMove_wf {l : Ctx} {m : EnvMove} (h : Memory.wf l.mem = true) : Memory.wf (envMove l m).mem = true := by
  have hde : ∀ (m : DeMove) (l : Ctx), Memory.wf l.mem = true → Memory.wf (deMove m l).mem = true := by
    intro m l h
    rcases deMove_cases m l with e | ⟨-, -, ⟨_, -, e⟩ | ⟨_, _, -, -, -, e⟩ | ⟨_, _, _, -, -, -, -, ha, e⟩ |
      ⟨_, _, _, -, -, -, -, e⟩ | ⟨_, _, -, -, -, -, e⟩⟩ <;> rw [e]
    all_goals first | exact h | exact Memory.wf_cellWrite h (cellRead_lt h ha)
  cases m with
  | be k m => exact onAny_mem (f := fun l => l.mapDev (beMove l.params m)) (P := fun m => Memory.wf m = true) (fun _ h => h) h
  | de k m => exact onAny_mem (P := fun m => Memory.wf m = true) (hde m) h
  | expire k =>
    show Memory.wf (if k = l.id then l else onPeer k timerExpire l).mem = true
    split
    · exact h
    · exact onPeer_mem (P := fun m => Memory.wf m = true) (fun l h => by rw [timerExpire_mem]; exact h) h
  | mapAnswer k r => exact onAny_mem (f := answerMap r) (P := fun m => Memory.wf m = true) (fun _ h => h) h
  | store a b => exact Memory.wf_cellWrite h a.isLt
  | free a => exact Memory.wf_cellErase h
  | command k c => rw [show envMove l (.command k c) = hostCommand k c l from rfl, hostCommand_mem]; exact h

/-! ### The moves before an access -/

/-- What holds before the moves, and is kept by each of them, holds at the access. -/
theorem pump_induct {P : Ctx → Prop} {Q : EnvMove → Prop} (hi : ∀ l rest, P l → P { l with dev := { l.dev with inter := rest } })
    (hm : ∀ l m, Q m → P l → P (envMove l m)) (l : Ctx) (hq : l.dev.Gaps Q) (h : P l) : P (pump l) := by
  unfold pump
  split
  · exact h
  · rename_i moves rest hmoves
    have hq' : ∀ m ∈ moves, Q m := fun m hm' => hq moves (by rw [hmoves]; exact List.mem_cons_self) m hm'
    clear hmoves hq
    have h0 : P (l.mapDev fun d => { d with inter := rest }) := hi l rest h
    generalize l.mapDev (fun d => { d with inter := rest }) = l0 at h0 ⊢
    induction moves generalizing l0 with
    | nil => exact h0
    | cons m moves ih =>
      exact ih (fun m hm' => hq' m (List.mem_cons_of_mem _ hm')) (envMove l0 m) (hm l0 m (hq' m List.mem_cons_self) h0)

/-- The same for moves of every kind. -/
theorem pump_induct_all {P : Ctx → Prop} (hi : ∀ l rest, P l → P { l with dev := { l.dev with inter := rest } })
    (hm : ∀ l m, P l → P (envMove l m)) (l : Ctx) (h : P l) : P (pump l) :=
  pump_induct (Q := fun _ => True) hi (fun l m _ => hm l m) l (fun _ _ _ _ => trivial) h

/-- With nothing in between the access happens at once. -/
theorem pump_quiet {l : Ctx} (h : l.dev.inter = []) : pump l = l := by simp [pump, h]

/-- The frame of what falls before an access. -/
theorem pump_frame (l : Ctx) : EnvFrame l (pump l) :=
  pump_induct_all (P := fun x => EnvFrame l x)
    (fun _ _ h => h.trans ⟨rfl, rfl, rfl, rfl, by simp [Device.SameProgramme], .of_eq rfl rfl, fun h => h, fun _ => rfl, [],
      rfl⟩)
    (fun x m h => h.trans (envMove_frame x m)) l (.refl l)

theorem pump_sameProgramme (l : Ctx) : l.dev.SameProgramme (pump l).dev := (pump_frame l).programme
theorem pump_raised (l : Ctx) : l.dev.Raised (pump l).dev := (pump_frame l).raised
@[simp] theorem pump_id (l : Ctx) : (pump l).id = l.id := (pump_frame l).id
@[simp] theorem pump_params (l : Ctx) : (pump l).params = l.params := (pump_frame l).params
theorem pump_trace (l : Ctx) : ∃ obs, (pump l).trace = obs ++ l.trace := (pump_frame l).trace
theorem pump_irqPend {l : Ctx} (h : l.dev.irqPend = true) : (pump l).dev.irqPend = true := (pump_frame l).pend h

/-- No environment move changes the list of what is still to fall between accesses. -/
theorem envMove_inter (l : Ctx) (m : EnvMove) : (envMove l m).dev.inter = l.dev.inter := by
  have hany : ∀ (k : Nat) (f : Ctx → Ctx), (∀ l, (f l).dev.inter = l.dev.inter) → (onAny k f l).dev.inter = l.dev.inter := by
    intro k f hf; unfold onAny; split
    · exact hf l
    · rw [onPeer_dev]
  cases m with
  | be k m => exact hany k _ fun l => by simp only [Ctx.mapDev_dev, beMove]; split <;> simp
  | de k m =>
    refine hany k _ fun l => ?_
    rcases deMove_cases m l with e | ⟨-, -, ⟨_, -, e⟩ | ⟨_, _, -, -, -, e⟩ | ⟨_, _, _, -, -, -, -, -, e⟩ |
      ⟨_, _, _, -, -, -, -, e⟩ | ⟨_, _, -, -, -, -, e⟩⟩ <;> rw [e] <;> simp [haltEngine]
  | expire k =>
    show (if k = l.id then l else onPeer k timerExpire l).dev.inter = l.dev.inter
    split
    · rfl
    · rw [onPeer_dev]
  | mapAnswer k r => exact hany k _ fun l => rfl
  | store a b => rfl
  | free a => rfl
  | command h c => exact congrArg Device.inter (hostCommand_dev h c l)

/-- An access takes its own moves off the list. -/
theorem pump_inter (l : Ctx) : (pump l).dev.inter = l.dev.inter.tail := by
  unfold pump
  split
  · rename_i h; rw [h]; rfl
  · rename_i moves rest h
    have h0 : (l.mapDev fun d => { d with inter := rest }).dev.inter = l.dev.inter.tail := by simp [h]
    clear h
    generalize l.mapDev (fun d => { d with inter := rest }) = l0 at h0 ⊢
    induction moves generalizing l0 with
    | nil => exact h0
    | cons m moves ih => exact ih (envMove l0 m) (by rw [envMove_inter, h0])

theorem pump_gaps {l : Ctx} {Q : EnvMove → Prop} (h : l.dev.Gaps Q) : (pump l).dev.Gaps Q := fun moves hm => by
  rw [pump_inter] at hm; exact h moves (List.mem_of_mem_tail hm)

/-- Allocated bytes stay allocated where no host frees any (R85). -/
theorem pump_allocated {l : Ctx} {a n : Nat} (hf : l.dev.NoFrees) (h : Allocated l.mem a n) : Allocated (pump l).mem a n :=
  pump_induct (P := fun x => Allocated x.mem a n) (fun _ _ h => h) (fun _ _ hm h k hk => envMove_isSome hm (h k hk)) l hf h

theorem pump_wf {l : Ctx} (h : Memory.wf l.mem = true) : Memory.wf (pump l).mem = true :=
  pump_induct_all (P := fun x => Memory.wf x.mem = true) (fun _ _ h => h) (fun _ _ h => envMove_wf h) l h

/-- A stopped engine has no move. -/
theorem beMove_inactive {p : Config.Params} {m : BeMove} {d : Device} (h : d.beActive = false) : beMove p m d = d := by
  simp [beMove, h]

theorem deMove_inactive {m : DeMove} {l : Ctx} (h : l.dev.deActive = false) : deMove m l = l := by
  simp [deMove, h]

/-- With both engines stopped, what falls before an access changes nothing of the instance but the list of moves and the oracle's
answer. -/
theorem pump_inactive {l : Ctx} (h1 : l.dev.beActive = false) (h2 : l.dev.deActive = false) :
    (pump l).dev = { l.dev with inter := l.dev.inter.tail, oracle := (pump l).dev.oracle } := by
  have key : ∃ t o, (pump l).dev = { l.dev with inter := t, oracle := o } := by
    refine pump_induct_all (P := fun x => ∃ t o, x.dev = { l.dev with inter := t, oracle := o }) ?_ ?_ l ⟨_, _, rfl⟩
    · rintro x rest ⟨t, o, h⟩; exact ⟨rest, o, by rw [h]⟩
    · rintro x m ⟨t, o, h⟩
      cases m with
      | be k m =>
        refine ⟨t, o, ?_⟩
        show (onAny k _ x).dev = _
        unfold onAny; split
        · rw [Ctx.mapDev_dev, beMove_inactive (by rw [h]; exact h1), h]
        · rw [onPeer_dev, h]
      | de k m =>
        refine ⟨t, o, ?_⟩
        show (onAny k _ x).dev = _
        unfold onAny; split
        · rw [deMove_inactive (by rw [h]; exact h2), h]
        · rw [onPeer_dev, h]
      | expire k =>
        refine ⟨t, o, ?_⟩
        show (if k = x.id then x else onPeer k timerExpire x).dev = _
        split
        · exact h
        · rw [onPeer_dev, h]
      | mapAnswer k r =>
        show ∃ t o, (onAny k _ x).dev = _
        unfold onAny; split
        · exact ⟨t, r, by simp [answerMap, h]⟩
        · exact ⟨t, o, by rw [onPeer_dev, h]⟩
      | store a b => exact ⟨t, o, h⟩
      | free a => exact ⟨t, o, h⟩
      | command k c => exact ⟨t, o, by rw [show envMove x (.command k c) = hostCommand k c x from rfl, hostCommand_dev, h]⟩
  obtain ⟨t, o, h⟩ := key
  have ht : (pump l).dev.inter = t := by rw [h]
  have ho : (pump l).dev.oracle = o := by rw [h]
  rw [← pump_inter, ht, ho, h]

end Sys2Proof.Machine
end

