-- ==== Sys2Proof/Laws/Ops.lean ====
section
/-! SUPPORT. What the shared operations can do, said once: accesses with nothing in between and whatever falls in between, how an
operation ends, the running of an operation on the instance in hand. -/

namespace Sys2Proof.Machine

/-! ### Running on the instance in hand -/

theorem State.InHand.lt {s : State} {d : Device} (h : s.InHand d) : s.cur < s.devs.length := by
  obtain ⟨hl, -⟩ := List.getElem?_eq_some_iff.mp h
  exact hl

/-- The instance in hand stands where its number says. -/
theorem State.ctx_placed {s : State} {k : Nat} {d : Device} (h : s.devs[k]? = some d) : (s.ctx k d).Placed := by
  obtain ⟨hl, -⟩ := List.getElem?_eq_some_iff.mp h
  show (s.devs.take k).length = k
  rw [List.length_take]; omega

/-- The instances about the one in hand are the machine's. -/
theorem State.ctx_devices {s : State} {k : Nat} {d : Device} (h : s.devs[k]? = some d) : (s.ctx k d).devices = s.devs := by
  obtain ⟨hl, e⟩ := List.getElem?_eq_some_iff.mp h
  show s.devs.take k ++ d :: s.devs.drop (k + 1) = s.devs
  rw [← e, ← List.drop_eq_getElem_cons hl, List.take_append_drop]

theorem onInstance_inHand {s : State} {d : Device} (h : s.InHand d) (ag : Agent) (f : Ctx → Res) :
    onInstance ag s.cur f s =
      match f (s.ctx s.cur d) with
      | .next l => .next (s.putCtx l)
      | .stuck l => .next (s.putCtx (l.mapDev (halt ag)))
      | .refused e => .refused e := by
  have h' : s.devs[s.cur]? = some d := h
  cases hf : f (s.ctx s.cur d) <;> simp only [onInstance, h', hf]

theorem onInstanceDo_inHand {s : State} {d : Device} (h : s.InHand d) (f : Ctx → Ctx) :
    onInstanceDo s.cur f s = .next (s.putCtx (f (s.ctx s.cur d))) := by
  unfold onInstanceDo; rw [onInstance_inHand h]

/-- An operation that changes nothing leaves the machine as it was. -/
theorem State.putCtx_ctx {s : State} {d : Device} {k : Nat} (h : s.devs[k]? = some d) : s.putCtx (s.ctx k d) = s := by
  unfold State.putCtx; rw [State.ctx_devices h]; rfl

/-- What has been put back is in hand. -/
theorem State.putCtx_getElem? {s : State} {l : Ctx} (h : l.Placed) : (s.putCtx l).devs[l.id]? = some l.dev :=
  Ctx.devices_self h

/-- The context of what has been put back. -/
theorem State.ctx_putCtx {s : State} {l : Ctx} (h1 : l.Placed) (h2 : l.params = s.params) :
    (s.putCtx l).ctx l.id l.dev = l := by
  have h1' : l.before.length = l.id := h1
  have e1 : l.devices.take l.id = l.before := by rw [← h1']; simp [Ctx.devices]
  have e2 : l.devices.drop (l.id + 1) = l.after := by rw [← h1']; simp [Ctx.devices]
  cases l; simp_all [State.ctx]

theorem State.putCtx_putCtx {s : State} {l l' : Ctx} : (s.putCtx l).putCtx l' = s.putCtx l' := by
  simp [State.putCtx]

/-- Putting back a context with nothing changed about the instance is becoming its instance. -/
theorem State.putCtx_become {s : State} {d : Device} (h : s.InHand d) (v : Device) (mem : Memory) (obs : List Obs) :
    s.putCtx { s.ctx s.cur d with dev := v, mem := mem, trace := obs ++ s.trace } = s.become v mem obs := by
  have e : ({ s.ctx s.cur d with dev := v, mem := mem, trace := obs ++ s.trace } : Ctx).devices = s.devs.set s.cur v := by
    rw [← State.ctx_devices h]
    exact Ctx.devices_dev (l := { s.ctx s.cur d with mem := mem, trace := obs ++ s.trace }) (State.ctx_placed h) v
  unfold State.putCtx State.become; rw [e]; rfl

/-! ### How an operation ends -/

/-- The operation goes on or is stuck, in a context of which `P` holds; it is not refused. -/
def Res.Ends (P : Ctx → Prop) : Res → Prop
  | .next l => P l
  | .stuck l => P l
  | .refused _ => False

@[simp] theorem Res.ends_next {P : Ctx → Prop} {l : Ctx} : (Res.next l).Ends P ↔ P l := Iff.rfl
@[simp] theorem Res.ends_stuck {P : Ctx → Prop} {l : Ctx} : (Res.stuck l).Ends P ↔ P l := Iff.rfl
@[simp] theorem Res.ends_refused {P : Ctx → Prop} {e : Refusal} : (Res.refused e).Ends P ↔ False := Iff.rfl

theorem Res.Ends.mono {P Q : Ctx → Prop} {r : Res} (h : r.Ends P) (hpq : ∀ l, P l → Q l) : r.Ends Q := by
  cases r with
  | next l => exact hpq l h
  | stuck l => exact hpq l h
  | refused e => exact h

theorem andThen_ends {P Q : Ctx → Prop} {r : Res} {f : Ctx → Res} (h : r.Ends P) (hf : ∀ l, P l → (f l).Ends Q)
    (hpq : ∀ l, P l → Q l) : (andThen r f).Ends Q := by
  cases r with
  | next l => exact hf l h
  | stuck l => exact hpq l h
  | refused e => exact h

/-! ### Storing to a register -/

theorem poke_mCtrl_reset {v : Word} {d : Device} (h : v.getLsbD 0 = true) : poke .mCtrl v d = resetController d := by
  simp [poke, h]

/-- A store to a register leaves the contexts, the latches and the scratch buffer alone. -/
theorem poke_frame (r : Reg) (v : Word) (d : Device) :
    (poke r v d).tp = d.tp ∧ (poke r v d).seq = d.seq ∧ (poke r v d).cmdl = d.cmdl ∧ (poke r v d).res = d.res ∧
    (poke r v d).map = d.map ∧ (poke r v d).sig = d.sig ∧ (poke r v d).irqPend = d.irqPend ∧
    (poke r v d).iepRun = d.iepRun ∧ (poke r v d).scratch = d.scratch ∧ (poke r v d).handle = d.handle ∧
    (poke r v d).epoch = d.epoch ∧ (poke r v d).caller = d.caller ∧ (poke r v d).ret = d.ret ∧
    (poke r v d).oracle = d.oracle ∧ (poke r v d).inter = d.inter ∧ (poke r v d).stuck = d.stuck := by
  cases r <;> simp only [poke] <;> (try split) <;> simp

@[simp] theorem poke_tp (r : Reg) (v : Word) (d : Device) : (poke r v d).tp = d.tp := (poke_frame r v d).1
@[simp] theorem poke_seq (r : Reg) (v : Word) (d : Device) : (poke r v d).seq = d.seq := (poke_frame r v d).2.1
@[simp] theorem poke_cmdl (r : Reg) (v : Word) (d : Device) : (poke r v d).cmdl = d.cmdl := (poke_frame r v d).2.2.1
@[simp] theorem poke_res (r : Reg) (v : Word) (d : Device) : (poke r v d).res = d.res := (poke_frame r v d).2.2.2.1
@[simp] theorem poke_map (r : Reg) (v : Word) (d : Device) : (poke r v d).map = d.map := (poke_frame r v d).2.2.2.2.1
@[simp] theorem poke_sig (r : Reg) (v : Word) (d : Device) : (poke r v d).sig = d.sig := (poke_frame r v d).2.2.2.2.2.1
@[simp] theorem poke_irqPend (r : Reg) (v : Word) (d : Device) : (poke r v d).irqPend = d.irqPend :=
  (poke_frame r v d).2.2.2.2.2.2.1
@[simp] theorem poke_iepRun (r : Reg) (v : Word) (d : Device) : (poke r v d).iepRun = d.iepRun :=
  (poke_frame r v d).2.2.2.2.2.2.2.1
@[simp] theorem poke_scratch (r : Reg) (v : Word) (d : Device) : (poke r v d).scratch = d.scratch :=
  (poke_frame r v d).2.2.2.2.2.2.2.2.1
@[simp] theorem poke_handle (r : Reg) (v : Word) (d : Device) : (poke r v d).handle = d.handle :=
  (poke_frame r v d).2.2.2.2.2.2.2.2.2.1
@[simp] theorem poke_epoch (r : Reg) (v : Word) (d : Device) : (poke r v d).epoch = d.epoch :=
  (poke_frame r v d).2.2.2.2.2.2.2.2.2.2.1
@[simp] theorem poke_caller (r : Reg) (v : Word) (d : Device) : (poke r v d).caller = d.caller :=
  (poke_frame r v d).2.2.2.2.2.2.2.2.2.2.2.1
@[simp] theorem poke_ret (r : Reg) (v : Word) (d : Device) : (poke r v d).ret = d.ret :=
  (poke_frame r v d).2.2.2.2.2.2.2.2.2.2.2.2.1
@[simp] theorem poke_oracle (r : Reg) (v : Word) (d : Device) : (poke r v d).oracle = d.oracle :=
  (poke_frame r v d).2.2.2.2.2.2.2.2.2.2.2.2.2.1
@[simp] theorem poke_inter (r : Reg) (v : Word) (d : Device) : (poke r v d).inter = d.inter :=
  (poke_frame r v d).2.2.2.2.2.2.2.2.2.2.2.2.2.2.1
@[simp] theorem poke_stuck (r : Reg) (v : Word) (d : Device) : (poke r v d).stuck = d.stuck :=
  (poke_frame r v d).2.2.2.2.2.2.2.2.2.2.2.2.2.2.2

/-! ### Register accesses -/

@[simp] theorem regRead_snd (r : Reg) (l : Ctx) : (regRead r l).2 = pump l := rfl
@[simp] theorem regRead_fst (r : Reg) (l : Ctx) : (regRead r l).1 = peek r (pump l).dev := rfl

@[simp] theorem regWrite_id (r : Reg) (v : Word) (l : Ctx) : (regWrite r v l).id = l.id := pump_id l
@[simp] theorem regWrite_params (r : Reg) (v : Word) (l : Ctx) : (regWrite r v l).params = l.params := pump_params l
@[simp] theorem regWrite_mem (r : Reg) (v : Word) (l : Ctx) : (regWrite r v l).mem = (pump l).mem := rfl
@[simp] theorem regWrite_dev (r : Reg) (v : Word) (l : Ctx) :
    (regWrite r v l).dev = latch l.params (pump l).dev (poke r v (pump l).dev) := by
  rw [← pump_params l]; rfl
@[simp] theorem regWrite_trace (r : Reg) (v : Word) (l : Ctx) :
    (regWrite r v l).trace = .wrote l.id r v :: (pump l).trace := by
  simp [regWrite]

/-- A register write leaves the agents' contexts, and everything about the instance, as a move between accesses does. -/
theorem regWrite_frame (r : Reg) (v : Word) (l : Ctx) :
    (regWrite r v l).id = l.id ∧ (regWrite r v l).params = l.params ∧
    (regWrite r v l).before.length = l.before.length ∧ (regWrite r v l).after.length = l.after.length ∧
    (∃ obs, (regWrite r v l).trace = obs ++ l.trace) ∧ (regWrite r v l).dev.inter = l.dev.inter.tail := by
  have h := pump_frame l
  obtain ⟨obs, e⟩ := h.trace
  refine ⟨regWrite_id r v l, regWrite_params r v l, h.before, h.after, ⟨.wrote l.id r v :: obs, ?_⟩, ?_⟩
  · rw [regWrite_trace, e]; rfl
  · rw [regWrite_dev, latch_inter, poke_inter, pump_inter]

/-- A read-modify-write is a read and a write (R140). -/
theorem rmw_eq (r : Reg) (mask v : Word) (l : Ctx) :
    rmw r mask v l = regWrite r ((peek r (pump l).dev &&& ~~~mask) ||| (v &&& mask)) (pump l) := rfl

/-- A register read with nothing before its accesses. -/
theorem regRead_quiet {r : Reg} {l : Ctx} (h : l.dev.inter = []) : regRead r l = (peek r l.dev, l) := by
  simp [regRead, pump_quiet h]

/-- A register write with nothing before its accesses. -/
theorem regWrite_quiet {r : Reg} {v : Word} {l : Ctx} (h : l.dev.inter = []) :
    regWrite r v l =
      { l with dev := latch l.params l.dev (poke r v l.dev), trace := .wrote l.id r v :: l.trace } := by
  simp [regWrite, pump_quiet h]

/-- A read-modify-write with nothing before its accesses. -/
theorem rmw_quiet {r : Reg} {mask v : Word} {l : Ctx} (h : l.dev.inter = []) :
    rmw r mask v l =
      { l with
        dev := latch l.params l.dev (poke r ((peek r l.dev &&& ~~~mask) ||| (v &&& mask)) l.dev)
        trace := .wrote l.id r ((peek r l.dev &&& ~~~mask) ||| (v &&& mask)) :: l.trace } := by
  rw [rmw_eq, pump_quiet h, regWrite_quiet h]

/-- A clear pulse with nothing before its accesses. -/
theorem pulse_quiet {r : Reg} {mask : Word} {l : Ctx} (h : l.dev.inter = []) :
    pulse r mask l =
      { l with
        dev := latch l.params (latch l.params l.dev (poke r mask l.dev))
          (poke r 0 (latch l.params l.dev (poke r mask l.dev)))
        trace := .wrote l.id r 0 :: .wrote l.id r mask :: l.trace } := by
  unfold pulse
  rw [regWrite_quiet h, regWrite_quiet (by simp [h])]

/-- A register access keeps allocated bytes allocated where no host frees any. -/
theorem regWrite_allocated {r : Reg} {v : Word} {l : Ctx} {a n : Nat} (hf : l.dev.NoFrees) (h : Allocated l.mem a n) :
    Allocated (regWrite r v l).mem a n := pump_allocated hf h

theorem regWrite_gaps {r : Reg} {v : Word} {l : Ctx} {Q : EnvMove → Prop} (h : l.dev.Gaps Q) :
    (regWrite r v l).dev.Gaps Q := fun moves hm => by
  rw [(regWrite_frame r v l).2.2.2.2.2] at hm; exact h moves (List.mem_of_mem_tail hm)

theorem rmw_allocated {r : Reg} {mask v : Word} {l : Ctx} {a n : Nat} (hf : l.dev.NoFrees) (h : Allocated l.mem a n) :
    Allocated (rmw r mask v l).mem a n := by
  rw [rmw_eq]; exact regWrite_allocated (pump_gaps hf) (pump_allocated hf h)

/-- The controller reset, whatever falls between its accesses: the registers of both blocks are zero and the engines are stopped;
snapshot, sequencer's context and latches are as they were, but that a move may have set the pending latch (R141). -/
theorem rmw_reset (l : Ctx) :
    ∃ v : Device, l.dev.SameProgramme v ∧ (l.dev.irqPend = true → v.irqPend = true) ∧
      (rmw .mCtrl 1 1 l).dev = resetController v ∧ (rmw .mCtrl 1 1 l).id = l.id ∧
      (rmw .mCtrl 1 1 l).params = l.params ∧ (∃ obs, (rmw .mCtrl 1 1 l).trace = obs ++ l.trace) ∧
      (l.dev.NoFrees → ∀ a n, Allocated l.mem a n → Allocated (rmw .mCtrl 1 1 l).mem a n) := by
  have h := (pump_frame l).trans (pump_frame (pump l))
  obtain ⟨obs, e⟩ := h.trace
  refine ⟨(pump (pump l)).dev, h.programme, h.pend, ?_, by simp [rmw_eq], by simp [rmw_eq],
    ⟨.wrote l.id .mCtrl _ :: obs, by rw [rmw_eq, regWrite_trace, e, pump_id]; rfl⟩, fun hf a n h => rmw_allocated hf h⟩
  rw [rmw_eq, regWrite_dev, poke_mCtrl_reset (by simp), latch_of_low (by simp)]

/-! ### Host-memory accesses -/

/-- A byte read with nothing in between. -/
theorem readByte_quiet {a : Nat} {f : Byte → Ctx → Res} {l : Ctx} (h : l.dev.inter = []) :
    readByte a f l =
      match cellRead l.mem a with
      | some b => f b l
      | none => .stuck l := by
  cases hc : cellRead l.mem a <;> simp only [readByte, pump_quiet h, hc]

/-- Byte stores with nothing in between, all bytes allocated. -/
theorem writeBytes_quiet {a : Nat} {bs : List Byte} {l : Ctx} (h : l.dev.inter = []) (ha : Allocated l.mem a bs.length) :
    writeBytes a bs l = .next { l with mem := cellWriteAll l.mem a bs } := by
  induction bs generalizing a l with
  | nil => rfl
  | cons b bs ih =>
    have h0 : (cellRead l.mem a).isSome = true := by simpa using ha 0 (by simp)
    have e : writeByte a b l = .next { l with mem := cellWrite l.mem a b } := by
      unfold writeByte; rw [pump_quiet h, memStore_eq_some.mpr ⟨h0, rfl⟩]
    rw [writeBytes, e, andThen_next]
    exact ih (l := { l with mem := cellWrite l.mem a b }) h
      ((ha.mono (a' := a + 1) (n' := bs.length) (by omega) (by simp only [List.length_cons]; omega)).cellWrite)

/-- What a byte read comes to, whatever falls before it. -/
theorem readByte_ends {P : Ctx → Prop} {a : Nat} {f : Byte → Ctx → Res} {l : Ctx} (hf : ∀ b, (f b (pump l)).Ends P)
    (hs : P (pump l)) : (readByte a f l).Ends P := by
  unfold readByte; split
  · exact hf _
  · exact hs

/-- A byte store keeps the frame, whatever falls before it. -/
theorem writeByte_ends (a : Nat) (b : Byte) (l : Ctx) : (writeByte a b l).Ends (EnvFrame l) := by
  unfold writeByte; split
  · exact (pump_frame l).trans ⟨rfl, rfl, rfl, rfl, .refl _, .of_eq rfl rfl, id, fun _ => rfl, [], rfl⟩
  · exact pump_frame l

/-- Byte stores keep the frame: a store that is stuck has done those before it (R78). -/
theorem writeBytes_ends (a : Nat) (bs : List Byte) (l : Ctx) : (writeBytes a bs l).Ends (EnvFrame l) := by
  induction bs generalizing a l with
  | nil => exact .refl l
  | cons b bs ih =>
    exact andThen_ends (writeByte_ends a b l) (fun l' h => (ih (a + 1) l').mono fun _ h' => h.trans h') fun _ h => h

/-- Byte stores keep host memory canonical. -/
theorem writeBytes_wf {a : Nat} {bs : List Byte} {l : Ctx} (h : Memory.wf l.mem = true) :
    (writeBytes a bs l).Ends fun m => Memory.wf m.mem = true := by
  induction bs generalizing a l with
  | nil => exact h
  | cons b bs ih =>
    refine andThen_ends (P := fun m => Memory.wf m.mem = true) ?_ (fun _ h' => ih h') fun _ h' => h'
    unfold writeByte
    split
    · rename_i hm; exact Memory.wf_memStore (pump_wf h) hm
    · exact pump_wf h

/-- Byte stores complete where the bytes are allocated and no host frees any. -/
theorem writeBytes_completes {a : Nat} {bs : List Byte} {l : Ctx} (hf : l.dev.NoFrees) (ha : Allocated l.mem a bs.length) :
    ∃ l', writeBytes a bs l = .next l' := by
  induction bs generalizing a l with
  | nil => exact ⟨l, rfl⟩
  | cons b bs ih =>
    have h := pump_allocated hf ha
    have h0 : (cellRead (pump l).mem a).isSome = true := by simpa using h 0 (by simp)
    have e : writeByte a b l = .next { pump l with mem := cellWrite (pump l).mem a b } := by
      unfold writeByte; rw [memStore_eq_some.mpr ⟨h0, rfl⟩]
    rw [writeBytes, e, andThen_next]
    exact ih (l := { pump l with mem := cellWrite (pump l).mem a b }) (pump_gaps hf)
      ((h.mono (a' := a + 1) (n' := bs.length) (by omega) (by simp only [List.length_cons]; omega)).cellWrite)

end Sys2Proof.Machine
end

