-- ==== Sys2Proof/Laws/Words.lean ====
section
/-! SUPPORT. Bit-vector facts about fields in 32-bit registers. -/

namespace Sys2Proof.Machine

/-- Replacing a whole low field gives the field. -/
theorem replace_low {n : Nat} (x a : BitVec n) (m : Word) (hm : m = (BitVec.allOnes n).setWidth 32) :
    (x.setWidth 32 &&& ~~~m) ||| (a.setWidth 32 &&& m) = a.setWidth 32 := by
  subst hm
  apply BitVec.eq_of_getLsbD_eq
  intro i hi
  simp only [BitVec.getLsbD_or, BitVec.getLsbD_and, BitVec.getLsbD_setWidth, BitVec.getLsbD_not, BitVec.getLsbD_allOnes]
  by_cases h : i < n
  · simp [h, hi]
  · simp [h, hi, BitVec.getLsbD_of_ge x i (by omega), BitVec.getLsbD_of_ge a i (by omega)]

/-- Setting bits under their own mask is OR. -/
theorem set_mask {n : Nat} (x m : BitVec n) :
    (x.setWidth 32 &&& ~~~(m.setWidth 32)) ||| (m.setWidth 32 &&& m.setWidth 32) = (x ||| m).setWidth 32 := by
  apply BitVec.eq_of_getLsbD_eq
  intro i hi
  simp only [BitVec.getLsbD_or, BitVec.getLsbD_and, BitVec.getLsbD_setWidth, BitVec.getLsbD_not, hi, decide_true,
    Bool.true_and]
  cases x.getLsbD i <;> cases m.getLsbD i <;> rfl

/-- Clearing bits under their own mask is AND NOT. -/
theorem clear_mask {n : Nat} (x m : BitVec n) :
    (x.setWidth 32 &&& ~~~(m.setWidth 32)) ||| (0 &&& m.setWidth 32) = (x &&& ~~~m).setWidth 32 := by
  rw [show (0 : Word) &&& m.setWidth 32 = 0#32 from BitVec.zero_and, BitVec.or_zero]
  apply BitVec.eq_of_getLsbD_eq
  intro i hi
  simp only [BitVec.getLsbD_and, BitVec.getLsbD_setWidth, BitVec.getLsbD_not, hi, decide_true, Bool.true_and]
  by_cases h : i < n
  · simp [h]
  · simp [BitVec.getLsbD_of_ge x i (by omega)]

/-- Writing a strobe bit: the read-modify-write of one set bit is OR. -/
theorem strobe_word (t m : Word) : (t &&& ~~~m) ||| (m &&& m) = t ||| m := by
  apply BitVec.eq_of_getLsbD_eq
  intro i hi
  simp only [BitVec.getLsbD_or, BitVec.getLsbD_and, BitVec.getLsbD_not, hi, decide_true, Bool.true_and]
  cases t.getLsbD i <;> cases m.getLsbD i <;> rfl

/-- Reading back a zero-extended field. -/
@[simp] theorem setWidth_setWidth_self {n : Nat} (hn : n ≤ 32) (x : BitVec n) : (x.setWidth 32).setWidth n = x := by
  apply BitVec.eq_of_getLsbD_eq
  intro i hi
  simp only [BitVec.getLsbD_setWidth, hi, decide_true, Bool.true_and]
  simp [show i < 32 by omega]

/-- The mode bits of `M_CTRL` under the three masks. -/
theorem modeOperand_all (rw re au rw' re' au' : Bool) :
    (modeOperand rw re au &&& ~~~0x70#32) ||| (modeOperand rw' re' au' &&& 0x70#32) = modeOperand rw' re' au' := by
  revert rw re au rw' re' au'; decide

theorem modeOperand_direction (rw re au rw' re' au' : Bool) :
    (modeOperand rw re au &&& ~~~0x30#32) ||| (modeOperand rw' re' au' &&& 0x30#32) = modeOperand rw' re' au := by
  revert rw re au rw' re' au'; decide

theorem modeOperand_auto (rw re au rw' re' au' : Bool) :
    (modeOperand rw re au &&& ~~~0x40#32) ||| (modeOperand rw' re' au' &&& 0x40#32) = modeOperand rw re au' := by
  revert rw re au rw' re' au'; decide

/-- The bits of a mode operand: no strobe among them. -/
theorem modeOperand_bits (rw re au : Bool) :
    (modeOperand rw re au).getLsbD 0 = false ∧ (modeOperand rw re au).getLsbD 1 = false ∧
    (modeOperand rw re au).getLsbD 4 = rw ∧ (modeOperand rw re au).getLsbD 5 = re ∧
    (modeOperand rw re au).getLsbD 6 = au := by
  revert rw re au; decide

/-- `M_CTRL` with the trigger bit: the mode bits stand. -/
theorem modeOperand_trig (rw re au : Bool) :
    (modeOperand rw re au ||| 2#32).getLsbD 0 = false ∧ (modeOperand rw re au ||| 2#32).getLsbD 1 = true ∧
    (modeOperand rw re au ||| 2#32).getLsbD 4 = rw ∧ (modeOperand rw re au ||| 2#32).getLsbD 5 = re ∧
    (modeOperand rw re au ||| 2#32).getLsbD 6 = au := by
  revert rw re au; decide

/-- `D_CTRL` as read, and as written with a new direction or with the trigger bit. -/
theorem dirWord_set (dir dir' : Bool) :
    ((0#30 ++ BitVec.ofBool dir ++ 0#1 : Word) &&& ~~~2#32) ||| ((0#30 ++ BitVec.ofBool dir' ++ 0#1) &&& 2#32) =
      0#30 ++ BitVec.ofBool dir' ++ 0#1 := by
  revert dir dir'; decide

theorem dirWord_bits (dir : Bool) :
    (0#30 ++ BitVec.ofBool dir ++ 0#1 : Word).getLsbD 0 = false ∧
    (0#30 ++ BitVec.ofBool dir ++ 0#1 : Word).getLsbD 1 = dir ∧
    ((0#30 ++ BitVec.ofBool dir ++ 0#1 : Word) ||| 1#32).getLsbD 0 = true ∧
    ((0#30 ++ BitVec.ofBool dir ++ 0#1 : Word) ||| 1#32).getLsbD 1 = dir ∧
    (0#30 ++ BitVec.ofBool dir ++ 0#1 : Word) = if dir = true then 2 else 0 := by
  revert dir; decide

/-- The two halves of `M_CNT`. -/
theorem counts_halves (wr rd : BitVec 16) : (rd ++ wr).extractLsb' 0 16 = wr ∧ (rd ++ wr).extractLsb' 16 16 = rd := by
  constructor
  · apply BitVec.eq_of_getLsbD_eq; intro i hi
    rw [BitVec.getLsbD_extractLsb', BitVec.getLsbD_append]
    simp [hi]
  · apply BitVec.eq_of_getLsbD_eq; intro i hi
    rw [BitVec.getLsbD_extractLsb', BitVec.getLsbD_append]
    simp [hi]

/-- Byte `k` of a word made of four bytes (R74). -/
theorem wordByte_wordOf (b0 b1 b2 b3 : Byte) :
    wordByte (wordOf b0 b1 b2 b3) 0 = b0 ∧ wordByte (wordOf b0 b1 b2 b3) 1 = b1 ∧
    wordByte (wordOf b0 b1 b2 b3) 2 = b2 ∧ wordByte (wordOf b0 b1 b2 b3) 3 = b3 := by
  refine ⟨?_, ?_, ?_, ?_⟩ <;>
  · apply BitVec.eq_of_getLsbD_eq; intro i hi
    simp only [wordByte, wordOf, BitVec.getLsbD_extractLsb', BitVec.getLsbD_append, hi, decide_true, Bool.true_and]
    split_ifs <;> first | omega | (congr 1; omega)

/-- The word of a word's own bytes. -/
theorem wordOf_wordByte (w : Word) : wordOf (wordByte w 0) (wordByte w 1) (wordByte w 2) (wordByte w 3) = w := by
  apply BitVec.eq_of_getLsbD_eq; intro i hi
  simp only [wordByte, wordOf, BitVec.getLsbD_extractLsb', BitVec.getLsbD_append]
  split_ifs with h1 h2 h3
  · simp [h1]
  · rw [decide_eq_true h2, Bool.true_and]; congr 1; omega
  · rw [decide_eq_true h3, Bool.true_and]; congr 1; omega
  · rw [decide_eq_true (by omega : i - 8 - 8 - 8 < 8), Bool.true_and]; congr 1; omega

/-- The bytes of a word, by position. -/
theorem wordBytes_getElem? (w : Word) (k : Nat) (hk : k < 4) : (wordBytes w)[k]? = some (wordByte w k) := by
  match k, hk with
  | 0, _ => rfl
  | 1, _ => rfl
  | 2, _ => rfl
  | 3, _ => rfl

@[simp] theorem wordBytes_length (w : Word) : (wordBytes w).length = 4 := rfl

end Sys2Proof.Machine
end

