-- ==== Sys2Proof/Laws/Encoding.lean ====
section
/-! SUPPORT. Facts the round trip of the encodings rests on: the fields of a descriptor's first word, and operand words. -/

namespace Sys2Proof.Machine

/-- The first word of a descriptor (R101). -/
def descriptorWord (op : BitVec 2) (restart : Bool) (dev : BitVec 8) (addr : BitVec 7) : Word :=
  0#9 ++ addr ++ dev ++ 0#5 ++ BitVec.ofBool restart ++ op

/-- Each bit of it. -/
theorem descriptorWord_getLsbD (op : BitVec 2) (restart : Bool) (dev : BitVec 8) (addr : BitVec 7) (i : Nat) :
    (descriptorWord op restart dev addr).getLsbD i =
      if i < 2 then op.getLsbD i
      else if i = 2 then restart
      else if i < 8 then false
      else if i < 16 then dev.getLsbD (i - 8)
      else if i < 23 then addr.getLsbD (i - 16)
      else false := by
  unfold descriptorWord
  simp only [BitVec.getLsbD_append]
  by_cases h1 : i < 2
  · simp [h1]
  by_cases h2 : i = 2
  · subst h2; simp
  have h3 : ¬ i - 2 < 1 := by omega
  simp only [h1, if_false, h2, h3]
  by_cases h4 : i < 8
  · have : i - 2 - 1 < 5 := by omega
    simp [h4, this]
  have h5 : ¬ i - 2 - 1 < 5 := by omega
  simp only [h4, if_false, h5]
  by_cases h6 : i < 16
  · have : i - 2 - 1 - 5 < 8 := by omega
    simp only [h6, this, if_true]; congr 1
  have h7 : ¬ i - 2 - 1 - 5 < 8 := by omega
  simp only [h6, if_false, h7]
  by_cases h8 : i < 23
  · have : i - 2 - 1 - 5 - 8 < 7 := by omega
    simp only [h8, this, if_true]; congr 1
  · have : ¬ i - 2 - 1 - 5 - 8 < 7 := by omega
    simp [h8, this]

/-- The fields the decoder takes from a descriptor's first word are the ones the encoder put there. -/
theorem descriptorWord_fields (op : BitVec 2) (restart : Bool) (dev : BitVec 8) (addr : BitVec 7) :
    reservedClear (descriptorWord op restart dev addr) = true ∧
    (descriptorWord op restart dev addr).extractLsb' 0 2 = op ∧
    (descriptorWord op restart dev addr).getLsbD 2 = restart ∧
    (descriptorWord op restart dev addr).extractLsb' 8 8 = dev ∧
    (descriptorWord op restart dev addr).extractLsb' 16 7 = addr := by
  have e1 : (descriptorWord op restart dev addr).extractLsb' 3 5 = 0 := by
    apply BitVec.eq_of_getLsbD_eq; intro i hi
    rw [BitVec.getLsbD_extractLsb', descriptorWord_getLsbD]
    simp [show ¬ 3 + i < 2 by omega, show ¬ 3 + i = 2 by omega, show 3 + i < 8 by omega]
  have e2 : (descriptorWord op restart dev addr).extractLsb' 23 9 = 0 := by
    apply BitVec.eq_of_getLsbD_eq; intro i hi
    rw [BitVec.getLsbD_extractLsb', descriptorWord_getLsbD]
    simp [show ¬ 23 + i < 2 by omega, show ¬ 23 + i = 2 by omega, show ¬ 23 + i < 8 by omega, show ¬ 23 + i < 16 by omega]
  refine ⟨?_, ?_, ?_, ?_, ?_⟩
  · rw [reservedClear, e1, e2]; rfl
  · apply BitVec.eq_of_getLsbD_eq; intro i hi
    rw [BitVec.getLsbD_extractLsb', descriptorWord_getLsbD]; simp [hi]
  · rw [descriptorWord_getLsbD]; simp
  · apply BitVec.eq_of_getLsbD_eq; intro i hi
    rw [BitVec.getLsbD_extractLsb', descriptorWord_getLsbD]
    simp [hi, show ¬ 8 + i < 2 by omega, show ¬ 8 + i = 2 by omega, show ¬ 8 + i < 8 by omega, show 8 + i < 16 by omega]
  · apply BitVec.eq_of_getLsbD_eq; intro i hi
    rw [BitVec.getLsbD_extractLsb', descriptorWord_getLsbD]
    simp [hi, show ¬ 16 + i < 2 by omega, show ¬ 16 + i = 2 by omega, show ¬ 16 + i < 8 by omega, show ¬ 16 + i < 16 by omega,
      show 16 + i < 23 by omega]

/-- An operation code read back. -/
@[simp] theorem Op_ofCode_code (op : Op) : Op.ofCode op.code = op := by cases op <;> rfl

/-- An operand that fits its field is read back. -/
theorem narrow_setWidth {n : Nat} (hn : n ≤ 32) (x : BitVec n) : narrow n (x.setWidth 32) = .ok x := by
  have h2 : x.toNat < 2 ^ 32 := lt_of_lt_of_le x.isLt (Nat.pow_le_pow_right (by omega) hn)
  unfold narrow
  rw [if_pos (by rw [BitVec.toNat_setWidth, Nat.mod_eq_of_lt h2]; exact x.isLt), setWidth_setWidth_self hn]

/-- An operand of a whole word is read back. -/
theorem narrow_word (x : Word) : narrow 32 x = .ok x := by
  have := narrow_setWidth (le_refl 32) x
  rwa [BitVec.setWidth_eq] at this

/-- What decoding accepts is well-formed. -/
theorem decode_wf {p : Packet} {i : Instr} (h : decode p = .ok i) : i.wf = true := by
  unfold decode at h
  split at h
  · split at h
    · injection h with h; subst h; assumption
    · cases h
  · cases h

/-- Decoding a well-formed raw result. -/
theorem decode_of_raw {p : Packet} {i : Instr} (h : decodeRaw p = .ok i) (hw : i.wf = true) : decode p = .ok i := by
  unfold decode; rw [h]; simp [hw]

/-- A descriptor decodes to a command, or is rejected. -/
theorem decode_cmd_cases (ws : List Word) :
    (∃ c : Cmd, decode ⟨.cmd, ws⟩ = .ok c.instr) ∨ ∃ e, decode ⟨.cmd, ws⟩ = .error e := by
  cases h : decode ⟨.cmd, ws⟩ with
  | error e => exact .inr ⟨e, rfl⟩
  | ok i =>
    refine .inl ?_
    have hr : decodeCmd ws = .ok i := by
      unfold decode at h
      simp only [decodeRaw] at h
      split at h
      · split at h
        · injection h with h; subst h; assumption
        · cases h
      · cases h
    unfold decodeCmd at hr
    split at hr
    · split at hr
      · injection hr with hr; exact ⟨_, by rw [← hr]⟩
      · cases hr
    · cases hr

end Sys2Proof.Machine
end

