-- ==== Sys2Proof/Laws/Primitives.lean ====
section
/-! SUPPORT. One lemma per register primitive: what it does with nothing between its accesses, in a handler run and outside one. The
sequencer's steps and the events are chains of these. -/

namespace Sys2Proof.Machine

/-- A read-modify-write that cannot raise the line. -/
theorem rmw_latched {r : Reg} {mask v w : Word} {l : Ctx} (hq : l.dev.inter = []) (hs : l.dev.Latched l.params)
    (hw : (peek r l.dev &&& ~~~mask) ||| (v &&& mask) = w)
    (hl : irqLevel l.params (poke r w l.dev) = true → irqLevel l.params l.dev = true) :
    rmw r mask v l = { l with dev := poke r w l.dev, trace := .wrote l.id r w :: l.trace } := by
  rw [rmw_quiet hq, hw, latch_of_not_raised hs (by simp) (by simp) hl]

/-- A write that cannot raise the line. -/
theorem regWrite_latched {r : Reg} {v : Word} {l : Ctx} (hq : l.dev.inter = []) (hs : l.dev.Latched l.params)
    (hl : irqLevel l.params (poke r v l.dev) = true → irqLevel l.params l.dev = true) :
    regWrite r v l = { l with dev := poke r v l.dev, trace := .wrote l.id r v :: l.trace } := by
  rw [regWrite_quiet hq, latch_of_not_raised hs (by simp) (by simp) hl]

/-- A read-modify-write that may raise the line: it is then pending at once. -/
theorem rmw_raising {r : Reg} {mask v w : Word} {l : Ctx} (hq : l.dev.inter = []) (hs : l.dev.Settled l.params)
    (hw : (peek r l.dev &&& ~~~mask) ||| (v &&& mask) = w) :
    rmw r mask v l =
      { l with
        dev := { poke r w l.dev with irqPend := l.dev.irqPend || irqLevel l.params (poke r w l.dev) }
        trace := .wrote l.id r w :: l.trace } := by
  rw [rmw_quiet hq, hw, latch_settled hs (by simp [hs.1]) (by simp)]

/-! ### The line after a store -/

theorem irqLevel_of_status_le {p : Config.Params} {d v : Device} (h1 : v.mb.status &&& ~~~d.mb.status = 0)
    (h2 : v.mb.inten = d.mb.inten) (h3 : v.mb.ovf = d.mb.ovf) (h4 : v.mb.rdflag = d.mb.rdflag) (h5 : v.db = d.db) :
    irqLevel p v = true → irqLevel p d = true := by
  have h0 : v.mb.status &&& d.mb.inten.setWidth 7 ≠ 0 → d.mb.status &&& d.mb.inten.setWidth 7 ≠ 0 := by
    intro hv hd
    apply hv
    apply BitVec.eq_of_getLsbD_eq
    intro i hi
    have e1 := congrArg (fun x => BitVec.getLsbD x i) h1
    have e2 := congrArg (fun x => BitVec.getLsbD x i) hd
    simp only [BitVec.getLsbD_and, BitVec.getLsbD_not, hi, decide_true, Bool.true_and] at e1 e2 ⊢
    revert e1 e2
    cases v.mb.status.getLsbD i <;> cases d.mb.status.getLsbD i <;> simp
  simp only [irqLevel, h2, h3, h4, h5, Bool.or_eq_true, bne_iff_ne, ne_eq]
  rintro (((h | h) | h) | h)
  · exact .inl (.inl (.inl (h0 h)))
  · exact .inl (.inl (.inr h))
  · exact .inl (.inr h)
  · exact .inr h

/-- Clearing completion flags cannot complete a burst slot. -/
theorem slotDone_mono {b : Bool} {f c : Byte} {s : Slot} (h : slotDone b (f &&& ~~~c) s = true) : slotDone b f s = true := by
  simp only [slotDone, beq_iff_eq] at h ⊢
  apply BitVec.eq_of_getLsbD_eq
  intro i hi
  have e := congrArg (fun x => BitVec.getLsbD x i) h
  simp only [BitVec.getLsbD_and, BitVec.getLsbD_not, hi, decide_true, Bool.true_and] at e ⊢
  revert e
  cases f.getLsbD i <;> cases c.getLsbD i <;> simp

theorem someSlotDone_mono {b : Bool} {f c : Byte} (h : someSlotDone b (f &&& ~~~c) = true) : someSlotDone b f = true := by
  cases b with
  | true =>
    simp only [someSlotDone, if_true, Bool.or_eq_true] at h ⊢
    exact h.imp slotDone_mono slotDone_mono
  | false =>
    simp only [someSlotDone, Bool.false_eq_true, if_false, List.any_eq_true] at h ⊢
    obtain ⟨s, hs, h⟩ := h
    exact ⟨s, hs, slotDone_mono h⟩

theorem irqLevel_of_rdflag_le {p : Config.Params} {d v : Device} {c : Byte} (h4 : v.mb.rdflag = d.mb.rdflag &&& ~~~c)
    (h1 : v.mb.status = d.mb.status) (h2 : v.mb.inten = d.mb.inten) (h3 : v.mb.ovf = d.mb.ovf) (h5 : v.db = d.db) :
    irqLevel p v = true → irqLevel p d = true := by
  simp only [irqLevel, h1, h2, h3, h4, h5, Bool.or_eq_true, Bool.and_eq_true]
  rintro (((h | h) | ⟨h, h'⟩) | h)
  · exact .inl (.inl (.inl h))
  · exact .inl (.inl (.inr h))
  · exact .inl (.inr ⟨h, someSlotDone_mono h'⟩)
  · exact .inr h

/-- A store that leaves the six registers the line is made of. -/
theorem irqLevel_of_same {p : Config.Params} {d v : Device} (h1 : v.mb.status = d.mb.status) (h2 : v.mb.inten = d.mb.inten)
    (h3 : v.mb.ovf = d.mb.ovf) (h4 : v.mb.rdflag = d.mb.rdflag) (h5 : v.db.status = d.db.status)
    (h6 : v.db.inten = d.db.inten) : irqLevel p v = true → irqLevel p d = true := by
  rw [irqLevel_congr h1 h2 h3 h4 h5 h6]; exact id

/-- Fewer enables cannot raise the line. -/
theorem irqLevel_of_inten_le {p : Config.Params} {d v : Device} {c : BitVec 9} (h2 : v.mb.inten = d.mb.inten &&& ~~~c)
    (h1 : v.mb.status = d.mb.status) (h3 : v.mb.ovf = d.mb.ovf) (h4 : v.mb.rdflag = d.mb.rdflag) (h5 : v.db = d.db) :
    irqLevel p v = true → irqLevel p d = true := by
  have h0 : d.mb.status &&& (d.mb.inten &&& ~~~c).setWidth 7 ≠ 0 → d.mb.status &&& d.mb.inten.setWidth 7 ≠ 0 := by
    intro hv hd
    apply hv
    apply BitVec.eq_of_getLsbD_eq
    intro i hi
    have e := congrArg (fun x => BitVec.getLsbD x i) hd
    simp only [BitVec.getLsbD_and, BitVec.getLsbD_setWidth, BitVec.getLsbD_not, hi, decide_true, Bool.true_and] at e ⊢
    revert e
    cases d.mb.status.getLsbD i <;> cases d.mb.inten.getLsbD i <;> simp
  simp only [irqLevel, h1, h2, h3, h4, h5, Bool.or_eq_true, Bool.and_eq_true, bne_iff_ne, ne_eq, BitVec.getLsbD_and]
  rintro (((h | ⟨⟨h, -⟩, h'⟩) | ⟨⟨h, -⟩, h'⟩) | h)
  · exact .inl (.inl (.inl (h0 h)))
  · exact .inl (.inl (.inr ⟨h, h'⟩))
  · exact .inl (.inr ⟨h, h'⟩)
  · exact .inr h

/-- Fewer DMA status bits cannot raise the line. -/
theorem irqLevel_of_dstatus_le {p : Config.Params} {d v : Device} (h5 : v.db.status = 0) (h6 : v.db.inten = d.db.inten)
    (h1 : v.mb = d.mb) : irqLevel p v = true → irqLevel p d = true := by
  simp only [irqLevel, h1, h5, h6, Bool.or_eq_true, bne_iff_ne, ne_eq]
  rintro (h | h)
  · exact .inl h
  · exact absurd (by simp) h

/-! ### The primitives -/

/-- `CTRL_RESET` needs no settled instance: the line is low after it. -/
theorem ctrlReset_quiet {l : Ctx} (hq : l.dev.inter = []) :
    ctrlReset l = { l with dev := resetController l.dev, trace := .wrote l.id .mCtrl (peek .mCtrl l.dev ||| 1) :: l.trace } := by
  have e : (peek .mCtrl l.dev &&& ~~~1#32) ||| (1#32 &&& 1#32) = peek .mCtrl l.dev ||| 1 := strobe_word _ 1#32
  have hb : (peek .mCtrl l.dev ||| 1 : Word).getLsbD 0 = true := by simp
  show rmw .mCtrl 1#32 1#32 l = _
  rw [rmw_quiet hq, e, poke_mCtrl_reset hb, latch_of_low (irqLevel_resetController _ _)]

theorem clkdivSet_quiet {l : Ctx} {freq : Word} (hq : l.dev.inter = []) (hs : l.dev.Latched l.params) :
    clkdivSet freq l =
      { l with
        dev := { l.dev with mb := { l.dev.mb with clk := BitVec.ofNat 11 (divOf l.params.srcFreqKhz freq.toNat) } }
        trace := .wrote l.id .mClk ((BitVec.ofNat 11 (divOf l.params.srcFreqKhz freq.toNat)).setWidth 32) :: l.trace } := by
  have hb : divOf l.params.srcFreqKhz freq.toNat < 2 ^ 11 := by
    unfold divOf Config.divMax
    split
    · decide
    · exact lt_of_le_of_lt (min_le_right _ _) (by decide)
  have e1 : BitVec.ofNat 32 (divOf l.params.srcFreqKhz freq.toNat) =
      (BitVec.ofNat 11 (divOf l.params.srcFreqKhz freq.toNat)).setWidth 32 := by
    apply BitVec.eq_of_toNat_eq; simp; omega
  have e : (peek .mClk l.dev &&& ~~~(BitVec.ofNat 32 Config.divMax)) |||
      (BitVec.ofNat 32 (divOf l.params.srcFreqKhz freq.toNat) &&& BitVec.ofNat 32 Config.divMax) =
      (BitVec.ofNat 11 (divOf l.params.srcFreqKhz freq.toNat)).setWidth 32 := by
    rw [e1]; exact replace_low _ _ _ (by decide)
  unfold clkdivSet
  rw [rmw_latched hq hs e (irqLevel_of_same rfl rfl rfl rfl rfl rfl)]
  simp only [poke, setWidth_setWidth_self (show 11 ≤ 32 by decide)]

theorem addrSet_quiet {l : Ctx} {addr : BitVec Config.addrWidth} (hq : l.dev.inter = []) (hs : l.dev.Latched l.params) :
    addrSet addr l =
      { l with
        dev := { l.dev with mb := { l.dev.mb with addr := addr } }
        trace := .wrote l.id .mAddr (addr.setWidth 32) :: l.trace } := by
  unfold addrSet
  rw [rmw_latched hq hs (replace_low _ _ _ (by decide)) (irqLevel_of_same rfl rfl rfl rfl rfl rfl)]
  simp only [poke, setWidth_setWidth_self (show 7 ≤ 32 by decide)]

/-- A store to `M_CTRL` of mode bits only. -/
theorem poke_mode (rw re au : Bool) (d : Device) :
    poke .mCtrl (modeOperand rw re au) d = { d with mb := { d.mb with ctrl := ⟨rw, re, au⟩ } } := by
  obtain ⟨h0, h1, h4, h5, h6⟩ := modeOperand_bits rw re au
  simp only [poke, h0, h1, h4, h5, h6, Bool.false_eq_true, if_false, Bool.false_and, Bool.or_false]

/-- The mode bits after a `MODE_SET` with a mask. -/
def modeAfter (m : ModeMask) (rw re au : Bool) (c : Ctrl) : Ctrl :=
  match m with
  | .all => ⟨rw, re, au⟩
  | .direction => ⟨rw, re, c.auto⟩
  | .auto => ⟨c.rw, c.restart, au⟩

theorem modeSet_quiet {l : Ctx} {m : ModeMask} {rw re au : Bool} (hq : l.dev.inter = []) (hs : l.dev.Latched l.params) :
    modeSet m rw re au l =
      { l with
        dev := { l.dev with mb := { l.dev.mb with ctrl := modeAfter m rw re au l.dev.mb.ctrl } }
        trace := .wrote l.id .mCtrl
          (modeOperand (modeAfter m rw re au l.dev.mb.ctrl).rw (modeAfter m rw re au l.dev.mb.ctrl).restart
            (modeAfter m rw re au l.dev.mb.ctrl).auto) :: l.trace } := by
  unfold modeSet
  have e : (peek .mCtrl l.dev &&& ~~~m.bits) ||| (modeOperand rw re au &&& m.bits) =
      modeOperand (modeAfter m rw re au l.dev.mb.ctrl).rw (modeAfter m rw re au l.dev.mb.ctrl).restart
        (modeAfter m rw re au l.dev.mb.ctrl).auto := by
    cases m
    · exact modeOperand_all _ _ _ _ _ _
    · exact modeOperand_direction _ _ _ _ _ _
    · exact modeOperand_auto _ _ _ _ _ _
  rw [rmw_latched hq hs e (by rw [poke_mode]; exact irqLevel_of_same rfl rfl rfl rfl rfl rfl), poke_mode]

theorem cntSet_quiet {l : Ctx} {wr rd : BitVec 16} (hq : l.dev.inter = []) (hs : l.dev.Latched l.params) :
    cntSet wr rd l =
      { l with
        dev := { l.dev with mb := { l.dev.mb with wrcnt := wr, rdcnt := rd } }
        trace := .wrote l.id .mCnt (rd ++ wr) :: l.trace } := by
  unfold cntSet
  rw [regWrite_latched hq hs (irqLevel_of_same rfl rfl rfl rfl rfl rfl)]
  simp only [poke, (counts_halves wr rd).1, (counts_halves wr rd).2]

theorem dataPut_quiet {l : Ctx} {slot : Slot} {w : Word} (hq : l.dev.inter = []) (hs : l.dev.Latched l.params) :
    dataPut slot w l =
      { l with
        dev := { l.dev with mb := { l.dev.mb with data := l.dev.mb.data.set slot.val w slot.isLt } }
        trace := .wrote l.id (.mData slot) w :: l.trace } := by
  unfold dataPut
  rw [regWrite_latched hq hs (irqLevel_of_same rfl rfl rfl rfl rfl rfl)]
  rfl

theorem intenSet_quiet {l : Ctx} {mask : BitVec 9} (hq : l.dev.inter = []) (hs : l.dev.Settled l.params) :
    intenSet mask l =
      { l with
        dev := { l.dev with
          mb := { l.dev.mb with inten := l.dev.mb.inten ||| mask }
          irqPend := l.dev.irqPend ||
            irqLevel l.params { l.dev with mb := { l.dev.mb with inten := l.dev.mb.inten ||| mask } } }
        trace := .wrote l.id .mInten ((l.dev.mb.inten ||| mask).setWidth 32) :: l.trace } := by
  unfold intenSet
  rw [rmw_raising hq hs (set_mask _ _)]
  simp only [poke, setWidth_setWidth_self (show 9 ≤ 32 by decide)]

theorem intenClr_quiet {l : Ctx} {mask : BitVec 9} (hq : l.dev.inter = []) (hs : l.dev.Latched l.params) :
    intenClr mask l =
      { l with
        dev := { l.dev with mb := { l.dev.mb with inten := l.dev.mb.inten &&& ~~~mask } }
        trace := .wrote l.id .mInten ((l.dev.mb.inten &&& ~~~mask).setWidth 32) :: l.trace } := by
  unfold intenClr
  have hp : poke .mInten ((l.dev.mb.inten &&& ~~~mask).setWidth 32) l.dev =
      { l.dev with mb := { l.dev.mb with inten := l.dev.mb.inten &&& ~~~mask } } := by
    simp only [poke, setWidth_setWidth_self (show 9 ≤ 32 by decide)]
  rw [rmw_latched hq hs (clear_mask _ _) (by rw [hp]; exact irqLevel_of_inten_le rfl rfl rfl rfl rfl), hp]

/-- A clear pulse that cannot raise the line. -/
theorem pulse_latched {r : Reg} {mask : Word} {l : Ctx} (hq : l.dev.inter = []) (hs : l.dev.Latched l.params)
    (h1 : irqLevel l.params (poke r mask l.dev) = true → irqLevel l.params l.dev = true)
    (h2 : irqLevel l.params (poke r 0 (poke r mask l.dev)) = true → irqLevel l.params (poke r mask l.dev) = true) :
    pulse r mask l =
      { l with
        dev := poke r 0 (poke r mask l.dev)
        trace := .wrote l.id r 0 :: .wrote l.id r mask :: l.trace } := by
  have hs' : (poke r mask l.dev).Latched l.params := fun hr h => by simpa using hs (by simpa using hr) (h1 h)
  unfold pulse
  rw [regWrite_latched hq hs h1]
  exact regWrite_latched (l := { l with dev := poke r mask l.dev, trace := .wrote l.id r mask :: l.trace })
    (by rw [poke_inter, hq]) hs' h2

theorem statusClear_quiet {l : Ctx} {mask : BitVec 7} (hq : l.dev.inter = []) (hs : l.dev.Latched l.params) :
    statusClear mask l =
      { l with
        dev := { l.dev with mb := { l.dev.mb with status := l.dev.mb.status &&& ~~~mask, stclr := 0 } }
        trace := .wrote l.id .mStclr 0 :: .wrote l.id .mStclr (mask.setWidth 32) :: l.trace } := by
  have e : ∀ x m : BitVec 7, x &&& ~~~m &&& ~~~x = 0 := by
    intro x m; apply BitVec.eq_of_getLsbD_eq; intro i hi
    simp only [BitVec.getLsbD_and, BitVec.getLsbD_not, hi, decide_true, Bool.true_and]
    cases x.getLsbD i <;> simp
  have e0 : ∀ x : BitVec 7, x &&& ~~~(BitVec.setWidth 7 0#32) = x := by
    intro x; rw [show ~~~(BitVec.setWidth 7 0#32) = BitVec.allOnes 7 by decide, BitVec.and_allOnes]
  have p1 : poke .mStclr (mask.setWidth 32) l.dev =
      { l.dev with mb := { l.dev.mb with status := l.dev.mb.status &&& ~~~mask, stclr := mask } } := by
    simp only [poke, setWidth_setWidth_self (show 7 ≤ 32 by decide)]
  have p2 : poke .mStclr 0#32 (poke .mStclr (mask.setWidth 32) l.dev) =
      { l.dev with mb := { l.dev.mb with status := l.dev.mb.status &&& ~~~mask, stclr := 0 } } := by
    rw [p1]; simp only [poke, e0]; rfl
  show pulse .mStclr (mask.setWidth 32) l = _
  rw [pulse_latched hq hs (by rw [p1]; exact irqLevel_of_status_le (e _ _) rfl rfl rfl rfl)
    (by
      show irqLevel l.params (poke .mStclr 0#32 (poke .mStclr (mask.setWidth 32) l.dev)) = true → _
      rw [p2, p1]; exact irqLevel_of_same rfl rfl rfl rfl rfl rfl)]
  show ({ l with dev := poke .mStclr 0#32 (poke .mStclr (mask.setWidth 32) l.dev), trace := _ } : Ctx) = _
  rw [p2]

theorem rdflagClear_quiet {l : Ctx} {mask : Byte} (hq : l.dev.inter = []) (hs : l.dev.Latched l.params) :
    rdflagClear mask l =
      { l with
        dev := { l.dev with mb := { l.dev.mb with rdflag := l.dev.mb.rdflag &&& ~~~mask, rdfclr := 0 } }
        trace := .wrote l.id .mRdfclr 0 :: .wrote l.id .mRdfclr (mask.setWidth 32) :: l.trace } := by
  have e0 : ∀ x : Byte, x &&& ~~~(BitVec.setWidth 8 0#32) = x := by
    intro x; rw [show ~~~(BitVec.setWidth 8 0#32) = BitVec.allOnes 8 by decide, BitVec.and_allOnes]
  have p1 : poke .mRdfclr (mask.setWidth 32) l.dev =
      { l.dev with mb := { l.dev.mb with rdflag := l.dev.mb.rdflag &&& ~~~mask, rdfclr := mask } } := by
    simp only [poke, setWidth_setWidth_self (show 8 ≤ 32 by decide)]
  have p2 : poke .mRdfclr 0#32 (poke .mRdfclr (mask.setWidth 32) l.dev) =
      { l.dev with mb := { l.dev.mb with rdflag := l.dev.mb.rdflag &&& ~~~mask, rdfclr := 0 } } := by
    rw [p1]; simp only [poke, e0]; rfl
  show pulse .mRdfclr (mask.setWidth 32) l = _
  rw [pulse_latched hq hs (by rw [p1]; exact irqLevel_of_rdflag_le (c := mask) rfl rfl rfl rfl rfl)
    (by
      show irqLevel l.params (poke .mRdfclr 0#32 (poke .mRdfclr (mask.setWidth 32) l.dev)) = true → _
      rw [p2, p1]; exact irqLevel_of_same rfl rfl rfl rfl rfl rfl)]
  show ({ l with dev := poke .mRdfclr 0#32 (poke .mRdfclr (mask.setWidth 32) l.dev), trace := _ } : Ctx) = _
  rw [p2]

theorem trigger_quiet {l : Ctx} (hq : l.dev.inter = []) (hs : l.dev.Latched l.params) :
    trigger l =
      { l with
        dev := { l.dev with beActive := l.dev.beActive || !l.dev.mb.ctrl.auto }
        trace := .wrote l.id .mCtrl (peek .mCtrl l.dev ||| 2) :: l.trace } := by
  have hp : poke .mCtrl (peek .mCtrl l.dev ||| 2#32) l.dev =
      { l.dev with beActive := l.dev.beActive || !l.dev.mb.ctrl.auto } := by
    obtain ⟨h0, h1, h4, h5, h6⟩ := modeOperand_trig l.dev.mb.ctrl.rw l.dev.mb.ctrl.restart l.dev.mb.ctrl.auto
    simp only [poke, peek, h0, h1, h4, h5, h6]
    simp
  show rmw .mCtrl 2#32 2#32 l = _
  rw [rmw_latched hq hs (strobe_word _ _) (by rw [hp]; exact irqLevel_of_same rfl rfl rfl rfl rfl rfl), hp]
  rfl

theorem dmaAddrSet_quiet {l : Ctx} {a : Word} (hq : l.dev.inter = []) (hs : l.dev.Latched l.params) :
    dmaAddrSet a l =
      { l with dev := { l.dev with db := { l.dev.db with addr := a } }, trace := .wrote l.id .dAddr a :: l.trace } := by
  unfold dmaAddrSet
  rw [regWrite_latched hq hs (irqLevel_of_same rfl rfl rfl rfl rfl rfl)]
  rfl

theorem dmaLenSet_quiet {l : Ctx} {n : BitVec 16} (hq : l.dev.inter = []) (hs : l.dev.Latched l.params) :
    dmaLenSet n l =
      { l with
        dev := { l.dev with db := { l.dev.db with len := n } }
        trace := .wrote l.id .dLen (n.setWidth 32) :: l.trace } := by
  unfold dmaLenSet
  rw [rmw_latched hq hs (replace_low _ _ _ (by decide)) (irqLevel_of_same rfl rfl rfl rfl rfl rfl)]
  simp only [poke, setWidth_setWidth_self (show 16 ≤ 32 by decide)]

/-- A store to `D_CTRL` of a direction only. -/
theorem poke_dir (dir : Bool) (d : Device) :
    poke .dCtrl (0#30 ++ BitVec.ofBool dir ++ 0#1) d = { d with db := { d.db with dir := dir } } := by
  obtain ⟨h0, h1, -, -, -⟩ := dirWord_bits dir
  simp only [poke, h0, h1, Bool.or_false, Bool.false_and]

theorem dmaDirSet_quiet {l : Ctx} {dir : Bool} (hq : l.dev.inter = []) (hs : l.dev.Latched l.params) :
    dmaDirSet dir l =
      { l with
        dev := { l.dev with db := { l.dev.db with dir := dir } }
        trace := .wrote l.id .dCtrl (if dir = true then 2 else 0) :: l.trace } := by
  unfold dmaDirSet
  have e : (peek .dCtrl l.dev &&& ~~~2#32) ||| ((0#30 ++ BitVec.ofBool dir ++ 0#1) &&& 2#32) =
      0#30 ++ BitVec.ofBool dir ++ 0#1 := dirWord_set _ _
  show rmw .dCtrl 2#32 (0#30 ++ BitVec.ofBool dir ++ 0#1) l = _
  rw [rmw_latched hq hs e (by rw [poke_dir]; exact irqLevel_of_same rfl rfl rfl rfl rfl rfl), poke_dir,
    ← (dirWord_bits dir).2.2.2.2]

theorem dmaIntenSet_quiet {l : Ctx} {mask : BitVec 6} (hq : l.dev.inter = []) (hs : l.dev.Settled l.params) :
    dmaIntenSet mask l =
      { l with
        dev := { l.dev with
          db := { l.dev.db with inten := l.dev.db.inten ||| mask }
          irqPend := l.dev.irqPend ||
            irqLevel l.params { l.dev with db := { l.dev.db with inten := l.dev.db.inten ||| mask } } }
        trace := .wrote l.id .dInten ((l.dev.db.inten ||| mask).setWidth 32) :: l.trace } := by
  unfold dmaIntenSet
  rw [rmw_raising hq hs (set_mask _ _)]
  simp only [poke, setWidth_setWidth_self (show 6 ≤ 32 by decide)]

theorem dmaGo_quiet {l : Ctx} (hq : l.dev.inter = []) (hs : l.dev.Latched l.params) (hd : l.dev.db.dir = l.dev.mb.ctrl.rw) :
    dmaGo l =
      .next { l with
        dev := { l.dev with deActive := true, beActive := l.dev.beActive || l.dev.mb.ctrl.auto }
        trace := .wrote l.id .dCtrl (peek .dCtrl l.dev ||| 1) :: l.trace } := by
  have hp : poke .dCtrl (peek .dCtrl l.dev ||| 1#32) l.dev =
      { l.dev with deActive := true, beActive := l.dev.beActive || l.dev.mb.ctrl.auto } := by
    obtain ⟨-, -, h0, h1, -⟩ := dirWord_bits l.dev.db.dir
    simp only [poke, peek, h0, h1]
    simp
  unfold dmaGo
  rw [if_pos hd]
  show Res.next (rmw .dCtrl 1#32 1#32 l) = _
  rw [rmw_latched hq hs (strobe_word _ _) (by rw [hp]; exact irqLevel_of_same rfl rfl rfl rfl rfl rfl), hp]
  rfl

theorem dmaStatusGetclr_quiet {l : Ctx} (hq : l.dev.inter = []) (hs : l.dev.Latched l.params) :
    dmaStatusGetclr l =
      (l.dev.db.status,
        { l with
          dev := { l.dev with db := { l.dev.db with status := 0 } }
          trace := .wrote l.id .dStatus (l.dev.db.status.setWidth 32) :: l.trace }) := by
  have hp : poke .dStatus (l.dev.db.status.setWidth 32) l.dev = { l.dev with db := { l.dev.db with status := 0 } } := by
    simp only [poke, setWidth_setWidth_self (show 6 ≤ 32 by decide), BitVec.and_not_self]
  unfold dmaStatusGetclr
  rw [regRead_quiet hq]
  simp only [peek, setWidth_setWidth_self (show 6 ≤ 32 by decide)]
  rw [regWrite_latched hq hs (by rw [hp]; exact irqLevel_of_dstatus_le rfl rfl rfl), hp]

/-- The reads with nothing in between. -/
theorem statusGet_quiet {l : Ctx} (hq : l.dev.inter = []) : statusGet l = (l.dev.mb.status, l) := by
  simp [statusGet, regRead_quiet hq, peek]

theorem ovfGet_quiet {l : Ctx} (hq : l.dev.inter = []) : ovfGet l = (l.dev.mb.ovf.setWidth 32, l) := by
  simp [ovfGet, regRead_quiet hq, peek]

theorem rdflagGet_quiet {l : Ctx} (hq : l.dev.inter = []) : rdflagGet l = (l.dev.mb.rdflag, l) := by
  simp [rdflagGet, regRead_quiet hq, peek]

theorem dataGet_quiet {l : Ctx} {slot : Slot} (hq : l.dev.inter = []) : dataGet slot l = (l.dev.mb.data[slot], l) := by
  simp [dataGet, regRead_quiet hq, peek]

end Sys2Proof.Machine
end

