-- ==== Sys2Proof/Laws/Handler.lean ====
section
/-! SUPPORT. What a handler run can do, said once: it is a sequence of the acts below between its entry and its return, or such a
sequence and an access at which the handler is stuck. What every act keeps, every handler run keeps. -/

namespace Sys2Proof.Machine

/-! ### Fetching the write buffer (R230) -/

/-- `data_off` grows by one byte. -/
def advance (l : Ctx) : Ctx := l.mapTP fun tp => { tp with dataOff := tp.dataOff + 1 }

/-- `n` bytes of the write buffer are fetched: for each, what falls before its read if it is read, and `data_off` grows by 1. -/
inductive Fetched : Nat → Ctx → Ctx → Prop
  | zero (l : Ctx) : Fetched 0 l l
  | padded {n : Nat} {l m : Ctx} (h : Fetched n l m) : Fetched (n + 1) l (advance m)
  | read {n : Nat} {l m : Ctx} (h : Fetched n l m) : Fetched (n + 1) l (advance (pump m))

theorem EnvFrame.mapTP {l m : Ctx} (h : EnvFrame l m) (f : TP → TP) : EnvFrame (l.mapTP f) (m.mapTP f) where
  id := h.id
  params := h.params
  before := h.before
  after := h.after
  programme := by have := h.programme; simp only [Device.SameProgramme, Ctx.mapTP_dev] at *; simp [this]
  raised := ⟨h.raised.status, h.raised.ovf, h.raised.rdflag, h.raised.dma⟩
  pend := h.pend
  scratch := h.scratch
  trace := h.trace

/-- Fetching changes the offset only, beside what falls between the reads. -/
theorem Fetched.frame {n : Nat} {l m : Ctx} (h : Fetched n l m) :
    EnvFrame (l.mapTP fun tp => { tp with dataOff := tp.dataOff + BitVec.ofNat 32 n }) m := by
  have step : ∀ (l : Ctx) (n : Nat),
      (l.mapTP fun tp => { tp with dataOff := tp.dataOff + BitVec.ofNat 32 (n + 1) }) =
        advance (l.mapTP fun tp => { tp with dataOff := tp.dataOff + BitVec.ofNat 32 n }) := by
    intro l n
    have e : l.dev.tp.dataOff + BitVec.ofNat 32 (n + 1) = l.dev.tp.dataOff + BitVec.ofNat 32 n + 1 := by
      rw [BitVec.ofNat_add, ← BitVec.add_assoc]; rfl
    simp only [advance, Ctx.mapTP, Ctx.mapDev, e]
  induction h with
  | zero l =>
    have e : (l.mapTP fun tp => { tp with dataOff := tp.dataOff + BitVec.ofNat 32 0 }) = l := by
      cases l; simp [Ctx.mapTP, Ctx.mapDev]
    rw [e]; exact .refl l
  | padded _ ih => rw [step]; exact ih.mapTP _
  | read _ ih => rw [step]; exact (ih.trans (pump_frame _)).mapTP _

/-- Everything the fetch of a byte can do. -/
theorem nextByte_cases (f : Byte → Ctx → Res) (l : Ctx) :
    nextByte f l = .stuck (pump l) ∨ ∃ b m, (m = l ∨ m = pump l) ∧ nextByte f l = f b (advance m) := by
  unfold nextByte padByte
  split
  · unfold readByte; split
    · exact .inr ⟨_, pump l, .inr rfl, rfl⟩
    · exact .inl rfl
  · exact .inr ⟨0, l, .inl rfl, rfl⟩

theorem Fetched.next {n : Nat} {l m m' : Ctx} (h : Fetched n l m) (hm : m' = m ∨ m' = pump m) :
    Fetched (n + 1) l (advance m') := by
  rcases hm with rfl | rfl
  · exact h.padded
  · exact h.read

/-- Everything the fetch of a unit can do: four bytes, or fewer and then the handler is stuck. -/
theorem nextWord_cases (f : Word → Ctx → Res) (l : Ctx) :
    (∃ n m, n < 4 ∧ Fetched n l m ∧ nextWord f l = .stuck (pump m)) ∨ ∃ w m, Fetched 4 l m ∧ nextWord f l = f w m := by
  unfold nextWord
  rcases nextByte_cases _ l with e | ⟨b0, m0, h0, e⟩ <;> rw [e]
  · exact .inl ⟨0, l, by omega, .zero l, rfl⟩
  have f0 := (Fetched.zero l).next h0
  rcases nextByte_cases _ (advance m0) with e | ⟨b1, m1, h1, e⟩ <;> rw [e]
  · exact .inl ⟨1, _, by omega, f0, rfl⟩
  have f1 := f0.next h1
  rcases nextByte_cases _ (advance m1) with e | ⟨b2, m2, h2, e⟩ <;> rw [e]
  · exact .inl ⟨2, _, by omega, f1, rfl⟩
  have f2 := f1.next h2
  rcases nextByte_cases _ (advance m2) with e | ⟨b3, m3, h3, e⟩ <;> rw [e]
  · exact .inl ⟨3, _, by omega, f2, rfl⟩
  exact .inr ⟨_, _, f2.next h3, rfl⟩

/-! ### Delivering words (R236, R237) -/

/-- Delivering words changes the offset only, beside host memory and what falls between the accesses. -/
theorem drainWords_ends (n : Nat) (s : Slot) (l : Ctx) :
    (drainWords n s l).Ends fun m => ∃ off, EnvFrame (l.mapTP fun tp => { tp with dataOff := off }) m := by
  have self : ∀ l : Ctx, (l.mapTP fun tp => { tp with dataOff := l.dev.tp.dataOff }) = l := fun l => rfl
  induction n generalizing s l with
  | zero => exact ⟨l.dev.tp.dataOff, by rw [self]; exact .refl l⟩
  | succ n ih =>
    unfold drainWords
    refine andThen_ends (writeBytes_ends _ _ _) (fun m h => ?_) fun m h => ⟨l.dev.tp.dataOff, ?_⟩
    · refine (ih (s + 1) _).mono ?_
      rintro r ⟨off, hr⟩
      exact ⟨off, (((pump_frame l).trans h).mapTP fun tp => { tp with dataOff := off }).trans hr⟩
    · rw [self]; exact (pump_frame l).trans h

/-- Reading word-slots is what falls before the reads. -/
theorem gatherWords_frame (n : Nat) (s : Slot) (l : Ctx) : EnvFrame l (gatherWords n s l).2 := by
  induction n generalizing s l with
  | zero => exact .refl l
  | succ n ih => exact (pump_frame l).trans (ih (s + 1) (pump l))

/-! ### The acts -/

/-- One act of a handler run, with the guard under which the chains take it. -/
inductive HandlerAct : Ctx → Ctx → Prop
  /-- The moves before a register read. -/
  | moves (l : Ctx) : HandlerAct l (pump l)
  /-- A clear pulse. -/
  | clear (l : Ctx) (r : Reg) (mask : Word) (h : r = .mStclr ∨ r = .mRdfclr) : HandlerAct l (pulse r mask l)
  /-- Clearing interrupt enables. -/
  | disable (l : Ctx) (mask : BitVec 9) : HandlerAct l (intenClr mask l)
  /-- Writing the DMA status back. -/
  | ackDma (l : Ctx) (v : Word) : HandlerAct l (regWrite .dStatus v l)
  /-- Recording flags. -/
  | flags (l : Ctx) (f : IrqFlags) (g : DmaFlags) : HandlerAct l (l.mapTP fun tp => { tp with irq := f, dma := g })
  /-- One unit of the refill (R230). -/
  | unit (l l' : Ctx) (w : Word) (hp : l.dev.tp.phase = .write) (hc : l.dev.tp.burstCnt ≠ 0) (hf : Fetched 4 l l') :
      HandlerAct l
        ((dataPut (slotOfOffset l.dev.tp.dataOff.toNat) w l').mapTP fun tp => { tp with burstCnt := tp.burstCnt - 1 })
  /-- One burst slot of the drain (R236). -/
  | slot (l l' : Ctx) (m : Byte) (hs : l.dev.sig = false) (hp : l.dev.tp.phase = .read) (hc : l.dev.tp.burstCnt ≠ 0)
      (hw : drainWords (burstWords l.params.burst16) l.dev.tp.regIdx l = .next l') :
      HandlerAct l
        ((rdflagClear m l').mapTP fun tp =>
          { tp with regIdx := l.dev.tp.regIdx + Fin.ofNat 8 (burstWords l.params.burst16), burstCnt := tp.burstCnt - 1 })
  /-- The finish (R237). -/
  | finish (l l' : Ctx) (hs : l.dev.sig = false) (hp : l.dev.tp.phase = .read ∨ l.dev.tp.phase = .dmaRead)
      (hf : finishRead l = .next l') : HandlerAct l l'
  /-- Success (R226, R240). -/
  | success (l : Ctx) (hs : l.dev.sig = false) (hp : l.dev.tp.phase ≠ .idle) : HandlerAct l (succeed l)
  /-- The error procedure (R231). -/
  | fail (l : Ctx) (e : Result) (hs : l.dev.sig = false) (hp : l.dev.tp.phase ≠ .idle) : HandlerAct l (terminate e l)

/-- Where a handler run is stuck (R78), with the guard under which it came there. -/
inductive HandlerStop : Ctx → Ctx → Prop
  /-- At a byte of a unit of the refill. -/
  | unit (l l' : Ctx) (n : Nat) (hp : l.dev.tp.phase = .write) (hc : l.dev.tp.burstCnt ≠ 0) (hn : n < 4)
      (hf : Fetched n l l') : HandlerStop l (pump l')
  /-- At a byte of a burst slot of the drain. -/
  | slot (l l' : Ctx) (hs : l.dev.sig = false) (hp : l.dev.tp.phase = .read) (hc : l.dev.tp.burstCnt ≠ 0)
      (hw : drainWords (burstWords l.params.burst16) l.dev.tp.regIdx l = .stuck l') : HandlerStop l l'
  /-- At a byte of the finish. -/
  | finish (l l' : Ctx) (hs : l.dev.sig = false) (hp : l.dev.tp.phase = .read ∨ l.dev.tp.phase = .dmaRead)
      (hf : finishRead l = .stuck l') : HandlerStop l l'

/-- A sequence of acts. -/
inductive HandlerActs : Ctx → Ctx → Prop
  | nil (l : Ctx) : HandlerActs l l
  | cons {l m n : Ctx} (h : HandlerAct l m) (t : HandlerActs m n) : HandlerActs l n

theorem HandlerActs.one {l m : Ctx} (h : HandlerAct l m) : HandlerActs l m := .cons h (.nil m)

theorem HandlerActs.trans {l m n : Ctx} (h1 : HandlerActs l m) (h2 : HandlerActs m n) : HandlerActs l n := by
  induction h1 with
  | nil => exact h2
  | cons h _ ih => exact .cons h (ih h2)

/-- What every act keeps, every sequence of acts keeps. -/
theorem HandlerActs.induct {P : Ctx → Prop} (hP : ∀ l m, HandlerAct l m → P l → P m) {l m : Ctx} (h : HandlerActs l m)
    (h0 : P l) : P m := by
  induction h with
  | nil => exact h0
  | cons h _ ih => exact ih (hP _ _ h h0)

/-- A part of a handler run is a sequence of acts; it may be stuck after them. -/
def Acts (l : Ctx) : Res → Prop
  | .next l' => HandlerActs l l'
  | .stuck l' => ∃ m, HandlerActs l m ∧ HandlerStop m l'
  | .refused _ => False

theorem Acts.after {l m : Ctx} {r : Res} (h : HandlerActs l m) (hr : Acts m r) : Acts l r := by
  cases r with
  | next l' => exact h.trans hr
  | stuck l' => obtain ⟨n, h1, h2⟩ := hr; exact ⟨n, h.trans h1, h2⟩
  | refused e => exact hr

theorem Acts.bind {l : Ctx} {r : Res} {f : Ctx → Res} (hr : Acts l r) (hf : ∀ m, Acts m (f m)) : Acts l (andThen r f) := by
  cases r with
  | next m => exact .after hr (hf m)
  | stuck m => exact hr
  | refused e => exact hr

/-! ### The events are sequences of acts -/

theorem setIrq_act (f : IrqFlags → IrqFlags) (l : Ctx) : HandlerAct l (setIrq f l) :=
  .flags l (f l.dev.tp.irq) l.dev.tp.dma

theorem setDma_act (f : DmaFlags → DmaFlags) (l : Ctx) : HandlerAct l (setDma f l) :=
  .flags l l.dev.tp.irq (f l.dev.tp.dma)

@[simp] theorem setIrq_sig (f : IrqFlags → IrqFlags) (l : Ctx) : (setIrq f l).dev.sig = l.dev.sig := rfl
@[simp] theorem setIrq_phase (f : IrqFlags → IrqFlags) (l : Ctx) : (setIrq f l).dev.tp.phase = l.dev.tp.phase := rfl

/-- Which arm is dispatched, and what it implies. -/
theorem dispatchArm_cases (d : Device) :
    (dispatchArm d = .none) ∨
    (d.sig = false ∧ (d.tp.phase = .write ∨ d.tp.phase = .dmaWrite) ∧ dispatchArm d = writeArm d.tp) ∨
    (d.sig = false ∧ (d.tp.phase = .read ∨ d.tp.phase = .dmaRead) ∧ dispatchArm d = readArm d.tp) := by
  unfold dispatchArm
  cases d.sig <;> cases h : d.tp.phase <;> simp

/-- An arm that acts is taken only in an active phase before the signal. -/
theorem dispatchArm_active {d : Device} (h : dispatchArm d ≠ .none) : d.sig = false ∧ d.tp.phase ≠ .idle := by
  rcases dispatchArm_cases d with h' | ⟨h1, h2, -⟩ | ⟨h1, h2, -⟩
  · exact absurd h' h
  · exact ⟨h1, by rcases h2 with h2 | h2 <;> rw [h2] <;> simp⟩
  · exact ⟨h1, by rcases h2 with h2 | h2 <;> rw [h2] <;> simp⟩

/-- The read chain's last arm is taken only in a read phase. -/
theorem dispatchArm_deliver {d : Device} (h : dispatchArm d = .deliver) :
    d.sig = false ∧ (d.tp.phase = .read ∨ d.tp.phase = .dmaRead) := by
  rcases dispatchArm_cases d with h' | ⟨h1, h2, h3⟩ | ⟨h1, h2, -⟩
  · rw [h'] at h; cases h
  · rw [h3] at h; unfold writeArm at h; split_ifs at h
  · exact ⟨h1, h2⟩

/-- The refill arm is taken only in phase `Write` with units left. -/
theorem dispatchArm_refill {d : Device} (h : dispatchArm d = .refill) :
    d.sig = false ∧ d.tp.phase = .write ∧ d.tp.burstCnt ≠ 0 := by
  rcases dispatchArm_cases d with h' | ⟨h1, h2, h3⟩ | ⟨h1, h2, h3⟩
  · rw [h'] at h; cases h
  · rw [h3] at h; unfold writeArm at h; split_ifs at h with _ _ _ _ hc; exact ⟨h1, hc.2, hc.1⟩
  · rw [h3] at h; unfold readArm at h; split_ifs at h

theorem nackAct_acts (l : Ctx) : HandlerActs l (nackAct l) := by
  unfold nackAct
  split
  · rename_i h
    obtain ⟨h1, h2⟩ := dispatchArm_active (d := l.dev) (by rw [h]; simp)
    exact .one (.fail l _ h1 h2)
  · exact .nil l

theorem evAddrNack_acts (l : Ctx) : HandlerActs l (evAddrNack l) := .cons (setIrq_act _ l) (nackAct_acts _)
theorem evDataNack_acts (l : Ctx) : HandlerActs l (evDataNack l) := .cons (setIrq_act _ l) (nackAct_acts _)

theorem evFifoEmpty_acts (l : Ctx) : HandlerActs l (evFifoEmpty l) := by
  refine .cons (setIrq_act (fun f => { f with fifoEmpty := true }) l) ?_
  unfold evFifoEmpty
  simp only
  split
  · rename_i h
    obtain ⟨h1, h2⟩ := dispatchArm_active (by rw [h]; simp)
    exact .one (.fail _ _ h1 h2)
  · exact .nil _

theorem evSclHold_acts (l : Ctx) : HandlerActs l (evSclHold l) := by
  refine .cons (setIrq_act (fun f => { f with sclHold := true }) l) ?_
  unfold evSclHold
  simp only
  split
  · rename_i h
    obtain ⟨h1, h2⟩ := dispatchArm_active (by rw [h]; simp)
    exact .one (.fail _ _ h1 h2)
  · exact .nil _

theorem evRdOverflow_acts (l : Ctx) : HandlerActs l (evRdOverflow l) := by
  refine .cons (setIrq_act (fun f => { f with rdOverflow := true }) l) ?_
  unfold evRdOverflow
  simp only
  split
  · rename_i h
    obtain ⟨h1, h2⟩ := dispatchArm_active (by rw [h]; simp)
    exact .one (.fail _ _ h1 h2)
  · exact .nil _

/-- The finish is never refused. -/
theorem finishRead_ends (l : Ctx) : (finishRead l).Ends fun _ => True := by
  unfold finishRead; simp only; split
  · trivial
  · exact andThen_ends (writeBytes_ends _ _ _) (fun _ _ => trivial) fun _ _ => trivial

theorem evActiveDone_acts (l : Ctx) : Acts l (evActiveDone l) := by
  refine .after (.one (setIrq_act (fun f => { f with activeDone := true }) l)) ?_
  unfold evActiveDone
  simp only
  split
  · rename_i hd
    obtain ⟨h1, h2⟩ := dispatchArm_active (by rw [hd]; simp)
    exact HandlerActs.one (.success _ h1 h2)
  · rename_i hd
    obtain ⟨h1, h2⟩ := dispatchArm_deliver hd
    have he := finishRead_ends (setIrq (fun f => { f with activeDone := true }) l)
    cases hf : finishRead (setIrq (fun f => { f with activeDone := true }) l) with
    | next m => exact HandlerActs.one (.finish _ _ h1 h2 hf)
    | stuck m => exact ⟨_, .nil _, .finish _ _ h1 h2 hf⟩
    | refused e => rw [hf] at he; exact he
  · exact HandlerActs.nil _

theorem evDmaDone_acts (l : Ctx) : HandlerActs l (evDmaDone l) := by
  refine .cons (setDma_act (fun f => { f with done := true }) l) ?_
  unfold evDmaDone
  simp only
  split
  · rename_i h
    simp only [Bool.and_eq_true, Bool.not_eq_true'] at h
    refine .one (.success _ h.1 ?_)
    intro h0; rw [h0] at h; simp [Phase.isDma] at h
  · exact .nil _

/-- A register write keeps the transaction's fields. -/
theorem regWrite_tp (r : Reg) (v : Word) (l : Ctx) : (regWrite r v l).dev.tp = l.dev.tp := by
  rw [regWrite_dev, latch_tp, poke_tp]
  have := pump_sameProgramme l
  simp only [Device.SameProgramme] at this
  exact this.2.2.2.2.2.2.2.2.2.2.2.2.1

theorem pump_tp (l : Ctx) : (pump l).dev.tp = l.dev.tp := by
  have := pump_sameProgramme l
  simp only [Device.SameProgramme] at this
  exact this.2.2.2.2.2.2.2.2.2.2.2.2.1

theorem rmw_tp (r : Reg) (mask v : Word) (l : Ctx) : (rmw r mask v l).dev.tp = l.dev.tp := by
  rw [rmw_eq, regWrite_tp, pump_tp]

theorem pulse_tp (r : Reg) (mask : Word) (l : Ctx) : (pulse r mask l).dev.tp = l.dev.tp := by
  rw [pulse, regWrite_tp, regWrite_tp]

theorem pump_sig (l : Ctx) : (pump l).dev.sig = l.dev.sig := by
  have := pump_sameProgramme l
  simp only [Device.SameProgramme] at this
  exact this.2.2.2.2.2.2.2.2.2.2.2.2.2.2.2.2.2.1

theorem regWrite_sig (r : Reg) (v : Word) (l : Ctx) : (regWrite r v l).dev.sig = l.dev.sig := by
  rw [regWrite_dev, latch_sig, poke_sig, pump_sig]

theorem dataPut_tp (i : Slot) (w : Word) (l : Ctx) : (dataPut i w l).dev.tp = l.dev.tp := by
  rw [dataPut, regWrite_tp]

theorem pulse_sig (r : Reg) (mask : Word) (l : Ctx) : (pulse r mask l).dev.sig = l.dev.sig := by
  rw [pulse, regWrite_sig, regWrite_sig]

/-- The units of the refill are acts. -/
theorem refillUnits_acts {k : Nat} {l : Ctx} (hp : l.dev.tp.phase = .write) (hc : l.dev.tp.burstCnt ≠ 0) :
    Acts l (refillUnits k l) := by
  induction k generalizing l with
  | zero => exact HandlerActs.nil _
  | succ k ih =>
    rw [refillUnits]
    simp only
    rcases nextWord_cases _ l with ⟨n, m, hn, hf, e⟩ | ⟨w, m, hf, e⟩ <;> rw [e]
    · exact ⟨l, .nil l, .unit l m n hp hc hn hf⟩
    · refine .after (.one (.unit l m w hp hc hf)) ?_
      split_ifs with h0
      · exact HandlerActs.one (.disable _ _)
      · refine ih ?_ h0
        have ht := hf.frame.programme
        simp only [Device.SameProgramme, Ctx.mapTP_dev] at ht
        rw [Ctx.mapTP_dev]; simp only [dataPut_tp, ht]; exact hp

theorem evEmptyThreshold_acts (l : Ctx) : Acts l (evEmptyThreshold l) := by
  refine .after (.one (setIrq_act (fun f => { f with emptyThreshold := true }) l)) ?_
  unfold evEmptyThreshold
  simp only
  split
  · rename_i hd
    obtain ⟨-, h2, h3⟩ := dispatchArm_refill hd
    exact .bind (refillUnits_acts h2 h3) fun m => HandlerActs.one (.clear _ _ _ (.inl rfl))
  · exact HandlerActs.nil _

theorem drainSlots_acts {k : Nat} {f : Byte} {l : Ctx} (hs : l.dev.sig = false) (hp : l.dev.tp.phase = .read) :
    Acts l (drainSlots k f l) := by
  induction k generalizing l f with
  | zero => exact HandlerActs.nil _
  | succ k ih =>
    rw [drainSlots]
    split_ifs with h0
    · exact HandlerActs.nil _
    · rw [not_or] at h0
      have he := drainWords_ends (burstWords l.params.burst16) l.dev.tp.regIdx l
      cases hd : drainWords (burstWords l.params.burst16) l.dev.tp.regIdx l with
      | refused e => rw [hd] at he; exact he.elim
      | stuck m => exact ⟨l, .nil l, .slot l m hs hp h0.1 hd⟩
      | next m =>
        rw [hd] at he
        obtain ⟨off, hfr⟩ := he
        have ht := hfr.programme
        simp only [Device.SameProgramme, Ctx.mapTP_dev] at ht
        refine .after (.one (.slot l m (slotMask (burstWords l.params.burst16) l.dev.tp.regIdx) hs hp h0.1 hd)) (ih ?_ ?_)
        · show (rdflagClear _ m).dev.sig = false
          rw [rdflagClear, pulse_sig]; simp only [ht]; exact hs
        · show (rdflagClear _ m).dev.tp.phase = .read
          rw [rdflagClear, pulse_tp]; simp only [ht]; exact hp

theorem evBurstSlot_acts (l : Ctx) : Acts l (evBurstSlot l) := by
  unfold evBurstSlot
  split
  · rename_i hd
    obtain ⟨h1, -⟩ := dispatchArm_deliver hd
    split_ifs with hc
    · exact .after (.one (.moves l)) (drainSlots_acts (k := 8) (f := (rdflagGet l).1) (by rw [pump_sig]; exact h1)
        (by rw [pump_tp]; exact hc.2))
    · exact HandlerActs.nil _
  · exact HandlerActs.nil _

/-- The dispatch of a run. -/
theorem dispatch_acts (l : Ctx) : Acts l (dispatch l) := by
  unfold dispatch
  split
  · exact HandlerActs.nil _
  · exact evActiveDone_acts l
  · show HandlerActs l _
    split
    · exact evAddrNack_acts _
    · exact evDataNack_acts _
  · exact evSclHold_acts l
  · exact evFifoEmpty_acts l
  · exact evRdOverflow_acts l
  · split
    · exact evEmptyThreshold_acts l
    · exact HandlerActs.nil _
  · refine .bind (evBurstSlot_acts l) fun m => ?_
    split
    · exact evActiveDone_acts m
    · exact HandlerActs.nil _

theorem handlerStatus_acts (l : Ctx) : HandlerActs (handlerEnter l) (handlerStatus l) := by
  let a := pump (handlerEnter l)
  let b := statusClear 0x7F a
  let c := setIrq (irqOfStatus (statusGet (handlerEnter l)).1) b
  exact .cons (m := a) (.moves _) (.cons (m := b) (.clear a .mStclr _ (.inl rfl)) (.cons (m := c) (setIrq_act _ b)
    (.cons (m := pump c) (.moves c) (.one (setIrq_act (fun f => { f with rdOverflow := (ovfGet c).1 != 0 }) (pump c))))))

/-- Everything a handler run can do: entry, a sequence of acts, and then its return or the access at which it is stuck; it is never
refused. -/
theorem handlerRun_acts (l : Ctx) :
    (∃ m, HandlerActs (handlerEnter l) m ∧ handlerRun l = .next (handlerReturn m)) ∨
    ∃ m l', HandlerActs (handlerEnter l) m ∧ HandlerStop m l' ∧ handlerRun l = .stuck l' := by
  have hd := Acts.after (handlerStatus_acts l) (dispatch_acts (handlerStatus l))
  unfold handlerRun
  cases hn : dispatch (handlerStatus l) with
  | refused e => rw [hn] at hd; exact hd.elim
  | stuck m => rw [hn] at hd; obtain ⟨m', h1, h2⟩ := hd; exact .inr ⟨m', m, h1, h2, rfl⟩
  | next n =>
    rw [hn] at hd
    refine .inl ⟨_, ?_, rfl⟩
    refine HandlerActs.trans hd ?_
    let a := (dmaStatusGetclr n).2
    let b := setDma (fun _ => dmaOfStatus (dmaStatusGetclr n).1) a
    refine .cons (m := pump n) (.moves n) (.cons (m := a) (.ackDma (pump n) _) (.cons (m := b) (setDma_act _ a) ?_))
    show HandlerActs b (if b.dev.tp.dma.done then evDmaDone b else b)
    split_ifs
    · exact evDmaDone_acts b
    · exact .nil b

end Sys2Proof.Machine
end

