-- ==== Sys2Proof/Laws/PerInstr.lean ====
section
/-! SUPPORT. Laws stated per instruction, for the host's case split. -/

namespace Sys2Proof.Laws.ImageShape

/-- The image of an instruction has the number of words its format has (spec/30_encoding.md R100): six in a descriptor, four in a
primitive's image, one in a status pattern. -/
def Statement (i : Instr) : Prop :=
  (encode i).words.length =
    match (encode i).fmt with
    | .cmd => 6
    | .reg => 4
    | .mst | .ovf | .rdf _ _ | .dst => 1

theorem read (a : Args) : Statement (.read a) := rfl
theorem write (a : Args) : Statement (.write a) := rfl
theorem dmaRead (a : Args) : Statement (.dmaRead a) := rfl
theorem dmaWrite (a : Args) : Statement (.dmaWrite a) := rfl
theorem evActiveDone : Statement .evActiveDone := rfl
theorem evAddrNack : Statement .evAddrNack := rfl
theorem evDataNack : Statement .evDataNack := rfl
theorem evEmptyThreshold : Statement .evEmptyThreshold := rfl
theorem evFifoEmpty : Statement .evFifoEmpty := rfl
theorem evFifoFull : Statement .evFifoFull := rfl
theorem evSclHold : Statement .evSclHold := rfl
theorem evRdOverflow : Statement .evRdOverflow := rfl
theorem evBurstSlot : Statement .evBurstSlot := rfl
theorem evDmaDone : Statement .evDmaDone := rfl
theorem evDmaWcntErr : Statement .evDmaWcntErr := rfl
theorem evDmaWbenErr : Statement .evDmaWbenErr := rfl
theorem evDmaGdmaTimeout : Statement .evDmaGdmaTimeout := rfl
theorem evDmaIpTimeout : Statement .evDmaIpTimeout := rfl
theorem evDmaZeroLen : Statement .evDmaZeroLen := rfl
theorem ctrlReset : Statement .ctrlReset := rfl
theorem clkdivSet (freq : Word) : Statement (.clkdivSet freq) := rfl
theorem addrSet (addr : BitVec Config.addrWidth) : Statement (.addrSet addr) := rfl
theorem modeSet (m : ModeMask) (rw restart auto : Bool) : Statement (.modeSet m rw restart auto) := rfl
theorem cntSet (wr rd : BitVec 16) : Statement (.cntSet wr rd) := rfl
theorem dataLoad32 (src : Word) (n : BitVec 6) : Statement (.dataLoad32 src n) := rfl
theorem dataPut (slot : Slot) (w : Word) : Statement (.dataPut slot w) := rfl
theorem dataGet (slot : Slot) : Statement (.dataGet slot) := rfl
theorem intenSet (mask : BitVec 9) : Statement (.intenSet mask) := rfl
theorem intenClr (mask : BitVec 9) : Statement (.intenClr mask) := rfl
theorem statusGet : Statement .statusGet := rfl
theorem statusClear (mask : BitVec 7) : Statement (.statusClear mask) := rfl
theorem ovfGet : Statement .ovfGet := rfl
theorem rdflagGet : Statement .rdflagGet := rfl
theorem rdflagClear (mask : BitVec 8) : Statement (.rdflagClear mask) := rfl
theorem trigger : Statement .trigger := rfl
theorem dmaAddrSet (a : Word) : Statement (.dmaAddrSet a) := rfl
theorem dmaLenSet (n : BitVec 16) : Statement (.dmaLenSet n) := rfl
theorem dmaDirSet (dir : Bool) : Statement (.dmaDirSet dir) := rfl
theorem dmaIntenSet (mask : BitVec 6) : Statement (.dmaIntenSet mask) := rfl
theorem dmaGo : Statement .dmaGo := rfl
theorem dmaStatusGetclr : Statement .dmaStatusGetclr := rfl

end Sys2Proof.Laws.ImageShape
end

