-- ==== Sys2Proof/Laws/Step.lean ====
section
/-! SUPPORT. What one step can do, said once: it runs one move; a move of an instance changes that instance, host memory and the
trace, and what falls between its accesses does what the same move of the schedule does. -/

namespace Sys2Proof.Machine

theorem step_nil {s : State} (h : s.agenda = []) : step s = .next s := by rw [step, h]

theorem step_cons {s : State} {m : Move} {rest : List Move} (h : s.agenda = m :: rest) :
    step s = runMove m { s with agenda := rest } := by rw [step, h]

/-- An operation of an instance that goes on or is stuck. -/
theorem onInstance_next {ag : Agent} {k : Nat} {f : Ctx → Res} {s t : State} (h : onInstance ag k f s = .next t) :
    ∃ (d : Device) (l : Ctx), s.devs[k]? = some d ∧
      ((f (s.ctx k d) = .next l ∧ t = s.putCtx l) ∨ (f (s.ctx k d) = .stuck l ∧ t = s.putCtx (l.mapDev (halt ag)))) := by
  unfold onInstance at h
  split at h
  · cases h
  · rename_i d hd
    split at h
    · rename_i l hl; injection h with h; exact ⟨d, l, hd, .inl ⟨hl, h.symm⟩⟩
    · rename_i l hl; injection h with h; exact ⟨d, l, hd, .inr ⟨hl, h.symm⟩⟩
    · cases h

/-- A move of an instance that is there. -/
theorem moveOn_some {ag : Agent} {k : Nat} {f : Ctx → Res} {s : State} {d : Device} (h : s.devs[k]? = some d) :
    moveOn ag k f s = onInstance ag k f s := by
  obtain ⟨hk, -⟩ := List.getElem?_eq_some_iff.mp h
  rw [moveOn, if_pos hk]

/-- A move of an instance that goes on or is stuck: nothing moves where there is no such instance. -/
theorem moveOn_next {ag : Agent} {k : Nat} {f : Ctx → Res} {s t : State} (h : moveOn ag k f s = .next t) :
    (s.devs[k]? = none ∧ t = s) ∨
    ∃ (d : Device) (l : Ctx), s.devs[k]? = some d ∧
      ((f (s.ctx k d) = .next l ∧ t = s.putCtx l) ∨ (f (s.ctx k d) = .stuck l ∧ t = s.putCtx (l.mapDev (halt ag)))) := by
  unfold moveOn at h
  split_ifs at h with hk
  · exact .inr (onInstance_next h)
  · injection h with h
    exact .inl ⟨List.getElem?_eq_none (by omega), h.symm⟩

/-- Each command is its own admission. -/
theorem exec_command (c : Cmd) (s : State) : exec c.instr s = .next (issue c.op c.args s) := by
  rcases c with ⟨op, a⟩
  cases op <;> rfl

/-! ### A move between two accesses is the same move of the schedule (R280) -/

/-- An operation that sees and changes one instance, host memory and the trace only. -/
def Local (f : Ctx → Ctx) : Prop :=
  ∀ (l : Ctx) (b a : List Device) (c : Cmd) (h : Nat),
    f { l with before := b, after := a, callCmd := c, host := h } =
      { f l with before := b, after := a, callCmd := c, host := h }

theorem local_be (m : BeMove) : Local fun l => l.mapDev (beMove l.params m) := fun _ _ _ _ _ => rfl

theorem local_answerMap (r : Option Word) : Local (answerMap r) := fun _ _ _ _ _ => rfl

theorem local_timerExpire : Local timerExpire := by
  intro l b a c h
  unfold timerExpire
  split_ifs <;> rfl

theorem local_deMove (m : DeMove) : Local (deMove m) := by
  intro l b a c h
  unfold deMove
  dsimp only
  split
  · cases m with
    | set mask => rfl
    | read i =>
      dsimp only
      split
      · unfold deRead
        dsimp only
        cases resolve l.dev i.toNat with
        | none => rfl
        | some x =>
          cases x with
          | host x => cases hc : cellRead l.mem x <;> simp [haltEngine, Ctx.mapDev, hc]
          | scratch j => rfl
      · rfl
    | write i v =>
      dsimp only
      split
      · unfold deWrite
        dsimp only
        cases resolve l.dev i.toNat with
        | none => rfl
        | some x =>
          cases x with
          | host x => cases hc : memStore l.mem x v <;> simp [haltEngine, Ctx.mapDev, hc]
          | scratch j => rfl
      · rfl
  · rfl

/-- A move on any instance, from an instance in hand, is that move of the schedule. -/
theorem envOn_eq {f : Ctx → Ctx} (hf : Local f) {s : State} {k j : Nat} {d : Device}
    (h : s.devs[k]? = some d) : envOn j f s = .next (s.putCtx (onAny j f (s.ctx k d))) := by
  unfold envOn onAny
  by_cases hj : j = k
  · subst hj
    rw [moveOn_some h]
    simp only [State.ctx_id, if_true, onInstance, h]
  · have hp : (s.ctx k d).peer? j = s.devs[j]? := by
      rw [Ctx.peer?_eq (State.ctx_placed h) hj, State.ctx_devices h]
    rw [if_neg (show ¬j = (s.ctx k d).id from hj)]
    cases hv : s.devs[j]? with
    | none =>
      have hlt : ¬ j < s.devs.length := by
        intro hlt; rw [List.getElem?_eq_getElem hlt] at hv; cases hv
      have e : onPeer j f (s.ctx k d) = s.ctx k d := by simp only [onPeer, hp, hv]
      rw [moveOn, if_neg hlt, e, State.putCtx_ctx h]
    | some v =>
      rw [moveOn_some hv]
      simp only [onInstance, hv]
      have e : f (s.ctx j v) = { f { s.ctx k d with id := j, dev := v } with
          before := s.devs.take j, after := s.devs.drop (j + 1), callCmd := s.callCmd, host := s.host } :=
        hf { s.ctx k d with id := j, dev := v } _ _ _ _
      have e2 : onPeer j f (s.ctx k d) =
          { s.ctx k d with
            mem := (f { s.ctx k d with id := j, dev := v }).mem
            trace := (f { s.ctx k d with id := j, dev := v }).trace }.setPeer j
              (f { s.ctx k d with id := j, dev := v }).dev := by simp only [onPeer, hp, hv]
      rw [e, e2]
      generalize f { s.ctx k d with id := j, dev := v } = r
      have d1 : ({ r with before := s.devs.take j, after := s.devs.drop (j + 1) } : Ctx).devices = s.devs.set j r.dev := by
        refine Eq.trans ?_ (congrArg (fun x => x.set j r.dev) (State.ctx_devices hv))
        exact Ctx.devices_dev (l := s.ctx j v) (State.ctx_placed hv) r.dev
      have d2 : (Ctx.setPeer j r.dev { s.ctx k d with mem := r.mem, trace := r.trace }).devices = s.devs.set j r.dev := by
        rw [Ctx.devices_setPeer (l := { s.ctx k d with mem := r.mem, trace := r.trace }) (State.ctx_placed h) hj]
        exact congrArg (·.set j r.dev) (State.ctx_devices h)
      simp only [State.putCtx, State.ctx_callCmd, State.ctx_host, Ctx.setPeer_mem, Ctx.setPeer_trace, Ctx.setPeer_callCmd,
        Ctx.setPeer_host]
      exact congrArg (fun x => Host.Outcome.next { s with devs := x, mem := r.mem, trace := r.trace }) (d1.trans d2.symm)

/-- A command that falls between two accesses is that command of the schedule, but to the instance in hand while it is idle. -/
theorem commandPort_eq {s : State} {k h : Nat} {d : Device} {c : Cmd} {ws : List Word} (hk : s.devs[k]? = some d)
    (hw : decode ⟨.cmd, ws⟩ = .ok c.instr) (hc : c.args.dev.toNat ≠ k ∨ d.tp.busy = true) :
    commandPort h ws s = .next (s.putCtx (hostCommand h c (s.ctx k d))) := by
  have hdev := State.ctx_devices hk
  unfold commandPort hostCommand
  simp only [hdev]
  by_cases hwait : waiting h s.devs = true
  · simp only [hwait, if_true, State.putCtx_ctx hk]
  · rw [if_neg hwait, if_neg hwait, hw]
    simp only [exec_command, issue]
    have put : ∀ r : Result, s.putCtx (answer h c r (s.ctx k d)) =
        { s with callCmd := c, host := h, trace := .returned h c.args.dev r :: s.trace } := by
      intro r
      show ({ s with devs := (s.ctx k d).devices, callCmd := c, host := h, trace := _ } : State) = _
      rw [hdev]; rfl
    by_cases hj : c.args.dev.toNat = k
    · have hb : d.tp.busy = true := hc.resolve_left (fun h => h hj)
      have hj' : c.args.dev.toNat = (s.ctx k d).id := hj
      have hb' : (s.ctx k d).dev.tp.busy = true := hb
      rw [if_pos hj', if_pos hb', put]
      simp only [hj, hk, hb, admission, if_true]
      rfl
    · have hp : (s.ctx k d).peer? c.args.dev.toNat = s.devs[c.args.dev.toNat]? := by
        rw [Ctx.peer?_eq (State.ctx_placed hk) hj, hdev]
      rw [if_neg (show ¬c.args.dev.toNat = (s.ctx k d).id from hj), hp]
      cases hv : s.devs[c.args.dev.toNat]? with
      | none => simp only [put]; rfl
      | some v =>
        simp only
        cases ha : admission v c with
        | some r => simp only [put]; rfl
        | none =>
          simp only
          have d2 : (Ctx.setPeer c.args.dev.toNat (startTransaction s.params h c v)
              { s.ctx k d with callCmd := c, host := h }).devices =
              s.devs.set c.args.dev.toNat (startTransaction s.params h c v) := by
            rw [Ctx.devices_setPeer (l := { s.ctx k d with callCmd := c, host := h }) (State.ctx_placed hk) hj]
            exact congrArg (·.set c.args.dev.toNat (startTransaction s.params h c v)) hdev
          simp only [State.putCtx, Ctx.setPeer_mem, Ctx.setPeer_trace, Ctx.setPeer_callCmd, Ctx.setPeer_host]
          exact congrArg (fun x => Host.Outcome.next { s with devs := x, callCmd := c, host := h }) d2.symm

/-- What falls between two accesses is the same move of the schedule (R280). The timeout of the instance in hand, and a command to it
while it is idle, wait for the end of its agent's step. -/
theorem runMove_eq_envMove {s : State} {k : Nat} {d : Device} (h : s.devs[k]? = some d) :
    (∀ j m, runMove (.be j m) s = .next (s.putCtx (envMove (s.ctx k d) (.be j m)))) ∧
    (∀ j m, runMove (.de j m) s = .next (s.putCtx (envMove (s.ctx k d) (.de j m)))) ∧
    (∀ j, j ≠ k → runMove (.tmr j) s = .next (s.putCtx (envMove (s.ctx k d) (.expire j)))) ∧
    (∀ j r, runMove (.mapAnswer j r) s = .next (s.putCtx (envMove (s.ctx k d) (.mapAnswer j r)))) ∧
    (∀ a b, runMove (.hostStore a b) s = .next (s.putCtx (envMove (s.ctx k d) (.store a b)))) ∧
    (∀ a, runMove (.hostFree a) s = .next (s.putCtx (envMove (s.ctx k d) (.free a)))) ∧
    (∀ c hst ws, decode ⟨.cmd, ws⟩ = .ok c.instr → c.args.dev.toNat ≠ k ∨ d.tp.busy = true →
      runMove (.host hst ws) s = .next (s.putCtx (envMove (s.ctx k d) (.command hst c)))) := by
  refine ⟨fun j m => envOn_eq (local_be m) h, fun j m => envOn_eq (local_deMove m) h,
    fun j hj => ?_, fun j r => envOn_eq (local_answerMap r) h, fun a b => ?_, fun a => ?_,
    fun c hst ws hw hc => commandPort_eq h hw hc⟩
  · have e : envMove (s.ctx k d) (.expire j) = onAny j timerExpire (s.ctx k d) := by
      show (if j = k then _ else _) = (if j = k then _ else _)
      rw [if_neg hj, if_neg hj]
    rw [e]
    exact envOn_eq local_timerExpire h
  · show Host.Outcome.next { s with mem := _ } = .next { s with devs := (s.ctx k d).devices, mem := _, trace := _, callCmd := _, host := _ }
    rw [State.ctx_devices h]; rfl
  · show Host.Outcome.next { s with mem := _ } = .next { s with devs := (s.ctx k d).devices, mem := _, trace := _, callCmd := _, host := _ }
    rw [State.ctx_devices h]; rfl

end Sys2Proof.Machine
end

