-- ==== Sys2Proof/Tests/Slice0.lean ====
section
/-! SUPPORT. Tests: every expected value is written out from spec/30_encoding.md or is a vector of spec/95_test_vectors.md (its
number stands in the test's name). After them, for each obligation with hypotheses, concrete states that meet them. -/

namespace Sys2Proof.Tests

open Sys2Proof Sys2Proof.Machine

/-! ## Well-formedness: an ill-formed term for each check is refused -/

theorem test_wf_restart_without_rw : (Instr.modeSet .all false true false).wf = false := by decide
theorem test_wf_direction_restart_without_rw : (Instr.modeSet .direction false true true).wf = false := by decide
theorem test_wf_auto_mask_ignores_them : (Instr.modeSet .auto false true false).wf = true := by decide
theorem test_wf_load_of_none : (Instr.dataLoad32 0x1000 0).wf = false := by decide
theorem test_wf_load_of_33 : (Instr.dataLoad32 0x1000 33).wf = false := by decide
theorem test_wf_dma_length_0 : (Instr.dmaLenSet 0).wf = false := by decide

/-! ## Decoding: every constructor from words written out by hand -/

/-- A packet decodes to an instruction. -/
def decodesTo (fmt : Format) (ws : List Word) (i : Instr) : Bool :=
  match decode ⟨fmt, ws⟩ with
  | .ok j => i == j
  | .error _ => false

/-- A packet is rejected for a reason. -/
def rejected (fmt : Format) (ws : List Word) (e : Reject) : Bool :=
  match decode ⟨fmt, ws⟩ with
  | .ok _ => false
  | .error f => e == f

theorem test_decode_commands :
    decodesTo .cmd [0x00500001, 0x190, 0x28, 0, 0x1000, 0] (.write ⟨false, 0, 0x50, 400, 40, 0, 0x1000, 0⟩) &&
    decodesTo .cmd [0x00500000, 0x64, 0, 0x12, 0, 0x2000] (.read ⟨false, 0, 0x50, 100, 0, 18, 0, 0x2000⟩) &&
    decodesTo .cmd [0x00680006, 100, 1, 8, 0x1000, 0x2000] (.dmaRead ⟨true, 0, 0x68, 100, 1, 8, 0x1000, 0x2000⟩) &&
    decodesTo .cmd [0x00500303, 400, 100, 0, 0x4000, 0] (.dmaWrite ⟨false, 3, 0x50, 400, 100, 0, 0x4000, 0⟩) = true := by
  decide

theorem test_decode_reserved_descriptor_bits :
    rejected .cmd [0x00500009, 0, 0, 0, 0, 0] .reservedBits && rejected .cmd [0x00800001, 0, 0, 0, 0, 0] .reservedBits &&
    rejected .cmd [0x00000001, 0, 0, 0, 0] .badLength = true := by decide

theorem test_decode_status_events :
    decodesTo .mst [0x01] .evActiveDone && decodesTo .mst [0x02] .evAddrNack && decodesTo .mst [0x04] .evDataNack &&
    decodesTo .mst [0x08] .evEmptyThreshold && decodesTo .mst [0x10] .evFifoEmpty && decodesTo .mst [0x20] .evFifoFull &&
    decodesTo .mst [0x40] .evSclHold && decodesTo .mst [0x80000080 ||| 0x40] .evSclHold &&
    rejected .mst [0x80] .noEvent && rejected .mst [0x03] .severalEvents = true := by decide

theorem test_decode_data_and_dma_events :
    decodesTo .ovf [0x80] .evRdOverflow && rejected .ovf [0x100] .noEvent &&
    decodesTo (.rdf false 7) [0x80] .evBurstSlot && rejected (.rdf false 7) [0x7F] .noEvent &&
    decodesTo (.rdf true 0) [0x0F] .evBurstSlot && rejected (.rdf true 4) [0x0F] .noEvent &&
    decodesTo .dst [0x01] .evDmaDone && decodesTo .dst [0x02] .evDmaWcntErr && decodesTo .dst [0x04] .evDmaWbenErr &&
    decodesTo .dst [0x08] .evDmaGdmaTimeout && decodesTo .dst [0x10] .evDmaIpTimeout &&
    decodesTo .dst [0x20] .evDmaZeroLen = true := by decide

theorem test_decode_master_primitives :
    decodesTo .reg [0x000C0000, 0x01, 0, 0] .ctrlReset && decodesTo .reg [0x00060004, 0x7FF, 400, 0] (.clkdivSet 400) &&
    decodesTo .reg [0x00060008, 0x7F, 0x50, 0] (.addrSet 0x50) &&
    decodesTo .reg [0x00060000, 0x70, 0x30, 0] (.modeSet .all true true false) &&
    decodesTo .reg [0x00060000, 0x30, 0x10, 0] (.modeSet .direction true false false) &&
    decodesTo .reg [0x00060000, 0x40, 0x40, 0] (.modeSet .auto false false true) &&
    decodesTo .reg [0x0002000C, 0xFFFFFFFF, 2, 18] (.cntSet 2 18) &&
    decodesTo .reg [0x00080010, 0x1FF, 0x5F, 0] (.intenSet 0x5F) &&
    decodesTo .reg [0x000A0010, 0x1FF, 0x18, 0] (.intenClr 0x18) &&
    decodesTo .reg [0x000C0000, 0x02, 0, 0] .trigger = true := by decide

theorem test_decode_data_and_status_primitives :
    decodesTo .reg [0x00040040, 0xFFFFFFFF, 0x1000, 32] (.dataLoad32 0x1000 32) &&
    decodesTo .reg [0x00020054, 0xFFFFFFFF, 0xDEADBEEF, 0] (.dataPut 5 0xDEADBEEF) &&
    decodesTo .reg [0x0000005C, 0xFFFFFFFF, 0, 0] (.dataGet 7) &&
    decodesTo .reg [0x00000014, 0x7F, 0, 0] .statusGet && decodesTo .reg [0x000E0018, 0x7F, 0x7F, 0] (.statusClear 0x7F) &&
    decodesTo .reg [0x0000001C, 0xFF, 0, 0] .ovfGet && decodesTo .reg [0x00000020, 0xFF, 0, 0] .rdflagGet &&
    decodesTo .reg [0x000E0024, 0xFF, 0x0F, 0] (.rdflagClear 0x0F) = true := by decide

theorem test_decode_dma_primitives :
    decodesTo .reg [0x00030004, 0xFFFFFFFF, 0x80001000, 0] (.dmaAddrSet 0x80001000) &&
    decodesTo .reg [0x00070008, 0xFFFF, 100, 0] (.dmaLenSet 100) && decodesTo .reg [0x00070000, 0x02, 1, 0] (.dmaDirSet true) &&
    decodesTo .reg [0x00090010, 0x3F, 1, 0] (.dmaIntenSet 1) && decodesTo .reg [0x000D0000, 0x01, 0, 0] .dmaGo &&
    decodesTo .reg [0x0011000C, 0x3F, 0, 0] .dmaStatusGetclr = true := by decide

theorem test_decode_rejects_primitives :
    rejected .reg [0x00000015, 0x7F, 0, 0] .misaligned && rejected .reg [0x00000080, 0x7F, 0, 0] .outsideBlock &&
    rejected .reg [0x00010020, 0xFF, 0, 0] .outsideBlock && rejected .reg [0x00000028, 0xFF, 0, 0] .noPrimitive &&
    rejected .reg [0x00060008, 0x7F, 0x80, 0] .operandRange && rejected .reg [0x00040040, 0xFFFFFFFF, 0, 33] .operandRange &&
    rejected .reg [0x00060000, 0x70, 0x20, 0] .operandRange = true := by decide

theorem test_decodeTableWord :
    decodeTableWord 192 0x0000000000001000000000000000002800000190_00500001 =
      some (.write ⟨false, 0, 0x50, 400, 40, 0, 0x1000, 0⟩) ∧ decodeTableWord 8 0x10 = some .evFifoEmpty := by decide

/-! ## Register layout (R33 to R49): offsets written out from the rules -/

theorem test_register_map :
    regAt .mb 0x00 = some .mCtrl ∧ regAt .mb 0x14 = some .mStatus ∧ regAt .mb 0x24 = some .mRdfclr ∧
    regAt .mb 0x28 = some .mReserved ∧ regAt .mb 0x44 = some (.mData 1) ∧ regAt .mb 0x5C = some (.mData 7) ∧
    regAt .mb 0x7C = some .mReserved ∧ regAt .mb 0x80 = none ∧ regAt .mb 0x41 = none ∧
    regAt .db 0x0C = some .dStatus ∧ regAt .db 0x1C = some .dReserved ∧ regAt .db 0x20 = none := by decide

/-! ## One-step machines -/

/-- A machine of one instance. -/
def machine (d : Device) (mem : Memory) : State := { State.reset with devs := [d], mem := mem }

/-- A machine of one instance about to make one move. -/
def moving (d : Device) (mem : Memory) (m : Move) : State := { machine d mem with agenda := [m] }

/-- The outcome is a next state of which a check of the machine and its first instance holds. -/
def next? (o : Host.Outcome State Fault Refusal) (p : State → Device → Bool) : Bool :=
  match o with
  | .next t =>
    match t.devs with
    | d :: _ => p t d
    | [] => false
  | .fault _ | .refused _ => false

/-- Bytes at consecutive addresses. -/
def bytesAt (a : Nat) : List Byte → Memory
  | [] => []
  | b :: rest => (a, b) :: bytesAt (a + 1) rest

/-- An instance with some master registers set. -/
def withMb (f : MBlock → MBlock) : Device := { Device.reset with mb := f .zero }

/-! ## Primitives: vectors V1 to V22 -/

theorem test_V1_to_V7_div_of :
    divOf 27000 400 = 67 ∧ divOf 27000 100 = 269 ∧ divOf 27000 10 = 2047 ∧ divOf 27000 0 = 2047 ∧ divOf 27000 27000 = 0 ∧
    divOf 27000 30000 = 0 ∧ divOf 27000 13500 = 1 ∧ divOf 27000 26999 = 1 ∧ divOf 27000 14 = 1928 ∧
    divOf 27000 13 = 2047 := by decide

theorem test_V1_clkdiv : next? (exec (.clkdivSet 400) (machine .reset [])) (fun _ d => peek .mClk d == 0x43) = true := by decide

theorem test_V8_rmw_mode :
    next? (exec (.modeSet .auto false false true) (machine (withMb fun m => { m with ctrl := ⟨true, false, false⟩ }) []))
      (fun t d => peek .mCtrl d == 0x50 && t.trace == [.wrote 0 .mCtrl 0x50]) = true := by decide

theorem test_R144_restart_read_mode :
    next? (exec (.modeSet .all true true false) (machine .reset [])) (fun _ d => peek .mCtrl d == 0x30) = true := by decide

theorem test_R143_addr :
    next? (exec (.addrSet 0x50) (machine .reset [])) (fun _ d => peek .mAddr d == 0x50) = true := by decide

theorem test_V9_load32 :
    next? (exec (.dataLoad32 0x100 5) (machine .reset (bytesAt 0x100 [0x11, 0x22, 0x33, 0x44, 0x55])))
      (fun _ d => d.mb.data.toList == [0x44332211, 0x55, 0, 0, 0, 0, 0, 0]) = true := by decide

/-- R78, U15: the fifth byte is not allocated; the first slot is filled, the sequencer is stuck, and nobody else is. -/
theorem test_R78_load32_unallocated :
    next? (exec (.dataLoad32 0x100 5) (machine .reset (bytesAt 0x100 [0x11, 0x22, 0x33, 0x44])))
      (fun _ d => d.mb.data.toList == [0x44332211, 0, 0, 0, 0, 0, 0, 0] && d.stuck == ⟨true, false, false⟩) = true := by decide

/-- R80: a host store between two byte reads is seen by the second. -/
theorem test_R80_store_between_bytes :
    next? (exec (.dataLoad32 0x100 2) (machine { Device.reset with inter := [[], [.store 0x100 0xEE, .store 0x101 0xFF]] }
        (bytesAt 0x100 [0x11, 0x22])))
      (fun _ d => d.mb.data.toList.head? == some 0x0000FF11) = true := by decide

/-- R354: a host that frees the buffer between two byte reads leaves the sequencer stuck. -/
theorem test_R354_free_between_bytes :
    next? (exec (.dataLoad32 0x100 2) (machine { Device.reset with inter := [[], [.free 0x101]] } (bytesAt 0x100 [0x11, 0x22])))
      (fun t d => d.stuck.seq && t.mem == [(0x100, 0x11)]) = true := by decide

theorem test_V11_status_clear :
    next? (exec (.statusClear 0x7F) (machine (withMb fun m => { m with status := 0x09 }) []))
      (fun t d => d.mb.status == 0 && d.mb.stclr == 0 &&
        t.trace == [.wrote 0 .mStclr 0, .wrote 0 .mStclr 0x7F]) = true := by decide

theorem test_V12_status_clear_one :
    next? (exec (.statusClear 0x08) (machine (withMb fun m => { m with status := 0x09 }) []))
      (fun _ d => d.mb.status == 0x01) = true := by decide

theorem test_V14_rdflag_clear :
    next? (exec (.rdflagClear 0x0F) (machine (withMb fun m => { m with rdflag := 0xFF }) []))
      (fun _ d => d.mb.rdflag == 0xF0) = true := by decide

theorem test_V15_dma_status :
    next? (exec .dmaStatusGetclr (machine { Device.reset with db := { DBlock.zero with status := 0x09 } } []))
      (fun _ d => d.ret == 0x09 && d.db.status == 0) = true := by decide

theorem test_V16_dma_status_bit_survives :
    next? (exec .dmaStatusGetclr (machine
        { Device.reset with
          db := { DBlock.zero with status := 0x08 }, deActive := true, inter := [[], [.de 0 (.set 0x01)]] } []))
      (fun _ d => d.ret == 0x08 && d.db.status == 0x01) = true := by decide

theorem test_V17_reset :
    next? (exec .ctrlReset (machine
        { withMb (fun m => { m with inten := 0x5F, status := 0x02 }) with
          db := { DBlock.zero with status := 0x01 }, beActive := true, irqPend := true, sig := true } []))
      (fun _ d => d == { Device.reset with irqPend := true, sig := true }) = true := by decide

theorem test_V18_counts :
    next? (exec (.cntSet 2 18) (machine .reset [])) (fun _ d => peek .mCnt d == 0x00120002) &&
    next? (exec (.cntSet 0 65535) (machine .reset [])) (fun _ d => peek .mCnt d == 0xFFFF0000) = true := by decide

theorem test_V19_enables :
    next? (exec (.intenSet 0x1C7) (machine .reset [])) (fun _ d => d.mb.inten == 0x1C7) &&
    next? (exec (.intenClr 0x100) (machine (withMb fun m => { m with inten := 0x1C7 }) []))
      (fun _ d => d.mb.inten == 0x0C7) = true := by decide

theorem test_R149_set_bit_is_pending_at_once :
    next? (exec (.intenSet 0x02) (machine (withMb fun m => { m with status := 0x02 }) [])) (fun _ d => d.irqPend) = true := by
  decide

theorem test_V20_trigger_in_auto :
    next? (exec .trigger (machine (withMb fun m => { m with ctrl := ⟨true, false, true⟩ }) []))
      (fun _ d => !d.beActive && peek .mCtrl d == 0x50) = true := by decide

theorem test_R156_trigger :
    next? (exec .trigger (machine (withMb fun m => { m with ctrl := ⟨true, false, false⟩ }) []))
      (fun _ d => d.beActive && peek .mCtrl d == 0x10) = true := by decide

theorem test_V21_dma_go :
    next? (exec .dmaGo (machine
        { withMb (fun m => { m with ctrl := ⟨true, false, true⟩ }) with db := { DBlock.zero with dir := true } } []))
      (fun t d => d.beActive && d.deActive && peek .dCtrl d == 0x02 && t.trace == [.wrote 0 .dCtrl 0x03]) = true := by decide

theorem test_dma_programming :
    next? (exec (.dmaAddrSet 0x80001000) (machine .reset [])) (fun _ d => peek .dAddr d == 0x80001000) &&
    next? (exec (.dmaLenSet 100) (machine .reset [])) (fun _ d => peek .dLen d == 0x64) &&
    next? (exec (.dmaDirSet true) (machine .reset [])) (fun _ d => peek .dCtrl d == 0x02) &&
    next? (exec (.dmaIntenSet 1) (machine .reset [])) (fun _ d => peek .dInten d == 0x01) = true := by decide

theorem test_reads :
    next? (exec .statusGet (machine (withMb fun m => { m with status := 0x02 }) [])) (fun _ d => d.ret == 0x02) &&
    next? (exec .ovfGet (machine (withMb fun m => { m with ovf := 0x80 }) [])) (fun _ d => d.ret == 0x80) &&
    next? (exec .rdflagGet (machine (withMb fun m => { m with rdflag := 0x0F }) [])) (fun _ d => d.ret == 0x0F) &&
    next? (exec (.dataGet 4) (machine (withMb fun m => { m with data := m.data.set 4 0x1110 }) []))
      (fun _ d => d.ret == 0x1110) && next? (exec (.dataPut 0 0x23222120) (machine .reset []))
      (fun _ d => d.mb.data.toList == [0x23222120, 0, 0, 0, 0, 0, 0, 0]) = true := by decide

theorem test_V22_fill_overflow :
    next? (step (moving { withMb (fun m => { m with ctrl := ⟨true, false, false⟩, rdflag := 0x01 }) with beActive := true } []
        (.be 0 (.fill 0 0x22222222))))
      (fun _ d => d.mb.ovf == 0x01 && d.mb.rdflag == 0x01 && d.mb.data.toList.head? == some 0x22222222) = true := by decide

/-- R40, R282: a partial word raises the overflow bit of a slot whose flag stands, and sets no flag in either case. -/
theorem test_partial_fill_overflow :
    let d := { withMb (fun m => { m with ctrl := ⟨true, false, false⟩, rdflag := 0x80 }) with beActive := true }
    next? (step (moving d [] (.be 0 (.partialFill 7 0x22)))) (fun _ d => d.mb.ovf == 0x80 && d.mb.rdflag == 0x80) &&
    next? (step (moving d [] (.be 0 (.partialFill 0 0x22)))) (fun _ d => d.mb.ovf == 0 && d.mb.rdflag == 0x80) = true := by
  decide

/-! ## Commands: vectors V23 to V34 -/

/-- The result a command returns at S0, if it returns one. -/
def returns (c : Cmd) (d : Device) : Option Result :=
  match exec c.instr (machine d []) with
  | .next t =>
    match t.trace with
    | [.returned 0 _ r] => if t.devs == [d] then some r else none
    | _ => none
  | .fault _ | .refused _ => none

/-- A command with its counts. -/
def cmd (op : Op) (dev : BitVec 8) (restart : Bool) (wlen rlen : Word) : Cmd :=
  ⟨op, ⟨restart, dev, 0x50, 400, wlen, rlen, 0x1000, 0x2000⟩⟩

theorem test_V23_to_V28_admission :
    returns (cmd .write 1 false 4 0) .reset = some .invalidDevice ∧ returns (cmd .write 0 false 0 0) .reset = some .invalidCount ∧
    returns (cmd .write 0 false 65536 0) .reset = some .invalidCount ∧ returns (cmd .write 0 false 65535 0) .reset = none ∧
    returns (cmd .read 0 false 0 0) .reset = some .invalidCount ∧
    returns (cmd .read 0 true 0 4) .reset = some .invalidCount ∧ returns (cmd .read 0 true 33 4) .reset = some .invalidCount ∧
    returns (cmd .read 0 true 32 4) .reset = none ∧ returns (cmd .read 0 false 99 1) .reset = none := by decide

theorem test_V29_V30_admission :
    returns (cmd .write 0 false 0 0) { Device.reset with tp := { TP.zero with busy := true } } = some .busy ∧
    returns (cmd .write 1 false 0 0) { Device.reset with tp := { TP.zero with busy := true } } = some .invalidDevice ∧
    returns (cmd .dmaWrite 0 false 65536 0) .reset = some .invalidCount ∧ returns (cmd .dmaRead 0 false 0 65535) .reset = none := by
  decide

/-- The sizing fields a command is admitted with. -/
def sizing (burst16 : Bool) (c : Cmd) : Nat × Nat :=
  let tp := startTP ⟨27000, burst16⟩ c
  (tp.burstCnt.toNat, tp.burstRem.toNat)

theorem test_V31_to_V34_sizing :
    sizing false (cmd .write 0 false 32 0) = (0, 0) ∧ sizing false (cmd .write 0 false 33 0) = (1, 0) ∧
    sizing false (cmd .write 0 false 37 0) = (2, 0) ∧ sizing true (cmd .write 0 false 65535 0) = (16376, 0) ∧
    sizing true (cmd .read 0 false 0 15) = (0, 15) ∧ sizing true (cmd .read 0 false 0 65535) = (4095, 15) ∧
    sizing false (cmd .read 0 false 0 70) = (17, 2) ∧ sizing false (cmd .dmaRead 0 false 0 70) = (0, 0) := by decide

/-- The enables of a path (vectors V35 to V41). -/
theorem test_V35_to_V41_enables :
    cmdInten (cmd .write 0 false 8 0) 0 = 0x047 ∧ cmdInten (cmd .write 0 false 40 0) 2 = 0x05F ∧
    cmdInten (cmd .read 0 false 0 18) 4 = 0x0C7 ∧ cmdInten (cmd .read 0 false 0 70) 17 = 0x1C7 ∧
    cmdInten (cmd .dmaRead 0 false 0 100) 0 = 0x0C6 ∧ cmdInten (cmd .dmaWrite 0 false 100 0) 0 = 0x046 := by decide

/-! ## Handler runs: vectors V42 to V80 -/

/-- An instance in a phase with what a handler run will read. -/
def inPhase (ph : Phase) (cnt : BitVec 16) (sig : Bool) (st : BitVec 7) (ov : Byte) (ds : BitVec 6) : Device :=
  { Device.reset with
    tp := { TP.zero with phase := ph, burstCnt := cnt, busy := true }
    sig := sig
    irqPend := true
    beActive := true
    mb := { MBlock.zero with status := st, ovf := ov, inten := 0x07 }
    db := { DBlock.zero with status := ds } }

/-- What one handler run leaves: result, signal, and whether it reset the controller. -/
def run (d : Device) : Option (Result × Bool × Bool) :=
  match step (moving d [] (.irq 0)) with
  | .next t => t.devs.head?.map fun v => (v.tp.result, v.sig, v.mb == .zero)
  | .fault _ | .refused _ => none

theorem test_V42_to_V50_write :
    run (inPhase .write 0 false 0x03 0 0) = some (.success, true, false) ∧
    run (inPhase .write 0 false 0x02 0 0) = some (.remoteNack, true, true) ∧
    run (inPhase .write 0 false 0x42 0 0) = some (.remoteNack, true, true) ∧
    run (inPhase .write 0 false 0x40 0 0) = some (.clockHeldTooLong, true, true) ∧
    run (inPhase .write 2 false 0x18 0 0) = some (.fifoEmpty, true, true) := by decide

theorem test_V51_to_V57_write :
    run (inPhase .write 0 false 0x28 1 0) = some (.success, false, false) ∧
    run (inPhase .write 0 true 0x02 0 0) = some (.success, true, false) ∧
    run (inPhase .dmaWrite 0 false 0x08 0 0) = some (.success, false, false) ∧
    run (inPhase .dmaWrite 0 false 0x10 0 0x01) = some (.fifoEmpty, true, true) := by decide

theorem test_V58_to_V63_read :
    run (inPhase .read 0 false 0x01 0 0) = some (.success, true, false) ∧
    run (inPhase .read 0 false 0x03 0 0) = some (.remoteNack, true, true) ∧
    run (inPhase .read 0 false 0x41 1 0) = some (.clockHeldTooLong, true, true) ∧
    run (inPhase .read 0 false 0x01 1 0) = some (.readOverflow, true, true) ∧
    run (inPhase .read 0 false 0x18 0 0x01) = some (.success, false, false) := by decide

theorem test_V64_to_V69_dma_and_idle :
    run (inPhase .dmaRead 0 false 0x00 0 0x09) = some (.success, true, false) ∧
    run (inPhase .dmaRead 0 false 0x00 0 0x08) = some (.success, false, false) ∧
    run (inPhase .dmaRead 0 false 0x01 0 0) = some (.success, true, false) ∧
    next? (step (moving (inPhase .idle 0 false 0x03 1 0x01) [] (.irq 0)))
      (fun _ d => d.tp.irq.activeDone && d.tp.irq.addrNack && d.tp.irq.rdOverflow && d.tp.dma.done && !d.sig) = true := by decide

/-- A write with units left, its buffer byte at offset `o` being `o` (V70, V71). -/
def refilling (cnt : BitVec 16) (off : Word) : Device :=
  { inPhase .write cnt false 0 0 0 with
    tp := { TP.zero with phase := .write, burstCnt := cnt, busy := true, dataOff := off, totalLen := 50, buf := 0x100 } }

theorem test_V71_refill_last_unit :
    next? (exec .evEmptyThreshold (machine (refilling 1 48) (bytesAt 0x130 [0x30, 0x31])))
      (fun _ d => d.mb.data.toList == [0, 0, 0, 0, 0x3130, 0, 0, 0] && d.tp.burstCnt == 0 && d.tp.dataOff == 52) = true := by
  decide

theorem test_V70_refill_four_units :
    next? (exec .evEmptyThreshold (machine (refilling 5 32)
        (bytesAt 0x120 [0x20, 0x21, 0x22, 0x23, 0x24, 0x25, 0x26, 0x27, 0x28, 0x29, 0x2A, 0x2B, 0x2C, 0x2D, 0x2E, 0x2F])))
      (fun _ d => d.mb.data.toList == [0x23222120, 0x27262524, 0x2B2A2928, 0x2F2E2D2C, 0, 0, 0, 0] &&
        d.tp.burstCnt == 1 && d.tp.dataOff == 48) = true := by decide

/-- A read from word-slots that name themselves. -/
def draining (cnt : BitVec 16) (rem : BitVec 4) (cursor : Slot) (f : Byte) : Device :=
  { inPhase .read cnt false 0 0 0 with
    tp := { TP.zero with phase := .read, burstCnt := cnt, burstRem := rem, regIdx := cursor, buf := 0x200, busy := true }
    mb := { MBlock.zero with rdflag := f, data := Vector.ofFn fun i => BitVec.ofNat 32 (0x03020100 + 0x10101010 * i.val) } }

theorem test_V76_drain_wraps :
    next? (exec .evBurstSlot (machine (draining 3 0 6 0xC1) (bytesAt 0x200 (List.replicate 12 0xEE))))
      (fun t d => d.tp.regIdx == 1 && d.tp.burstCnt == 0 && d.tp.dataOff == 12 && d.mb.rdflag == 0 &&
        t.mem == bytesAt 0x200 [0x60, 0x61, 0x62, 0x63, 0x70, 0x71, 0x72, 0x73, 0x00, 0x01, 0x02, 0x03]) = true := by decide

theorem test_V75_drain_one_burst_slot :
    next? (exec .evBurstSlot
        { machine (draining 1 0 0 0xFF) (bytesAt 0x200 (List.replicate 16 0xEE)) with params := ⟨27000, true⟩ })
      (fun _ d => d.tp.regIdx == 4 && d.tp.burstCnt == 0 && d.tp.dataOff == 16 && d.mb.rdflag == 0xF0) = true := by decide

theorem test_V79_finish :
    next? (exec .evActiveDone (machine (draining 0 2 4 0xF0) (bytesAt 0x200 [0xEE, 0xEE, 0xEE])))
      (fun t d => t.mem == bytesAt 0x200 [0x40, 0x41, 0xEE] && d.tp.dataOff == 2 && d.tp.regIdx == 4 && d.mb.rdflag == 0xF0 &&
        d.sig && d.tp.result == .success) = true := by decide

/-! ## DMA, timeout and hazards: vectors V81, V83, V86 -/

theorem test_V81_copy_in :
    next? (step (moving { Device.reset with
          tp := { TP.zero with busy := true, phase := .dmaWrite }, seq := .s5
          cmdl := ⟨.dmaWrite, ⟨false, 0, 0x50, 400, 3, 0, 0x4000, 0⟩⟩ }
        (bytesAt 0x4000 [0x0A, 0x0B, 0x0C]) (.seq 0)))
      (fun _ d => d.scratch == bytesAt 0 [0x0A, 0x0B, 0x0C] && d.db.addr == 0x80000000 && d.db.len == 3 && !d.db.dir) = true := by
  decide

theorem test_V83_timeout :
    next? (step (moving { Device.reset with seq := .s9 } [] (.tmr 0))) (fun _ d => d.res == .timeout && d.seq == .s11) = true := by
  decide

theorem test_V86_lost_event :
    run { inPhase .write 0 false 0x02 0 0 with inter := [[], [.be 0 (.set 0x01)]] } = some (.remoteNack, true, true) := by decide

/-- R78: the second byte of the finish is not allocated; the first is stored, and the handler is stuck in its run. -/
theorem test_R78_finish_unallocated :
    next? (step (moving { draining 0 2 4 0xF0 with mb := { (draining 0 2 4 0xF0).mb with status := 0x01 } } [(0x200, 0xEE)] (.irq 0)))
      (fun t d => t.mem == [(0x200, 0x40)] && d.iepRun && !d.sig && d.stuck == ⟨false, true, false⟩) = true := by decide

/-- R286, R280: while instance 0 steps, host 1 starts a transaction on instance 1; host 1 then waits, and its next command is none. -/
theorem test_R280_R286_command_between_accesses :
    next? (runSteps 2
        { machine { Device.reset with seq := .s2, inter := [[.command 1 (cmd .write 1 false 4 0)]] } [] with
          devs := [{ Device.reset with seq := .s2, inter := [[.command 1 (cmd .write 1 false 4 0)]] }, .reset]
          agenda := [.seq 0, .host 1 [0x00500101, 400, 8, 0, 0, 0]] })
      (fun t d => d.seq == .s3 && t.devs.length == 2 && t.trace.length == 1 &&
        t.devs.all fun v => v.cmdl.args.wlen == (if v.tp.busy then 4 else 0) && v.tp.busy == (v.caller == 1)) = true := by decide

theorem test_withFetchWord_runs_first :
    next? (step (State.reset.withFetchWord 192 0x000000000000100000000000000000280000019000500001))
      (fun _ d => d.tp.busy && d.tp.phase == .write && d.tp.burstCnt == 2) &&
    next? (step (State.reset.withFetchWord 8 0x20)) (fun _ d => d.tp.irq.fifoFull && d.mb.status == 0) = true := by decide

/-! ## Witnesses: for each obligation with hypotheses, states and operands that meet all of them, at the boundaries -/

theorem witness_DecodeInvertsEncode :
    (Instr.dataLoad32 0xFFFFFFFF 1).wf = true ∧ (Instr.dataLoad32 0 32).wf = true ∧ (Instr.dmaLenSet 1).wf = true ∧
    (Instr.modeSet .auto false true true).wf = true ∧ (Instr.modeSet .all true true true).wf = true := by decide

theorem witness_ReservedDescriptorBitsRefused :
    (0x8#32).toNat / 2 ^ 3 % 2 ^ 5 ≠ 0 ∧ (0x80#32).toNat / 2 ^ 3 % 2 ^ 5 ≠ 0 ∧ (0x00800000#32).toNat / 2 ^ 23 ≠ 0 ∧
    (0x80000000#32).toNat / 2 ^ 23 ≠ 0 ∧
    (moving .reset [] (.host 0 [0x8, 0, 0, 0, 0, 0])).agenda = .host 0 [0x8, 0, 0, 0, 0, 0] :: [] ∧
    waiting 0 (moving .reset [] (.host 0 [0x8, 0, 0, 0, 0, 0])).devs = false :=
  ⟨by decide, by decide, by decide, by decide, rfl, rfl⟩

theorem witness_CommandDescriptorFields :
    (0x007FFF07#32).toNat / 2 ^ 3 % 2 ^ 5 = 0 ∧ (0x007FFF07#32).toNat / 2 ^ 23 = 0 := by decide

theorem witness_StepRunsDecodedCommand :
    (moving .reset [] (.host 3 [0x00500001, 400, 40, 0, 0x1000, 0])).agenda =
      .host 3 [0x00500001, 400, 40, 0, 0x1000, 0] :: [] ∧
    decode ⟨.cmd, [0x00500001, 400, 40, 0, 0x1000, 0]⟩ = .ok (.write ⟨false, 0, 0x50, 400, 40, 0, 0x1000, 0⟩) := by decide

/-- A host that is free to issue, and one that waits. -/
theorem witness_StepRunsDecodedCommand_waiting :
    waiting 3 (moving .reset [] (.host 3 [0x00500001, 400, 40, 0, 0x1000, 0])).devs = false ∧
    waiting 3 [{ Device.reset with tp := { TP.zero with busy := true }, caller := 3 }] = true := by decide

/-- The chains select in turn each of the events a run can act on. -/
theorem witness_HandlerRunExecutesSelectedEvents :
    (∀ ph ∈ [Phase.write, .dmaWrite, .read, .dmaRead], ∀ st ∈ [0x00, 0x01, 0x02, 0x04, 0x08, 0x10, 0x20, 0x40],
      (moving (inPhase ph 1 false st 0 0) [] (.irq 0)).agenda = .irq 0 :: [] ∧
      (moving (inPhase ph 1 false st 0 0) [] (.irq 0)).devs[0]? = some (inPhase ph 1 false st 0 0) ∧
      handlerEnabled (inPhase ph 1 false st 0 0) = true) := by decide

/-- An instance with a command at a step of the sequencer. -/
def atStep (q : SeqStep) (c : Cmd) : Device :=
  { Device.reset with tp := startTP ⟨27000, false⟩ c, cmdl := c, seq := q }

theorem witness_SequencerStepsExecuteTheirPrograms :
    ∀ q ∈ [SeqStep.s2, .s3, .s4, .s6, .s7, .s8], ∀ op ∈ [Op.read, .write, .dmaRead, .dmaWrite],
      (seqProgram (atStep q (cmd op 0 false 40 70))).isSome = true ∧ seqEnabled (atStep q (cmd op 0 false 40 70)) = true ∧
      (moving (atStep q (cmd op 0 false 40 70)) [] (.seq 0)).devs[0]? = some (atStep q (cmd op 0 false 40 70)) := by decide

/-- The admission checks at their boundaries: the first index past the instances; a busy instance; the counts 0, 65536, 33. -/
theorem witness_AdmissionChecksInOrder :
    (machine .reset []).devs.length ≤ (cmd .read 1 false 0 1).args.dev.toNat ∧
    ((machine (atStep .s9 (cmd .read 0 false 0 1)) []).devs[(cmd .write 0 false 0 0).args.dev.toNat]? =
        some (atStep .s9 (cmd .read 0 false 0 1)) ∧ (atStep .s9 (cmd .read 0 false 0 1)).tp.busy = true) ∧
    ((machine .reset []).devs[(cmd .write 0 false 65536 0).args.dev.toNat]? = some .reset ∧ Device.reset.tp.busy = false ∧
      65535 < (cmd .write 0 false 65536 0).args.wlen.toNat ∧ (cmd .dmaWrite 0 false 0 0).args.wlen.toNat = 0 ∧
      (cmd .read 0 true 33 1).args.restart = true ∧ 32 < (cmd .read 0 true 33 1).args.wlen.toNat ∧
      65535 < (cmd .dmaRead 0 false 0 65536).args.rlen.toNat) := by decide

theorem witness_AdmissionSetsUpTheSnapshot :
    (machine .reset []).devs[(cmd .write 0 false 65535 0).args.dev.toNat]? = some .reset ∧ Device.reset.tp.busy = false ∧
    1 ≤ (cmd .write 0 false 1 0).args.wlen.toNat ∧ (cmd .write 0 false 65535 0).args.wlen.toNat ≤ 65535 ∧
    1 ≤ (cmd .read 0 true 32 1).args.rlen.toNat ∧ (cmd .read 0 true 32 65535).args.rlen.toNat ≤ 65535 ∧
    (1 ≤ (cmd .read 0 true 32 1).args.wlen.toNat ∧ (cmd .read 0 true 32 1).args.wlen.toNat ≤ 32) := by decide

theorem witness_RejectedCommandTouchesNothing :
    returns (cmd .read 0 false 0 0) .reset = some .invalidCount := by decide

theorem witness_AdmissionIsAtomic :
    decode ⟨.cmd, [0x00500001, 400, 8, 0, 0x1000, 0]⟩ = .ok (Cmd.instr ⟨.write, ⟨false, 0, 0x50, 400, 8, 0, 0x1000, 0⟩⟩) ∧
    decode ⟨.cmd, [0x00510000, 400, 0, 8, 0, 0x2000]⟩ = .ok (Cmd.instr ⟨.read, ⟨false, 0, 0x51, 400, 0, 8, 0, 0x2000⟩⟩) ∧
    countsValid ⟨.write, ⟨false, 0, 0x50, 400, 8, 0, 0x1000, 0⟩⟩ = true ∧
    countsValid ⟨.read, ⟨false, 0, 0x51, 400, 0, 8, 0, 0x2000⟩⟩ = true ∧
    (machine .reset []).devs[0]? = some .reset ∧ Device.reset.tp.busy = false ∧
    (1 : Nat) ≠ 2 ∧ waiting 1 (machine .reset []).devs = false ∧ waiting 2 (machine .reset []).devs = false := by decide

/-- Allocation of a buffer is decided byte by byte. -/
theorem allocated_of {m : Memory} {a n : Nat} (h : (List.range n).all (fun k => (cellRead m (a + k)).isSome) = true) :
    Allocated m a n := by
  intro k hk
  exact List.all_eq_true.mp h k (List.mem_range.mpr hk)

/-- The quiet and settled premises of an instance, decided. -/
theorem premises_of {d : Device} (h : (d.inter.isEmpty && !d.iepRun && (!irqLevel ⟨27000, false⟩ d || d.irqPend)) = true) :
    d.Quiet ∧ d.Settled (machine d []).params := by
  simp only [Bool.and_eq_true, List.isEmpty_iff, Bool.not_eq_true', Bool.or_eq_true] at h
  refine ⟨h.1.1, h.1.2, fun _ hl => ?_⟩
  rcases h.2 with h' | h'
  · rw [show irqLevel (machine d []).params d = irqLevel ⟨27000, false⟩ d from rfl, h'] at hl; cases hl
  · exact h'

theorem witness_EntrySequenceProgramsThePath :
    (atStep .s2 (cmd .read 0 true 2 3)).Quiet ∧
    (atStep .s2 (cmd .read 0 true 2 3)).Settled (machine (atStep .s2 (cmd .read 0 true 2 3)) []).params ∧
    (atStep .s2 (cmd .read 0 true 2 3)).stuck.seq = false ∧ countsValid (cmd .read 0 true 2 3) = true ∧
    BuffersAllocated (bytesAt 0x1000 [1, 2] ++ bytesAt 0x2000 [0, 0, 0]) (cmd .read 0 true 2 3) := by
  refine ⟨(premises_of (by decide)).1, (premises_of (by decide)).2, rfl, by decide, fun _ => allocated_of (by decide), fun _ => ?_⟩
  exact allocated_of (by decide)

/-- Both answers of the oracle, with and without a restart payload. -/
theorem witness_DmaStagingMapsCopiesPrograms :
    (∀ r c, (moving { atStep .s5 c with oracle := r } [] (.seq 0)).devs[0]? = some { atStep .s5 c with oracle := r }) ∧
    (∀ c ∈ [cmd .dmaWrite 0 false 1 0, cmd .dmaRead 0 true 1 1], isDmaOp c.op = true ∧ countsValid c = true) ∧
    BuffersAllocated (bytesAt 0x1000 [1] ++ bytesAt 0x2000 [0]) (cmd .dmaRead 0 true 1 1) ∧
    (atStep .s5 (cmd .dmaRead 0 true 1 1)).stuck.seq = false ∧ (atStep .s5 (cmd .dmaRead 0 true 1 1)).Quiet ∧
    (atStep .s5 (cmd .dmaRead 0 true 1 1)).Settled (machine (atStep .s5 (cmd .dmaRead 0 true 1 1)) []).params := by
  refine ⟨fun _ _ => rfl, by decide, ⟨fun _ => allocated_of (by decide), fun _ => allocated_of (by decide)⟩,
    rfl, (premises_of (by decide)).1, (premises_of (by decide)).2⟩

theorem witness_SignalWakesAndTimeoutExpires :
    ∀ q ∈ [SeqStep.s9, .s8], ∀ sig ∈ [true, false], ∀ m ∈ [Move.seq 0, .tmr 0],
      (moving { Device.reset with seq := q, sig := sig } [] m).agenda = m :: [] ∧
      (moving { Device.reset with seq := q, sig := sig } [] m).devs[0]? = some { Device.reset with seq := q, sig := sig } ∧
      seqEnabled { Device.reset with seq := q, sig := sig } = true := by decide

/-- An instance at the exit of a DMA read through the scratch buffer, and the control invariant of it. -/
def atExit (r : Result) (scr : Bool) : Device :=
  { Device.reset with
    tp := { startTP ⟨27000, false⟩ (cmd .dmaRead 0 false 0 2) with result := r }
    sig := true, seq := .s11, cmdl := cmd .dmaRead 0 false 0 2, res := r, beActive := true, deActive := true
    map := ⟨scr, 0x80000000, true⟩
    mb := { MBlock.zero with ctrl := ⟨true, false, true⟩ }, db := { DBlock.zero with dir := true, len := 2 } }

theorem atExit_control (r : Result) (scr : Bool) : (atExit r scr).Control ⟨27000, false⟩ where
  busy_iff := rfl
  rests := by simp [atExit]
  phase_eq := .inl rfl
  counts := fun _ => rfl
  baseline := fun h => by simp [atExit, startTP] at h
  mapped := fun _ => rfl
  run_stuck := rfl
  pending := fun _ h => by simp [irqLevel, atExit, MBlock.zero, DBlock.zero] at h
  strobes := ⟨rfl, rfl⟩
  triggered := fun _ => .inr rfl
  master_quiet := fun h => by simp [atExit] at h
  dma_quiet := fun h => by simp [atExit] at h
  dma_runs := fun _ => ⟨rfl, rfl⟩
  direction := fun h => by simp [atExit] at h
  dma_direction := fun _ h => by simp [atExit] at h
  trigger_mode := fun h => by simp [atExit] at h

theorem atExit_noFrees (r : Result) (scr : Bool) : (atExit r scr).NoFrees := fun _ h => by simp [atExit, Device.reset] at h

/-- Success through the scratch buffer, success through the mapping, and a failure. -/
theorem witness_ExitReturnsToIdle_CopyOutOnlyOnSuccess :
    (∀ r scr, (atExit r scr).Control ⟨27000, false⟩ ∧ (atExit r scr).Quiet ∧ seqEnabled (atExit r scr) = true ∧
      (atExit r scr).NoFrees ∧ (atExit r scr).seq = .s11 ∧ BuffersAllocated (bytesAt 0x2000 [0, 0]) (atExit r scr).cmdl) ∧
    (moving (atExit .success true) (bytesAt 0x2000 [0, 0]) (.seq 0)).devs[0]? = some (atExit .success true) := by
  refine ⟨fun r scr => ⟨atExit_control r scr, rfl, rfl, atExit_noFrees r scr, rfl, fun h => ?_, fun _ => allocated_of ?_⟩, rfl⟩
  · simp [atExit, cmd, isReadOp] at h
  · cases r <;> cases scr <;> decide

theorem witness_ActiveDoneEndsWrite_NackEventsTerminate :
    ∀ ph ∈ [Phase.write, .dmaWrite],
      (machine (inPhase ph 0 false 0 0 0) []).devs[0]? = some (inPhase ph 0 false 0 0 0) ∧
      (inPhase ph 0 false 0 0 0).sig = false ∧ (inPhase ph 0 false 0 0 0).tp.irq.activeDone = false ∧
      (inPhase ph 0 false 0 0 0).inter = [] := by decide

/-- Error events in each phase; with other flags clear, and with no engine move. -/
theorem witness_ErrorEventsTerminate :
    ∀ ph ∈ [Phase.write, .dmaWrite, .read, .dmaRead],
      (inPhase ph 0 false 0 0 0).tp.phase = ph ∧ (inPhase ph 0 false 0 0 0).tp.irq = .zero ∧
      (inPhase ph 0 false 0 0 0).sig = false ∧ (inPhase ph 0 false 0 0 0).inter = [] ∧
      (machine (inPhase ph 0 false 0 0 0) []).devs[0]? = some (inPhase ph 0 false 0 0 0) := by decide

/-- The last unit of a buffer, and four units at once. -/
theorem witness_RefillMovesUnits :
    (∀ cnt off, (refilling cnt off).tp.irq = .zero ∧ (refilling cnt off).tp.phase = .write ∧ (refilling cnt off).sig = false) ∧
    (refilling 1 48).tp.burstCnt ≠ 0 ∧ (refilling 5 32).tp.burstCnt ≠ 0 ∧ (refilling 1 48).tp.dataOff.toNat ≤ 65536 ∧
    (refilling 1 48).Quiet ∧ (refilling 1 48).Settled (machine (refilling 1 48) []).params ∧
    Allocated (bytesAt 0x100 (List.replicate 50 0)) (refilling 1 48).tp.buf.toNat (refilling 1 48).tp.totalLen.toNat := by
  refine ⟨fun _ _ => ⟨rfl, rfl, rfl⟩, by decide, by decide, by decide, (premises_of (by decide)).1, (premises_of (by decide)).2,
    allocated_of (by decide)⟩

/-- The same inside a handler run, with the line low and with it high. -/
theorem witness_InHandlerRun :
    ∀ d ∈ [{ refilling 5 32 with iepRun := true, irqPend := false }, { draining 3 0 6 0xC1 with iepRun := true },
        { draining 3 0 6 0xC1 with iepRun := true, irqPend := false, mb := { (draining 3 0 6 0xC1).mb with inten := 0x100 } }],
      d.Quiet ∧ d.Latched (machine d []).params ∧ d.sig = false ∧ d.tp.irq = .zero := by
  intro d hd
  simp only [List.mem_cons, List.not_mem_nil, or_false] at hd
  rcases hd with rfl | rfl | rfl <;> exact ⟨rfl, fun h => Bool.noConfusion h, rfl, rfl⟩

/-- R220, R230, R236: in a run a refill and a drain do their work, and a line already high does not pend again. -/
theorem test_events_inside_a_run :
    next? (exec .evEmptyThreshold (machine { refilling 1 48 with iepRun := true, irqPend := false } (bytesAt 0x130 [0x30, 0x31])))
      (fun _ d => d.mb.data.toList == [0, 0, 0, 0, 0x3130, 0, 0, 0] && d.iepRun && !d.irqPend) &&
    next? (exec .evBurstSlot (machine { draining 1 0 6 0xC1 with
          iepRun := true, irqPend := false, mb := { (draining 1 0 6 0xC1).mb with inten := 0x100 } }
        (bytesAt 0x200 (List.replicate 4 0xEE))))
      (fun t d => t.mem == bytesAt 0x200 [0x60, 0x61, 0x62, 0x63] && d.mb.rdflag == 0x81 && !d.irqPend) = true := by decide

/-- Nothing ready; some slots ready across the wrap; all of them. -/
theorem witness_BurstDrainDeliversSlots :
    readySlots false 0x00 8 6 = 0 ∧ readySlots false 0xC1 8 6 = 3 ∧ readySlots false 0xFF 8 0 = 8 ∧ readySlots true 0xF0 2 4 = 1 ∧
    (draining 3 0 6 0xC1).tp.irq = .zero ∧ (draining 3 0 6 0xC1).sig = false ∧
    (draining 3 0 6 0xC1).Quiet ∧ (draining 3 0 6 0xC1).Settled (machine (draining 3 0 6 0xC1) []).params ∧
    Allocated (bytesAt 0x200 (List.replicate 12 0)) 0x200 12 := by
  refine ⟨by decide, by decide, by decide, by decide, by decide, by decide, (premises_of (by decide)).1,
    (premises_of (by decide)).2, allocated_of (by decide)⟩

/-- No remainder, and the largest. -/
theorem witness_FinishDeliversRemainder :
    (draining 0 0 0 0).tp.burstRem.toNat = 0 ∧ (draining 0 15 4 0xF0).tp.burstRem.toNat = 15 ∧
    (draining 0 15 4 0xF0).tp.irq = .zero ∧ (draining 0 15 4 0xF0).sig = false ∧ (draining 0 15 4 0xF0).inter = [] ∧
    Allocated (bytesAt 0x200 (List.replicate 15 0)) (draining 0 15 4 0xF0).tp.buf.toNat 15 := by
  refine ⟨by decide, by decide, by decide, by decide, by decide, allocated_of (by decide)⟩

theorem witness_RecordedOnlyEvents_DmaDoneCompletes_EventsAfterSignal :
    ∀ ph ∈ [Phase.idle, .write, .dmaWrite, .read, .dmaRead], ∀ sig ∈ [true, false],
      (machine (inPhase ph 0 sig 0 0 0) []).devs[0]? = some (inPhase ph 0 sig 0 0 0) ∧ (inPhase ph 0 sig 0 0 0).tp.phase = ph ∧
      (inPhase ph 0 sig 0 0 0).sig = sig := by decide

/-- Each clause of the two priority tables has a run that falls under it. -/
theorem witness_PriorityTables :
    (∀ st ∈ [0x01, 0x06, 0x40, 0x10, 0x08, 0x00], ∀ ph ∈ [Phase.write, .dmaWrite, .read, .dmaRead], ∀ ds ∈ [0x00, 0x01],
      handlerEnabled (inPhase ph 0 false st 0 ds) = true ∧ (inPhase ph 0 false st 0 ds).inter = [] ∧
      (inPhase ph 0 false st 0 ds).tp.dataOff.toNat + Config.Params.rdBurstBytes ⟨27000, true⟩ *
          (inPhase ph 0 false st 0 ds).tp.burstCnt.toNat + (inPhase ph 0 false st 0 ds).tp.burstRem.toNat ≤
        (inPhase ph 0 false st 0 ds).tp.totalLen.toNat) ∧
    Allocated [] (inPhase .read 0 false 0 0 0).tp.buf.toNat (inPhase .read 0 false 0 0 0).tp.totalLen.toNat := by
  refine ⟨by decide, allocated_of (by decide)⟩

theorem witness_FirstTerminalConditionFixesResult_HandlerEntryAndReturn :
    handlerEnabled (inPhase .write 0 true 0x02 0 0) = true ∧ (inPhase .write 0 true 0x02 0 0).sig = true ∧
    handlerEnabled Device.reset = false ∧
    next? (step (moving (inPhase .write 0 true 0x02 0 0) [] (.irq 0))) (fun _ d => !d.iepRun) = true := by decide

/-- An idle instance carrying a late interrupt. -/
theorem late_control : ({ Device.reset with irqPend := true } : Device).Control ⟨27000, false⟩ where
  busy_iff := rfl
  rests := by simp [Device.reset]
  phase_eq := .inl rfl
  counts := fun h => by simp [Device.reset, TP.zero] at h
  baseline := fun _ => ⟨rfl, rfl, rfl, rfl, rfl⟩
  mapped := fun h => by simp [Device.reset] at h
  run_stuck := rfl
  pending := fun _ _ => rfl
  strobes := ⟨rfl, rfl⟩
  triggered := fun h => by simp [Device.reset] at h
  master_quiet := fun _ => ⟨rfl, rfl, rfl⟩
  dma_quiet := fun _ => rfl
  dma_runs := fun h => by simp [Device.reset] at h
  direction := fun h => by simp [Device.reset] at h
  dma_direction := fun _ h => by simp [Device.reset] at h
  trigger_mode := fun h => by simp [Device.reset] at h

/-- The next transaction, before its trigger, carrying a late interrupt. -/
def lateNext : Device := { atStep .s3 (cmd .read 0 false 0 40) with irqPend := true }

theorem lateNext_control : lateNext.Control ⟨27000, false⟩ where
  busy_iff := rfl
  rests := by simp [lateNext, atStep]
  phase_eq := .inl rfl
  counts := fun _ => rfl
  baseline := fun h => by simp [lateNext, atStep, startTP] at h
  mapped := fun h => by simp [lateNext, atStep, Device.reset] at h
  run_stuck := rfl
  pending := fun _ _ => rfl
  strobes := ⟨rfl, rfl⟩
  triggered := fun h => by simp [lateNext, atStep, Device.reset] at h
  master_quiet := fun _ => ⟨rfl, rfl, rfl⟩
  dma_quiet := fun _ => rfl
  dma_runs := fun h => by simp [lateNext, atStep, Device.reset] at h
  direction := fun h => by simp [lateNext, atStep] at h
  dma_direction := fun _ h => by simp [lateNext, atStep] at h
  trigger_mode := fun h => by simp [lateNext, atStep] at h

/-- Idle, and the next transaction before its trigger. -/
theorem witness_LateRunIsDiscarded :
    (({ Device.reset with irqPend := true } : Device).Control ⟨27000, false⟩ ∧
      ({ Device.reset with irqPend := true } : Device).inter = [] ∧
      handlerEnabled { Device.reset with irqPend := true } = true ∧ Device.reset.tp.busy = false ∧
      (moving { Device.reset with irqPend := true } [] (.irq 0)).devs[0]? = some { Device.reset with irqPend := true }) ∧
    (lateNext.Control ⟨27000, false⟩ ∧ lateNext.inter = [] ∧ handlerEnabled lateNext = true ∧ lateNext.tp.busy = true ∧
      lateNext.seq ≠ .s9 ∧ lateNext.seq ≠ .s11 ∧ (moving lateNext [] (.irq 0)).devs[0]? = some lateNext) :=
  ⟨⟨late_control, rfl, rfl, rfl, rfl⟩, lateNext_control, rfl, rfl, rfl, by decide, by decide, rfl⟩

theorem witness_StatusEventCanBeLost :
    next? (execAll .iep [.statusGet, .statusClear 0x7F] (machine
        { inPhase .write 0 false 0x02 0 0 with inter := [[], [.be 0 (.set 0x01)], [.be 0 (.set 0x40)]] } []))
      (fun _ d => d.ret == 0x02 && d.mb.status == 0 && !d.stuck.iep) = true := by decide

/-- The primitives' premises: an instance with a status bit set and pending. -/
theorem witness_Primitives :
    (inPhase .write 0 false 0x01 0 0x01).Quiet ∧
    (inPhase .write 0 false 0x01 0 0x01).Settled (machine (inPhase .write 0 false 0x01 0 0x01) []).params ∧
    (machine (inPhase .write 0 false 0x01 0 0x01) []).devs[0]? = some (inPhase .write 0 false 0x01 0 0x01) ∧
    (inPhase .write 0 false 0x01 0 0x01).db.dir = (inPhase .write 0 false 0x01 0 0x01).mb.ctrl.rw :=
  ⟨(premises_of (by decide)).1, (premises_of (by decide)).2, rfl, rfl⟩

/-- Both directions disagreeing. -/
theorem witness_ForbiddenProgrammingIsRefused :
    (withMb fun m => { m with ctrl := ⟨true, false, true⟩ }).db.dir ≠ (withMb fun m => { m with ctrl := ⟨true, false, true⟩ }).mb.ctrl.rw ∧
    Device.reset.db.dir = Device.reset.mb.ctrl.rw := by decide

theorem witness_DataLoadFillsAllSlots :
    Allocated (bytesAt 0x100 (List.replicate 32 7)) (0x100#32).toNat (32#6).toNat ∧
    Allocated (bytesAt 0xFFFFFFFF [7]) (0xFFFFFFFF#32).toNat (1#6).toNat :=
  ⟨allocated_of (by decide), allocated_of (by decide)⟩

theorem witness_ProgrammingUnderEngineMoves :
    next? (exec (.cntSet 2 18) (machine
        { inPhase .read 0 false 0 0 0 with mb := { MBlock.zero with ctrl := ⟨true, false, false⟩ }
                                           inter := [[.be 0 (.fill 7 0xFFFFFFFF), .be 0 (.set 0x7F)]] } []))
      (fun _ d => peek .mCnt d == 0x00120002 && d.mb.rdflag == 0x80 && d.mb.status == 0x7F) = true := by decide

/-- The operands of the guarded clauses: a load at both ends of its range, a DMA length of 1, directions in agreement, a mode. -/
theorem witness_ProgrammingUnderEngineMoves_operands :
    (1 ≤ (1#6).toNat ∧ (32#6).toNat ≤ 32) ∧ 1 ≤ (1#16).toNat ∧ Device.reset.db.dir = Device.reset.mb.ctrl.rw ∧
    Allocated (bytesAt 0x100 (List.replicate 32 7)) (0x100#32).toNat (32#6).toNat ∧ Device.reset.NoFrees ∧
    (machine .reset []).devs[0]? = some .reset :=
  ⟨by decide, by decide, rfl, allocated_of (by decide), fun _ h => by simp [Device.reset] at h, rfl⟩

/-- A load with status bits set between its accesses and no store; a DMA status set before the read and after it. -/
theorem witness_ProgrammingUnderEngineMoves_gaps :
    let loading : Device := { Device.reset with inter := [[.be 0 (.set 0x7F)], [.de 0 (.set 0x3F)]] }
    let reading : Device := { Device.reset with deActive := true, inter := [[.de 0 (.set 0x01)], [.de 0 (.set 0x03)]] }
    (loading.NoStores ∧ loading.NoFrees ∧ loading.beActive = false) ∧
      reading.stuck.de = false ∧ reading.inter = [.de 0 (.set 0x01)] :: [.de 0 (.set 0x03)] :: [] ∧
      next? (exec .dmaStatusGetclr (machine reading [])) (fun _ d => d.ret == 0x01 && d.db.status == 0x02) = true := by
  refine ⟨⟨?_, ?_, rfl⟩, rfl, rfl, by decide⟩ <;> intro ms hms m hm <;>
    simp only [List.mem_cons, List.not_mem_nil, or_false] at hms <;> rcases hms with rfl | rfl <;>
    simp only [List.mem_cons, List.not_mem_nil, or_false] at hm <;> subst hm <;> simp

theorem witness_PrimitivesNeverFailNorWriteTP :
    (Instr.dmaGo).regSel ≠ none ∧ (Instr.dataLoad32 0x100 1).regSel ≠ none ∧ (Instr.dataLoad32 0x100 1).wf = true ∧
    Allocated [(0x100, 7)] (0x100#32).toNat (1#6).toNat ∧ Device.reset.NoFrees ∧
    Device.reset.db.dir = Device.reset.mb.ctrl.rw :=
  ⟨by decide, by decide, by decide, allocated_of (by decide), fun _ h => by simp [Device.reset] at h, rfl⟩

/-- A running bus engine in each direction, its first and its last slot. -/
theorem witness_BusEngineMoves :
    (∀ m ∈ [BeMove.set 0x7F, .fill 0 1, .fill 7 1, .partialFill 7 1, .take 0],
      (moving (inPhase .read 0 false 0 0 0) [] (.be 0 m)).agenda = .be 0 m :: []) ∧
    (inPhase .read 0 false 0 0 0).beActive = true ∧
    (inPhase .read 0 false 0 0 0).Settled (machine (inPhase .read 0 false 0 0 0) []).params :=
  ⟨by decide, rfl, (premises_of (by decide)).2⟩

/-- An instance whose DMA engine runs, in each direction, through the scratch buffer or the mapped buffer. -/
def deRunning (dir scr : Bool) : Device :=
  { atExit .success scr with
    db := { (atExit .success scr).db with dir := dir, addr := 0x80000000 }
    cmdl := cmd (if dir then .dmaRead else .dmaWrite) 0 false 2 2 }

/-- The last byte it may name and the first it may not; allocated and not. -/
theorem witness_DmaEngineMoves :
    (∀ dir ∈ [true, false], ∀ scr ∈ [true, false],
      (deRunning dir scr).deActive = true ∧ (deRunning dir scr).stuck.de = false ∧ (deRunning dir scr).map.valid = true ∧
      (deRunning dir scr).db.dir = dir ∧ (deRunning dir scr).map.useScratch = scr ∧
      (deRunning dir scr).db.addr = (deRunning dir scr).map.devAddr ∧ (1#16).toNat < (deRunning dir scr).db.len.toNat ∧
      (deRunning dir scr).db.len.toNat ≤ (2#16).toNat ∧
      (deRunning dir scr).db.len.toNat ≤ (cmdLen (deRunning dir scr).cmdl).toNat ∧
      (deRunning dir scr).iepRun = false ∧ irqLevel ⟨27000, false⟩ (deRunning dir scr) = false) ∧
    (cellRead (bytesAt 0x2000 [0, 0]) ((cmdBuf (deRunning true false).cmdl).toNat + (1#16).toNat)).isSome = true ∧
    cellRead (bytesAt 0x2000 [0]) ((cmdBuf (deRunning true false).cmdl).toNat + (1#16).toNat) = none ∧
    (cellRead (bytesAt 0x1000 [0, 0]) ((cmdBuf (deRunning false false).cmdl).toNat + (1#16).toNat)).isSome = true := by decide

/-- R86: the device sees the byte of the mapped buffer. -/
theorem test_R86_device_sees_the_buffer :
    next? (step (moving (deRunning false false) (bytesAt 0x1000 [0x55, 0x66]) (.de 0 (.read 1))))
      (fun t d => t.trace == [.fetched 0 1 0x66] && d == deRunning false false) &&
    next? (step (moving { deRunning false true with scratch := bytesAt 0 [0x77] } [] (.de 0 (.read 0))))
      (fun t _ => t.trace == [.fetched 0 0 0x77]) = true := by decide

/-- U15: the engine is stuck at a byte that is not allocated, and it alone; it then makes no further move. -/
theorem test_U15_device_stuck :
    next? (runSteps 2 { moving (deRunning true false) (bytesAt 0x2000 [0]) (.de 0 (.write 1 9)) with
          agenda := [.de 0 (.write 1 9), .de 0 (.write 0 9)] })
      (fun t d => t.mem == bytesAt 0x2000 [0] && d == { deRunning true false with stuck := ⟨false, false, true⟩ }) = true := by
  decide

theorem witness_EnginesStayInTheirLane :
    (inPhase .read 0 false 0 0 0).beActive = true ∧ Device.reset.beActive = false ∧ (atExit .success true).deActive = true ∧
    Device.reset.deActive = false := by decide

/-- The sizing invariant of an instance at the exit of a DMA read. -/
theorem atExit_sizing (r : Result) (scr : Bool) : (atExit r scr).Sizing ⟨27000, false⟩ where
  recorded := fun _ => ⟨rfl, rfl, rfl⟩
  read_conserves := fun _ _ h => by simp [atExit, cmd] at h
  write_conserves := fun _ _ h => by simp [atExit, cmd] at h
  write_unstaged := fun _ h => by simp [atExit, cmd] at h
  dma_zero := fun _ _ => ⟨rfl, rfl, rfl, rfl⟩
  cursor_aligned := fun h => by simp at h

/-- With one instance no host has two commands in flight. -/
theorem one_command (d : Device) : OneCommandPerHost [d] := by
  intro i j e v hi hj _ _ _
  have h1 := (List.getElem?_eq_some_iff.mp hi).1
  have h2 := (List.getElem?_eq_some_iff.mp hj).1
  simp only [List.length_singleton] at h1 h2
  omega

/-- A state that meets the three invariants, with its buffer allocated and no host freeing it, and goes on. -/
theorem witness_Invariants :
    (moving (atExit .success true) (bytesAt 0x2000 [0, 0]) (.seq 0)).SizingInv ∧
    (moving (atExit .success true) (bytesAt 0x2000 [0, 0]) (.seq 0)).MemoryInv ∧
    ((atExit .success true).Gaps fun e => e.owner = some 0) ∧
    (∀ d ∈ (moving (atExit .success true) (bytesAt 0x2000 [0, 0]) (.seq 0)).devs,
      BuffersAllocated (bytesAt 0x2000 [0, 0]) d.cmdl ∧ d.NoFrees) ∧
    next? (step (moving (atExit .success false) (bytesAt 0x2000 [0, 0]) (.seq 0)))
      (fun _ d => d.tp.phase == .idle && (atExit .success false).tp.phase == .dmaRead) = true := by
  have only : ∀ d ∈ (moving (atExit .success true) (bytesAt 0x2000 [0, 0]) (.seq 0)).devs, d = atExit .success true :=
    fun d hd => by simpa [moving, machine] using hd
  refine ⟨⟨⟨fun d hd => ?_, one_command _⟩, fun d hd => ?_⟩, ⟨by decide, fun d hd => ?_⟩, fun moves hm => ?_, fun d hd => ?_,
    by decide⟩
  · rw [only d hd]; exact atExit_control _ _
  · rw [only d hd]; exact atExit_sizing _ _
  · rw [only d hd]; rfl
  · simp [atExit, Device.reset] at hm
  · rw [only d hd]
    refine ⟨⟨fun h => ?_, fun _ => allocated_of (by decide)⟩, atExit_noFrees _ _⟩
    simp [atExit, cmd, isReadOp] at h

/-- A phase changes by a command of the schedule, and by one that falls between accesses of another instance. -/
theorem witness_PhaseChangesPassThroughIdle :
    next? (step (moving .reset [] (.host 0 [0x00500001, 400, 8, 0, 0, 0]))) (fun _ d => d.tp.phase == .write) &&
    next? (step { State.reset with
          devs := [.reset, { Device.reset with irqPend := true, inter := [[.command 2 (cmd .read 0 false 0 8)]] }]
          agenda := [.irq 1] }) (fun _ d => d.tp.phase == .read && d.caller == 2) = true := by decide

/-- The premises of the statement on unallocated bytes: each clause at its first byte and at a later one, and each stuck agent. -/
theorem witness_UnallocatedAccessLeavesOnlyItsAgentStuck :
    Device.reset.Quiet ∧ Device.reset.Settled (machine Device.reset []).params ∧
    (Allocated [] (0x100#32).toNat 0 ∧ cellRead [] ((0x100#32).toNat + 0) = none ∧ 0 < (1#6).toNat) ∧
    (Allocated (bytesAt 0x100 [1, 2, 3, 4]) (0x100#32).toNat 4 ∧
      cellRead (bytesAt 0x100 [1, 2, 3, 4]) ((0x100#32).toNat + 4) = none ∧ 4 < (32#6).toNat) ∧
    ((draining 0 2 4 0xF0).Quiet ∧ (draining 0 2 4 0xF0).sig = false ∧ (draining 0 2 4 0xF0).tp.irq = .zero ∧
      1 < (draining 0 2 4 0xF0).tp.burstRem.toNat ∧
      Allocated (bytesAt 0x200 [7]) ((draining 0 2 4 0xF0).tp.buf.toNat + (draining 0 2 4 0xF0).tp.dataOff.toNat) 1 ∧
      cellRead (bytesAt 0x200 [7]) ((draining 0 2 4 0xF0).tp.buf.toNat + (draining 0 2 4 0xF0).tp.dataOff.toNat + 1) = none) ∧
    next? (step (moving { Device.reset with stuck := ⟨true, true, true⟩, seq := .s9, sig := true } [] (.tmr 0)))
      (fun _ d => d.seq == .s9) = true :=
  ⟨(premises_of (by decide)).1, (premises_of (by decide)).2, ⟨allocated_of (by decide), rfl, by decide⟩,
    ⟨allocated_of (by decide), rfl, by decide⟩, ⟨rfl, rfl, rfl, by decide, allocated_of (by decide), rfl⟩, by decide⟩

/-- The premises of the refusal statement: a descriptor the decoder rejects. -/
theorem witness_OnlyBadDescriptorsAreRefused :
    step (moving { Device.reset with irqPend := true } [] (.host 0 [0x8, 0, 0, 0, 0, 0])) = .refused (.badDescriptor .reservedBits) ∧
    (moving { Device.reset with irqPend := true } [] (.host 0 [0x8, 0, 0, 0, 0, 0])).ControlInv :=
  ⟨rfl, fun d hd => by
    rw [show d = { Device.reset with irqPend := true } by simpa [moving, machine] using hd]; exact late_control, one_command _⟩

theorem witness_InstancesShareNothing :
    (Move.seq 0).owner ≠ some 1 ∧ (Move.host 0 [0x00500101, 0, 0, 0, 0, 0]).owner = some 1 ∧
    (EnvMove.be 0 (.set 1)).owner ≠ some 1 ∧ (EnvMove.command 0 (cmd .read 1 false 0 1)).owner = some 1 ∧
    next? (step (moving .reset [] (.hostStore 0x10 7))) (fun t _ => t.mem == [(0x10, 7)]) = true := by decide

end Sys2Proof.Tests
end

section
/-! SUPPORT. What an agent of the block keeps, said once for any fact: a fact that bears changes of the instance in hand, of host
memory and of the trace, and that the moves falling before an access keep, is kept by every sequencer step and every handler run. -/

namespace Sys2Proof.Machine

/-! ### Facts the block's own operations keep -/

/-- The fact bears any change of the instance in hand but of the list of moves still to fall, any change of host memory and of the
trace, and the moves that fall before an access keep it. -/
structure Stable (P : Ctx → Prop) : Prop where
  own : ∀ (l : Ctx) (v : Device) (mem : Memory) (trace : List Obs), v.inter = l.dev.inter → P l →
    P { l with dev := v, mem := mem, trace := trace }
  pump : ∀ l : Ctx, P l → P (pump l)

/-- Where the operation goes on or is stuck, `P` holds; it may be refused. -/
def Res.Keeps (P : Ctx → Prop) : Res → Prop
  | .next l => P l
  | .stuck l => P l
  | .refused _ => True

@[simp] theorem Res.keeps_next {P : Ctx → Prop} {l : Ctx} : (Res.next l).Keeps P ↔ P l := Iff.rfl
@[simp] theorem Res.keeps_stuck {P : Ctx → Prop} {l : Ctx} : (Res.stuck l).Keeps P ↔ P l := Iff.rfl

theorem Res.Keeps.andThen {P : Ctx → Prop} {r : Res} {f : Ctx → Res} (h : r.Keeps P) (hf : ∀ l, P l → (f l).Keeps P) :
    (andThen r f).Keeps P := by
  cases r with
  | next l => exact hf l h
  | stuck l => exact h
  | refused e => trivial

section
variable {P : Ctx → Prop} (hP : Stable P)
include hP

theorem Stable.mapDev {f : Device → Device} {l : Ctx} (h : P l) (hf : (f l.dev).inter = l.dev.inter := by rfl) :
    P (l.mapDev f) := hP.own l _ _ _ hf h

theorem Stable.mapTP {f : TP → TP} {l : Ctx} (h : P l) : P (l.mapTP f) := hP.mapDev h

/-! ### Register accesses -/

theorem regWrite_stable {r : Reg} {v : Word} {l : Ctx} (h : P l) : P (regWrite r v l) :=
  hP.own (pump l) _ _ _ (by simp) (hP.pump l h)

theorem rmw_stable {r : Reg} {mask v : Word} {l : Ctx} (h : P l) : P (rmw r mask v l) :=
  regWrite_stable hP (hP.pump l h)

theorem pulse_stable {r : Reg} {mask : Word} {l : Ctx} (h : P l) : P (pulse r mask l) :=
  regWrite_stable hP (regWrite_stable hP h)

theorem dmaGo_stable {l : Ctx} (h : P l) : (dmaGo l).Keeps P := by
  unfold dmaGo
  split
  · exact rmw_stable hP h
  · trivial

/-! ### Host-memory accesses -/

theorem readByte_stable {a : Nat} {f : Byte → Ctx → Res} {l : Ctx} (hf : ∀ b m, P m → (f b m).Keeps P) (h : P l) :
    (readByte a f l).Keeps P := by
  unfold readByte
  split
  · exact hf _ _ (hP.pump l h)
  · exact hP.pump l h

theorem writeByte_stable {a : Nat} {b : Byte} {l : Ctx} (h : P l) : (writeByte a b l).Keeps P := by
  unfold writeByte
  split
  · exact hP.own (pump l) _ _ _ rfl (hP.pump l h)
  · exact hP.pump l h

theorem writeBytes_stable {a : Nat} {bs : List Byte} {l : Ctx} (h : P l) : (writeBytes a bs l).Keeps P := by
  induction bs generalizing a l with
  | nil => exact h
  | cons b bs ih => exact (writeByte_stable hP h).andThen fun _ h' => ih h'

theorem padByte_stable {base off total : Nat} {f : Byte → Ctx → Res} {l : Ctx} (hf : ∀ b m, P m → (f b m).Keeps P)
    (h : P l) : (padByte base off total f l).Keeps P := by
  unfold padByte
  split
  · exact readByte_stable hP hf h
  · exact hf 0 l h

theorem loadWord_stable {base off total : Nat} {f : Word → Ctx → Res} {l : Ctx} (hf : ∀ w m, P m → (f w m).Keeps P)
    (h : P l) : (loadWord base off total f l).Keeps P :=
  padByte_stable hP (fun _ _ h0 => padByte_stable hP (fun _ _ h1 => padByte_stable hP (fun _ _ h2 =>
    padByte_stable hP (fun _ _ h3 => hf _ _ h3) h2) h1) h0) h

theorem loadSlots_stable {src n i k : Nat} {l : Ctx} (h : P l) : (loadSlots src n i k l).Keeps P := by
  induction k generalizing i l with
  | zero => exact h
  | succ k ih => exact loadWord_stable hP (fun _ _ h' => ih (regWrite_stable hP h')) h

theorem scratchPut_stable {i : Nat} {b : Byte} {l : Ctx} (h : P l) : P (scratchPut i b l) := hP.mapDev (hP.pump l h)

/-! ### The handler -/

theorem succeed_stable {l : Ctx} (h : P l) : P (succeed l) := hP.mapDev (hP.mapTP h)

theorem terminate_stable {e : Result} {l : Ctx} (h : P l) : P (terminate e l) :=
  rmw_stable hP (hP.mapDev (hP.mapTP h))

theorem Fetched.stable {n : Nat} {l m : Ctx} (hf : Fetched n l m) (h : P l) : P m := by
  induction hf with
  | zero => exact h
  | padded _ ih => exact hP.mapTP (ih h)
  | read _ ih => exact hP.mapTP (hP.pump _ (ih h))

theorem drainWords_stable {n : Nat} {s : Slot} {l : Ctx} (h : P l) : (drainWords n s l).Keeps P := by
  induction n generalizing s l with
  | zero => exact h
  | succ n ih => exact (writeBytes_stable hP (hP.pump l h)).andThen fun _ h' => ih (hP.mapTP h')

theorem gatherWords_stable {n : Nat} {s : Slot} {l : Ctx} (h : P l) : P (gatherWords n s l).2 := by
  induction n generalizing s l with
  | zero => exact h
  | succ n ih => exact ih (hP.pump l h)

theorem finishRead_stable {l : Ctx} (h : P l) : (finishRead l).Keeps P := by
  unfold finishRead
  simp only
  split
  · exact succeed_stable hP h
  · exact (writeBytes_stable hP (gatherWords_stable hP h)).andThen fun _ h' => succeed_stable hP (hP.mapTP h')

theorem HandlerAct.stable {l m : Ctx} (ha : HandlerAct l m) (h : P l) : P m := by
  cases ha with
  | moves => exact hP.pump l h
  | clear => exact pulse_stable hP h
  | disable => exact rmw_stable hP h
  | ackDma => exact regWrite_stable hP h
  | flags => exact hP.mapTP h
  | unit l' _ _ _ hf => exact hP.mapTP (regWrite_stable hP (hf.stable hP h))
  | slot l' _ _ _ _ hw =>
    have h' : P l' := Res.keeps_next.mp (hw ▸ drainWords_stable hP h)
    exact hP.mapTP (pulse_stable hP h')
  | finish _ _ _ hf => exact Res.keeps_next.mp (hf ▸ finishRead_stable hP h)
  | success => exact succeed_stable hP h
  | fail => exact terminate_stable hP h

theorem HandlerStop.stable {l m : Ctx} (hs : HandlerStop l m) (h : P l) : P m := by
  cases hs with
  | unit l' _ _ _ _ hf => exact hP.pump l' (hf.stable hP h)
  | slot _ _ _ _ hw => exact Res.keeps_stuck.mp (hw ▸ drainWords_stable hP h)
  | finish _ _ _ hf => exact Res.keeps_stuck.mp (hf ▸ finishRead_stable hP h)

theorem HandlerActs.stable {l m : Ctx} (ha : HandlerActs l m) (h : P l) : P m :=
  ha.induct (fun _ _ ha h => ha.stable hP h) h

theorem handlerRun_stable {l : Ctx} (h : P l) : (handlerRun l).Keeps P := by
  have h0 : P (handlerEnter l) := hP.mapDev h
  rcases handlerRun_acts l with ⟨m, ha, e⟩ | ⟨m, l', ha, hs, e⟩ <;> rw [e]
  · exact hP.own m _ _ _ rfl (ha.stable hP h0)
  · exact hs.stable hP (ha.stable hP h0)

theorem irqMove_stable {l : Ctx} (h : P l) : (irqMove l).Keeps P := by
  unfold irqMove
  split
  · exact handlerRun_stable hP h
  · exact h

/-! ### The sequencer -/

theorem restartLoad_stable {l : Ctx} (h : P l) : (restartLoad l).Keeps P := by
  unfold restartLoad
  split
  · exact loadSlots_stable hP h
  · exact h

theorem writeLoad_stable {l : Ctx} (h : P l) : (writeLoad l).Keeps P :=
  (loadSlots_stable hP h).andThen fun _ h' => hP.mapTP h'

theorem dmaMap_stable {l : Ctx} (h : P l) : P (dmaMap l) := hP.own l _ _ _ rfl h

theorem copyBytesIn_stable {src i n : Nat} {l : Ctx} (h : P l) : (copyBytesIn src i n l).Keeps P := by
  induction n generalizing i l with
  | zero => exact h
  | succ n ih => exact readByte_stable hP (fun _ _ h' => ih (scratchPut_stable hP h')) h

theorem copyIn_stable {l : Ctx} (h : P l) : (copyIn l).Keeps P := by
  unfold copyIn
  simp only
  split
  · exact copyBytesIn_stable hP h
  · exact h

theorem dmaProgram_stable {l : Ctx} (h : P l) : P (dmaProgram l) :=
  rmw_stable hP (rmw_stable hP (regWrite_stable hP h))

theorem stage_stable {l : Ctx} (h : P l) : (stage l).Keeps P := by
  have hdma : (andThen (restartLoad l) fun l => andThen (copyIn (dmaMap l)) fun l => .next (dmaProgram l)).Keeps P :=
    (restartLoad_stable hP h).andThen fun _ h1 =>
      (copyIn_stable hP (dmaMap_stable hP h1)).andThen fun _ h2 => dmaProgram_stable hP h2
  unfold stage
  split
  · exact writeLoad_stable hP h
  · exact restartLoad_stable hP h
  · exact hdma
  · exact hdma

theorem copyBytesOut_stable {dst i n : Nat} {l : Ctx} (h : P l) : (copyBytesOut dst i n l).Keeps P := by
  induction n generalizing i l with
  | zero => exact h
  | succ n ih => exact (writeByte_stable hP (hP.pump l h)).andThen fun _ h' => ih h'

theorem dmaFinish_stable {l : Ctx} (h : P l) : (dmaFinish l).Keeps P := by
  refine Res.Keeps.andThen ?_ fun m hm => hP.own m _ _ _ rfl hm
  split
  · exact copyBytesOut_stable hP h
  · exact h

theorem leave_stable {l : Ctx} (h : P l) : P (leave l) := hP.own l _ _ _ rfl h

theorem exitTransaction_stable {l : Ctx} (h : P l) : (exitTransaction l).Keeps P := by
  have h0 : P (ctrlReset (l.mapTP fun tp => { tp with phase := .idle })) := rmw_stable hP (hP.mapTP h)
  refine Res.Keeps.andThen ?_ fun m hm => leave_stable hP hm
  split
  · exact dmaFinish_stable hP h0
  · exact h0

theorem arm_stable {l : Ctx} (h : P l) : P (arm l) := by
  unfold arm
  simp only
  split
  · exact rmw_stable hP (rmw_stable hP h)
  · exact rmw_stable hP h

theorem start_stable {l : Ctx} (h : P l) : (start l).Keeps P := by
  unfold start
  split
  · exact dmaGo_stable hP h
  · exact rmw_stable hP h

theorem goto_stable {q : SeqStep} {l : Ctx} (h : P l) : P (goto q l) := hP.mapDev h

theorem seqStep_stable {l : Ctx} (h : P l) : (seqStep l).Keeps P := by
  unfold seqStep
  cases l.dev.seq with
  | sidle | s0 | s1 | s10 => exact h
  | s2 => exact goto_stable hP (rmw_stable hP h)
  | s3 => exact goto_stable hP (rmw_stable hP (rmw_stable hP h))
  | s4 => exact goto_stable hP (regWrite_stable hP (rmw_stable hP h))
  | s5 => exact (stage_stable hP h).andThen fun _ h' => goto_stable hP h'
  | s6 => exact goto_stable hP (rmw_stable hP h)
  | s7 => exact goto_stable hP (arm_stable hP h)
  | s8 => exact (start_stable hP h).andThen fun _ h' => goto_stable hP h'
  | s9 =>
    show P (if l.dev.sig then wake l else l)
    split
    · exact hP.mapDev h
    · exact h
  | s11 => exact exitTransaction_stable hP h

theorem seqMove_stable {l : Ctx} (h : P l) : (seqMove l).Keeps P := by
  unfold seqMove
  split
  · exact seqStep_stable hP h
  · exact h

end

end Sys2Proof.Machine
end

section
/-! PROOFS. R20, R324: an instance seen from another one in hand stays as it is, as long as no move of its own falls between the
accesses. -/

namespace Sys2Proof.Machine

/-! ### Moves of the environment agents of one instance -/

/-- The operation changes the instance in hand, host memory and the trace only. -/
def OnOwn (f : Ctx → Ctx) : Prop :=
  ∀ l, ∃ (v : Device) (mem : Memory) (trace : List Obs), f l = { l with dev := v, mem := mem, trace := trace }

theorem onOwn_be (m : BeMove) : OnOwn fun l => l.mapDev (beMove l.params m) := fun _ => ⟨_, _, _, rfl⟩

theorem onOwn_answerMap (r : Option Word) : OnOwn (answerMap r) := fun _ => ⟨_, _, _, rfl⟩

theorem onOwn_timerExpire : OnOwn timerExpire := by
  intro l
  unfold timerExpire
  split_ifs
  · exact ⟨_, _, _, rfl⟩
  · exact ⟨_, _, _, rfl⟩
  · exact ⟨l.dev, l.mem, l.trace, rfl⟩

theorem onOwn_deMove (m : DeMove) : OnOwn (deMove m) := by
  intro l
  rcases deMove_cases m l with e | ⟨-, -, ⟨_, -, e⟩ | ⟨_, _, -, -, -, e⟩ | ⟨_, _, _, -, -, -, -, -, e⟩ |
    ⟨_, _, _, -, -, -, -, e⟩ | ⟨_, _, -, -, -, -, e⟩⟩ <;> exact ⟨_, _, _, e⟩

/-! ### Another instance beside the one in hand -/

/-- Instance `k` is not the one in hand, and stands as in `devs`; so does the number of instances. -/
structure Ctx.Beside (k : Nat) (devs : List Device) (l : Ctx) : Prop where
  placed : l.Placed
  other : k ≠ l.id
  same : l.devices[k]? = devs[k]?
  length : l.devices.length = devs.length

section
variable {k : Nat} {devs : List Device} {l : Ctx}

theorem State.ctx_beside {s : State} {j : Nat} {d : Device} (h : s.devs[j]? = some d) (hk : k ≠ j) :
    (s.ctx j d).Beside k s.devs where
  placed := State.ctx_placed h
  other := hk
  same := by rw [State.ctx_devices h]
  length := by rw [State.ctx_devices h]

theorem Ctx.Beside.own (h : l.Beside k devs) (v : Device) (mem : Memory) (trace : List Obs) :
    ({ l with dev := v, mem := mem, trace := trace } : Ctx).Beside k devs := by
  have e : ({ l with dev := v, mem := mem, trace := trace } : Ctx).devices = l.devices.set l.id v :=
    Ctx.devices_dev (l := { l with mem := mem, trace := trace }) h.placed v
  exact ⟨h.placed, h.other, by rw [e, List.getElem?_set_ne h.other.symm, h.same], by rw [e, List.length_set, h.length]⟩

theorem Ctx.Beside.onOwn {f : Ctx → Ctx} (hf : OnOwn f) (h : l.Beside k devs) : (f l).Beside k devs := by
  obtain ⟨v, mem, trace, e⟩ := hf l
  exact e ▸ h.own v mem trace

theorem Ctx.Beside.answer {c : Cmd} (h : l.Beside k devs) (host : Nat) (r : Result) : (answer host c r l).Beside k devs :=
  ⟨h.placed, h.other, h.same, h.length⟩

theorem Ctx.Beside.setPeer {j : Nat} (h : l.Beside k devs) (hid : j ≠ l.id) (hjk : j ≠ k) (v : Device) :
    (l.setPeer j v).Beside k devs := by
  have e : (l.setPeer j v).devices = l.devices.set j v := Ctx.devices_setPeer h.placed hid v
  refine ⟨?_, by simpa using h.other, by rw [e, List.getElem?_set_ne hjk, h.same], by rw [e, List.length_set, h.length]⟩
  simpa [Ctx.Placed] using h.placed

theorem Ctx.Beside.onPeer {j : Nat} (h : l.Beside k devs) (hid : j ≠ l.id) (hjk : j ≠ k) (f : Ctx → Ctx) :
    (onPeer j f l).Beside k devs := by
  rcases onPeer_cases j f l with ⟨-, e⟩ | ⟨v, -, e⟩ <;> rw [e]
  · exact h
  · generalize f { l with id := j, dev := v } = r
    exact (h.own l.dev r.mem r.trace).setPeer hid hjk r.dev

theorem Ctx.Beside.onAny {j : Nat} {f : Ctx → Ctx} (hf : OnOwn f) (h : l.Beside k devs) (hjk : j ≠ k) :
    (onAny j f l).Beside k devs := by
  unfold Machine.onAny
  split
  · exact h.onOwn hf
  · rename_i hid; exact h.onPeer hid hjk f

/-- A command for another instance is answered, or starts that other instance. -/
theorem Ctx.Beside.hostCommand {c : Cmd} (h : l.Beside k devs) (hc : c.args.dev.toNat ≠ k) (host : Nat) :
    (hostCommand host c l).Beside k devs := by
  rcases hostCommand_cases host c l with e | ⟨r, e⟩ | ⟨hid, -, v, -, -, -, e⟩ <;> rw [e]
  · exact h
  · exact h.answer host r
  · have h' : ({ l with callCmd := c, host := host } : Ctx).Beside k devs := ⟨h.placed, h.other, h.same, h.length⟩
    exact h'.setPeer hid hc _

/-- A move between two accesses changes no instance but its owner. -/
theorem Ctx.Beside.envMove {m : EnvMove} (h : l.Beside k devs) (hm : m.owner ≠ some k) : (envMove l m).Beside k devs := by
  have hne : ∀ j, some j ≠ some k → j ≠ k := fun j hj e => hj (congrArg some e)
  cases m with
  | be j m => exact h.onAny (f := fun l => l.mapDev (beMove l.params m)) (onOwn_be m) (hne j hm)
  | de j m => exact h.onAny (onOwn_deMove m) (hne j hm)
  | mapAnswer j r => exact h.onAny (onOwn_answerMap r) (hne j hm)
  | expire j =>
    show Ctx.Beside k devs (if j = l.id then l else Machine.onPeer j timerExpire l)
    split
    · exact h
    · rename_i hid; exact h.onPeer hid (hne j hm) _
  | store a b => exact h.own l.dev _ l.trace
  | free a => exact h.own l.dev _ l.trace
  | command host c => exact h.hostCommand (hne _ hm) host

/-- An agent of one instance keeps another as it is, while no move of that other is still to fall between its accesses. -/
theorem beside_stable (k : Nat) (devs : List Device) :
    Stable fun l => l.Beside k devs ∧ l.dev.Gaps fun e => e.owner ≠ some k where
  own := fun _ v mem trace hi ⟨h, hg⟩ => ⟨h.own v mem trace, fun moves hm => hg moves (hi ▸ hm)⟩
  pump := fun l ⟨h, hg⟩ =>
    ⟨pump_induct (fun _ _ h => h.own _ _ _) (fun _ _ hm h => h.envMove hm) l hg h, pump_gaps hg⟩

end

/-! ### Steps of the machine -/

/-- Instance `k`, the number of instances and the parameters are as they were. -/
def State.Leaves (k : Nat) (s t : State) : Prop :=
  t.devs[k]? = s.devs[k]? ∧ t.devs.length = s.devs.length ∧ t.params = s.params

theorem State.Leaves.refl (k : Nat) (s : State) : s.Leaves k s := ⟨rfl, rfl, rfl⟩

theorem State.leaves_putCtx {k : Nat} {s : State} {l : Ctx} (h : l.Beside k s.devs) : s.Leaves k (s.putCtx l) :=
  ⟨h.same, h.length, rfl⟩

/-- An operation of instance `j` that keeps another beside it leaves that other, also where its agent is stuck. -/
theorem moveOn_leaves {ag : Agent} {j k : Nat} {f : Ctx → Res} {s t : State}
    (hf : ∀ d, s.devs[j]? = some d → (f (s.ctx j d)).Keeps (Ctx.Beside k s.devs)) (h : moveOn ag j f s = .next t) :
    s.Leaves k t := by
  rcases moveOn_next h with ⟨-, rfl⟩ | ⟨d, l, hd, ⟨hl, rfl⟩ | ⟨hl, rfl⟩⟩
  · exact .refl k t
  · exact State.leaves_putCtx (Res.keeps_next.mp (hl ▸ hf d hd))
  · exact State.leaves_putCtx ((Res.keeps_stuck.mp (hl ▸ hf d hd)).own _ l.mem l.trace)

theorem envOn_leaves {j k : Nat} {f : Ctx → Ctx} {s t : State} (hf : OnOwn f) (hjk : j ≠ k) (h : envOn j f s = .next t) :
    s.Leaves k t :=
  moveOn_leaves (f := fun l => .next (f l)) (fun _ hd => (State.ctx_beside hd hjk.symm).onOwn hf) h

/-- A sequencer step or a handler run of instance `j` leaves an instance of which no move falls between its accesses. -/
theorem moveOn_leaves_of_stable {ag : Agent} {j k : Nat} {f : Ctx → Res} {s t : State}
    (hf : ∀ P, Stable P → ∀ l, P l → (f l).Keeps P) (hjk : j ≠ k)
    (hg : ∀ d, s.devs[j]? = some d → d.Gaps fun e => e.owner ≠ some k) (h : moveOn ag j f s = .next t) : s.Leaves k t := by
  refine moveOn_leaves (fun d hd => ?_) h
  have hk := hf _ (beside_stable k s.devs) (s.ctx j d) ⟨State.ctx_beside hd hjk.symm, hg d hd⟩
  cases hr : f (s.ctx j d) with
  | next l => exact (Res.keeps_next.mp (hr ▸ hk)).1
  | stuck l => exact (Res.keeps_stuck.mp (hr ▸ hk)).1
  | refused e => trivial

/-- Admission writes the instance the command names, and no other. -/
theorem issue_leaves {op : Op} {a : Args} {k : Nat} {s : State} (hk : a.dev.toNat ≠ k) : s.Leaves k (issue op a s) := by
  unfold issue
  simp only
  split
  · exact .refl k s
  · split
    · exact .refl k s
    · exact ⟨List.getElem?_set_ne hk, List.length_set, rfl⟩

/-- The ranges checked after decoding change nothing of what is decoded. -/
theorem decodeRaw_of_decode {p : Packet} {i : Instr} (h : decode p = .ok i) : decodeRaw p = .ok i := by
  unfold decode at h
  split at h
  · rename_i i' hr
    split at h
    · rw [hr, ← h]
    · cases h
  · cases h

/-- A descriptor that decodes is a command, and the instance it names is the owner of the host's move (R101). -/
theorem decode_cmd_owner {ws : List Word} {i : Instr} (h : decode ⟨.cmd, ws⟩ = .ok i) (host : Nat) :
    ∃ c : Cmd, i = c.instr ∧ (Move.host host ws).owner = some c.args.dev.toNat := by
  have hr : decodeCmd ws = .ok i := decodeRaw_of_decode h
  unfold decodeCmd at hr
  split at hr
  · split at hr
    · injection hr with hr
      exact ⟨_, hr.symm, rfl⟩
    · cases hr
  · cases hr

/-- A command entering the port leaves every instance but the one it names. -/
theorem commandPort_leaves {host k : Nat} {ws : List Word} {s t : State} (hk : (Move.host host ws).owner ≠ some k)
    (h : commandPort host ws s = .next t) : s.Leaves k t := by
  unfold commandPort at h
  split at h
  · injection h with h
    exact h ▸ .refl k s
  · split at h
    · rename_i i hi
      obtain ⟨c, rfl, hc⟩ := decode_cmd_owner hi host
      rw [exec_command] at h
      injection h with h
      exact h ▸ issue_leaves (s := { s with host := host }) fun e => hk (hc.trans (congrArg some e))
    · cases h

/-- Settles O56: every agent changes its own instance only, and what falls between its accesses changes the owner of each move. -/
theorem instancesShareNothing : Obligations.InstancesShareNothing := by
  unfold Obligations.InstancesShareNothing
  intro s t m rest k ha hstep hm hgaps
  have hne : ∀ j, some j ≠ some k → j ≠ k := fun j hj e => hj (congrArg some e)
  rw [step_cons ha] at hstep
  show State.Leaves k { s with agenda := rest } t
  cases m with
  | host h ws => exact commandPort_leaves hm hstep
  | hostStore a b => injection hstep with e; exact e ▸ .refl k _
  | hostFree a => injection hstep with e; exact e ▸ .refl k _
  | mapAnswer j r => exact envOn_leaves (onOwn_answerMap r) (hne j hm) hstep
  | seq j => exact moveOn_leaves_of_stable (fun _ hP _ h => seqMove_stable hP h) (hne j hm) (fun d => hgaps j d rfl) hstep
  | tmr j => exact envOn_leaves onOwn_timerExpire (hne j hm) hstep
  | irq j => exact moveOn_leaves_of_stable (fun _ hP _ h => irqMove_stable hP h) (hne j hm) (fun d => hgaps j d rfl) hstep
  | be j b => exact envOn_leaves (onOwn_be b) (hne j hm) hstep
  | de j e => exact envOn_leaves (onOwn_deMove e) (hne j hm) hstep

end Sys2Proof.Machine
end

section
/-! PROOFS. R78, U15: what an agent has done when it comes to a byte that is not allocated, and that a stuck agent does no more. -/

namespace Sys2Proof.Machine

/-! ### Reading a buffer with nothing in between -/

section
variable {base off n : Nat} {l : Ctx} (hq : l.dev.inter = [])
include hq

/-- A byte of a buffer that is allocated, or lies past the buffer's end. -/
theorem padByte_quiet {f : Byte → Ctx → Res} (ha : off < n → (cellRead l.mem (base + off)).isSome = true) :
    padByte base off n f l = f (bufferByte l.mem base n off) l := by
  unfold padByte bufferByte
  split
  · rename_i h
    obtain ⟨b, hb⟩ := Option.isSome_iff_exists.mp (ha h)
    rw [readByte_quiet hq, hb]
    rfl
  · rfl

/-- A byte of a buffer that is not allocated. -/
theorem padByte_missing {f : Byte → Ctx → Res} (hn : off < n) (hm : cellRead l.mem (base + off) = none) :
    padByte base off n f l = .stuck l := by
  rw [padByte, if_pos hn, readByte_quiet hq, hm]

/-- A unit of a buffer whose bytes are allocated. -/
theorem loadWord_quiet {f : Word → Ctx → Res} (ha : ∀ x < off + 4, x < n → (cellRead l.mem (base + x)).isSome = true) :
    loadWord base off n f l = f (bufferWord l.mem base n off) l := by
  unfold loadWord
  rw [padByte_quiet hq (ha _ (by omega)), padByte_quiet hq (ha _ (by omega)), padByte_quiet hq (ha _ (by omega)),
    padByte_quiet hq (ha _ (by omega))]
  rfl

/-- A unit of a buffer that holds the first byte that is not allocated. -/
theorem loadWord_missing {f : Word → Ctx → Res} {j : Nat} (h1 : off ≤ j) (h2 : j < off + 4) (hj : j < n)
    (ha : Allocated l.mem base j) (hm : cellRead l.mem (base + j) = none) : loadWord base off n f l = .stuck l := by
  unfold loadWord
  obtain rfl | rfl | rfl | rfl : j = off ∨ j = off + 1 ∨ j = off + 2 ∨ j = off + 3 := by omega
  · exact padByte_missing hq hj hm
  · rw [padByte_quiet hq fun _ => ha _ (by omega), padByte_missing hq hj hm]
  · rw [padByte_quiet hq fun _ => ha _ (by omega), padByte_quiet hq fun _ => ha _ (by omega), padByte_missing hq hj hm]
  · rw [padByte_quiet hq fun _ => ha _ (by omega), padByte_quiet hq fun _ => ha _ (by omega),
      padByte_quiet hq fun _ => ha _ (by omega), padByte_missing hq hj hm]

end

/-- `DATA_LOAD32` from slot `i` on fills the slots before that of the first byte that is not allocated, and is stuck there. -/
theorem loadSlots_missing {src n i k j : Nat} {l : Ctx} (hq : l.dev.inter = []) (hs : l.dev.Latched l.params)
    (hk : i + k ≤ 8) (hn : n ≤ 4 * (i + k)) (hi : 4 * i ≤ j) (hj : j < n) (ha : Allocated l.mem src j)
    (hm : cellRead l.mem (src + j) = none) :
    ∃ (data : Vector Word 8) (obs : List Obs),
      loadSlots src n i k l =
        .stuck { l with dev := { l.dev with mb := { l.dev.mb with data := data } }, trace := obs ++ l.trace } ∧
      ∀ x : Slot, data[x] =
        if i ≤ x.val ∧ x.val < j / 4 then bufferWord l.mem src n (4 * x.val) else l.dev.mb.data[x] := by
  induction k generalizing i l with
  | zero => omega
  | succ k ih =>
    rw [loadSlots]
    by_cases h : j < 4 * i + 4
    · exact ⟨l.dev.mb.data, [], loadWord_missing hq hi h hj ha hm, fun x => (if_neg (by omega)).symm⟩
    · rw [loadWord_quiet hq fun x h1 _ => ha x (by omega), dataPut_quiet hq hs]
      obtain ⟨data, obs, e, hd⟩ := ih (i := i + 1)
        (l := { l with
          dev := { l.dev with mb := { l.dev.mb with
            data := l.dev.mb.data.set (Fin.ofNat 8 i).val (bufferWord l.mem src n (4 * i)) (Fin.ofNat 8 i).isLt } }
          trace := .wrote l.id (.mData (Fin.ofNat 8 i)) (bufferWord l.mem src n (4 * i)) :: l.trace })
        hq hs (by omega) (by omega) (by omega) ha hm
      refine ⟨data, obs ++ [_], by rw [e, List.append_assoc]; rfl, fun x => ?_⟩
      rw [hd x]
      have hv : (Fin.ofNat 8 i).val = i := Nat.mod_eq_of_lt (by omega)
      simp only [Fin.getElem_fin, Vector.getElem_set, hv]
      by_cases hx : i = x.val
      · subst hx
        rw [if_neg (by omega), if_pos rfl, if_pos (by omega)]
      · rw [if_neg hx]
        exact if_congr (by omega) rfl rfl

/-! ### The finish with nothing in between -/

/-- Byte stores up to the first byte that is not allocated. -/
theorem writeBytes_missing {a j : Nat} {bs : List Byte} {l : Ctx} (hq : l.dev.inter = []) (hj : j < bs.length)
    (ha : Allocated l.mem a j) (hm : cellRead l.mem (a + j) = none) :
    writeBytes a bs l = .stuck { l with mem := cellWriteAll l.mem a (bs.take j) } := by
  induction bs generalizing a j l with
  | nil => simp at hj
  | cons b bs ih =>
    rw [writeBytes, writeByte, pump_quiet hq]
    cases j with
    | zero =>
      have e : memStore l.mem a b = none := by
        have hm' : cellRead l.mem a = none := hm
        simp only [memStore, hm']
      rw [e]
      rfl
    | succ j =>
      have h0 : (cellRead l.mem a).isSome = true := ha 0 (by omega)
      rw [memStore_eq_some.mpr ⟨h0, rfl⟩, andThen_next]
      have hm' : cellRead (cellWrite l.mem a b) (a + 1 + j) = none := by
        rw [cellRead_cellWrite, if_neg (by omega), show a + 1 + j = a + (j + 1) by omega, hm]
      exact ih (l := { l with mem := cellWrite l.mem a b }) hq (by simpa using hj)
        (ha.mono (by omega) (by omega)).cellWrite hm'

/-- The handler's temporary: four bytes a slot, in ring order. -/
theorem gatherWords_quiet (n : Nat) (s : Slot) {l : Ctx} (hq : l.dev.inter = []) :
    ∃ bs : List Byte, gatherWords n s l = (bs, l) ∧ bs.length = 4 * n ∧
      ∀ k, k < 4 * n → bs[k]? = some (wordByte l.dev.mb.data[s + Fin.ofNat 8 (k / 4)] (k % 4)) := by
  induction n generalizing s with
  | zero => exact ⟨[], rfl, rfl, fun k hk => absurd hk (by omega)⟩
  | succ n ih =>
    obtain ⟨bs, e, hl, hb⟩ := ih (s + 1)
    refine ⟨wordBytes l.dev.mb.data[s] ++ bs, ?_, by simp [hl]; omega, fun k hk => ?_⟩
    · rw [gatherWords, dataGet_quiet hq]
      simp only [e]
    · by_cases h : k < 4
      · have hs : s + Fin.ofNat 8 (k / 4) = s := by simp [Nat.div_eq_of_lt h]
        rw [List.getElem?_append_left (by simpa using h), wordBytes_getElem? _ k h, Nat.mod_eq_of_lt h]
        simp only [hs]
      · have hs : s + 1 + Fin.ofNat 8 ((k - 4) / 4) = s + Fin.ofNat 8 (k / 4) := by
          apply Fin.ext
          simp only [Fin.val_add, Fin.val_one, Fin.ofNat]
          omega
        rw [List.getElem?_append_right (by simpa using h), wordBytes_length, hb _ (by omega),
          show (k - 4) % 4 = k % 4 by omega]
        simp only [hs]

/-- The finish stores the bytes before the first one that is not allocated, and is stuck there (R237, R78). -/
theorem finishRead_missing {j : Nat} {l : Ctx} (hq : l.dev.inter = []) (hj : j < l.dev.tp.burstRem.toNat)
    (ha : Allocated l.mem (l.dev.tp.buf.toNat + l.dev.tp.dataOff.toNat) j)
    (hm : cellRead l.mem (l.dev.tp.buf.toNat + l.dev.tp.dataOff.toNat + j) = none) :
    ∃ mem : Memory, finishRead l = .stuck { l with mem := mem } ∧
      ∀ a, cellRead mem a =
        let base := l.dev.tp.buf.toNat + l.dev.tp.dataOff.toNat
        if base ≤ a ∧ a < base + j then
          some (wordByte l.dev.mb.data[l.dev.tp.regIdx + Fin.ofNat 8 ((a - base) / 4)] ((a - base) % 4))
        else cellRead l.mem a := by
  obtain ⟨bs, e, hl, hb⟩ := gatherWords_quiet (ceilDiv l.dev.tp.burstRem.toNat 4) l.dev.tp.regIdx hq
  have hc : l.dev.tp.burstRem.toNat ≤ 4 * ceilDiv l.dev.tp.burstRem.toNat 4 := by unfold ceilDiv; omega
  refine ⟨cellWriteAll l.mem (l.dev.tp.buf.toNat + l.dev.tp.dataOff.toNat) (bs.take j), ?_, fun a => ?_⟩
  · unfold finishRead
    simp only [e, if_neg (show ¬l.dev.tp.burstRem.toNat = 0 by omega)]
    rw [writeBytes_missing hq (by simp; omega) ha hm, andThen_stuck, List.take_take, Nat.min_eq_left (by omega)]
  · have hlen : (bs.take j).length = j := by simp; omega
    rw [cellRead_cellWriteAll, hlen]
    refine if_ctx_congr Iff.rfl (fun h => ?_) fun _ => rfl
    rw [List.getElem?_take_of_lt (by omega), hb _ (by omega)]

/-- Active-done in a read phase without an error is the finish (R237). -/
theorem evActiveDone_read {l : Ctx} (hs : l.dev.sig = false) (hp : l.dev.tp.phase = .read ∨ l.dev.tp.phase = .dmaRead)
    (h1 : l.dev.tp.irq.addrNack = false) (h2 : l.dev.tp.irq.dataNack = false) (h3 : l.dev.tp.irq.sclHold = false)
    (h4 : l.dev.tp.irq.rdOverflow = false) :
    evActiveDone l = finishRead (setIrq (fun f => { f with activeDone := true }) l) := by
  have hd : dispatchArm (setIrq (fun f => { f with activeDone := true }) l).dev = .deliver := by
    rcases hp with hp | hp <;> simp [dispatchArm, setIrq, readArm, hs, hp, h1, h2, h3, h4]
  unfold evActiveDone
  simp only [hd]

/-! ### A stuck agent -/

/-- A move that leaves its instance as it is leaves the machine as it is. -/
theorem moveOn_idle {ag : Agent} {f : Ctx → Res} {s : State} {d : Device} (h : s.InHand d)
    (hf : f (s.ctx s.cur d) = .next (s.ctx s.cur d)) : moveOn ag s.cur f s = .next s := by
  rw [moveOn_some h, onInstance_inHand h, hf]
  simp only [State.putCtx_ctx h]

theorem seqMove_stuck {l : Ctx} (h : l.dev.stuck.seq = true) : seqMove l = .next l := by simp [seqMove, seqEnabled, h]

theorem timerExpire_stuck {l : Ctx} (h : l.dev.stuck.seq = true) : timerExpire l = l := by
  simp [timerExpire, seqEnabled, h]

theorem irqMove_stuck {l : Ctx} (h : l.dev.stuck.iep = true) : irqMove l = .next l := by
  simp [irqMove, handlerEnabled, h]

theorem deMove_stuck {e : DeMove} {l : Ctx} (h : l.dev.stuck.de = true) : deMove e l = l := by simp [deMove, h]

/-- Settles O59: the slots, or the bytes, before the unallocated byte are done when its agent is stuck, and a stuck agent's guard is
closed. -/
theorem unallocatedAccessLeavesOnlyItsAgentStuck : Obligations.UnallocatedAccessLeavesOnlyItsAgentStuck := by
  unfold Obligations.UnallocatedAccessLeavesOnlyItsAgentStuck
  intro s d hd
  refine ⟨?_, ?_, ?_⟩
  · intro src n j hq hs hn hj ha hm
    obtain ⟨data, obs, e, hdata⟩ := loadSlots_missing (l := s.ctx s.cur d) (i := 0) (k := 8) hq hs.2 (by omega) (by omega)
      (by omega) hj ha hm
    refine ⟨data, obs, ?_, fun x => by simpa using hdata x⟩
    show onInstance .seq s.cur (dataLoad32 src.toNat n.toNat) s = _
    rw [onInstance_inHand hd, dataLoad32, e]
    exact congrArg Host.Outcome.next (State.putCtx_become hd _ _ _)
  · intro j hq hs hp h1 h2 h3 h4 hj base ha hm
    obtain ⟨mem, e, hmem⟩ := finishRead_missing (l := setIrq (fun f => { f with activeDone := true }) (s.ctx s.cur d)) hq hj ha hm
    refine ⟨mem, ?_, hmem⟩
    show onInstance .iep s.cur evActiveDone s = _
    rw [onInstance_inHand hd, evActiveDone_read hs hp h1 h2 h3 h4, e]
    exact congrArg Host.Outcome.next (State.putCtx_become hd _ _ [])
  · intro m rest ha hstuck
    have hd' : State.InHand { s with agenda := rest } d := hd
    rw [step_cons ha]
    rcases hstuck with ⟨h, rfl | rfl⟩ | ⟨h, rfl⟩ | ⟨h, e, rfl⟩
    · exact moveOn_idle hd' (seqMove_stuck h)
    · exact moveOn_idle hd' (congrArg Res.next (timerExpire_stuck h))
    · exact moveOn_idle hd' (irqMove_stuck h)
    · exact moveOn_idle hd' (congrArg Res.next (deMove_stuck h))

end Sys2Proof.Machine
end

section
/-! SUPPORT. Which bytes of host memory the agents of an instance touch, said once for any fact about the machine that bears stores
into the read buffer of the command in flight: every sequencer step and every handler run keeps it, and is stuck only at a byte of
the command's buffers. -/

namespace Sys2Proof.Machine

/-! ### The bytes a command lets the block touch (R78) -/

/-- The bytes the block may read for the command in flight. -/
def Device.Reads (d : Device) (a : Nat) : Prop :=
  d.tp.busy = true ∧ (isReadOp d.cmdl.op = false ∨ d.cmdl.args.restart = true) ∧
    d.cmdl.args.wbuf.toNat ≤ a ∧ a < d.cmdl.args.wbuf.toNat + d.cmdl.args.wlen.toNat

/-- The bytes the block may write for the command in flight. -/
def Device.Writes (d : Device) (a : Nat) : Prop :=
  d.tp.busy = true ∧ isReadOp d.cmdl.op = true ∧
    d.cmdl.args.rbuf.toNat ≤ a ∧ a < d.cmdl.args.rbuf.toNat + d.cmdl.args.rlen.toNat

/-- The transfer's own buffer is read by a command without a read phase and written by one with it. -/
theorem Device.buffer_touched {d : Device} {j : Nat} (hb : d.tp.busy = true) (hj : j < (cmdLen d.cmdl).toNat) :
    if isReadOp d.cmdl.op = true then d.Writes ((cmdBuf d.cmdl).toNat + j) else d.Reads ((cmdBuf d.cmdl).toNat + j) := by
  unfold cmdLen at hj
  unfold cmdBuf
  split_ifs at hj ⊢ with h
  · exact ⟨hb, h, by omega, by omega⟩
  · exact ⟨hb, .inl (by simpa using h), by omega, by omega⟩

/-- What a step started for instance `d` keeps of it: its command, and that a running DMA engine serves that command. -/
structure Device.Serves (d v : Device) : Prop where
  cmdl : v.cmdl = d.cmdl
  engine : v.deActive = true → d.tp.busy = true ∧ v.db.dir = isReadOp d.cmdl.op

/-- Under the control invariant a running DMA engine serves the command in flight. -/
theorem Device.Control.serves {p : Config.Params} {d : Device} (h : d.Control p) : d.Serves d where
  cmdl := rfl
  engine := fun ha => by
    refine ⟨?_, (h.dma_runs ha).2⟩
    rw [h.busy_iff]
    rcases h.triggered (.inr ha) with hs | hs <;> rw [hs] <;> rfl

theorem Device.Serves.of_sameProgramme {d v w : Device} (h : d.Serves v) (hs : v.SameProgramme w) : d.Serves w := by
  simp only [Device.SameProgramme] at hs
  exact ⟨by simp [hs, h.cmdl], fun ha => by simpa [hs] using h.engine (by simpa [hs] using ha)⟩

/-- A change that bears neither on the command nor on the moves still to fall, and starts or turns no DMA engine. -/
structure Device.Keeps (d v : Device) : Prop where
  inter : v.inter = d.inter := by rfl
  stuck : v.stuck = d.stuck := by rfl
  cmdl : v.cmdl = d.cmdl := by rfl
  engine : v.deActive = true → d.deActive = true ∧ v.db.dir = d.db.dir := by exact fun h => ⟨h, rfl⟩

theorem Device.Serves.of_keeps {d v w : Device} (h : d.Serves v) (hk : v.Keeps w) : d.Serves w where
  cmdl := hk.cmdl.trans h.cmdl
  engine := fun ha => by
    obtain ⟨h1, h2⟩ := hk.engine ha
    exact ⟨(h.engine h1).1, h2.trans (h.engine h1).2⟩

/-- Only a store to `D_CTRL` starts or turns the DMA engine. -/
theorem poke_keeps {r : Reg} (hr : r ≠ .dCtrl) (v : Word) (d : Device) : d.Keeps (poke r v d) where
  inter := poke_inter r v d
  stuck := poke_stuck r v d
  cmdl := poke_cmdl r v d
  engine := by
    cases r <;> simp only [poke] <;> (try split) <;> simp_all

/-! ### Outcomes -/

/-- Where the operation goes on, `Q` holds; where it is stuck, `P` holds and that it could be stuck is `S`. It may be refused. -/
def Res.Within (S : Prop) (P Q : Ctx → Prop) : Res → Prop
  | .next l => Q l
  | .stuck l => S ∧ P l
  | .refused _ => True

section
variable {S : Prop} {P Q R : Ctx → Prop}

theorem Res.Within.andThen {r : Res} {f : Ctx → Res} (h : r.Within S P Q) (hf : ∀ l, Q l → (f l).Within S P R) :
    (andThen r f).Within S P R := by
  cases r with
  | next l => exact hf l h
  | stuck l => exact h
  | refused e => trivial

theorem Res.Within.mono {r : Res} (h : r.Within S P Q) (hq : ∀ l, Q l → R l) : r.Within S P R := by
  cases r with
  | next l => exact hq l h
  | stuck l => exact h
  | refused e => trivial

end

/-- A fact about the machine while an agent of the instance of `c` steps: it bears any change of that instance but of the moves still
to fall and of what is stuck, the moves that fall before an access, and stores into the read buffer of the command in flight; and
where it holds, a byte of the command's buffers can be missing only if `S`. -/
structure Confines (c : Ctx) (S : Prop) (P : Ctx → Prop) : Prop where
  own : ∀ (l : Ctx) (v : Device) (trace : List Obs), v.inter = l.dev.inter → v.stuck = l.dev.stuck → P l →
    P { l with dev := v, trace := trace }
  pump : ∀ l : Ctx, c.dev.Serves l.dev → P l → P (pump l)
  store : ∀ (l : Ctx) (a : Nat) (b : Byte), c.dev.Writes a → P l → P { l with mem := cellWrite l.mem a b }
  missing : ∀ (l : Ctx) (a : Nat), c.dev.Reads a ∨ c.dev.Writes a → cellRead l.mem a = none → P l → S

/-- In the course of a step of the instance of `c`: its snapshot stands at `tp` and its signal at `sig`. -/
structure Ctx.At (c : Ctx) (P : Ctx → Prop) (tp : TP) (sig : Bool) (l : Ctx) : Prop where
  world : P l
  params : l.params = c.params
  serves : c.dev.Serves l.dev
  tp : l.dev.tp = tp
  sig : l.dev.sig = sig

section
variable {c l : Ctx} {S : Prop} {P Q : Ctx → Prop} {tp : TP} {sig : Bool} (hP : Confines c S P)
include hP

/-! ### Changes of the instance and register accesses -/

theorem Ctx.At.own {v : Device} {tp' : TP} {sig' : Bool} (trace : List Obs) (hk : l.dev.Keeps v) (ht : v.tp = tp')
    (hs : v.sig = sig') (h : Ctx.At c P tp sig l) : Ctx.At c P tp' sig' { l with dev := v, trace := trace } :=
  ⟨hP.own l v trace hk.inter hk.stuck h.world, h.params, h.serves.of_keeps hk, ht, hs⟩

theorem Ctx.At.mapTP (f : TP → TP) (h : Ctx.At c P tp sig l) : Ctx.At c P (f tp) sig (l.mapTP f) :=
  h.own hP (v := { l.dev with tp := f l.dev.tp }) l.trace {} (congrArg f h.tp) h.sig

theorem Ctx.At.pump (h : Ctx.At c P tp sig l) : Ctx.At c P tp sig (pump l) where
  world := hP.pump l h.serves h.world
  params := (pump_params l).trans h.params
  serves := h.serves.of_sameProgramme (pump_sameProgramme l)
  tp := (pump_tp l).trans h.tp
  sig := (pump_sig l).trans h.sig

theorem Ctx.At.regWrite {r : Reg} {v : Word} (hr : r ≠ .dCtrl) (h : Ctx.At c P tp sig l) :
    Ctx.At c P tp sig (regWrite r v l) := by
  have hk := poke_keeps hr v (Machine.pump l).dev
  have hp := h.pump hP
  exact hp.own hP (v := latch (Machine.pump l).params (Machine.pump l).dev (poke r v (Machine.pump l).dev)) _
    ⟨hk.inter, hk.stuck, hk.cmdl, hk.engine⟩ (by rw [latch_tp, poke_tp, hp.tp]) (by rw [latch_sig, poke_sig, hp.sig])

theorem Ctx.At.rmw {r : Reg} {mask v : Word} (hr : r ≠ .dCtrl) (h : Ctx.At c P tp sig l) :
    Ctx.At c P tp sig (rmw r mask v l) := (h.pump hP).regWrite hP hr

theorem Ctx.At.pulse {r : Reg} {mask : Word} (hr : r ≠ .dCtrl) (h : Ctx.At c P tp sig l) :
    Ctx.At c P tp sig (pulse r mask l) := (h.regWrite hP hr).regWrite hP hr

/-- After a store to any register, also one that starts the DMA engine. -/
theorem Ctx.At.regWrite_world {r : Reg} {v : Word} (h : Ctx.At c P tp sig l) : P (Machine.regWrite r v l) :=
  hP.own (Machine.pump l) _ _ (by simp) (by simp) (h.pump hP).world

theorem Ctx.At.rmw_world {r : Reg} {mask v : Word} (h : Ctx.At c P tp sig l) : P (Machine.rmw r mask v l) :=
  (h.pump hP).regWrite_world hP

theorem Confines.mapDev {f : Device → Device} (h : P l) (hi : (f l.dev).inter = l.dev.inter := by rfl)
    (hs : (f l.dev).stuck = l.dev.stuck := by rfl) : P (l.mapDev f) := hP.own l _ _ hi hs h

/-! ### Accesses to host memory -/

theorem readByte_within {a : Nat} {f : Byte → Ctx → Res} (ha : c.dev.Reads a)
    (hf : ∀ b m, Ctx.At c P tp sig m → (f b m).Within S P Q) (h : Ctx.At c P tp sig l) : (readByte a f l).Within S P Q := by
  unfold readByte
  split
  · exact hf _ _ (h.pump hP)
  · rename_i hm
    exact ⟨hP.missing _ a (.inl ha) hm (h.pump hP).world, (h.pump hP).world⟩

theorem padByte_within {base off n : Nat} {f : Byte → Ctx → Res} (ha : ∀ j, j < n → c.dev.Reads (base + j))
    (hf : ∀ b m, Ctx.At c P tp sig m → (f b m).Within S P Q) (h : Ctx.At c P tp sig l) :
    (padByte base off n f l).Within S P Q := by
  unfold padByte
  split
  · rename_i hlt; exact readByte_within hP (ha off hlt) hf h
  · exact hf 0 l h

theorem loadWord_within {base off n : Nat} {f : Word → Ctx → Res} (ha : ∀ j, j < n → c.dev.Reads (base + j))
    (hf : ∀ w m, Ctx.At c P tp sig m → (f w m).Within S P Q) (h : Ctx.At c P tp sig l) :
    (loadWord base off n f l).Within S P Q :=
  padByte_within hP ha (fun _ _ h0 => padByte_within hP ha (fun _ _ h1 => padByte_within hP ha (fun _ _ h2 =>
    padByte_within hP ha (fun _ _ h3 => hf _ _ h3) h2) h1) h0) h

theorem loadSlots_within {src n i k : Nat} (ha : ∀ j, j < n → c.dev.Reads (src + j)) (h : Ctx.At c P tp sig l) :
    (loadSlots src n i k l).Within S P (Ctx.At c P tp sig) := by
  induction k generalizing i l with
  | zero => exact h
  | succ k ih => exact loadWord_within hP ha (fun _ _ h' => ih (h'.regWrite hP (by simp))) h

theorem writeByte_within {a : Nat} {b : Byte} (ha : c.dev.Writes a) (h : Ctx.At c P tp sig l) :
    (writeByte a b l).Within S P (Ctx.At c P tp sig) := by
  have hp := h.pump hP
  unfold writeByte
  cases hm : memStore (pump l).mem a b with
  | some mem =>
    obtain ⟨-, rfl⟩ := memStore_eq_some.mp hm
    exact ⟨hP.store _ a b ha hp.world, hp.params, hp.serves, hp.tp, hp.sig⟩
  | none =>
    have hn : cellRead (pump l).mem a = none := by
      by_contra hs
      rw [memStore_eq_some.mpr ⟨Option.isSome_iff_ne_none.mpr hs, rfl⟩] at hm
      cases hm
    exact ⟨hP.missing _ a (.inr ha) hn hp.world, hp.world⟩

theorem writeBytes_within {a : Nat} {bs : List Byte} (ha : ∀ j, j < bs.length → c.dev.Writes (a + j))
    (h : Ctx.At c P tp sig l) : (writeBytes a bs l).Within S P (Ctx.At c P tp sig) := by
  induction bs generalizing a l with
  | nil => exact h
  | cons b bs ih =>
    refine (writeByte_within hP (ha 0 (by simp)) h).andThen fun m hm => ih (fun j hj => ?_) hm
    have := ha (j + 1) (by simpa using hj)
    rwa [show a + 1 + j = a + (j + 1) by omega]

/-! ### The sequencer -/

theorem scratchPut_at {i : Nat} {b : Byte} (h : Ctx.At c P tp sig l) : Ctx.At c P tp sig (scratchPut i b l) := by
  have hp := h.pump hP
  exact hp.own hP (v := { (pump l).dev with scratch := cellWrite (pump l).dev.scratch i b }) _ {} hp.tp hp.sig

theorem copyBytesIn_within {src i n : Nat} (ha : ∀ j, j < i + n → c.dev.Reads (src + j)) (h : Ctx.At c P tp sig l) :
    (copyBytesIn src i n l).Within S P (Ctx.At c P tp sig) := by
  induction n generalizing i l with
  | zero => exact h
  | succ n ih =>
    exact readByte_within hP (ha i (by omega)) (fun _ _ h' => ih (fun j hj => ha j (by omega)) (scratchPut_at hP h')) h

theorem copyBytesOut_within {dst i n : Nat} (ha : ∀ j, j < i + n → c.dev.Writes (dst + j)) (h : Ctx.At c P tp sig l) :
    (copyBytesOut dst i n l).Within S P (Ctx.At c P tp sig) := by
  induction n generalizing i l with
  | zero => exact h
  | succ n ih =>
    exact (writeByte_within hP (ha i (by omega)) (h.pump hP)).andThen fun _ h' => ih (fun j hj => ha j (by omega)) h'

section
variable (hb : c.dev.tp.busy = true)
include hb

theorem restartLoad_within (h : Ctx.At c P tp sig l) : (restartLoad l).Within S P (Ctx.At c P tp sig) := by
  unfold restartLoad
  rw [h.serves.cmdl]
  split_ifs with hr
  · simp only [cmdRestart, Bool.and_eq_true] at hr
    exact loadSlots_within hP (fun j hj => ⟨hb, .inr hr.2, by omega, by omega⟩) h
  · exact h

theorem writeLoad_within (hop : c.dev.cmdl.op = .write) (h : Ctx.At c P tp sig l) : (writeLoad l).Within S P P := by
  unfold writeLoad
  rw [h.serves.cmdl]
  have hr : isReadOp c.dev.cmdl.op = false := by rw [hop]; rfl
  have ha : ∀ j, j < min c.dev.cmdl.args.wlen.toNat Config.nonburstCap → c.dev.Reads (c.dev.cmdl.args.wbuf.toNat + j) :=
    fun j hj => ⟨hb, .inl hr, by omega, by omega⟩
  exact (loadSlots_within hP ha h).andThen fun m hm => (hm.mapTP hP _).world

theorem copyIn_within (h : Ctx.At c P tp sig l) : (copyIn l).Within S P (Ctx.At c P tp sig) := by
  unfold copyIn
  rw [h.serves.cmdl]
  simp only
  split_ifs with hu
  · have hr : isReadOp c.dev.cmdl.op = false := by rw [hu.2]; rfl
    exact copyBytesIn_within hP (fun j hj => ⟨hb, .inl hr, by omega, by omega⟩) h
  · exact h

omit hb in
theorem dmaMap_at (h : Ctx.At c P tp sig l) : Ctx.At c P tp sig (dmaMap l) :=
  h.own hP (v := (dmaMap l).dev) _ {} h.tp h.sig

omit hb in
theorem dmaProgram_world (h : Ctx.At c P tp sig l) : P (dmaProgram l) :=
  ((h.regWrite hP (by simp)).rmw hP (by simp)).rmw_world hP

theorem stage_within (h : Ctx.At c P tp sig l) : (stage l).Within S P P := by
  have hdma : (andThen (restartLoad l) fun l => andThen (copyIn (dmaMap l)) fun l => .next (dmaProgram l)).Within S P P :=
    (restartLoad_within hP hb h).andThen fun _ h1 =>
      (copyIn_within hP hb (dmaMap_at hP h1)).andThen fun _ h2 => dmaProgram_world hP h2
  unfold stage
  rw [h.serves.cmdl]
  split
  · rename_i hop; exact writeLoad_within hP hb hop h
  · exact (restartLoad_within hP hb h).mono fun _ h1 => h1.world
  · exact hdma
  · exact hdma

theorem dmaFinish_within (h : Ctx.At c P tp sig l) : (dmaFinish l).Within S P P := by
  unfold dmaFinish
  rw [h.serves.cmdl]
  refine Res.Within.andThen (Q := Ctx.At c P tp sig) ?_ fun m hm => hP.own m _ _ rfl rfl hm.world
  split_ifs with hc
  · have hr : isReadOp c.dev.cmdl.op = true := by rw [hc.1]; rfl
    exact copyBytesOut_within hP (fun j hj => ⟨hb, hr, by omega, by omega⟩) h
  · exact h

theorem exitTransaction_within (h : Ctx.At c P tp sig l) : (exitTransaction l).Within S P P := by
  have h0 := (h.mapTP hP fun tp => { tp with phase := .idle }).rmw hP (r := .mCtrl) (mask := 1) (v := 1) (by simp)
  refine Res.Within.andThen (Q := P) ?_ fun m hm => hP.own m _ _ rfl rfl hm
  split
  · exact dmaFinish_within hP hb h0
  · exact h0.world

end

theorem arm_world (h : Ctx.At c P tp sig l) : P (arm l) := by
  have h0 : Ctx.At c P tp sig (intenSet (cmdInten l.dev.cmdl l.dev.tp.burstCnt) l) := h.rmw hP (by simp)
  unfold arm
  simp only
  split
  · exact h0.rmw_world hP
  · exact h0.world

theorem start_within (h : Ctx.At c P tp sig l) : (start l).Within S P P := by
  unfold start dmaGo
  split_ifs
  · exact h.rmw_world hP
  · trivial
  · exact h.rmw_world hP

/-- A step of the sequencer touches the buffers of the command in flight only. -/
theorem seqStep_within (hc : c.dev.Control c.params) (h0 : P c) : (seqStep c).Within S P P := by
  have h : Ctx.At c P c.dev.tp c.dev.sig c := ⟨h0, rfl, hc.serves, rfl, rfl⟩
  unfold seqStep
  cases hseq : c.dev.seq with
  | sidle | s0 | s1 | s10 => exact h0
  | s2 => exact hP.mapDev (h.rmw_world hP)
  | s3 => exact hP.mapDev ((h.rmw hP (r := .mClk) (by simp)).rmw_world hP)
  | s4 => exact hP.mapDev ((h.rmw hP (r := .mCtrl) (by simp)).regWrite_world hP)
  | s5 => exact (stage_within hP (by rw [hc.busy_iff, hseq]; rfl) h).andThen fun _ h' => hP.mapDev h'
  | s6 => exact hP.mapDev (h.rmw_world hP)
  | s7 => exact hP.mapDev (arm_world hP h)
  | s8 => exact (start_within hP h).andThen fun _ h' => hP.mapDev h'
  | s9 =>
    show P (if c.dev.sig then wake c else c)
    split
    · exact hP.mapDev h0
    · exact h0
  | s11 => exact exitTransaction_within hP (by rw [hc.busy_iff, hseq]; rfl) h

theorem seqMove_within (hc : c.dev.Control c.params) (h0 : P c) : (seqMove c).Within S P P := by
  unfold seqMove
  split
  · exact seqStep_within hP hc h0
  · exact h0

end

/-! ### The handler -/

/-- The snapshot accounts for the bytes the handler has still to move: where it refills, the write buffer; where it delivers, what is
left of the read buffer. On a DMA path nothing is left. -/
structure TP.Sound (c : Ctx) (tp : TP) (sig : Bool) : Prop where
  write : tp.phase = .write → ∀ j, j < tp.totalLen.toNat → c.dev.Reads (tp.buf.toNat + j)
  read : tp.phase = .read → ∀ j, j < c.dev.cmdl.args.rlen.toNat → c.dev.Writes (tp.buf.toNat + j)
  room : sig = false → tp.phase = .read →
    tp.dataOff.toNat + c.params.rdBurstBytes * tp.burstCnt.toNat + tp.burstRem.toNat ≤ c.dev.cmdl.args.rlen.toNat
  dma : tp.phase = .dmaRead → tp.burstRem = 0

/-- Once the signal is set nothing more is delivered. -/
theorem TP.Sound.signalled {c : Ctx} {tp tp' : TP} {sig : Bool} (h : tp.Sound c sig) (h1 : tp'.phase = tp.phase := by rfl)
    (h2 : tp'.buf = tp.buf := by rfl) (h3 : tp'.totalLen = tp.totalLen := by rfl)
    (h4 : tp'.burstRem = tp.burstRem := by rfl) : tp'.Sound c true where
  write := by rw [h1, h2, h3]; exact h.write
  read := by rw [h1, h2]; exact h.read
  room := fun hs => by cases hs
  dma := by rw [h1, h4]; exact h.dma

/-- An active phase is that of the command in flight (R192). -/
theorem Device.Control.phase_active {p : Config.Params} {d : Device} (h : d.Control p) (hp : d.tp.phase ≠ .idle) :
    d.tp.busy = true ∧ d.tp.phase = phaseOf d.cmdl.op := by
  rcases h.phase_eq with he | ⟨he, -, -⟩
  · split_ifs at he with hb
    · exact ⟨hb, he⟩
    · exact absurd he hp
  · exact absurd he hp

/-- Where the invariants hold and no run is in progress the snapshot is sound. -/
theorem Device.Control.sound {c : Ctx} (h : c.dev.Control c.params) (hz : c.dev.Sizing c.params)
    (hr : c.dev.iepRun = false) : c.dev.tp.Sound c c.dev.sig := by
  have hop : ∀ op, c.dev.tp.phase = phaseOf op → c.dev.tp.busy = true ∧ c.dev.cmdl.op = op := by
    intro op hp
    obtain ⟨hb, he⟩ := h.phase_active (by rw [hp]; cases op <;> simp [phaseOf])
    refine ⟨hb, ?_⟩
    rw [hp] at he
    revert he
    cases op <;> cases c.dev.cmdl.op <;> simp [phaseOf]
  constructor
  · intro hp j hj
    obtain ⟨hb, he⟩ := hop .write hp
    obtain ⟨hbuf, hlen, -⟩ := hz.recorded hb
    have := Device.buffer_touched hb (hlen ▸ hj)
    rw [hbuf]
    simpa [he, isReadOp] using this
  · intro hp j hj
    obtain ⟨hb, he⟩ := hop .read hp
    obtain ⟨hbuf, -, -⟩ := hz.recorded hb
    have := Device.buffer_touched hb (j := j) (by simpa [cmdLen, he, isReadOp] using hj)
    rw [hbuf]
    simpa [he, isReadOp] using this
  · intro hs hp
    obtain ⟨hb, he⟩ := hop .read hp
    exact (hz.read_conserves hr hb he hs).le
  · intro hp
    obtain ⟨hb, he⟩ := hop .dmaRead hp
    exact (hz.dma_zero hb (by rw [he]; rfl)).2.1

/-- In the course of a handler run, between two operations: the snapshot is sound. -/
def Ctx.Runs (c : Ctx) (P : Ctx → Prop) (l : Ctx) : Prop := ∃ tp sig, Ctx.At c P tp sig l ∧ tp.Sound c sig

/-- In the course of a refill. -/
def Ctx.Refills (c : Ctx) (P : Ctx → Prop) (l : Ctx) : Prop :=
  ∃ tp sig, Ctx.At c P tp sig l ∧ tp.phase = .write ∧ ∀ j, j < tp.totalLen.toNat → c.dev.Reads (tp.buf.toNat + j)

theorem Ctx.Runs.world {c l : Ctx} {P : Ctx → Prop} (h : Ctx.Runs c P l) : P l := by
  obtain ⟨tp, sig, h, -⟩ := h
  exact h.world

theorem Ctx.Refills.runs {c l : Ctx} {P : Ctx → Prop} (h : Ctx.Refills c P l) : Ctx.Runs c P l := by
  obtain ⟨tp, sig, h, hp, ha⟩ := h
  exact ⟨tp, sig, h, fun _ => ha, by simp [hp], by simp [hp], by simp [hp]⟩

section
variable {c l : Ctx} {S : Prop} {P Q : Ctx → Prop} {tp : TP} {sig : Bool} (hP : Confines c S P)
include hP

theorem Ctx.Runs.setIrq (f : IrqFlags → IrqFlags) (h : Ctx.Runs c P l) : Ctx.Runs c P (setIrq f l) := by
  obtain ⟨tp, sig, h, hs⟩ := h
  exact ⟨_, _, h.mapTP hP _, hs.write, hs.read, hs.room, hs.dma⟩

theorem Ctx.Runs.setDma (f : DmaFlags → DmaFlags) (h : Ctx.Runs c P l) : Ctx.Runs c P (setDma f l) := by
  obtain ⟨tp, sig, h, hs⟩ := h
  exact ⟨_, _, h.mapTP hP _, hs.write, hs.read, hs.room, hs.dma⟩

theorem Ctx.Runs.pump (h : Ctx.Runs c P l) : Ctx.Runs c P (pump l) := by
  obtain ⟨tp, sig, h, hs⟩ := h
  exact ⟨tp, sig, h.pump hP, hs⟩

theorem Ctx.Runs.regWrite {r : Reg} {v : Word} (hr : r ≠ .dCtrl) (h : Ctx.Runs c P l) :
    Ctx.Runs c P (regWrite r v l) := by
  obtain ⟨tp, sig, h, hs⟩ := h
  exact ⟨tp, sig, h.regWrite hP hr, hs⟩

theorem Ctx.Runs.rmw {r : Reg} {mask v : Word} (hr : r ≠ .dCtrl) (h : Ctx.Runs c P l) :
    Ctx.Runs c P (rmw r mask v l) := (h.pump hP).regWrite hP hr

theorem Ctx.Runs.pulse {r : Reg} {mask : Word} (hr : r ≠ .dCtrl) (h : Ctx.Runs c P l) :
    Ctx.Runs c P (pulse r mask l) := (h.regWrite hP hr).regWrite hP hr

theorem Ctx.At.signal (h : Ctx.At c P tp sig l) : Ctx.At c P tp true (l.mapDev signal) :=
  h.own hP (v := Machine.signal l.dev) l.trace {} h.tp rfl

theorem Ctx.At.succeed (hs : tp.Sound c true) (h : Ctx.At c P tp sig l) : Ctx.Runs c P (succeed l) :=
  ⟨_, _, (h.mapTP hP _).signal hP, hs.signalled⟩

theorem Ctx.Runs.succeed (h : Ctx.Runs c P l) : Ctx.Runs c P (succeed l) := by
  obtain ⟨tp, sig, h, hs⟩ := h
  exact h.succeed hP hs.signalled

theorem Ctx.Runs.terminate {e : Result} (h : Ctx.Runs c P l) : Ctx.Runs c P (terminate e l) := by
  obtain ⟨tp, sig, h, hs⟩ := h
  exact Ctx.Runs.rmw hP (by simp) ⟨_, _, (h.mapTP hP _).signal hP, hs.signalled⟩

/-! ### The events that touch no host memory -/

theorem nackAct_runs (h : Ctx.Runs c P l) : Ctx.Runs c P (nackAct l) := by
  unfold nackAct
  split
  · exact h.terminate hP
  · exact h

theorem evFifoEmpty_runs (h : Ctx.Runs c P l) : Ctx.Runs c P (evFifoEmpty l) := by
  unfold evFifoEmpty
  simp only
  split
  · exact (h.setIrq hP _).terminate hP
  · exact h.setIrq hP _

theorem evSclHold_runs (h : Ctx.Runs c P l) : Ctx.Runs c P (evSclHold l) := by
  unfold evSclHold
  simp only
  split
  · exact (h.setIrq hP _).terminate hP
  · exact h.setIrq hP _

theorem evRdOverflow_runs (h : Ctx.Runs c P l) : Ctx.Runs c P (evRdOverflow l) := by
  unfold evRdOverflow
  simp only
  split
  · exact (h.setIrq hP _).terminate hP
  · exact h.setIrq hP _

theorem evDmaDone_runs (h : Ctx.Runs c P l) : Ctx.Runs c P (evDmaDone l) := by
  unfold evDmaDone
  simp only
  split
  · exact (h.setDma hP _).succeed hP
  · exact h.setDma hP _

/-! ### The refill (R230) -/

theorem nextByte_within {f : Byte → Ctx → Res} (hf : ∀ b m, Ctx.Refills c P m → (f b m).Within S P Q)
    (h : Ctx.Refills c P l) : (nextByte f l).Within S P Q := by
  obtain ⟨tp, sig, h, hp, ha⟩ := h
  unfold nextByte
  rw [h.tp]
  exact padByte_within hP ha (fun b m hm => hf b _ ⟨_, _, hm.mapTP hP _, hp, ha⟩) h

theorem nextWord_within {f : Word → Ctx → Res} (hf : ∀ w m, Ctx.Refills c P m → (f w m).Within S P Q)
    (h : Ctx.Refills c P l) : (nextWord f l).Within S P Q :=
  nextByte_within hP (fun _ _ h0 => nextByte_within hP (fun _ _ h1 => nextByte_within hP (fun _ _ h2 =>
    nextByte_within hP (fun _ _ h3 => hf _ _ h3) h2) h1) h0) h

theorem refillUnits_within {k : Nat} (h : Ctx.Refills c P l) : (refillUnits k l).Within S P (Ctx.Runs c P) := by
  induction k generalizing l with
  | zero => exact h.runs
  | succ k ih =>
    rw [refillUnits]
    refine nextWord_within hP (fun w m hm => ?_) h
    have hu : Ctx.Refills c P ((dataPut (slotOfOffset l.dev.tp.dataOff.toNat) w m).mapTP
        fun tp => { tp with burstCnt := tp.burstCnt - 1 }) := by
      obtain ⟨tp, sig, hm, hp, ha⟩ := hm
      exact ⟨_, _, (hm.regWrite hP (by simp)).mapTP hP _, hp, ha⟩
    simp only
    split
    · exact hu.runs.rmw hP (by simp)
    · exact ih hu

/-! ### The burst drain and the finish (R236, R237) -/

theorem drainWords_within {n : Nat} {s : Slot} (hr : tp.dataOff.toNat + 4 * n ≤ c.dev.cmdl.args.rlen.toNat)
    (ha : ∀ j, j < c.dev.cmdl.args.rlen.toNat → c.dev.Writes (tp.buf.toNat + j)) (h : Ctx.At c P tp sig l) :
    (drainWords n s l).Within S P fun m => ∃ off : Word, off.toNat = tp.dataOff.toNat + 4 * n ∧
      Ctx.At c P { tp with dataOff := off } sig m := by
  induction n generalizing s l tp with
  | zero => exact ⟨tp.dataOff, rfl, h⟩
  | succ n ih =>
    have hp := h.pump hP
    have hoff : (tp.dataOff + 4).toNat = tp.dataOff.toNat + 4 := by
      have := c.dev.cmdl.args.rlen.isLt
      rw [BitVec.toNat_add_of_lt (by simp; omega)]
      rfl
    refine Res.Within.andThen (Q := Ctx.At c P tp sig)
      (writeBytes_within hP (fun j hj => ?_) hp) fun m hm => ?_
    · show c.dev.Writes ((pump l).dev.tp.buf.toNat + (pump l).dev.tp.dataOff.toNat + j)
      rw [hp.tp, Nat.add_assoc]
      exact ha _ (by simp at hj; omega)
    · have h' := ih (s := s + 1) (tp := { tp with dataOff := tp.dataOff + 4 }) (by simp only [hoff]; omega) ha
        (hm.mapTP hP fun tp => { tp with dataOff := tp.dataOff + 4 })
      simp only [hoff] at h'
      rwa [show tp.dataOff.toNat + 4 * (n + 1) = tp.dataOff.toNat + 4 + 4 * n by omega]

omit hP in
/-- A burst slot of word-slots is a burst unit of bytes (R4). -/
theorem rdBurstBytes_eq (p : Config.Params) : p.rdBurstBytes = 4 * burstWords p.burst16 := by
  unfold Config.Params.rdBurstBytes burstWords
  split <;> rfl

theorem drainSlots_within {k : Nat} {f : Byte} (hs : tp.Sound c false) (hp : tp.phase = .read)
    (h : Ctx.At c P tp false l) : (drainSlots k f l).Within S P (Ctx.Runs c P) := by
  induction k generalizing f l tp with
  | zero => exact ⟨tp, false, h, hs⟩
  | succ k ih =>
    rw [drainSlots]
    simp only [h.tp, h.params]
    split_ifs with h0
    · exact ⟨tp, false, h, hs⟩
    rw [not_or] at h0
    obtain ⟨n, hn⟩ : ∃ n, tp.burstCnt.toNat = n + 1 :=
      Nat.exists_eq_succ_of_ne_zero fun e => h0.1 (BitVec.eq_of_toNat_eq e)
    have hcnt : (tp.burstCnt - 1).toNat = n := by
      rw [BitVec.toNat_sub_of_le (by simp [BitVec.le_def]; omega), hn]
      rfl
    have hroom := hs.room rfl hp
    rw [hn, Nat.mul_add, rdBurstBytes_eq] at hroom
    refine (drainWords_within hP (by omega) (hs.read hp) h).andThen ?_
    rintro m ⟨off, hoff, hm⟩
    have hnext := (hm.pulse hP (r := .mRdfclr)
      (mask := (slotMask (burstWords c.params.burst16) tp.regIdx).setWidth 32) (by simp)).mapTP hP fun tp' =>
      { tp' with regIdx := tp.regIdx + Fin.ofNat 8 (burstWords c.params.burst16), burstCnt := tp'.burstCnt - 1 }
    refine ih ?_ ?_ hnext
    · refine ⟨hs.write, hs.read, fun _ _ => ?_, hs.dma⟩
      simp only [hcnt, hoff, rdBurstBytes_eq]
      omega
    · exact hp

theorem gatherWords_at {n : Nat} {s : Slot} (h : Ctx.At c P tp sig l) : Ctx.At c P tp sig (gatherWords n s l).2 := by
  induction n generalizing s l with
  | zero => exact h
  | succ n ih => exact ih (h.pump hP)

theorem finishRead_within (hs : tp.Sound c false) (hp : tp.phase = .read ∨ tp.phase = .dmaRead)
    (h : Ctx.At c P tp false l) : (finishRead l).Within S P (Ctx.Runs c P) := by
  unfold finishRead
  simp only [h.tp]
  split_ifs with hn
  · exact h.succeed hP hs.signalled
  have hread : tp.phase = .read := hp.resolve_right fun hd => hn (by rw [hs.dma hd]; rfl)
  have hroom := hs.room rfl hread
  have hg := gatherWords_at hP (n := ceilDiv tp.burstRem.toNat 4) (s := tp.regIdx) h
  rw [hg.tp]
  refine (writeBytes_within hP (fun j hj => ?_) hg).andThen fun m hm => (hm.mapTP hP _).succeed hP hs.signalled
  rw [List.length_take] at hj
  rw [Nat.add_assoc]
  exact hs.read hread _ (by omega)

/-! ### The events that touch host memory -/

theorem evActiveDone_within (h : Ctx.Runs c P l) : (evActiveDone l).Within S P (Ctx.Runs c P) := by
  have h' := h.setIrq hP fun f => { f with activeDone := true }
  unfold evActiveDone
  simp only
  split
  · exact h'.succeed hP
  · rename_i hd
    obtain ⟨h1, h2⟩ := dispatchArm_deliver hd
    obtain ⟨tp, sig, ha, hs⟩ := h'
    rw [ha.sig] at h1
    rw [ha.tp] at h2
    subst h1
    exact finishRead_within hP hs h2 ha
  · exact h'

theorem evEmptyThreshold_within (h : Ctx.Runs c P l) : (evEmptyThreshold l).Within S P (Ctx.Runs c P) := by
  have h' := h.setIrq hP fun f => { f with emptyThreshold := true }
  unfold evEmptyThreshold
  simp only
  split
  · rename_i hd
    obtain ⟨-, h2, -⟩ := dispatchArm_refill hd
    obtain ⟨tp, sig, ha, hs⟩ := h'
    rw [ha.tp] at h2
    exact (refillUnits_within hP ⟨tp, sig, ha, h2, hs.write h2⟩).andThen fun m hm => hm.pulse hP (by simp)
  · exact h'

theorem evBurstSlot_within (h : Ctx.Runs c P l) : (evBurstSlot l).Within S P (Ctx.Runs c P) := by
  unfold evBurstSlot
  split
  · rename_i hd
    obtain ⟨h1, -⟩ := dispatchArm_deliver hd
    split_ifs with h2
    · obtain ⟨tp, sig, ha, hs⟩ := h
      rw [ha.sig] at h1
      rw [ha.tp] at h2
      subst h1
      exact drainSlots_within hP hs h2.2 (ha.pump hP)
    · exact h
  · exact h

theorem dispatch_within (h : Ctx.Runs c P l) : (dispatch l).Within S P (Ctx.Runs c P) := by
  unfold dispatch
  split
  · exact h
  · exact evActiveDone_within hP h
  · show Ctx.Runs c P (if _ then _ else _)
    split
    · exact nackAct_runs hP (h.setIrq hP _)
    · exact nackAct_runs hP (h.setIrq hP _)
  · exact evSclHold_runs hP h
  · exact evFifoEmpty_runs hP h
  · exact evRdOverflow_runs hP h
  · split
    · exact evEmptyThreshold_within hP h
    · exact h
  · refine (evBurstSlot_within hP h).andThen fun m hm => ?_
    split
    · exact evActiveDone_within hP hm
    · exact hm

theorem handlerStatus_runs (h : Ctx.Runs c P (handlerEnter l)) : Ctx.Runs c P (handlerStatus l) := by
  let a := setIrq (irqOfStatus (statusGet (handlerEnter l)).1) (statusClear 0x7F (pump (handlerEnter l)))
  have h' : Ctx.Runs c P a := ((h.pump hP).pulse hP (by simp)).setIrq hP _
  exact (h'.pump hP).setIrq hP fun f => { f with rdOverflow := (ovfGet a).1 != 0 }

theorem handlerDma_world (h : Ctx.Runs c P l) : P (handlerDma l) := by
  have h' := ((h.pump hP).regWrite hP (r := .dStatus) (v := ((dmaStatusGetclr l).1.setWidth 32)) (by simp)).setDma hP
    fun _ => dmaOfStatus (dmaStatusGetclr l).1
  have hret : ∀ m, P m → P (handlerReturn m) := fun m hm => hP.own m _ m.trace rfl rfl hm
  refine hret _ ?_
  split
  · exact (evDmaDone_runs hP h').world
  · exact h'.world

/-- A handler run touches the buffers of the command in flight only. -/
theorem irqMove_within (hc : c.dev.Control c.params) (hz : c.dev.Sizing c.params) (h0 : P c) : (irqMove c).Within S P P := by
  unfold irqMove
  split
  · rename_i he
    have hr : c.dev.iepRun = false := by
      simp only [handlerEnabled, Bool.and_eq_true, Bool.not_eq_true'] at he
      exact he.1.2
    have h : Ctx.At c P c.dev.tp c.dev.sig c := ⟨h0, rfl, hc.serves, rfl, rfl⟩
    have henter : Ctx.Runs c P (handlerEnter c) :=
      ⟨_, _, h.own hP (v := { c.dev with irqPend := false, iepRun := true }) c.trace {} rfl rfl, hc.sound hz hr⟩
    exact (dispatch_within hP (handlerStatus_runs hP henter)).andThen fun m hm => handlerDma_world hP hm
  · exact h0

end

end Sys2Proof.Machine
end

section
/-! PROOFS. R78, R320: the block writes host memory only in the read buffer of the read in flight, and with the buffers of the
commands in flight allocated no agent is stuck. Both are facts that the agents' steps keep. -/

namespace Sys2Proof.Machine

/-! ### The DMA engine -/

/-- The DMA engine touches the transfer's own buffer, in the direction of the command. -/
theorem Device.Serves.target {d v : Device} {i a : Nat} (h : d.Serves v) (ha : v.deActive = true)
    (hr : resolve v i = some (.host a)) : if v.db.dir = true then d.Writes a else d.Reads a := by
  obtain ⟨-, j, hj, -, ⟨e, -⟩ | ⟨e, -⟩⟩ := resolve_eq_some hr
  · injection e with e
    obtain ⟨hb, hdir⟩ := h.engine ha
    rw [h.cmdl] at hj e
    rw [hdir, e]
    exact Device.buffer_touched hb hj
  · cases e

/-- A move of the DMA engine writes host memory only in the read buffer. -/
theorem deMove_confined {d : Device} {e : DeMove} {l : Ctx} {a : Nat} (h : d.Serves l.dev) (ha : ¬d.Writes a) :
    cellRead (deMove e l).mem a = cellRead l.mem a := by
  rcases deMove_cases e l with he | ⟨hact, -, ⟨_, -, he⟩ | ⟨_, _, -, -, -, he⟩ | ⟨_, _, x, -, hdir, -, hx, -, he⟩ |
    ⟨_, _, _, -, -, -, -, he⟩ | ⟨_, _, -, -, -, -, he⟩⟩ <;> rw [he]
  · have hw : d.Writes x := by simpa [hdir] using h.target hact hx
    show cellRead (cellWrite l.mem x _) a = _
    rw [cellRead_cellWrite, if_neg]
    rintro rfl
    exact ha hw
  · rfl

/-! ### Running an agent's move -/

/-- A move of an instance within its bounds ends in a state of which the fact holds, its agent stuck or not. -/
theorem moveOn_within {ag : Agent} {k : Nat} {f : Ctx → Res} {s t : State} {d : Device} {S : Prop} {P : Ctx → Prop}
    (hd : s.devs[k]? = some d) (hf : (f (s.ctx k d)).Within S P P) (h : moveOn ag k f s = .next t) :
    ∃ l, P l ∧ (t = s.putCtx l ∨ S ∧ t = s.putCtx (l.mapDev (halt ag))) := by
  rcases moveOn_next h with ⟨hn, -⟩ | ⟨d', l, hd', hl⟩
  · rw [hd] at hn; cases hn
  · obtain rfl : d = d' := by rw [hd] at hd'; injection hd'
    rcases hl with ⟨e, rfl⟩ | ⟨e, rfl⟩ <;> rw [e] at hf
    · exact ⟨l, hf, .inl rfl⟩
    · exact ⟨l, hf.2, .inr ⟨hf.1, rfl⟩⟩

/-! ### The read buffer -/

/-- No byte outside the read buffer of the instance of `c` has changed, and only its own moves are still to fall. -/
structure Ctx.Confined (c l : Ctx) : Prop where
  id : l.id = c.id
  gaps : l.dev.Gaps fun e => e.owner = some c.id
  mem : ∀ a, ¬c.dev.Writes a → cellRead l.mem a = cellRead c.mem a

/-- An instance's own moves between its accesses write host memory only in the read buffer. -/
theorem envMove_confined {c l : Ctx} {m : EnvMove} {a : Nat} (hid : l.id = c.id) (hs : c.dev.Serves l.dev)
    (hm : m.owner = some c.id) (ha : ¬c.dev.Writes a) : cellRead (envMove l m).mem a = cellRead l.mem a := by
  have own : ∀ (k : Nat) (f : Ctx → Ctx), some k = some c.id → onAny k f l = f l := fun k f hk => by
    injection hk with hk
    rw [onAny, if_pos (hk.trans hid.symm)]
  cases m with
  | be k b =>
    show cellRead (onAny k _ l).mem a = _
    rw [own k _ hm]
    rfl
  | de k e =>
    show cellRead (onAny k _ l).mem a = _
    rw [own k _ hm]
    exact deMove_confined hs ha
  | mapAnswer k r =>
    show cellRead (onAny k _ l).mem a = _
    rw [own k _ hm]
    rfl
  | expire k =>
    injection hm with hk
    show cellRead (if k = l.id then l else _).mem a = _
    rw [if_pos (hk.trans hid.symm)]
  | command h cmd =>
    show cellRead (hostCommand h cmd l).mem a = _
    rw [hostCommand_mem]
  | store x b => cases hm
  | free x => cases hm

theorem confined_confines (c : Ctx) : Confines c True (Ctx.Confined c) where
  own := fun _ _ _ hi _ h => ⟨h.id, fun moves hm => h.gaps moves (hi ▸ hm), h.mem⟩
  pump := fun l hs h => by
    obtain ⟨hid, -, hmem⟩ := pump_induct
      (P := fun x => x.id = c.id ∧ c.dev.Serves x.dev ∧ ∀ a, ¬c.dev.Writes a → cellRead x.mem a = cellRead c.mem a)
      (fun _ _ ⟨h1, h2, h3⟩ => ⟨h1, ⟨h2.cmdl, h2.engine⟩, h3⟩)
      (fun x m hm ⟨h1, h2, h3⟩ => ⟨(envMove_frame x m).id.trans h1, h2.of_sameProgramme (envMove_frame x m).programme,
        fun a ha => (envMove_confined h1 h2 hm ha).trans (h3 a ha)⟩)
      l h.gaps ⟨h.id, hs, h.mem⟩
    exact ⟨hid, pump_gaps h.gaps, hmem⟩
  store := fun l a b ha h => ⟨h.id, h.gaps, fun x hx => by
    rw [cellRead_cellWrite, if_neg (by rintro rfl; exact hx ha), h.mem x hx]⟩
  missing := fun _ _ _ _ _ => trivial

/-- Settles O60: the agents' accesses and the DMA engine's stay in the command's buffers, and write only in the read buffer. -/
theorem writesStayInTheReadBuffer : Obligations.WritesStayInTheReadBuffer := by
  unfold Obligations.WritesStayInTheReadBuffer
  intro s t d m rest k a hinv ha hd hg hstep hm hout
  have hmem := List.mem_of_getElem? hd
  have hc : d.Control s.params := hinv.1.1 d hmem
  let c : Ctx := State.ctx { s with agenda := rest } k d
  have hP := confined_confines c
  have h0 : Ctx.Confined c c := ⟨rfl, hg, fun _ _ => rfl⟩
  have agent : ∀ {ag : Agent} {f : Ctx → Res}, (f c).Within True (Ctx.Confined c) (Ctx.Confined c) →
      moveOn ag k f { s with agenda := rest } = .next t → cellRead t.mem a = cellRead s.mem a := by
    intro ag f hf hmove
    obtain ⟨l, hl, rfl | ⟨-, rfl⟩⟩ := moveOn_within (s := { s with agenda := rest }) hd hf hmove <;> exact hl.mem a hout
  have env : ∀ {f : Ctx → Ctx}, cellRead (f c).mem a = cellRead s.mem a →
      envOn k f { s with agenda := rest } = .next t → cellRead t.mem a = cellRead s.mem a := by
    intro f hf hmove
    obtain ⟨l, hl, rfl | ⟨-, rfl⟩⟩ := moveOn_within (s := { s with agenda := rest }) (S := True)
      (P := fun l => cellRead l.mem a = cellRead s.mem a) (f := fun l => .next (f l)) hd hf hmove <;> exact hl
  rw [step_cons ha] at hstep
  rcases hm with rfl | rfl | rfl | ⟨b, rfl⟩ | ⟨e, rfl⟩
  · exact agent (seqMove_within hP hc h0) hstep
  · exact agent (irqMove_within hP hc (hinv.2 d hmem) h0) hstep
  · exact env (congrArg (cellRead · a) (timerExpire_mem c)) hstep
  · exact env (f := fun l => l.mapDev (beMove l.params b)) rfl hstep
  · exact env (deMove_confined (l := c) hc.serves hout) hstep

/-! ### Allocated buffers -/

/-- Where its DMA engine runs, the buffer of the transfer is allocated. -/
def Device.Fed (m : Memory) (v : Device) : Prop :=
  v.deActive = true → Allocated m (cmdBuf v.cmdl).toNat (cmdLen v.cmdl).toNat

theorem Device.Fed.listed {m m' : Memory} {v : Device} (h : v.Fed m)
    (hm : ∀ a, (cellRead m a).isSome = true → (cellRead m' a).isSome = true) : v.Fed m' :=
  fun ha k hk => hm _ (h ha k hk)

/-- The commands in flight have their buffers allocated (R78). -/
theorem Device.touched_allocated {m : Memory} {d : Device} (h : d.tp.busy = true → BuffersAllocated m d.cmdl) {a : Nat}
    (ha : d.Reads a ∨ d.Writes a) : (cellRead m a).isSome = true := by
  rcases ha with ⟨hb, hop, h1, h2⟩ | ⟨hb, hop, h1, h2⟩
  · have := (h hb).1 hop (a - d.cmdl.args.wbuf.toNat) (by omega)
    rwa [Nat.add_sub_cancel' h1] at this
  · have := (h hb).2 hop (a - d.cmdl.args.rbuf.toNat) (by omega)
    rwa [Nat.add_sub_cancel' h1] at this

theorem Device.Serves.fed {m : Memory} {d v : Device} (h : d.Serves v)
    (hm : ∀ a, d.Reads a ∨ d.Writes a → (cellRead m a).isSome = true) : v.Fed m := by
  intro ha k hk
  rw [h.cmdl] at hk ⊢
  have ht := Device.buffer_touched (h.engine ha).1 hk
  split at ht
  · exact hm _ (.inr ht)
  · exact hm _ (.inl ht)

/-- A move of an environment agent of one instance that unlists no byte and, with the transfer's buffer allocated, leaves no agent of
the instance newly stuck. -/
structure Harmless (f : Ctx → Ctx) : Prop where
  onOwn : OnOwn f
  listed : ∀ l a, (cellRead l.mem a).isSome = true → (cellRead (f l).mem a).isSome = true
  same : ∀ l, (f l).dev.tp = l.dev.tp ∧ (f l).dev.cmdl = l.dev.cmdl ∧ (f l).dev.deActive = l.dev.deActive
  stuck : ∀ l, l.dev.Fed l.mem → (f l).dev.stuck = l.dev.stuck

theorem harmless_be (m : BeMove) : Harmless fun l => l.mapDev (beMove l.params m) where
  onOwn := onOwn_be m
  listed := fun _ _ h => h
  same := fun l => by simp only [Ctx.mapDev_dev, beMove]; split <;> simp
  stuck := fun l _ => by simp only [Ctx.mapDev_dev, beMove]; split <;> simp

theorem harmless_answerMap (r : Option Word) : Harmless (answerMap r) :=
  ⟨onOwn_answerMap r, fun _ _ h => h, fun _ => ⟨rfl, rfl, rfl⟩, fun _ _ => rfl⟩

theorem harmless_timerExpire : Harmless timerExpire where
  onOwn := onOwn_timerExpire
  listed := fun l a h => by rw [timerExpire_mem]; exact h
  same := fun l => by unfold timerExpire wake expire; split_ifs <;> exact ⟨rfl, rfl, rfl⟩
  stuck := fun l _ => by unfold timerExpire wake expire; split_ifs <;> rfl

theorem harmless_deMove (m : DeMove) : Harmless (deMove m) where
  onOwn := onOwn_deMove m
  listed := fun _ _ h => deMove_isSome h
  same := fun l => by
    have h := (deMove_frame m l).programme
    simp only [Device.SameProgramme] at h
    simp [h]
  stuck := fun l hfed => by
    rcases deMove_cases m l with e | ⟨hact, -, ⟨_, -, e⟩ | ⟨_, _, -, -, -, e⟩ | ⟨_, _, _, -, -, -, -, -, e⟩ |
      ⟨_, _, _, -, -, -, -, e⟩ | ⟨i, a, -, -, hr, hm, -⟩⟩
    case inr.inr.inr.inr.inr =>
      obtain ⟨-, j, hj, -, ⟨ha, -⟩ | ⟨ha, -⟩⟩ := resolve_eq_some hr
      · injection ha with ha
        have := hfed hact j hj
        rw [← ha, hm] at this
        cases this
      · cases ha
    all_goals rw [e] <;> rfl

/-! ### The instances about the one in hand -/

theorem map_set_same {α β : Type} {f : α → β} {xs : List α} {k : Nat} {x y : α} (hx : xs[k]? = some x) (hy : f y = f x) :
    (xs.set k y).map f = xs.map f := by
  obtain ⟨hk, rfl⟩ := List.getElem?_eq_some_iff.mp hx
  rw [List.map_set, hy, ← List.getElem_map f (h := by simpa using hk), List.set_getElem_self]

section
variable {c l : Ctx} {k : Nat} {v w : Device}

theorem Ctx.peer?_mem (h : l.peer? k = some v) : v ∈ l.before ++ l.after := by
  unfold Ctx.peer? at h
  rw [List.mem_append]
  split at h
  · exact .inl (List.mem_of_getElem? h)
  · exact .inr (List.mem_of_getElem? h)

theorem Ctx.mem_setPeer {x : Device} (h : x ∈ (l.setPeer k w).before ++ (l.setPeer k w).after) :
    x = w ∨ x ∈ l.before ++ l.after := by
  unfold Ctx.setPeer at h
  rw [List.mem_append] at h ⊢
  split at h
  · rcases h with h | h
    · exact (List.mem_or_eq_of_mem_set h).symm.imp_right .inl
    · exact .inr (.inr h)
  · rcases h with h | h
    · exact .inr (.inl h)
    · exact (List.mem_or_eq_of_mem_set h).symm.imp_right .inr

theorem Ctx.setPeer_stuck (h : l.peer? k = some v) (hw : w.stuck = v.stuck) :
    (l.setPeer k w).devices.map Device.stuck = l.devices.map Device.stuck := by
  unfold Ctx.peer? at h
  unfold Ctx.setPeer Ctx.devices
  split at h
  · rename_i hk
    simp only [if_pos hk, List.map_append, map_set_same h hw]
  · rename_i hk
    simp only [if_neg hk, List.map_append, List.map_cons, map_set_same h hw]

/-- No agent of any instance is newly stuck; the buffers of the command in flight of the instance of `c` are allocated; the DMA engine
of every other instance finds its buffer allocated, and is stopped where no command is in flight. -/
structure Ctx.Calm (c l : Ctx) : Prop where
  stuck : l.devices.map Device.stuck = c.devices.map Device.stuck
  buffers : ∀ a, c.dev.Reads a ∨ c.dev.Writes a → (cellRead l.mem a).isSome = true
  peers : ∀ v ∈ l.before ++ l.after, v.Fed l.mem ∧ (v.tp.busy = false → v.deActive = false)

/-- A change of the instance in hand and of memory that leaves no agent stuck and unlists no byte. -/
theorem Ctx.Calm.own {mem : Memory} {trace : List Obs} (h : Ctx.Calm c l) (hv : v.stuck = l.dev.stuck)
    (hm : ∀ a, (cellRead l.mem a).isSome = true → (cellRead mem a).isSome = true) :
    Ctx.Calm c { l with dev := v, mem := mem, trace := trace } where
  stuck := by rw [← h.stuck]; simp [Ctx.devices, hv]
  buffers := fun a ha => hm a (h.buffers a ha)
  peers := fun x hx => ⟨(h.peers x hx).1.listed hm, (h.peers x hx).2⟩

theorem Ctx.Calm.onOwn {f : Ctx → Ctx} (hf : Harmless f) (h : Ctx.Calm c l) (hs : c.dev.Serves l.dev) :
    Ctx.Calm c (f l) := by
  obtain ⟨v, mem, trace, e⟩ := hf.onOwn l
  have hv := hf.stuck l (hs.fed h.buffers)
  have hm := hf.listed l
  rw [e] at hv hm ⊢
  exact h.own hv hm

theorem Ctx.Calm.setPeer (h : Ctx.Calm c l) (hp : l.peer? k = some v) (hw : w.stuck = v.stuck) (hfed : w.Fed l.mem)
    (hi : w.tp.busy = false → w.deActive = false) : Ctx.Calm c (l.setPeer k w) where
  stuck := (Ctx.setPeer_stuck hp hw).trans h.stuck
  buffers := by rw [Ctx.setPeer_mem]; exact h.buffers
  peers := fun x hx => by
    rw [Ctx.setPeer_mem]
    rcases Ctx.mem_setPeer hx with rfl | hx
    · exact ⟨hfed, hi⟩
    · exact h.peers x hx

theorem Ctx.Calm.onPeer {f : Ctx → Ctx} (hf : Harmless f) (h : Ctx.Calm c l) : Ctx.Calm c (onPeer k f l) := by
  rcases onPeer_cases k f l with ⟨-, e⟩ | ⟨v, hp, e⟩ <;> rw [e]
  · exact h
  · obtain ⟨hfed, hi⟩ := h.peers v (Ctx.peer?_mem hp)
    let x : Ctx := { l with id := k, dev := v }
    obtain ⟨htp, hcmdl, hact⟩ := hf.same x
    have h' : Ctx.Calm c { l with mem := (f x).mem, trace := (f x).trace } := h.own rfl (hf.listed x)
    refine h'.setPeer hp (hf.stuck x hfed) ?_ (by rw [htp, hact]; exact hi)
    have := hfed.listed (hf.listed x)
    unfold Device.Fed at this ⊢
    rw [hact, hcmdl]
    exact this

/-- No move that falls between two accesses, but a free, leaves an agent stuck. -/
theorem Ctx.Calm.envMove {m : EnvMove} (hm : ∀ a, m ≠ .free a) (hs : c.dev.Serves l.dev) (h : Ctx.Calm c l) :
    Ctx.Calm c (envMove l m) := by
  have any : ∀ (k : Nat) {f : Ctx → Ctx}, Harmless f → Ctx.Calm c (onAny k f l) := fun k f hf => by
    unfold onAny
    split
    · exact h.onOwn hf hs
    · exact h.onPeer hf
  cases m with
  | be k b => exact any k (f := fun l => l.mapDev (beMove l.params b)) (harmless_be b)
  | de k e => exact any k (harmless_deMove e)
  | mapAnswer k r => exact any k (harmless_answerMap r)
  | expire k =>
    show Ctx.Calm c (if k = l.id then l else Machine.onPeer k timerExpire l)
    split
    · exact h
    · exact h.onPeer harmless_timerExpire
  | store a b => exact h.own rfl fun _ => cellWrite_isSome
  | free a => exact absurd rfl (hm a)
  | command host cmd =>
    show Ctx.Calm c (hostCommand host cmd l)
    rcases hostCommand_cases host cmd l with e | ⟨r, e⟩ | ⟨-, -, v, hp, hb, -, e⟩ <;> rw [e]
    · exact h
    · exact ⟨h.stuck, h.buffers, h.peers⟩
    · have hstop : v.deActive = false := (h.peers v (Ctx.peer?_mem hp)).2 hb
      have h' : Ctx.Calm c { l with callCmd := cmd, host := host } := ⟨h.stuck, h.buffers, h.peers⟩
      exact h'.setPeer hp rfl (fun ha => absurd (hstop.symm.trans ha) (by simp)) fun _ => hstop

end

/-- With the buffers of the commands in flight allocated and no host freeing memory, no agent's step ends at a missing byte. -/
theorem calm_confines (c : Ctx) : Confines c False fun l => l.dev.NoFrees ∧ Ctx.Calm c l where
  own := fun _ _ _ hi hs ⟨hf, h⟩ => ⟨fun moves hm => hf moves (hi ▸ hm), h.own hs fun _ h => h⟩
  pump := fun l hs ⟨hf, h⟩ => ⟨pump_gaps hf, (pump_induct (P := fun x => c.dev.Serves x.dev ∧ Ctx.Calm c x)
    (fun _ _ ⟨h1, h2⟩ => ⟨⟨h1.cmdl, h1.engine⟩, h2.own rfl fun _ h => h⟩)
    (fun x m hm ⟨h1, h2⟩ => ⟨h1.of_sameProgramme (envMove_frame x m).programme, h2.envMove hm h1⟩) l hf ⟨hs, h⟩).2⟩
  store := fun _ _ _ _ ⟨hf, h⟩ => ⟨hf, h.own rfl fun _ => cellWrite_isSome⟩
  missing := fun l a ha hn ⟨_, h⟩ => by
    have := h.buffers a ha
    rw [hn] at this
    cases this

/-! ### Steps of the machine -/

theorem OnOwn.devices_stuck {f : Ctx → Ctx} (hf : OnOwn f) {l : Ctx} (h : (f l).dev.stuck = l.dev.stuck) :
    (f l).devices.map Device.stuck = l.devices.map Device.stuck := by
  obtain ⟨v, mem, trace, e⟩ := hf l
  rw [e] at h ⊢
  simpa [Ctx.devices] using h

/-- No agent of any instance is newly stuck. -/
def State.SameStuck (s t : State) : Prop := t.devs.map Device.stuck = s.devs.map Device.stuck

theorem envOn_sameStuck {k : Nat} {f : Ctx → Ctx} {s t : State} (hf : Harmless f) (hfed : ∀ d ∈ s.devs, d.Fed s.mem)
    (h : envOn k f s = .next t) : s.SameStuck t := by
  rcases moveOn_next h with ⟨-, rfl⟩ | ⟨d, l, hd, ⟨hl, rfl⟩ | ⟨hl, -⟩⟩
  · exact rfl
  · injection hl with hl
    have hs := hf.onOwn.devices_stuck (hf.stuck (s.ctx k d) (hfed d (List.mem_of_getElem? hd)))
    rw [hl, State.ctx_devices hd] at hs
    exact hs
  · cases hl

/-- Admission leaves every agent as it is. -/
theorem issue_sameStuck (op : Op) (a : Args) (s : State) : s.SameStuck (issue op a s) := by
  unfold issue
  simp only
  split
  · exact rfl
  · rename_i d hd
    split
    · exact rfl
    · exact map_set_same hd rfl

theorem commandPort_sameStuck {h : Nat} {ws : List Word} {s t : State} (ht : commandPort h ws s = .next t) :
    s.SameStuck t := by
  unfold commandPort at ht
  split at ht
  · injection ht with ht
    exact ht ▸ rfl
  · split at ht
    · rename_i i hi
      obtain ⟨c, rfl, -⟩ := decode_cmd_owner hi h
      rw [exec_command] at ht
      injection ht with ht
      exact ht ▸ issue_sameStuck _ _ { s with host := h }
    · cases ht

/-- The buffers of every command in flight are allocated, so the machine is calm about each of its instances. -/
theorem State.ctx_calm {s : State} {k : Nat} {d : Device} (hc : ∀ d ∈ s.devs, d.Control s.params)
    (hb : ∀ d ∈ s.devs, d.tp.busy = true → BuffersAllocated s.mem d.cmdl) (hd : s.devs[k]? = some d) :
    Ctx.Calm (s.ctx k d) (s.ctx k d) where
  stuck := rfl
  buffers := fun _ ha => Device.touched_allocated (hb d (List.mem_of_getElem? hd)) ha
  peers := fun v hv => by
    have hv' : v ∈ s.devs := by
      rcases List.mem_append.mp hv with h | h
      · exact List.mem_of_mem_take h
      · exact List.mem_of_mem_drop h
    exact ⟨(hc v hv').serves.fed fun _ ha => Device.touched_allocated (hb v hv') ha,
      fun hi => ((hc v hv').baseline hi).2.2.2.1⟩

/-- No move leaves an agent stuck. -/
theorem runMove_sameStuck {m : Move} {s t : State} (hinv : s.SizingInv)
    (hbuf : ∀ d ∈ s.devs, d.tp.busy = true → BuffersAllocated s.mem d.cmdl) (hfree : ∀ d ∈ s.devs, d.NoFrees)
    (h : runMove m s = .next t) : s.SameStuck t := by
  obtain ⟨⟨hc, -⟩, hz⟩ := hinv
  have hfed : ∀ d ∈ s.devs, d.Fed s.mem := fun d hd =>
    (hc d hd).serves.fed fun _ ha => Device.touched_allocated (hbuf d hd) ha
  have agent : ∀ {ag : Agent} {j : Nat} {f : Ctx → Res},
      (∀ (c : Ctx) (P : Ctx → Prop), Confines c False P → c.dev.Control c.params → c.dev.Sizing c.params → P c →
        (f c).Within False P P) → moveOn ag j f s = .next t → s.SameStuck t := by
    intro ag j f hf ht
    rcases moveOn_next ht with ⟨-, rfl⟩ | ⟨d, l, hd, hl⟩
    · exact rfl
    · have hmem := List.mem_of_getElem? hd
      have hw := hf (s.ctx j d) _ (calm_confines _) (hc d hmem) (hz d hmem) ⟨hfree d hmem, State.ctx_calm hc hbuf hd⟩
      rcases hl with ⟨e, rfl⟩ | ⟨e, rfl⟩ <;> rw [e] at hw
      · exact hw.2.stuck.trans (congrArg (List.map Device.stuck) (State.ctx_devices hd))
      · exact hw.1.elim
  cases m with
  | host hst ws => exact commandPort_sameStuck h
  | hostStore a b => injection h with e; exact e ▸ rfl
  | hostFree a => injection h with e; exact e ▸ rfl
  | mapAnswer j r => exact envOn_sameStuck (harmless_answerMap r) hfed h
  | seq j => exact agent (fun _ _ hP hc _ h0 => seqMove_within hP hc h0) h
  | tmr j => exact envOn_sameStuck harmless_timerExpire hfed h
  | irq j => exact agent (fun _ _ hP hc hz h0 => irqMove_within hP hc hz h0) h
  | be j b => exact envOn_sameStuck (harmless_be b) hfed h
  | de j e => exact envOn_sameStuck (harmless_deMove e) hfed h

/-- Settles O58: no byte of a buffer is missing, so no agent's access ends there. -/
theorem allocatedBuffersLeaveNoAgentStuck : Obligations.AllocatedBuffersLeaveNoAgentStuck := by
  unfold Obligations.AllocatedBuffersLeaveNoAgentStuck
  intro s t hinv hbuf hfree hstep k d v hd hv
  have h : s.SameStuck t := by
    cases hagenda : s.agenda with
    | nil =>
      rw [step_nil hagenda] at hstep
      injection hstep with e
      exact e ▸ rfl
    | cons m rest =>
      rw [step_cons hagenda] at hstep
      exact runMove_sameStuck (s := { s with agenda := rest }) hinv hbuf hfree hstep
  have e := congrArg (·[k]?) h
  simpa [hd, hv] using e

end Sys2Proof.Machine
end

section
/-! PROOFS. R101, R102, R104: what the fields of a command descriptor decode to, by their bit positions, and that one with a
reserved bit set is refused. -/

namespace Sys2Proof.Machine

/-! ### Bit fields by arithmetic -/

/-- A field of a word, as the number at its bit positions. -/
theorem toNat_field (w : Word) (start len : Nat) :
    (w.extractLsb' start len).toNat = w.toNat / 2 ^ start % 2 ^ len := by
  rw [BitVec.extractLsb'_toNat, Nat.shiftRight_eq_div_pow]

/-- A field is 0 where the number at its bit positions is. -/
theorem field_eq_zero_iff (w : Word) (start len : Nat) :
    w.extractLsb' start len = 0 ↔ w.toNat / 2 ^ start % 2 ^ len = 0 := by
  rw [← BitVec.toNat_inj, toNat_field, BitVec.ofNat_eq_ofNat, BitVec.toNat_ofNat, Nat.zero_mod]

/-- R104: the reserved bits 7:3 and 31:23, by arithmetic. -/
theorem reservedClear_iff (w0 : Word) :
    reservedClear w0 = true ↔ w0.toNat / 2 ^ 3 % 2 ^ 5 = 0 ∧ w0.toNat / 2 ^ 23 = 0 := by
  have htop : w0.toNat / 2 ^ 23 % 2 ^ 9 = w0.toNat / 2 ^ 23 :=
    Nat.mod_eq_of_lt (Nat.div_lt_of_lt_mul w0.isLt)
  rw [reservedClear, Bool.and_eq_true, beq_iff_eq, beq_iff_eq, field_eq_zero_iff, field_eq_zero_iff, htop]

/-- The low two bits of a word, as a field and under the mask 3. -/
theorem lowField_eq_iff (w : Word) (c : BitVec 2) : w.extractLsb' 0 2 = c ↔ w &&& 3 = c.setWidth 32 := by
  have hmask : (w &&& 3).toNat = w.toNat % 2 ^ 2 := by
    rw [BitVec.toNat_and]
    exact Nat.and_two_pow_sub_one_eq_mod w.toNat 2
  have hc : (c.setWidth 32).toNat = c.toNat := BitVec.toNat_setWidth_of_le (by decide)
  rw [← BitVec.toNat_inj, ← BitVec.toNat_inj, toNat_field, hmask, hc, pow_zero, Nat.div_one]

/-! ### The operation -/

/-- R102: every code is the code of the operation it stands for, so there is no illegal `op`. -/
theorem code_ofCode (c : BitVec 2) : (Op.ofCode c).code = c := by
  revert c
  decide

/-- A code stands for the operation whose code it is, and no other. -/
theorem ofCode_eq_iff (c : BitVec 2) (op : Op) : Op.ofCode c = op ↔ c = op.code :=
  ⟨fun h => h ▸ (code_ofCode c).symm, fun h => h ▸ Op_ofCode_code op⟩

/-- R102: a descriptor's first word selects an operation where its low two bits are the operation's code. -/
theorem ofCode_lowField_eq_iff (w0 : Word) (op : Op) :
    Op.ofCode (w0.extractLsb' 0 2) = op ↔ w0 &&& 3 = op.code.setWidth 32 :=
  (ofCode_eq_iff _ op).trans (lowField_eq_iff w0 op.code)

/-! ### The descriptor -/

/-- R115: no operand of a command is out of range. -/
theorem Cmd.instr_wf (c : Cmd) : c.instr.wf = true := by
  obtain ⟨op, a⟩ := c
  cases op <;> rfl

/-- The command a descriptor's words stand for (R101, R102). -/
def descriptorCmd (w0 w1 w2 w3 w4 w5 : Word) : Cmd where
  op := Op.ofCode (w0.extractLsb' 0 2)
  args := descriptorArgs w0 w1 w2 w3 w4 w5

/-- With the reserved bits clear a descriptor decodes to its command. -/
theorem decode_of_reservedClear {w0 : Word} (w1 w2 w3 w4 w5 : Word) (h : reservedClear w0 = true) :
    decode ⟨.cmd, [w0, w1, w2, w3, w4, w5]⟩ = .ok (descriptorCmd w0 w1 w2 w3 w4 w5).instr :=
  decode_of_raw (if_pos h) (Cmd.instr_wf _)

/-- R104: with a reserved bit set the decoder rejects it by name. -/
theorem decode_of_not_reservedClear {w0 : Word} (w1 w2 w3 w4 w5 : Word) (h : ¬ reservedClear w0 = true) :
    decode ⟨.cmd, [w0, w1, w2, w3, w4, w5]⟩ = .error .reservedBits := by
  have hraw : decodeRaw ⟨.cmd, [w0, w1, w2, w3, w4, w5]⟩ = .error .reservedBits := if_neg h
  rw [decode, hraw]

/-- The step in which a free host presents a descriptor the decoder rejects is a refusal. -/
theorem step_refuses_rejected {s : State} {h : Nat} {ws : List Word} {rest : List Move} {e : Reject}
    (hagenda : s.agenda = .host h ws :: rest) (hfree : waiting h s.devs = false)
    (hrej : decode ⟨.cmd, ws⟩ = .error e) : step s = .refused (.badDescriptor e) := by
  rw [step_cons hagenda, runMove, commandPort, hfree, if_neg Bool.false_ne_true, hrej]

/-- Settles O4: each field of `descriptorCmd` is read at its bit positions, and `op` is the code in the low two bits. -/
theorem commandDescriptorFields : Obligations.CommandDescriptorFields := by
  unfold Obligations.CommandDescriptorFields
  intro w0 w1 w2 w3 w4 w5 hlow htop
  refine ⟨descriptorCmd w0 w1 w2 w3 w4 w5,
    decode_of_reservedClear w1 w2 w3 w4 w5 ((reservedClear_iff w0).mpr ⟨hlow, htop⟩),
    ofCode_lowField_eq_iff w0 .read, ofCode_lowField_eq_iff w0 .write,
    ofCode_lowField_eq_iff w0 .dmaRead, ofCode_lowField_eq_iff w0 .dmaWrite,
    ?_, toNat_field w0 8 8, toNat_field w0 16 7, rfl, rfl, rfl, rfl, rfl⟩
  show w0.toNat.testBit 2 = true ↔ w0.toNat / 2 ^ 2 % 2 = 1
  rw [Nat.testBit_eq_decide_div_mod_eq, decide_eq_true_iff]

/-- Settles O3: a reserved bit set fails the decoder's check of them, and the step refuses what the decoder rejects. -/
theorem reservedDescriptorBitsRefused : Obligations.ReservedDescriptorBitsRefused := by
  unfold Obligations.ReservedDescriptorBitsRefused
  intro w0 w1 w2 w3 w4 w5 hset
  have hrej : decode ⟨.cmd, [w0, w1, w2, w3, w4, w5]⟩ = .error .reservedBits := by
    refine decode_of_not_reservedClear w1 w2 w3 w4 w5 fun hclear => ?_
    obtain ⟨hlow, htop⟩ := (reservedClear_iff w0).mp hclear
    exact hset.elim (· hlow) (· htop)
  exact ⟨hrej, fun s h rest hagenda hfree => step_refuses_rejected hagenda hfree hrej⟩

end Sys2Proof.Machine
end

section
/-! PROOFS. R141 to R162: what each register primitive leaves of the instance in hand, of host memory and of the trace, with
nothing between its accesses. The laws of the primitives say it of the instance; here it is said of the machine. -/

namespace Sys2Proof.Machine

/-! ### From the instance in hand to the machine -/

/-- Where an operation goes on, having changed its instance and the trace, the machine becomes that. -/
theorem onInstance_become {s : State} {d v : Device} {obs : List Obs} {f : Ctx → Res} (ag : Agent) (hd : s.InHand d)
    (hf : f (s.ctx s.cur d) = .next { s.ctx s.cur d with dev := v, trace := obs ++ s.trace }) :
    onInstance ag s.cur f s = .next (s.become v s.mem obs) := by
  rw [onInstance_inHand hd, hf]
  exact congrArg Host.Outcome.next (State.putCtx_become hd v s.mem obs)

/-- The same of an operation that cannot stop. -/
theorem onInstanceDo_become {s : State} {d v : Device} {obs : List Obs} {f : Ctx → Ctx} (hd : s.InHand d)
    (hf : f (s.ctx s.cur d) = { s.ctx s.cur d with dev := v, trace := obs ++ s.trace }) :
    onInstanceDo s.cur f s = .next (s.become v s.mem obs) :=
  onInstance_become .seq hd (congrArg Res.next hf)

/-- The machine holds the word a read primitive returned (log 17). -/
theorem onInstanceDo_returning {s : State} {d v : Device} {w : Word} {obs : List Obs} {f : Ctx → Word × Ctx}
    (hd : s.InHand d) (hf : f (s.ctx s.cur d) = (w, { s.ctx s.cur d with dev := v, trace := obs ++ s.trace })) :
    onInstanceDo s.cur (fun l => returning (f l)) s = .next (s.become { v with ret := w } s.mem obs) :=
  onInstanceDo_become hd (congrArg returning hf)

/-- A value narrower than a word is held zero-extended. -/
theorem onInstanceDo_returning_setWidth {s : State} {d v : Device} {n : Nat} {x : BitVec n} {obs : List Obs}
    {f : Ctx → BitVec n × Ctx} (hd : s.InHand d)
    (hf : f (s.ctx s.cur d) = (x, { s.ctx s.cur d with dev := v, trace := obs ++ s.trace })) :
    onInstanceDo s.cur (fun l => returning ((f l).1.setWidth 32, (f l).2)) s =
      .next (s.become { v with ret := x.setWidth 32 } s.mem obs) :=
  onInstanceDo_returning hd (congrArg (fun r : BitVec n × Ctx => (r.1.setWidth 32, r.2)) hf)

/-! ### `DATA_LOAD32` -/

/-- The bytes of a word of a buffer are the buffer's bytes (R74). -/
theorem wordByte_bufferWord (m : Memory) (base n off : Nat) {k : Nat} (hk : k < 4) :
    wordByte (bufferWord m base n off) k = bufferByte m base n (off + k) := by
  obtain ⟨h0, h1, h2, h3⟩ := wordByte_wordOf (bufferByte m base n off) (bufferByte m base n (off + 1))
    (bufferByte m base n (off + 2)) (bufferByte m base n (off + 3))
  match k, hk with
  | 0, _ => exact h0
  | 1, _ => exact h1
  | 2, _ => exact h2
  | 3, _ => exact h3

/-- `DATA_LOAD32` from slot `i` on fills the slots to go with the words of an allocated buffer and leaves the slots before. -/
theorem loadSlots_allocated {src n i k : Nat} {l : Ctx} (hq : l.dev.inter = []) (hs : l.dev.Latched l.params)
    (hk : i + k = 8) (ha : Allocated l.mem src n) :
    ∃ (data : Vector Word 8) (obs : List Obs),
      loadSlots src n i k l =
        .next { l with dev := { l.dev with mb := { l.dev.mb with data := data } }, trace := obs ++ l.trace } ∧
      ∀ x : Slot, data[x] = if i ≤ x.val then bufferWord l.mem src n (4 * x.val) else l.dev.mb.data[x] := by
  induction k generalizing i l with
  | zero => exact ⟨l.dev.mb.data, [], rfl, fun x => (if_neg (by omega)).symm⟩
  | succ k ih =>
    rw [loadSlots, loadWord_quiet hq fun x _ hx => ha x hx, dataPut_quiet hq hs]
    obtain ⟨data, obs, e, hdata⟩ := ih (i := i + 1)
      (l := { l with
        dev := { l.dev with mb := { l.dev.mb with
          data := l.dev.mb.data.set (Fin.ofNat 8 i).val (bufferWord l.mem src n (4 * i)) (Fin.ofNat 8 i).isLt } }
        trace := .wrote l.id (.mData (Fin.ofNat 8 i)) (bufferWord l.mem src n (4 * i)) :: l.trace })
      hq hs (by omega) ha
    refine ⟨data, obs ++ [_], by rw [e, List.append_assoc]; rfl, fun x => ?_⟩
    rw [hdata x]
    have hi : (Fin.ofNat 8 i).val = i := Nat.mod_eq_of_lt (by omega)
    simp only [Fin.getElem_fin, Vector.getElem_set, hi]
    by_cases hx : i = x.val
    · subst hx
      rw [if_neg (by omega), if_pos rfl, if_pos le_rfl]
    · rw [if_neg hx]
      exact if_congr (by omega) rfl rfl

/-- Settles O40: the words of the buffer are put in slot by slot, and a word's bytes are the buffer's. -/
theorem dataLoadFillsAllSlots : Obligations.DataLoadFillsAllSlots := by
  unfold Obligations.DataLoadFillsAllSlots
  intro s d src n hd hq hs _ _ ha
  obtain ⟨data, obs, e, hdata⟩ :=
    loadSlots_allocated (l := s.ctx s.cur d) (i := 0) (k := 8) hq hs.2 rfl ha
  refine ⟨data, obs, onInstance_become .seq hd e, fun i k hk => ?_⟩
  rw [hdata i, if_pos (Nat.zero_le _)]
  exact wordByte_bufferWord _ _ _ _ hk

/-! ### Control, clock, address, mode, counts -/

/-- Settles O34: the reset needs no settled instance, for with every register zero the line is low. -/
theorem controllerResetEffect : Obligations.ControllerResetEffect := by
  unfold Obligations.ControllerResetEffect
  intro s d hd hq
  exact ⟨onInstanceDo_become hd (ctrlReset_quiet hq), irqLevel_resetController s.params d⟩

/-- The divisor fits its field (R109). -/
theorem divOf_le (src freq : Nat) : divOf src freq ≤ Config.divMax := by
  unfold divOf
  split
  · exact le_rfl
  · exact min_le_right _ _

/-- Settles O35: the divisor stored is `divOf`, which fits the field. -/
theorem clockDivisorIsProgrammed : Obligations.ClockDivisorIsProgrammed := by
  unfold Obligations.ClockDivisorIsProgrammed
  intro s d freq hd hq hs
  have hval : (BitVec.ofNat 11 (divOf s.params.srcFreqKhz freq.toNat)).toNat = divOf s.params.srcFreqKhz freq.toNat :=
    Nat.mod_eq_of_lt (Nat.lt_succ_of_le (divOf_le _ _))
  exact ⟨_, onInstanceDo_become hd (clkdivSet_quiet hq hs.2), fun h => hval.trans (if_pos h),
    fun h => hval.trans (if_neg h)⟩

/-- A restart is allowed under every mask where a read phase is programmed with it (R144). -/
theorem modeAllowed_of_restart {m : ModeMask} {rw re : Bool} (h : rw = true ∨ re = false) : modeAllowed m rw re = true := by
  rcases h with rfl | rfl <;> simp [modeAllowed]

/-- `MODE_SET` of a combination that is programmed, under each mask (R144). -/
theorem exec_modeSet {s : State} {d : Device} {m : ModeMask} {rw re au : Bool} (hd : s.InHand d) (hq : d.Quiet)
    (hs : d.Latched s.params) (ha : modeAllowed m rw re = true) :
    let c := modeAfter m rw re au d.mb.ctrl
    exec (.modeSet m rw re au) s =
      .next (s.become { d with mb := { d.mb with ctrl := c } } s.mem
        [.wrote s.cur .mCtrl (modeOperand c.rw c.restart c.auto)]) :=
  (if_pos ha).trans (onInstanceDo_become hd (modeSet_quiet hq hs))

/-- Settles O36: under a mask with the direction bits every operand but a restart of a write is admitted, under `.auto` every one. -/
theorem addressModeAndCountsAreProgrammed : Obligations.AddressModeAndCountsAreProgrammed := by
  unfold Obligations.AddressModeAndCountsAreProgrammed
  intro s d hd hq ⟨_, hs⟩
  refine ⟨fun addr => onInstanceDo_become hd (addrSet_quiet hq hs), fun rw restart auto h => ?_,
    fun rw restart auto => exec_modeSet hd hq hs rfl, fun wr rd => onInstanceDo_become hd (cntSet_quiet hq hs)⟩
  exact ⟨exec_modeSet hd hq hs (modeAllowed_of_restart h), exec_modeSet hd hq hs (modeAllowed_of_restart h)⟩

/-! ### Enables -/

/-- Settles O38: setting may raise the line, and outside a handler run that is pending at once; clearing cannot raise it. -/
theorem enablesAreSetAndCleared : Obligations.EnablesAreSetAndCleared := by
  unfold Obligations.EnablesAreSetAndCleared
  intro s d hd hq hs
  exact ⟨fun mask => ⟨onInstanceDo_become hd (intenSet_quiet hq hs), onInstanceDo_become hd (intenClr_quiet hq hs.2)⟩,
    fun mask => onInstanceDo_become hd (dmaIntenSet_quiet hq hs)⟩

/-! ### Data slots and status registers -/

/-- Settles O39: the slot is set in the vector of slots, or read. -/
theorem dataSlotIsPutAndGot : Obligations.DataSlotIsPutAndGot := by
  unfold Obligations.DataSlotIsPutAndGot
  intro s d slot w hd hq hs
  refine ⟨⟨_, onInstanceDo_become hd (dataPut_quiet hq hs), fun i => ?_⟩, onInstanceDo_returning hd (dataGet_quiet hq)⟩
  show (d.mb.data.set slot.val w slot.isLt)[i.val] = _
  rw [Vector.getElem_set]
  exact if_congr (by rw [Fin.ext_iff, eq_comm]) rfl rfl

/-- Settles O41: a status read returns its register, zero-extended, whatever is enabled. -/
theorem statusReadsHaveNoSideEffect : Obligations.StatusReadsHaveNoSideEffect := by
  unfold Obligations.StatusReadsHaveNoSideEffect
  intro s d hd hq
  exact ⟨onInstanceDo_returning_setWidth hd (statusGet_quiet hq), onInstanceDo_returning hd (ovfGet_quiet hq),
    onInstanceDo_returning_setWidth hd (rdflagGet_quiet hq)⟩

/-- Settles O42: a clear pulse is two writes, neither of which can raise the line. -/
theorem clearPulsesReleaseTheStrobes : Obligations.ClearPulsesReleaseTheStrobes := by
  unfold Obligations.ClearPulsesReleaseTheStrobes
  intro s d hd hq hs
  exact ⟨fun mask => onInstanceDo_become hd (statusClear_quiet hq hs),
    fun mask => onInstanceDo_become hd (rdflagClear_quiet hq hs)⟩

/-! ### Triggers and the DMA block -/

/-- Settles O43: a strobe bit starts its engine and is not stored, and the bits written with it are those that stood. -/
theorem triggersStartTheEngines : Obligations.TriggersStartTheEngines := by
  unfold Obligations.TriggersStartTheEngines
  intro s d hd hq hs
  exact ⟨onInstanceDo_become hd (trigger_quiet hq hs.2), fun h => onInstance_become .seq hd (dmaGo_quiet hq hs.2 h)⟩

/-- Settles O44: each primitive stores to its own register, which cannot raise the line. -/
theorem dmaRegistersAreProgrammed : Obligations.DmaRegistersAreProgrammed := by
  unfold Obligations.DmaRegistersAreProgrammed
  intro s d hd hq hs
  exact ⟨fun a => onInstanceDo_become hd (dmaAddrSet_quiet hq hs), fun n _ => onInstanceDo_become hd (dmaLenSet_quiet hq hs),
    fun dir => onInstanceDo_become hd (dmaDirSet_quiet hq hs),
    onInstanceDo_returning_setWidth (v := { d with db := { d.db with status := 0 } }) hd (dmaStatusGetclr_quiet hq hs)⟩

end Sys2Proof.Machine
end

section
/-! PROOFS. R171 to R173, R193: what executing a command comes to, said once: it returns one of the three admission codes and writes
the calling context's descriptor only, or it starts the instance it names. -/

namespace Sys2Proof.Machine

/-! ### The checks of one instance -/

/-- A count outside 1 to 65535 is invalid (R173). -/
theorem countValid_eq_false_iff (n : Word) : countValid n = false ↔ n.toNat = 0 ∨ 65535 < n.toNat := by
  have hmax : Config.countMax = 65535 := rfl
  simp only [countValid, hmax, Bool.and_eq_false_iff, decide_eq_false_iff_not]
  omega

/-- A command without a read phase uses its write count (R173). -/
theorem countsValid_of_write {c : Cmd} (h : isReadOp c.op = false) : countsValid c = countValid c.args.wlen := by
  simp [countsValid, h]

/-- A command with a read phase uses its read count, and its write count as the restart payload's (R173). -/
theorem countsValid_eq_false_of_read {c : Cmd} (h : isReadOp c.op = true) :
    countsValid c = false ↔ countValid c.args.rlen = false ∨
      (c.args.restart = true ∧ (c.args.wlen.toNat = 0 ∨ 32 < c.args.wlen.toNat)) := by
  have hcap : Config.restartWrCap = 32 := rfl
  simp only [countsValid, h, hcap, if_true, Bool.and_eq_false_iff, Bool.or_eq_false_iff, Bool.not_eq_false',
    decide_eq_false_iff_not]
  exact or_congr_right (and_congr_right fun _ => by omega)

/-- A busy instance answers before it looks at the counts (R172). -/
theorem admission_of_busy {d : Device} (c : Cmd) (h : d.tp.busy = true) : admission d c = some .busy := by
  rw [admission, if_pos h]

/-- An idle instance answers as its counts do (R173). -/
theorem admission_of_idle {d : Device} (c : Cmd) (h : d.tp.busy = false) :
    admission d c = if countsValid c = true then none else some .invalidCount := by
  cases hc : countsValid c <;> simp [admission, h, hc]

/-! ### The command on the machine -/

/-- The state after a call that returned at S0 (R193). -/
def State.rejected (s : State) (c : Cmd) (r : Result) : State :=
  { s with callCmd := c, trace := .returned s.host c.args.dev r :: s.trace }

/-- The state after a command was admitted to instance `d` (R174). -/
def State.admitted (s : State) (c : Cmd) (d : Device) : State :=
  { s with callCmd := c, devs := s.devs.set c.args.dev.toNat (startTransaction s.params s.host c d) }

/-- A command to an instance that is not there (R171). -/
theorem exec_command_absent {c : Cmd} {s : State} (h : s.devs[c.args.dev.toNat]? = none) :
    exec c.instr s = .next (s.rejected c .invalidDevice) := by
  rw [exec_command, issue]
  simp only [h]
  rfl

/-- A command to an instance that is there does what the instance answers. -/
theorem exec_command_present {c : Cmd} {s : State} {d : Device} (h : s.devs[c.args.dev.toNat]? = some d) :
    exec c.instr s = .next ((admission d c).elim (s.admitted c d) (s.rejected c)) := by
  rw [exec_command, issue]
  simp only [h]
  cases admission d c <;> rfl

/-- Everything executing a command can do. -/
theorem exec_command_cases (c : Cmd) (s : State) :
    (∃ r : Result, (r = .busy ∨ r = .invalidDevice ∨ r = .invalidCount) ∧ exec c.instr s = .next (s.rejected c r)) ∨
    ∃ d : Device, s.devs[c.args.dev.toNat]? = some d ∧ d.tp.busy = false ∧
      exec c.instr s = .next (s.admitted c d) := by
  cases hd : s.devs[c.args.dev.toNat]? with
  | none => exact .inl ⟨_, .inr (.inl rfl), exec_command_absent hd⟩
  | some d =>
    rw [exec_command_present hd]
    cases hb : d.tp.busy with
    | true => exact .inl ⟨_, .inl rfl, by rw [admission_of_busy c hb]; rfl⟩
    | false =>
      rw [admission_of_idle c hb]
      split
      · exact .inr ⟨d, rfl, hb, rfl⟩
      · exact .inl ⟨_, .inr (.inr rfl), rfl⟩

/-- Settles O8: the three checks are the index of the instance, its busy bit and the command's counts, in this order. -/
theorem admissionChecksInOrder : Obligations.AdmissionChecksInOrder := by
  unfold Obligations.AdmissionChecksInOrder
  intro c s
  refine ⟨fun hlen => exec_command_absent (List.getElem?_eq_none hlen), fun d hd => ⟨fun hb => ?_, fun hb hcounts => ?_⟩⟩
  · rw [exec_command_present hd, admission_of_busy c hb]
    rfl
  · have hinvalid : countsValid c = false := by
      rcases hcounts with ⟨hop, hw⟩ | ⟨hop, hr⟩
      · have hwrite : isReadOp c.op = false := by rcases hop with e | e <;> rw [e] <;> rfl
        rwa [countsValid_of_write hwrite, countValid_eq_false_iff]
      · have hread : isReadOp c.op = true := by rcases hop with e | e <;> rw [e] <;> rfl
        rwa [countsValid_eq_false_of_read hread, countValid_eq_false_iff, or_assoc]
    rw [exec_command_present hd, admission_of_idle c hb, hinvalid]
    rfl

/-- Settles O10: a command that is not rejected is admitted, and admission returns nothing. -/
theorem rejectedCommandTouchesNothing : Obligations.RejectedCommandTouchesNothing := by
  unfold Obligations.RejectedCommandTouchesNothing
  intro c s t ht hreturned
  rcases exec_command_cases c s with ⟨r, hr, e⟩ | ⟨d, -, -, e⟩ <;> rw [e] at ht <;> injection ht with ht
  · exact ⟨r, hr, ht.symm⟩
  · exact absurd (congrArg State.trace ht).symm hreturned

end Sys2Proof.Machine
end

section
/-! PROOFS. R185, R194: the exit. After its controller reset both engines are stopped, so that whatever falls between the accesses of
the copy-out the registers stay at zero and the snapshot as the exit left it. -/

namespace Sys2Proof.Machine

/-! ### What stands from the reset of S11 to its end -/

/-- In the course of S11 of the instance of `c`, after the controller reset. -/
structure Ctx.Exiting (c l : Ctx) : Prop where
  tp : l.dev.tp = { c.dev.tp with phase := .idle }
  mb : l.dev.mb = .zero
  db : l.dev.db = .zero
  beActive : l.dev.beActive = false
  deActive : l.dev.deActive = false
  sig : l.dev.sig = c.dev.sig
  res : l.dev.res = c.dev.res
  cmdl : l.dev.cmdl = c.dev.cmdl
  caller : l.dev.caller = c.dev.caller
  trace : ∃ obs, l.trace = obs ++ c.trace

section
variable {c l : Ctx}

/-- The reset with which S11 begins (R185). -/
theorem exiting_ctrlReset (c : Ctx) : Ctx.Exiting c (ctrlReset (c.mapTP fun tp => { tp with phase := .idle })) := by
  obtain ⟨v, hsame, -, hdev, -, -, htrace, -⟩ := rmw_reset (c.mapTP fun tp => { tp with phase := .idle })
  simp only [Device.SameProgramme] at hsame
  unfold ctrlReset
  constructor
  case trace => exact htrace
  all_goals rw [hdev]; simp [hsame]

/-- With both engines stopped nothing that falls before an access touches the instance (R281). -/
theorem Ctx.Exiting.pump (h : Ctx.Exiting c l) : Ctx.Exiting c (pump l) := by
  have hdev := pump_inactive h.beActive h.deActive
  obtain ⟨obs, hobs⟩ := h.trace
  obtain ⟨more, hmore⟩ := pump_trace l
  constructor
  case trace => exact ⟨more ++ obs, by rw [hmore, hobs, List.append_assoc]⟩
  all_goals rw [hdev]
  exacts [h.tp, h.mb, h.db, h.beActive, h.deActive, h.sig, h.res, h.cmdl, h.caller]

theorem Ctx.Exiting.setMem (h : Ctx.Exiting c l) (mem : Memory) : Ctx.Exiting c { l with mem := mem } :=
  ⟨h.tp, h.mb, h.db, h.beActive, h.deActive, h.sig, h.res, h.cmdl, h.caller, h.trace⟩

theorem Ctx.Exiting.writeByte {a : Nat} {b : Byte} (h : Ctx.Exiting c l) : (writeByte a b l).Ends (Ctx.Exiting c) := by
  unfold Machine.writeByte
  split
  · exact h.pump.setMem _
  · exact h.pump

theorem Ctx.Exiting.copyBytesOut {dst i n : Nat} (h : Ctx.Exiting c l) :
    (copyBytesOut dst i n l).Ends (Ctx.Exiting c) := by
  induction n generalizing i l with
  | zero => exact h
  | succ n ih => exact andThen_ends h.pump.writeByte (fun _ hm => ih hm) fun _ hm => hm

theorem Ctx.Exiting.dmaFinish (h : Ctx.Exiting c l) : (dmaFinish l).Ends (Ctx.Exiting c) := by
  unfold Machine.dmaFinish
  refine andThen_ends (P := Ctx.Exiting c) ?_ (fun m hm => ?_) fun _ hm => hm
  · split
    · exact h.copyBytesOut
    · exact h
  · refine ⟨hm.tp, hm.mb, hm.db, hm.beActive, hm.deActive, hm.sig, hm.res, hm.cmdl, hm.caller, ?_⟩
    obtain ⟨obs, hobs⟩ := hm.trace
    simp only
    split
    · exact ⟨obs, hobs⟩
    · exact ⟨_ :: obs, congrArg (List.cons _) hobs⟩

end

/-! ### The copy-out completes -/

/-- A byte store completes where the byte is allocated and no host frees any. -/
theorem writeByte_completes {a : Nat} {b : Byte} {l : Ctx} (hf : l.dev.NoFrees) (ha : (cellRead l.mem a).isSome = true) :
    writeByte a b l = .next { pump l with mem := cellWrite (pump l).mem a b } := by
  have hp : (cellRead (pump l).mem a).isSome = true :=
    pump_allocated (n := 1) hf (fun k hk => by rwa [Nat.lt_one_iff.mp hk]) 0 Nat.one_pos
  rw [writeByte, memStore_eq_some.mpr ⟨hp, rfl⟩]

/-- The copy-out completes where the read buffer is allocated and no host frees any of it (R268, R85). -/
theorem copyBytesOut_completes {dst i n : Nat} {l : Ctx} (hf : l.dev.NoFrees) (ha : Allocated l.mem dst (i + n)) :
    ∃ m, copyBytesOut dst i n l = .next m := by
  induction n generalizing i l with
  | zero => exact ⟨l, rfl⟩
  | succ n ih =>
    have hf' : (pump l).dev.NoFrees := pump_gaps hf
    have ha' := pump_allocated hf ha
    have hstore := writeByte_completes (b := (scratchGet i l).1) hf' (ha' i (by omega))
    obtain ⟨m, hm⟩ := ih (i := i + 1)
      (l := { pump (pump l) with mem := cellWrite (pump (pump l)).mem (dst + i) (scratchGet i l).1 }) (pump_gaps hf')
      (((pump_allocated hf' ha').mono le_rfl (by omega)).cellWrite)
    exact ⟨m, (congrArg (andThen · _) hstore).trans hm⟩

/-- The DMA finish completes where its copy-out does, and leaves nothing mapped (R268). -/
theorem dmaFinish_completes {l : Ctx} (hf : l.dev.NoFrees)
    (ha : l.dev.cmdl.op = .dmaRead → Allocated l.mem l.dev.cmdl.args.rbuf.toNat l.dev.cmdl.args.rlen.toNat) :
    ∃ m, dmaFinish l = .next m ∧ m.dev.map.valid = false := by
  unfold dmaFinish
  simp only
  split
  · rename_i hc
    obtain ⟨m, hm⟩ := copyBytesOut_completes (i := 0) hf (by simpa using ha hc.1)
    rw [hm]
    exact ⟨_, rfl, rfl⟩
  · exact ⟨_, rfl, rfl⟩

/-! ### The exit -/

/-- The controller reset leaves the mapping as it is (R141). -/
theorem ctrlReset_map (l : Ctx) : (ctrlReset l).dev.map = l.dev.map := by
  obtain ⟨v, hsame, -, hdev, -⟩ := rmw_reset l
  simp only [Device.SameProgramme] at hsame
  rw [ctrlReset, hdev]
  simp [hsame]

/-- S11 completes where the read buffer is allocated and no host frees any of it; nothing is mapped where it leaves. -/
theorem exitTransaction_completes {l : Ctx} (hf : l.dev.NoFrees)
    (ha : isReadOp l.dev.cmdl.op = true → Allocated l.mem l.dev.cmdl.args.rbuf.toNat l.dev.cmdl.args.rlen.toNat)
    (hmap : l.dev.map.valid = true → isDmaOp l.dev.cmdl.op = true) :
    ∃ m, Ctx.Exiting l m ∧ m.dev.map.valid = false ∧ exitTransaction l = .next (leave m) := by
  let r := ctrlReset (l.mapTP fun tp => { tp with phase := .idle })
  have hr : Ctx.Exiting l r := exiting_ctrlReset l
  have hfree : r.dev.NoFrees := regWrite_gaps (pump_gaps hf)
  have halloc : r.dev.cmdl.op = .dmaRead → Allocated r.mem r.dev.cmdl.args.rbuf.toNat r.dev.cmdl.args.rlen.toNat := by
    rw [hr.cmdl]
    exact fun hop => rmw_allocated hf (ha (by rw [hop]; rfl))
  show ∃ m, _ ∧ _ ∧ andThen (if isDmaOp r.dev.cmdl.op then dmaFinish r else .next r) (fun l => .next (leave l)) = _
  split
  · obtain ⟨m, hm, hunmapped⟩ := dmaFinish_completes hfree halloc
    exact ⟨m, Res.ends_next.mp (hm ▸ hr.dmaFinish), hunmapped, by rw [hm]; rfl⟩
  · rename_i hdma
    refine ⟨r, hr, ?_, rfl⟩
    rw [hr.cmdl] at hdma
    rw [ctrlReset_map]
    exact Bool.eq_false_iff.mpr fun hv => hdma (hmap hv)

/-- The instance in hand keeps its place through a step of its sequencer. -/
theorem placed_stable (k : Nat) : Stable fun l => l.Placed ∧ l.id = k where
  own := fun _ _ _ _ _ h => h
  pump := fun l ⟨hp, hid⟩ => ⟨(pump_frame l).before.trans (hp.trans (pump_id l).symm), (pump_id l).trans hid⟩

/-- Settles O15: after the reset nothing reaches the registers, and the copy-out's stores all complete. -/
theorem exitReturnsToIdle : Obligations.ExitReturnsToIdle := by
  unfold Obligations.ExitReturnsToIdle
  intro s d rest hagenda hd hc hen hseq hbuf hf
  let s' : State := { s with agenda := rest }
  have hd' : s'.InHand d := hd
  let c : Ctx := s'.ctx s.cur d
  obtain ⟨m, hm, hunmapped, hexit⟩ := exitTransaction_completes (l := c) hf hbuf.2 hc.mapped
  have hmove : seqMove c = .next (leave m) := by
    rw [seqMove, if_pos (show seqEnabled c.dev = true from hen), seqStep, show c.dev.seq = .s11 from hseq, hexit]
  obtain ⟨hplaced, hid⟩ : (leave m).Placed ∧ (leave m).id = s.cur :=
    Res.keeps_next.mp (hmove ▸ seqMove_stable (placed_stable s.cur) ⟨State.ctx_placed hd', rfl⟩)
  have hstep : step s = .next (s'.putCtx (leave m)) := by
    rw [step_cons hagenda, runMove, moveOn_some (s := s') hd']
    exact (onInstance_inHand hd' .seq seqMove).trans (by rw [hmove])
  obtain ⟨obs, hobs⟩ := hm.trace
  refine ⟨_, (leave m).dev, obs, hstep, hid ▸ State.putCtx_getElem? hplaced, ?_, rfl, hm.mb, hm.db, hm.beActive, hm.deActive,
    hunmapped, hm.sig, hm.res, hm.cmdl, ?_⟩
  · exact congrArg (fun tp : TP => { tp with busy := false }) hm.tp
  · show Obs.returned m.dev.caller m.dev.cmdl.args.dev m.dev.res :: m.trace = _
    rw [hm.caller, hm.cmdl, hm.res, hobs]
    rfl

end Sys2Proof.Machine
end

section
/-! PROOFS. R192, R25: how the phase of an instance changes. Its own agents change it in S11 only; an agent of another instance, and
what falls between that agent's accesses, changes it by an admission only. -/

namespace Sys2Proof.Machine

/-! ### The phase of the instance in hand -/

/-- The instance in hand is in the phase. -/
def Ctx.InPhase (ph : Phase) (l : Ctx) : Prop := l.dev.tp.phase = ph

section
variable {ph : Phase} {l m : Ctx}

theorem EnvFrame.inPhase (hf : EnvFrame l m) (h : l.InPhase ph) : m.InPhase ph := by
  have hs := hf.programme
  simp only [Device.SameProgramme] at hs
  unfold Ctx.InPhase at *
  rw [← h]
  simp [hs]

theorem Ctx.InPhase.pump (h : l.InPhase ph) : (pump l).InPhase ph := (pump_frame l).inPhase h

theorem Ctx.InPhase.regWrite {r : Reg} {v : Word} (h : l.InPhase ph) : (regWrite r v l).InPhase ph :=
  (congrArg TP.phase (regWrite_tp r v l)).trans h

theorem Ctx.InPhase.rmw {r : Reg} {mask v : Word} (h : l.InPhase ph) : (rmw r mask v l).InPhase ph := h.pump.regWrite

theorem Ctx.InPhase.pulse {r : Reg} {mask : Word} (h : l.InPhase ph) : (pulse r mask l).InPhase ph := h.regWrite.regWrite

theorem Res.Ends.keeps {P : Ctx → Prop} {r : Res} (h : r.Ends P) : r.Keeps P := by
  cases r with
  | next l => exact h
  | stuck l => exact h
  | refused e => trivial

/-! ### A handler run keeps the phase -/

theorem Fetched.inPhase {n : Nat} (hf : Fetched n l m) (h : l.InPhase ph) : m.InPhase ph :=
  hf.frame.inPhase (l := l.mapTP fun tp => { tp with dataOff := tp.dataOff + BitVec.ofNat 32 n }) h

theorem drainWords_inPhase {n : Nat} {s : Slot} (h : l.InPhase ph) : (drainWords n s l).Keeps (Ctx.InPhase ph) :=
  ((drainWords_ends n s l).mono fun _ ⟨off, hf⟩ =>
    hf.inPhase (l := l.mapTP fun tp => { tp with dataOff := off }) h).keeps

theorem finishRead_inPhase (h : l.InPhase ph) : (finishRead l).Keeps (Ctx.InPhase ph) := by
  unfold finishRead
  simp only
  split
  · exact h
  · exact ((writeBytes_ends _ _ _).mono fun _ hf => hf.inPhase ((gatherWords_frame _ _ l).inPhase h)).keeps.andThen
      fun _ hm => hm

theorem HandlerAct.inPhase (ha : HandlerAct l m) (h : l.InPhase ph) : m.InPhase ph := by
  cases ha with
  | moves => exact h.pump
  | clear => exact h.pulse
  | disable => exact h.rmw
  | ackDma => exact h.regWrite
  | flags => exact h
  | unit l' _ _ _ hf => exact (hf.inPhase h).regWrite
  | slot l' _ _ _ _ hw => exact (Res.keeps_next.mp (hw ▸ drainWords_inPhase h)).pulse
  | finish _ _ _ hf => exact Res.keeps_next.mp (hf ▸ finishRead_inPhase h)
  | success => exact h
  | fail e =>
    exact Ctx.InPhase.rmw (l := (l.mapTP fun tp =>
      { tp with result := e, irq := { tp.irq with activeDone := true } }).mapDev signal) h

theorem HandlerStop.inPhase (hs : HandlerStop l m) (h : l.InPhase ph) : m.InPhase ph := by
  cases hs with
  | unit l' _ _ _ _ hf => exact (hf.inPhase h).pump
  | slot _ _ _ _ hw => exact Res.keeps_stuck.mp (hw ▸ drainWords_inPhase h)
  | finish _ _ _ hf => exact Res.keeps_stuck.mp (hf ▸ finishRead_inPhase h)

theorem irqMove_inPhase (h : l.InPhase ph) : (irqMove l).Keeps (Ctx.InPhase ph) := by
  unfold irqMove
  split
  · have h0 : (handlerEnter l).InPhase ph := h
    have acts : ∀ {n}, HandlerActs (handlerEnter l) n → n.InPhase ph := fun ha =>
      ha.induct (fun _ _ ha h => ha.inPhase h) h0
    rcases handlerRun_acts l with ⟨n, ha, e⟩ | ⟨n, n', ha, hs, e⟩ <;> rw [e]
    · exact (acts ha : n.InPhase ph)
    · exact hs.inPhase (acts ha)
  · exact h

/-! ### The sequencer's steps before S11 keep the phase -/

theorem readByte_inPhase {a : Nat} {f : Byte → Ctx → Res} (hf : ∀ b n, n.InPhase ph → (f b n).Keeps (Ctx.InPhase ph))
    (h : l.InPhase ph) : (readByte a f l).Keeps (Ctx.InPhase ph) := by
  unfold readByte
  split
  · exact hf _ _ h.pump
  · exact h.pump

theorem padByte_inPhase {base off n : Nat} {f : Byte → Ctx → Res}
    (hf : ∀ b n, n.InPhase ph → (f b n).Keeps (Ctx.InPhase ph)) (h : l.InPhase ph) :
    (padByte base off n f l).Keeps (Ctx.InPhase ph) := by
  unfold padByte
  split
  · exact readByte_inPhase hf h
  · exact hf 0 l h

theorem loadWord_inPhase {base off n : Nat} {f : Word → Ctx → Res}
    (hf : ∀ w n, n.InPhase ph → (f w n).Keeps (Ctx.InPhase ph)) (h : l.InPhase ph) :
    (loadWord base off n f l).Keeps (Ctx.InPhase ph) :=
  padByte_inPhase (fun _ _ h0 => padByte_inPhase (fun _ _ h1 => padByte_inPhase (fun _ _ h2 =>
    padByte_inPhase (fun _ _ h3 => hf _ _ h3) h2) h1) h0) h

theorem loadSlots_inPhase {src n i k : Nat} (h : l.InPhase ph) : (loadSlots src n i k l).Keeps (Ctx.InPhase ph) := by
  induction k generalizing i l with
  | zero => exact h
  | succ k ih => exact loadWord_inPhase (fun _ _ h' => ih h'.regWrite) h

theorem restartLoad_inPhase (h : l.InPhase ph) : (restartLoad l).Keeps (Ctx.InPhase ph) := by
  unfold restartLoad
  split
  · exact loadSlots_inPhase h
  · exact h

theorem copyBytesIn_inPhase {src i n : Nat} (h : l.InPhase ph) : (copyBytesIn src i n l).Keeps (Ctx.InPhase ph) := by
  induction n generalizing i l with
  | zero => exact h
  | succ n ih => exact readByte_inPhase (fun b x hx => ih (l := scratchPut i b x) hx.pump) h

theorem copyIn_inPhase (h : l.InPhase ph) : (copyIn l).Keeps (Ctx.InPhase ph) := by
  unfold copyIn
  simp only
  split
  · exact copyBytesIn_inPhase h
  · exact h

theorem stage_inPhase (h : l.InPhase ph) : (stage l).Keeps (Ctx.InPhase ph) := by
  have hdma : (andThen (restartLoad l) fun l => andThen (copyIn (dmaMap l)) fun l => .next (dmaProgram l)).Keeps
      (Ctx.InPhase ph) :=
    (restartLoad_inPhase h).andThen fun x h1 =>
      (copyIn_inPhase (l := dmaMap x) h1).andThen fun _ h2 => h2.regWrite.rmw.rmw
  unfold stage
  split
  · exact (loadSlots_inPhase h).andThen fun _ hm => hm
  · exact restartLoad_inPhase h
  · exact hdma
  · exact hdma

theorem arm_inPhase (h : l.InPhase ph) : (arm l).InPhase ph := by
  unfold arm
  simp only
  split
  · exact h.rmw.rmw
  · exact h.rmw

theorem start_inPhase (h : l.InPhase ph) : (start l).Keeps (Ctx.InPhase ph) := by
  unfold start dmaGo
  split_ifs
  · exact h.rmw
  · trivial
  · exact h.rmw

/-- Every step of the sequencer but S11 keeps the phase (R192). -/
theorem seqStep_inPhase (hseq : l.dev.seq ≠ .s11) (h : l.InPhase ph) : (seqStep l).Keeps (Ctx.InPhase ph) := by
  unfold seqStep
  cases hq : l.dev.seq with
  | sidle | s0 | s1 | s10 => exact h
  | s2 => exact h.rmw
  | s3 => exact h.rmw.rmw
  | s4 => exact h.rmw.regWrite
  | s5 => exact (stage_inPhase h).andThen fun _ hm => hm
  | s6 => exact h.rmw
  | s7 => exact arm_inPhase h
  | s8 => exact (start_inPhase h).andThen fun _ hm => hm
  | s9 =>
    show (if l.dev.sig then wake l else l).InPhase ph
    split
    · exact h
    · exact h
  | s11 => exact absurd hq hseq

/-! ### S11 leaves the phase -/

/-- In phase `Idle`, with every register of both blocks 0 (R194). -/
def Device.AtBaseline (v : Device) : Prop := v.tp.phase = .idle ∧ v.mb = .zero ∧ v.db = .zero

/-- S11 leaves phase `Idle` and zero registers, also where the sequencer is stuck in its copy-out (R185, R78). -/
theorem exitTransaction_baseline (c : Ctx) : (exitTransaction c).Keeps fun l => l.dev.AtBaseline := by
  have hexit := exiting_ctrlReset c
  have base : ∀ m, Ctx.Exiting c m → m.dev.AtBaseline := fun m hm => ⟨congrArg TP.phase hm.tp, hm.mb, hm.db⟩
  refine (andThen_ends (P := Ctx.Exiting c) ?_ (fun m hm => ?_) base).keeps
  · split
    · exact hexit.dmaFinish
    · exact hexit
  · exact base m hm

/-- A step of the sequencer keeps the phase, or is S11. -/
theorem seqMove_phase (c : Ctx) :
    (seqMove c).Keeps (Ctx.InPhase c.dev.tp.phase) ∨
      c.dev.seq = .s11 ∧ (seqMove c).Keeps fun l => l.dev.AtBaseline := by
  unfold seqMove
  split
  · by_cases hseq : c.dev.seq = .s11
    · refine .inr ⟨hseq, ?_⟩
      rw [seqStep, hseq]
      exact exitTransaction_baseline c
    · exact .inl (seqStep_inPhase hseq rfl)
  · exact .inl rfl

end

/-! ### Another instance beside the one in hand -/

/-- Instance `k` is in the transaction of a command that has just been admitted (R174). -/
structure Device.Admitted (k : Nat) (v : Device) : Prop where
  busy : v.tp.busy = true
  seq : v.seq = .s2
  dev : v.cmdl.args.dev.toNat = k
  phase : v.tp.phase = phaseOf v.cmdl.op

theorem startTransaction_admitted (p : Config.Params) (h : Nat) (c : Cmd) (d : Device) :
    (startTransaction p h c d).Admitted c.args.dev.toNat := ⟨rfl, rfl, rfl, rfl⟩

/-- Instance `k`, which was `d`, has its snapshot still, or it was idle and a command among the moves of `Q` was admitted. -/
def Device.Follows (k : Nat) (Q : EnvMove → Prop) (d v : Device) : Prop :=
  v.tp = d.tp ∨ (d.tp.busy = false ∧ v.Admitted k ∧ ∃ h, Q (.command h v.cmdl))

/-- An operation of an environment agent that leaves the snapshot, the command and a sequencer at S2. -/
structure KeepsEntry (f : Ctx → Ctx) : Prop extends Harmless f where
  entry : ∀ l, l.dev.seq = .s2 → (f l).dev.seq = .s2

theorem EnvFrame.seq {l m : Ctx} (h : EnvFrame l m) : m.dev.seq = l.dev.seq := by
  have hs := h.programme
  simp only [Device.SameProgramme] at hs
  simp [hs]

theorem keepsEntry_be (m : BeMove) : KeepsEntry fun l => l.mapDev (beMove l.params m) :=
  ⟨harmless_be m, fun l h => (beMove_frame m l).seq.trans h⟩

theorem keepsEntry_deMove (m : DeMove) : KeepsEntry (deMove m) :=
  ⟨harmless_deMove m, fun l h => (deMove_frame m l).seq.trans h⟩

theorem keepsEntry_answerMap (r : Option Word) : KeepsEntry (answerMap r) := ⟨harmless_answerMap r, fun _ h => h⟩

/-- The timeout moves a sequencer at S9 only (R284). -/
theorem keepsEntry_timerExpire : KeepsEntry timerExpire := ⟨harmless_timerExpire, fun l h => by simp [timerExpire, h]⟩

section
variable {k : Nat} {Q : EnvMove → Prop} {d : Device} {l : Ctx}

theorem Device.Follows.keepsEntry {f : Ctx → Ctx} (hf : KeepsEntry f) (h : d.Follows k Q l.dev) :
    d.Follows k Q (f l).dev := by
  obtain ⟨htp, hcmdl, -⟩ := hf.same l
  refine h.imp htp.trans fun ⟨hidle, ha, hQ⟩ => ⟨hidle, ?_, hcmdl ▸ hQ⟩
  exact ⟨htp ▸ ha.busy, hf.entry l ha.seq, hcmdl ▸ ha.dev, by rw [htp, hcmdl, ha.phase]⟩

/-- Instance `k`, which was `d`, is not the one in hand and follows `d`. -/
structure Ctx.Watches (k : Nat) (Q : EnvMove → Prop) (d : Device) (l : Ctx) : Prop where
  placed : l.Placed
  other : k ≠ l.id
  seen : ∃ v, l.devices[k]? = some v ∧ d.Follows k Q v

/-- Where instance `k` stands as it stood, it is still seen to follow. -/
theorem Ctx.Watches.of_beside {m : Ctx} (h : l.Watches k Q d) (hb : m.Beside k l.devices) : m.Watches k Q d :=
  ⟨hb.placed, hb.other, hb.same ▸ h.seen⟩

theorem Ctx.Watches.beside (h : l.Watches k Q d) : l.Beside k l.devices := ⟨h.placed, h.other, rfl, rfl⟩

/-- Instance `k` is put back as one that follows. -/
theorem Ctx.Watches.setPeer {v : Device} (h : l.Watches k Q d) (hv : d.Follows k Q v) : (l.setPeer k v).Watches k Q d where
  placed := by simpa [Ctx.Placed] using h.placed
  other := by simpa using h.other
  seen := by
    obtain ⟨w, hw, -⟩ := h.seen
    obtain ⟨hk, -⟩ := List.getElem?_eq_some_iff.mp hw
    exact ⟨v, by rw [Ctx.devices_setPeer h.placed h.other, List.getElem?_set_self hk], hv⟩

/-- A move of an environment agent of instance `k`. -/
theorem Ctx.Watches.onPeer {f : Ctx → Ctx} (hf : KeepsEntry f) (h : l.Watches k Q d) : (onPeer k f l).Watches k Q d := by
  rcases onPeer_cases k f l with ⟨-, e⟩ | ⟨v, hp, e⟩ <;> rw [e]
  · exact h
  · obtain ⟨w, hw, hfol⟩ := h.seen
    obtain rfl : v = w := by
      rw [Ctx.peer?_eq h.placed h.other, hw] at hp
      exact (Option.some.inj hp).symm
    exact (h.of_beside (h.beside.own l.dev _ _)).setPeer (hfol.keepsEntry (l := { l with id := k, dev := v }) hf)

/-- A command for instance `k` is answered, or it is admitted, and then `d` was not busy. -/
theorem Ctx.Watches.hostCommand {host : Nat} {c : Cmd} (hk : c.args.dev.toNat = k) (hQ : Q (.command host c))
    (h : l.Watches k Q d) : (hostCommand host c l).Watches k Q d := by
  rcases hostCommand_cases host c l with e | ⟨r, e⟩ | ⟨hid, -, v, hp, hb, -, e⟩ <;> rw [e]
  · exact h
  · exact h.of_beside (h.beside.answer host r)
  · subst hk
    obtain ⟨w, hw, hfol⟩ := h.seen
    rw [Ctx.peer?_eq h.placed h.other, hw] at hp
    obtain rfl : w = v := Option.some.inj hp
    have hidle : d.tp.busy = false := hfol.elim (fun htp => htp ▸ hb) (·.1)
    have h' : ({ l with callCmd := c, host := host } : Ctx).Watches c.args.dev.toNat Q d := ⟨h.placed, h.other, h.seen⟩
    exact h'.setPeer (.inr ⟨hidle, startTransaction_admitted _ _ _ _, host, hQ⟩)

theorem Ctx.Watches.envMove {m : EnvMove} (hm : Q m) (h : l.Watches k Q d) : (envMove l m).Watches k Q d := by
  by_cases howner : m.owner = some k
  · have any : ∀ {j : Nat} {f : Ctx → Ctx}, some j = some k → KeepsEntry f → (onAny j f l).Watches k Q d := by
      intro j f hj hf
      obtain rfl := Option.some.inj hj
      rw [onAny, if_neg h.other]
      exact h.onPeer hf
    cases m with
    | be j b => exact any (f := fun l => l.mapDev (beMove l.params b)) howner (keepsEntry_be b)
    | de j e => exact any howner (keepsEntry_deMove e)
    | mapAnswer j r => exact any howner (keepsEntry_answerMap r)
    | expire j =>
      obtain rfl := Option.some.inj howner
      show (if j = l.id then l else Machine.onPeer j timerExpire l).Watches j Q d
      rw [if_neg h.other]
      exact h.onPeer keepsEntry_timerExpire
    | command host c => exact h.hostCommand (Option.some.inj howner) hm
    | store a b => cases howner
    | free a => cases howner
  · exact h.of_beside (h.beside.envMove howner)

/-- An agent of one instance changes the snapshot of another only by a command that falls between its accesses. -/
theorem watches_stable (k : Nat) (Q : EnvMove → Prop) (d : Device) :
    Stable fun l => l.Watches k Q d ∧ l.dev.Gaps Q where
  own := fun _ v mem trace hi ⟨h, hg⟩ => ⟨h.of_beside (h.beside.own v mem trace), fun moves hm => hg moves (hi ▸ hm)⟩
  pump := fun l ⟨h, hg⟩ =>
    ⟨pump_induct (fun _ _ h => h.of_beside (h.beside.own _ _ _)) (fun _ _ hm h => h.envMove hm) l hg h, pump_gaps hg⟩

end

/-! ### Steps of the machine -/

/-- The move falls between the accesses of some instance. -/
def State.Between (s : State) (m : EnvMove) : Prop := ∃ e ∈ s.devs, ∃ moves ∈ e.inter, m ∈ moves

/-- How one move takes instance `k` from `d` to `v`, as far as its phase goes. -/
inductive PhaseStep (s : State) (m : Move) (k : Nat) (d v : Device) : Prop
  /-- The phase stands. -/
  | kept (hp : v.tp.phase = d.tp.phase)
  /-- A command of the schedule is admitted. -/
  | issued (h : Nat) (ws : List Word) (hm : m = .host h ws) (hw : decode ⟨.cmd, ws⟩ = .ok v.cmdl.instr)
      (hidle : d.tp.busy = false) (ha : v.Admitted k)
  /-- A command that falls between accesses is admitted. -/
  | between (h : Nat) (hb : s.Between (.command h v.cmdl)) (hidle : d.tp.busy = false) (ha : v.Admitted k)
  /-- The sequencer has left at S11. -/
  | exit (hm : m = .seq k) (hseq : d.seq = .s11) (hv : v.AtBaseline)

theorem PhaseStep.of_tp {s : State} {m : Move} {k : Nat} {d v : Device} (h : v.tp = d.tp) : PhaseStep s m k d v :=
  .kept (congrArg TP.phase h)

theorem Device.Follows.phaseStep {s : State} {k : Nat} {d v : Device} (h : d.Follows k s.Between v) (m : Move) :
    PhaseStep s m k d v := by
  rcases h with htp | ⟨hidle, ha, host, hb⟩
  · exact .of_tp htp
  · exact .between host hb hidle ha

theorem halt_atBaseline {ag : Agent} {v : Device} (h : v.AtBaseline) : (halt ag v).AtBaseline := by
  cases ag <;> exact h

theorem halt_tp (ag : Agent) (v : Device) : (halt ag v).tp = v.tp := by cases ag <;> rfl

section
variable {s t : State} {ag : Agent} {j k : Nat} {d v : Device} (hd : s.devs[k]? = some d) (hv : t.devs[k]? = some v)
include hd hv

/-- Where the instances stand, so does the snapshot. -/
theorem tp_of_same (h : t.devs[k]? = s.devs[k]?) : v.tp = d.tp := by
  rw [hd, hv] at h
  exact congrArg Device.tp (Option.some.inj h)

/-- What a move of instance `k` keeps of the instance, the machine holds of it. -/
theorem moveOn_self {f : Ctx → Res} {R : Device → Prop} (hplace : (f (s.ctx k d)).Keeps fun l => l.Placed ∧ l.id = k)
    (hf : (f (s.ctx k d)).Keeps fun l => R l.dev) (hR : ∀ v, R v → R (halt ag v)) (h : moveOn ag k f s = .next t) : R v := by
  rcases moveOn_next h with ⟨hn, -⟩ | ⟨d', l, hd', hl⟩
  · rw [hd] at hn
    cases hn
  · obtain rfl : d = d' := Option.some.inj (hd.symm.trans hd')
    have put : ∀ m : Ctx, m.Placed ∧ m.id = k → t = s.putCtx m → v = m.dev := by
      rintro m ⟨hp, rfl⟩ rfl
      exact Option.some.inj (hv.symm.trans (State.putCtx_getElem? hp))
    rcases hl with ⟨e, ht⟩ | ⟨e, ht⟩ <;> rw [e] at hplace hf
    · rw [put l hplace ht]
      exact hf
    · rw [put (l.mapDev (halt ag)) hplace ht]
      exact hR _ hf

/-- A move of an environment agent of any instance keeps every snapshot. -/
theorem envOn_tp {f : Ctx → Ctx} (hf : Harmless f) (h : envOn j f s = .next t) : v.tp = d.tp := by
  by_cases hjk : j = k
  · subst hjk
    refine moveOn_self (f := fun l => .next (f l)) (R := fun x => x.tp = d.tp) hd hv ?_ (hf.same (s.ctx j d)).1
      (fun x hx => (halt_tp _ x).trans hx) h
    obtain ⟨w, mem, trace, e⟩ := hf.onOwn (s.ctx j d)
    show (f (s.ctx j d)).Placed ∧ (f (s.ctx j d)).id = j
    rw [e]
    exact ⟨State.ctx_placed hd, rfl⟩
  · obtain ⟨hsame, -, -⟩ := envOn_leaves hf.onOwn hjk h
    exact tp_of_same hd hv hsame

/-- A step of an agent of another instance. -/
theorem moveOn_follows {f : Ctx → Res} (hf : ∀ P, Stable P → ∀ l, P l → (f l).Keeps P) (hjk : k ≠ j)
    (h : moveOn ag j f s = .next t) : d.Follows k s.Between v := by
  rcases moveOn_next h with ⟨-, rfl⟩ | ⟨e, l, he, hl⟩
  · exact .inl (tp_of_same hd hv rfl)
  · have h0 : (s.ctx j e).Watches k s.Between d :=
      ⟨State.ctx_placed he, hjk, d, (congrArg (·[k]?) (State.ctx_devices he)).trans hd, .inl rfl⟩
    have hgaps : e.Gaps s.Between := fun moves hmoves m hm => ⟨e, List.mem_of_getElem? he, moves, hmoves, hm⟩
    have hkeeps := hf _ (watches_stable k s.Between d) (s.ctx j e) ⟨h0, hgaps⟩
    have put : ∀ m : Ctx, m.Watches k s.Between d → t = s.putCtx m → d.Follows k s.Between v := by
      rintro m hm rfl
      obtain ⟨w, hw, hfol⟩ := hm.seen
      exact Option.some.inj (hw.symm.trans hv) ▸ hfol
    rcases hl with ⟨hn, ht⟩ | ⟨hn, ht⟩ <;> rw [hn] at hkeeps
    · exact put l hkeeps.1 ht
    · exact put _ (hkeeps.1.of_beside (hkeeps.1.beside.own _ _ _)) ht

/-- A command at the port keeps every snapshot, or starts the instance it names. -/
theorem commandPort_phaseStep {h : Nat} {ws : List Word} (ht : commandPort h ws s = .next t) :
    PhaseStep s (.host h ws) k d v := by
  have same : t.devs[k]? = s.devs[k]? → PhaseStep s (.host h ws) k d v := fun e => .of_tp (tp_of_same hd hv e)
  unfold commandPort at ht
  split at ht
  · injection ht with ht
    exact same (ht ▸ rfl)
  split at ht
  · rename_i i hi
    obtain ⟨c, rfl, -⟩ := decode_cmd_owner hi h
    rcases exec_command_cases c { s with host := h } with ⟨r, -, e⟩ | ⟨w, hw, hidle, e⟩ <;> rw [e] at ht <;>
      injection ht with ht
    · exact same (ht ▸ rfl)
    · have hdevs : t.devs = s.devs.set c.args.dev.toNat (startTransaction s.params h c w) := ht ▸ rfl
      by_cases hk : c.args.dev.toNat = k
      · subst hk
        obtain rfl : w = d := Option.some.inj (hw.symm.trans hd)
        obtain ⟨hlt, -⟩ := List.getElem?_eq_some_iff.mp hd
        rw [hdevs, List.getElem?_set_self hlt] at hv
        obtain rfl := Option.some.inj hv
        exact .issued h ws rfl hi hidle (startTransaction_admitted _ _ _ _)
      · exact same (by rw [hdevs, List.getElem?_set_ne hk])
  · cases ht

/-- A step of the sequencer of instance `k` itself. -/
theorem seq_phaseStep (h : moveOn .seq k seqMove s = .next t) : PhaseStep s (.seq k) k d v := by
  have hplace := seqMove_stable (placed_stable k) (l := s.ctx k d) ⟨State.ctx_placed hd, rfl⟩
  rcases seqMove_phase (s.ctx k d) with hf | ⟨hseq, hf⟩
  · exact .kept (moveOn_self (R := fun x => x.tp.phase = d.tp.phase) hd hv hplace hf
      (fun x hx => (congrArg TP.phase (halt_tp _ x)).trans hx) h)
  · exact .exit rfl hseq (moveOn_self hd hv hplace hf (fun _ => halt_atBaseline) h)

/-- A handler run of instance `k` itself. -/
theorem irq_phaseStep (h : moveOn .iep k irqMove s = .next t) : PhaseStep s (.irq k) k d v := by
  have hplace := irqMove_stable (placed_stable k) (l := s.ctx k d) ⟨State.ctx_placed hd, rfl⟩
  exact .kept (moveOn_self (R := fun x => x.tp.phase = d.tp.phase) hd hv hplace (irqMove_inPhase rfl)
    (fun x hx => (congrArg TP.phase (halt_tp _ x)).trans hx) h)

/-- What one move does to the phase of an instance. -/
theorem runMove_phaseStep {m : Move} (h : runMove m s = .next t) : PhaseStep s m k d v := by
  cases m with
  | host hst ws => exact commandPort_phaseStep hd hv h
  | hostStore a b => injection h with e; exact .of_tp (tp_of_same hd hv (e ▸ rfl))
  | hostFree a => injection h with e; exact .of_tp (tp_of_same hd hv (e ▸ rfl))
  | mapAnswer j r => exact .of_tp (envOn_tp hd hv (harmless_answerMap r) h)
  | tmr j => exact .of_tp (envOn_tp hd hv harmless_timerExpire h)
  | be j b => exact .of_tp (envOn_tp hd hv (harmless_be b) h)
  | de j e => exact .of_tp (envOn_tp hd hv (harmless_deMove e) h)
  | seq j =>
    by_cases hjk : k = j
    · subst hjk
      exact seq_phaseStep hd hv h
    · exact (moveOn_follows hd hv (fun _ hP _ h => seqMove_stable hP h) hjk h).phaseStep _
  | irq j =>
    by_cases hjk : k = j
    · subst hjk
      exact irq_phaseStep hd hv h
    · exact (moveOn_follows hd hv (fun _ hP _ h => irqMove_stable hP h) hjk h).phaseStep _

end

/-- An instance that is not busy is in phase `Idle` (R192). -/
theorem Device.Control.phase_idle {p : Config.Params} {d : Device} (h : d.Control p) (hb : d.tp.busy = false) :
    d.tp.phase = .idle := by
  by_contra hp
  rw [(h.phase_active hp).1] at hb
  cases hb

/-- Settles O55: an instance that admits a command was not busy, hence in phase `Idle`, and S11 ends in phase `Idle`. -/
theorem phaseChangesPassThroughIdle : Obligations.PhaseChangesPassThroughIdle := by
  unfold Obligations.PhaseChangesPassThroughIdle
  intro s t k d v hinv hstep hd hv hne
  have hidle := (hinv.1 d (List.mem_of_getElem? hd)).phase_idle
  cases hagenda : s.agenda with
  | nil =>
    rw [step_nil hagenda] at hstep
    injection hstep with e
    exact absurd (congrArg TP.phase (tp_of_same hd hv (e ▸ rfl))) hne
  | cons m rest =>
    rw [step_cons hagenda] at hstep
    cases runMove_phaseStep (s := { s with agenda := rest }) hd hv hstep with
    | kept hp => exact absurd hp hne
    | issued h ws hm hw hb ha =>
      exact .inl ⟨hidle hb, hb, ha.busy, ha.seq, ha.dev, ha.phase, .inl ⟨h, ws, rest, hm ▸ rfl, hw⟩⟩
    | between h hc hb ha =>
      obtain ⟨e, he, moves, hmoves, hcommand⟩ := hc
      exact .inl ⟨hidle hb, hb, ha.busy, ha.seq, ha.dev, ha.phase, .inr ⟨e, moves, h, he, hmoves, hcommand⟩⟩
    | exit hm hseq hbase =>
      obtain ⟨hphase, hmb, hdb⟩ := hbase
      exact .inr ⟨hphase, hmb, hdb, rest, hm ▸ rfl, hseq⟩

end Sys2Proof.Machine
end

section
/-! PROOFS. R224 to R229, R231, R233 to R235, R238 to R242: the events that touch no host memory. The chains decide which of them
acts; one that acts marks success or runs the error procedure, every other is recorded in its flag. -/

namespace Sys2Proof.Machine

/-! ### Which arm is reached -/

/-- The chains reach the error arms: a write phase with no active-done, or a read phase (R225, R232). -/
def Device.ErrorsReached (d : Device) : Prop :=
  ((d.tp.phase = .write ∨ d.tp.phase = .dmaWrite) ∧ d.tp.irq.activeDone = false) ∨ d.tp.phase = .read ∨
    d.tp.phase = .dmaRead

section
variable {d : Device}

theorem dispatchArm_closed (h : d.sig = true ∨ d.tp.phase = .idle) : dispatchArm d = .none := by
  rcases h with h | h <;> simp [dispatchArm, h]

theorem dispatchArm_write (hs : d.sig = false) (hp : d.tp.phase = .write ∨ d.tp.phase = .dmaWrite) :
    dispatchArm d = writeArm d.tp := by
  rcases hp with h | h <;> simp [dispatchArm, hs, h]

theorem dispatchArm_read (hs : d.sig = false) (hp : d.tp.phase = .read ∨ d.tp.phase = .dmaRead) :
    dispatchArm d = readArm d.tp := by
  rcases hp with h | h <;> simp [dispatchArm, hs, h]

theorem dispatchArm_done (hs : d.sig = false) (hp : d.tp.phase = .write ∨ d.tp.phase = .dmaWrite)
    (h : d.tp.irq.activeDone = true) : dispatchArm d = .done := by
  simp [dispatchArm_write hs hp, writeArm, h]

theorem dispatchArm_nack (hs : d.sig = false) (hp : d.ErrorsReached)
    (h : d.tp.irq.addrNack = true ∨ d.tp.irq.dataNack = true) : dispatchArm d = .nack := by
  rcases hp with ⟨hp, ha⟩ | hp
  · simp [dispatchArm_write hs hp, writeArm, ha, h]
  · simp [dispatchArm_read hs hp, readArm, h]

theorem dispatchArm_sclHold (hs : d.sig = false) (hp : d.ErrorsReached) (h1 : d.tp.irq.addrNack = false)
    (h2 : d.tp.irq.dataNack = false) (h : d.tp.irq.sclHold = true) : dispatchArm d = .sclHold := by
  rcases hp with ⟨hp, ha⟩ | hp
  · simp [dispatchArm_write hs hp, writeArm, ha, h1, h2, h]
  · simp [dispatchArm_read hs hp, readArm, h1, h2, h]

theorem dispatchArm_fifoEmpty (hs : d.sig = false) (hp : d.tp.phase = .write ∨ d.tp.phase = .dmaWrite)
    (h0 : d.tp.irq.activeDone = false) (h1 : d.tp.irq.addrNack = false) (h2 : d.tp.irq.dataNack = false)
    (h3 : d.tp.irq.sclHold = false) (h : d.tp.irq.fifoEmpty = true) : dispatchArm d = .fifoEmpty := by
  simp [dispatchArm_write hs hp, writeArm, h0, h1, h2, h3, h]

theorem dispatchArm_overflow (hs : d.sig = false) (hp : d.tp.phase = .read ∨ d.tp.phase = .dmaRead)
    (h1 : d.tp.irq.addrNack = false) (h2 : d.tp.irq.dataNack = false) (h3 : d.tp.irq.sclHold = false)
    (h : d.tp.irq.rdOverflow = true) : dispatchArm d = .overflow := by
  simp [dispatchArm_read hs hp, readArm, h1, h2, h3, h]

/-- The FIFO arm is of the write chain, the overflow arm of the read chain (R225, R232). -/
theorem dispatchArm_ne_fifoEmpty (hp : d.tp.phase = .read ∨ d.tp.phase = .dmaRead) : dispatchArm d ≠ .fifoEmpty := by
  cases hs : d.sig with
  | true => simp [dispatchArm_closed (.inl hs)]
  | false => rw [dispatchArm_read hs hp]; unfold readArm; split_ifs <;> simp

theorem dispatchArm_ne_refill (hp : d.tp.phase ≠ .write) : dispatchArm d ≠ .refill :=
  fun h => hp (dispatchArm_refill h).2.1

theorem dispatchArm_ne_overflow (hp : d.tp.phase = .write ∨ d.tp.phase = .dmaWrite) : dispatchArm d ≠ .overflow := by
  cases hs : d.sig with
  | true => simp [dispatchArm_closed (.inl hs)]
  | false => rw [dispatchArm_write hs hp]; unfold writeArm; split_ifs <;> simp

end

/-! ### What an event comes to, by the arm its flags reach -/

section
variable {l : Ctx}

theorem evAddrNack_acting (h : dispatchArm (setIrq (fun f => { f with addrNack := true }) l).dev = .nack) :
    evAddrNack l = terminate .remoteNack (setIrq (fun f => { f with addrNack := true }) l) := by
  simp only [evAddrNack, nackAct, h]

theorem evDataNack_acting (h : dispatchArm (setIrq (fun f => { f with dataNack := true }) l).dev = .nack) :
    evDataNack l = terminate .remoteNack (setIrq (fun f => { f with dataNack := true }) l) := by
  simp only [evDataNack, nackAct, h]

theorem evSclHold_acting (h : dispatchArm (setIrq (fun f => { f with sclHold := true }) l).dev = .sclHold) :
    evSclHold l = terminate .clockHeldTooLong (setIrq (fun f => { f with sclHold := true }) l) := by
  simp only [evSclHold, h]

theorem evFifoEmpty_acting (h : dispatchArm (setIrq (fun f => { f with fifoEmpty := true }) l).dev = .fifoEmpty) :
    evFifoEmpty l = terminate .fifoEmpty (setIrq (fun f => { f with fifoEmpty := true }) l) := by
  simp only [evFifoEmpty, h]

theorem evRdOverflow_acting (h : dispatchArm (setIrq (fun f => { f with rdOverflow := true }) l).dev = .overflow) :
    evRdOverflow l = terminate .readOverflow (setIrq (fun f => { f with rdOverflow := true }) l) := by
  simp only [evRdOverflow, h]

theorem evFifoEmpty_recorded (h : dispatchArm (setIrq (fun f => { f with fifoEmpty := true }) l).dev ≠ .fifoEmpty) :
    evFifoEmpty l = setIrq (fun f => { f with fifoEmpty := true }) l := by
  simp only [evFifoEmpty]

theorem evEmptyThreshold_recorded (h : dispatchArm (setIrq (fun f => { f with emptyThreshold := true }) l).dev ≠ .refill) :
    evEmptyThreshold l = .next (setIrq (fun f => { f with emptyThreshold := true }) l) := by
  simp only [evEmptyThreshold]

theorem evRdOverflow_recorded (h : dispatchArm (setIrq (fun f => { f with rdOverflow := true }) l).dev ≠ .overflow) :
    evRdOverflow l = setIrq (fun f => { f with rdOverflow := true }) l := by
  simp only [evRdOverflow]

end

/-! ### Recording on the machine -/

theorem onInstanceDo_setIrq {s : State} {d : Device} {g : Ctx → Ctx} {f : IrqFlags → IrqFlags} (hd : s.InHand d)
    (hg : g (s.ctx s.cur d) = setIrq f (s.ctx s.cur d)) :
    onInstanceDo s.cur g s = .next (s.become { d with tp := { d.tp with irq := f d.tp.irq } } s.mem []) :=
  onInstanceDo_become hd hg

theorem onInstance_setIrq {s : State} {d : Device} {ag : Agent} {g : Ctx → Res} {f : IrqFlags → IrqFlags} (hd : s.InHand d)
    (hg : g (s.ctx s.cur d) = .next (setIrq f (s.ctx s.cur d))) :
    onInstance ag s.cur g s = .next (s.become { d with tp := { d.tp with irq := f d.tp.irq } } s.mem []) :=
  onInstance_become ag hd hg

/-- Settles O25: the six events without an action only record, and so do the events of the other chain's arms. -/
theorem recordedOnlyEvents : Obligations.RecordedOnlyEvents := by
  unfold Obligations.RecordedOnlyEvents
  intro s d hd
  refine ⟨onInstanceDo_become hd rfl, onInstanceDo_become hd rfl, onInstanceDo_become hd rfl, onInstanceDo_become hd rfl,
    onInstanceDo_become hd rfl, onInstanceDo_become hd rfl, fun hp => ⟨?_, ?_⟩, fun hp => ?_, fun hp => ?_⟩
  · exact onInstanceDo_setIrq hd (evFifoEmpty_recorded (dispatchArm_ne_fifoEmpty hp))
  · have hw : d.tp.phase ≠ .write := by rcases hp with h | h <;> simp [h]
    exact onInstance_setIrq hd (evEmptyThreshold_recorded (dispatchArm_ne_refill hw))
  · exact onInstanceDo_setIrq hd (evRdOverflow_recorded (dispatchArm_ne_overflow hp))
  · have hw : d.tp.phase ≠ .write := by simp [hp]
    exact onInstance_setIrq hd (evEmptyThreshold_recorded (dispatchArm_ne_refill hw))

/-- Settles O27: after the signal and in phase `Idle` no arm is reached, and only the flag is recorded. -/
theorem eventsAfterSignalActOnNothing : Obligations.EventsAfterSignalActOnNothing := by
  unfold Obligations.EventsAfterSignalActOnNothing
  intro s d hd hclosed
  have hnone : ∀ f, dispatchArm (setIrq f (s.ctx s.cur d)).dev = .none := fun f => dispatchArm_closed hclosed
  have hburst : evBurstSlot (s.ctx s.cur d) = .next (s.ctx s.cur d) := by
    simp only [evBurstSlot, State.ctx_dev, dispatchArm_closed hclosed]
  refine ⟨?_, ?_, ?_, ?_, ?_, ?_, ?_, ?_⟩
  · exact onInstance_setIrq (f := fun f => { f with activeDone := true }) hd (by simp only [evActiveDone, hnone])
  · exact onInstanceDo_setIrq (f := fun f => { f with addrNack := true }) hd (by simp only [evAddrNack, nackAct, hnone])
  · exact onInstanceDo_setIrq (f := fun f => { f with dataNack := true }) hd (by simp only [evDataNack, nackAct, hnone])
  · exact onInstance_setIrq hd (evEmptyThreshold_recorded (by simp [hnone]))
  · exact onInstanceDo_setIrq hd (evFifoEmpty_recorded (by simp [hnone]))
  · exact onInstanceDo_setIrq (f := fun f => { f with sclHold := true }) hd (by simp only [evSclHold, hnone])
  · exact onInstanceDo_setIrq hd (evRdOverflow_recorded (by simp [hnone]))
  · show onInstance .iep s.cur evBurstSlot s = _
    rw [onInstance_inHand hd, hburst]
    exact congrArg Host.Outcome.next (State.putCtx_ctx hd)

/-! ### Success -/

/-- Settles O17: with active-done recorded the write chain's first arm is success. -/
theorem activeDoneEndsWrite : Obligations.ActiveDoneEndsWrite := by
  unfold Obligations.ActiveDoneEndsWrite
  intro s d hd hs hp
  have harm : dispatchArm (setIrq (fun f => { f with activeDone := true }) (s.ctx s.cur d)).dev = .done :=
    dispatchArm_done hs hp rfl
  exact onInstance_become .iep hd (by simp only [evActiveDone, harm]; rfl)

/-- Settles O26: before the signal in a DMA phase the done flag is success; else it is recorded. -/
theorem dmaDoneCompletes : Obligations.DmaDoneCompletes := by
  unfold Obligations.DmaDoneCompletes
  intro s d hd
  have hact : evDmaDone (s.ctx s.cur d) =
      if !d.sig && d.tp.phase.isDma then succeed (setDma (fun f => { f with done := true }) (s.ctx s.cur d))
      else setDma (fun f => { f with done := true }) (s.ctx s.cur d) := rfl
  refine ⟨fun hs hp => onInstanceDo_become hd ?_, fun h => onInstanceDo_become hd ?_⟩
  · have hdma : d.tp.phase.isDma = true := by rcases hp with h | h <;> rw [h] <;> rfl
    rw [hact, hs, hdma]
    rfl
  · have hno : (!d.sig && d.tp.phase.isDma) = false := by
      rcases h with h | h | h | h <;> simp [h, Phase.isDma]
    rw [hact, hno]
    rfl

/-! ### The error procedure with nothing between its accesses -/

/-- The instance after the error procedure (R231): the flags with active-done forced, the result, the signal, and the registers
and engines reset. -/
def Device.terminated (e : Result) (d : Device) : Device :=
  { d with
    tp := { d.tp with result := e, irq := { d.tp.irq with activeDone := true } }
    sig := true, mb := .zero, db := .zero, beActive := false, deActive := false }

theorem terminate_quiet {e : Result} {l : Ctx} (hq : l.dev.inter = []) :
    terminate e l =
      { l with dev := l.dev.terminated e, trace := .wrote l.id .mCtrl (peek .mCtrl l.dev ||| 1) :: l.trace } :=
  ctrlReset_quiet (l := (l.mapTP fun tp =>
    { tp with result := e, irq := { tp.irq with activeDone := true } }).mapDev signal) hq

/-- An event that records its flag and runs the error procedure, on the machine. -/
theorem onInstanceDo_terminate {s : State} {d : Device} {e : Result} {g : Ctx → Ctx} {f : IrqFlags → IrqFlags}
    (hd : s.InHand d) (hq : d.Quiet) (hg : g (s.ctx s.cur d) = terminate e (setIrq f (s.ctx s.cur d))) :
    onInstanceDo s.cur g s =
      .next (s.become (Device.terminated e { d with tp := { d.tp with irq := f d.tp.irq } }) s.mem
        [.wrote s.cur .mCtrl (peek .mCtrl d ||| 1)]) :=
  onInstanceDo_become hd (hg.trans (terminate_quiet (l := setIrq f (s.ctx s.cur d)) hq))

/-- Settles O18: a NACK flag selects the error arm in both chains. -/
theorem nackEventsTerminate : Obligations.NackEventsTerminate := by
  unfold Obligations.NackEventsTerminate
  intro s d hd hq hs hp
  constructor
  · exact onInstanceDo_terminate hd hq (evAddrNack_acting (dispatchArm_nack hs hp (.inl rfl)))
  · exact onInstanceDo_terminate hd hq (evDataNack_acting (dispatchArm_nack hs hp (.inr rfl)))

/-- Settles O19: with no NACK flag the clock-hold flag selects its arm in both chains. -/
theorem clockHoldTerminates : Obligations.ClockHoldTerminates := by
  unfold Obligations.ClockHoldTerminates
  intro s d hd hq hs hp h1 h2
  exact onInstanceDo_terminate hd hq (evSclHold_acting (dispatchArm_sclHold hs hp h1 h2 rfl))

/-- Settles O20: with no higher flag each of the two selects the arm of its chain. -/
theorem fifoEmptyAndOverflowTerminate : Obligations.FifoEmptyAndOverflowTerminate := by
  unfold Obligations.FifoEmptyAndOverflowTerminate
  intro s d hd hq hs h1 h2 h3
  refine ⟨fun hp h0 => ?_, fun hp => ?_⟩
  · exact onInstanceDo_terminate hd hq (evFifoEmpty_acting (dispatchArm_fifoEmpty hs hp h0 h1 h2 h3 rfl))
  · exact onInstanceDo_terminate hd hq (evRdOverflow_acting (dispatchArm_overflow hs hp h1 h2 h3 rfl))

/-! ### The error procedure whatever falls between its accesses -/

/-- An operation of the instance in hand that leaves it where it stands leaves what it made of it in hand. -/
theorem onInstanceDo_inHand_after {s : State} {d : Device} {f : Ctx → Ctx} (hd : s.InHand d)
    (hf : (f (s.ctx s.cur d)).Placed ∧ (f (s.ctx s.cur d)).id = s.cur) :
    ∃ t, onInstanceDo s.cur f s = .next t ∧ t.devs[s.cur]? = some (f (s.ctx s.cur d)).dev :=
  ⟨_, onInstanceDo_inHand hd f, by simpa only [hf.2] using State.putCtx_getElem? (s := s) hf.1⟩

/-- The error procedure from any instance: its accesses are those of the controller reset. -/
theorem terminate_dev (e : Result) (l : Ctx) :
    ∃ v : Device, Device.SameProgramme
        { l.dev with tp := { l.dev.tp with result := e, irq := { l.dev.tp.irq with activeDone := true } }, sig := true } v ∧
      (terminate e l).dev = resetController v := by
  obtain ⟨v, hsame, -, hdev, -⟩ := rmw_reset ((l.mapTP fun tp =>
    { tp with result := e, irq := { tp.irq with activeDone := true } }).mapDev signal)
  exact ⟨v, hsame, hdev⟩

/-- An event that records its flag and runs the error procedure, whatever falls between its accesses. -/
theorem onInstanceDo_terminate_any {s : State} {d : Device} {e : Result} {g : Ctx → Ctx} {f : IrqFlags → IrqFlags}
    (hd : s.InHand d) (hg : g (s.ctx s.cur d) = terminate e (setIrq f (s.ctx s.cur d))) :
    ∃ (t : State) (v : Device),
      onInstanceDo s.cur g s = .next t ∧ t.devs[s.cur]? = some v ∧
      v.tp = { d.tp with irq := v.tp.irq, result := e } ∧ v.tp.irq.activeDone = true ∧ v.sig = true ∧
      v.mb = .zero ∧ v.db = .zero ∧ v.beActive = false ∧ v.deActive = false ∧
      v.seq = d.seq ∧ v.cmdl = d.cmdl ∧ v.res = d.res ∧ v.map = d.map ∧ v.iepRun = d.iepRun := by
  have hplace : (terminate e (setIrq f (s.ctx s.cur d))).Placed ∧ (terminate e (setIrq f (s.ctx s.cur d))).id = s.cur :=
    terminate_stable (placed_stable s.cur) ((placed_stable s.cur).mapTP (l := s.ctx s.cur d) ⟨State.ctx_placed hd, rfl⟩)
  obtain ⟨t, ht, hin⟩ := onInstanceDo_inHand_after (f := g) hd (hg ▸ hplace)
  obtain ⟨v, hsame, hdev⟩ := terminate_dev e (setIrq f (s.ctx s.cur d))
  rw [hg, hdev] at hin
  refine ⟨t, _, ht, hin, ?_⟩
  simp only [Device.SameProgramme] at hsame
  simp [hsame, setIrq]

/-- Settles O21: the event's flag selects the error arm, and the procedure's accesses are those of the controller reset. -/
theorem terminationUnderEngineMoves : Obligations.TerminationUnderEngineMoves := by
  unfold Obligations.TerminationUnderEngineMoves
  intro s d i e hd hs h0 h1 h2 h3 hi
  have hopen : d.tp.phase ≠ .idle → d.ErrorsReached := by
    intro hp
    unfold Device.ErrorsReached
    cases h : d.tp.phase <;> simp_all
  rcases hi with ⟨rfl | rfl, rfl, hp⟩ | ⟨rfl, rfl, hp⟩ | ⟨rfl, rfl, hp⟩ | ⟨rfl, rfl, hp⟩
  · exact onInstanceDo_terminate_any hd (evAddrNack_acting (dispatchArm_nack hs (hopen hp) (.inl rfl)))
  · exact onInstanceDo_terminate_any hd (evDataNack_acting (dispatchArm_nack hs (hopen hp) (.inr rfl)))
  · exact onInstanceDo_terminate_any hd (evSclHold_acting (dispatchArm_sclHold hs (hopen hp) h1 h2 rfl))
  · exact onInstanceDo_terminate_any hd (evFifoEmpty_acting (dispatchArm_fifoEmpty hs hp h0 h1 h2 h3 rfl))
  · exact onInstanceDo_terminate_any hd (evRdOverflow_acting (dispatchArm_overflow hs hp h1 h2 h3 rfl))

/-! ### A handler run after the signal -/

/-- Two snapshots that differ in the flag sets only. -/
def TP.SameButFlags (a b : TP) : Prop := b = { a with irq := b.irq, dma := b.dma }

theorem TP.SameButFlags.trans {a b c : TP} (h1 : a.SameButFlags b) (h2 : b.SameButFlags c) : a.SameButFlags c := by
  unfold TP.SameButFlags at *
  rw [h2, h1]

theorem handlerStatus_tp (l : Ctx) : l.dev.tp.SameButFlags (handlerStatus l).dev.tp := by
  simp [TP.SameButFlags, handlerStatus, setIrq, statusGet, ovfGet, statusClear, pulse_tp, pump_tp, handlerEnter]

theorem handlerStatus_sig (l : Ctx) : (handlerStatus l).dev.sig = l.dev.sig := by
  simp [handlerStatus, setIrq, statusGet, ovfGet, statusClear, pulse_sig, pump_sig, handlerEnter]

/-- The end of a run after the signal: a bare done flag is ignored (R240, R311). -/
theorem handlerDma_signalled {l : Ctx} (h : l.dev.sig = true) :
    l.dev.tp.SameButFlags (handlerDma l).dev.tp ∧ (handlerDma l).dev.sig = true := by
  unfold handlerDma
  simp only [handlerReturn, latch_tp, latch_sig]
  split_ifs
  · simp only [evDmaDone, setDma, Ctx.mapTP_dev]
    split_ifs with hc
    · simp [dmaStatusGetclr, pump_sig, h] at hc
    · simp [TP.SameButFlags, dmaStatusGetclr, pump_tp, pump_sig, h]
  · simp [TP.SameButFlags, setDma, dmaStatusGetclr, pump_tp, pump_sig, h]

/-- After the signal the dispatch selects nothing, and the run completes (R224). -/
theorem handlerRun_signalled {l : Ctx} (h : l.dev.sig = true) : handlerRun l = .next (handlerDma (handlerStatus l)) := by
  have harm : dispatchArm (handlerStatus l).dev = .none := dispatchArm_closed (.inl (by rw [handlerStatus_sig, h]))
  simp only [handlerRun, dispatch, harm, andThen_next]

theorem moveOn_inHand {s : State} {d : Device} {ag : Agent} {f : Ctx → Res} {l : Ctx} (hd : s.InHand d)
    (hf : f (s.ctx s.cur d) = .next l) : moveOn ag s.cur f s = .next (s.putCtx l) := by
  rw [moveOn_some hd, onInstance_inHand hd, hf]

/-- Settles O30: no arm is reached after the signal, and the bare done flag is ignored then. -/
theorem firstTerminalConditionFixesResult : Obligations.FirstTerminalConditionFixesResult := by
  unfold Obligations.FirstTerminalConditionFixesResult
  intro s d rest hagenda hd henabled hs
  let s' : State := { s with agenda := rest }
  have hd' : s'.InHand d := hd
  let c := s'.ctx s.cur d
  have hrun : irqMove c = .next (handlerDma (handlerStatus c)) := by
    simp only [irqMove, show handlerEnabled c.dev = true from henabled, if_true, handlerRun_signalled (l := c) hs]
  have hplace : (irqMove c).Keeps fun l => l.Placed ∧ l.id = s.cur :=
    irqMove_stable (placed_stable s.cur) ⟨State.ctx_placed hd', rfl⟩
  rw [hrun] at hplace
  obtain ⟨htp, hsig⟩ := handlerDma_signalled (l := handlerStatus c) (by rw [handlerStatus_sig]; exact hs)
  refine ⟨s'.putCtx (handlerDma (handlerStatus c)), (handlerDma (handlerStatus c)).dev, ?_, ?_,
    (handlerStatus_tp c).trans htp, hsig⟩
  · rw [step_cons hagenda]
    exact moveOn_inHand hd' hrun
  · simpa only [hplace.2] using State.putCtx_getElem? (s := s') hplace.1

end Sys2Proof.Machine
end

section
/-! PROOFS. R230, R236, R237: the events that move the transfer's bytes, with nothing between their accesses: the finish, the burst
drain and the refill. The drain and the refill are followed turn by turn. -/

namespace Sys2Proof.Machine

/-- Where an operation goes on, having changed its instance, host memory and the trace, the machine becomes that. -/
theorem onInstance_become_mem {s : State} {d v : Device} {mem : Memory} {obs : List Obs} {f : Ctx → Res} (ag : Agent)
    (hd : s.InHand d)
    (hf : f (s.ctx s.cur d) = .next { s.ctx s.cur d with dev := v, mem := mem, trace := obs ++ s.trace }) :
    onInstance ag s.cur f s = .next (s.become v mem obs) := by
  rw [onInstance_inHand hd, hf]
  exact congrArg Host.Outcome.next (State.putCtx_become hd v mem obs)

/-! ### The finish (R237) -/

/-- The finish stores the remainder from the cursor's word-slots on, and is success. -/
theorem finishRead_allocated {l : Ctx} (hq : l.dev.inter = [])
    (ha : Allocated l.mem (l.dev.tp.buf.toNat + l.dev.tp.dataOff.toNat) l.dev.tp.burstRem.toNat) :
    ∃ mem : Memory,
      finishRead l =
        .next (succeed { l.mapTP fun tp => { tp with dataOff := tp.dataOff + BitVec.ofNat 32 l.dev.tp.burstRem.toNat } with
          mem := mem }) ∧
      ∀ a, cellRead mem a =
        let base := l.dev.tp.buf.toNat + l.dev.tp.dataOff.toNat
        if base ≤ a ∧ a < base + l.dev.tp.burstRem.toNat then
          some (wordByte l.dev.mb.data[l.dev.tp.regIdx + Fin.ofNat 8 ((a - base) / 4)] ((a - base) % 4))
        else cellRead l.mem a := by
  by_cases hn : l.dev.tp.burstRem.toNat = 0
  · refine ⟨l.mem, ?_, fun a => (if_neg (by omega)).symm⟩
    unfold finishRead
    simp only [hn, if_true, BitVec.add_zero]
    rfl
  · obtain ⟨bs, e, hl, hb⟩ := gatherWords_quiet (ceilDiv l.dev.tp.burstRem.toNat 4) l.dev.tp.regIdx hq
    have hc : l.dev.tp.burstRem.toNat ≤ 4 * ceilDiv l.dev.tp.burstRem.toNat 4 := by unfold ceilDiv; omega
    have hlen : (bs.take l.dev.tp.burstRem.toNat).length = l.dev.tp.burstRem.toNat := by simp; omega
    refine ⟨cellWriteAll l.mem (l.dev.tp.buf.toNat + l.dev.tp.dataOff.toNat) (bs.take l.dev.tp.burstRem.toNat), ?_,
      fun a => ?_⟩
    · unfold finishRead
      simp only [e, if_neg hn]
      rw [writeBytes_quiet hq (hlen.symm ▸ ha), andThen_next]
      rfl
    · rw [cellRead_cellWriteAll, hlen]
      refine if_ctx_congr Iff.rfl (fun h => ?_) fun _ => rfl
      rw [List.getElem?_take_of_lt (by omega), hb _ (by omega)]

/-- Settles O24: with no error flag active-done is the finish, whose bytes are allocated. -/
theorem finishDeliversRemainder : Obligations.FinishDeliversRemainder := by
  unfold Obligations.FinishDeliversRemainder
  intro s d hd hq hs hp h1 h2 h3 h4 n base ha
  obtain ⟨mem, e, hmem⟩ :=
    finishRead_allocated (l := setIrq (fun f => { f with activeDone := true }) (s.ctx s.cur d)) hq ha
  exact ⟨mem, onInstance_become_mem (obs := []) .iep hd ((evActiveDone_read hs hp h1 h2 h3 h4).trans e), hmem⟩

/-! ### The flags of burst slots -/

theorem ofNat_add_ofNat (a b : Nat) : (Fin.ofNat 8 a + Fin.ofNat 8 b : Slot) = Fin.ofNat 8 (a + b) := by
  apply Fin.ext; simp [Fin.val_add]

theorem burstWords_pos (b : Bool) : 0 < burstWords b := by cases b <;> decide

/-- A bit of a slot mask: the slots of the ring from `s` on. -/
theorem getLsbD_slotMask {n : Nat} (hn : n ≤ 8) (s i : Slot) :
    (slotMask n s).getLsbD i.val = decide ((i - s).val < n) := by
  induction n generalizing s with
  | zero => simp [slotMask]
  | succ n ih =>
    have hbit : ∀ s i : Slot, (1#8 <<< s.val).getLsbD i.val = decide (i = s) := by decide
    rw [slotMask, BitVec.getLsbD_or, ih (by omega), hbit s i, ← Bool.decide_or]
    refine decide_eq_decide.mpr ?_
    simp only [Fin.ext_iff, Fin.val_sub, Fin.val_add, Fin.val_one]
    omega

theorem slotMask_add (m n : Nat) (s : Slot) : slotMask (m + n) s = slotMask m s ||| slotMask n (s + Fin.ofNat 8 m) := by
  induction m generalizing s with
  | zero => simp [slotMask]
  | succ m ih =>
    have hs : s + 1 + Fin.ofNat 8 m = s + Fin.ofNat 8 (m + 1) := by
      rw [add_assoc, show (1 : Slot) = Fin.ofNat 8 1 from rfl, ofNat_add_ofNat, Nat.add_comm 1 m]
    rw [show m + 1 + n = (m + n) + 1 by omega, slotMask, ih, slotMask, hs, BitVec.or_assoc]

/-- A burst slot is complete when each of its flags is set. -/
theorem slotDone_iff (b : Bool) (f : Byte) (s : Slot) :
    slotDone b f s = true ↔ ∀ i : Slot, (i - s).val < burstWords b → f.getLsbD i.val = true := by
  have hw : burstWords b ≤ 8 := by cases b <;> decide
  simp only [slotDone, beq_iff_eq]
  constructor
  · intro h i hi
    have e := congrArg (fun x => BitVec.getLsbD x i.val) h
    simpa [getLsbD_slotMask hw, hi] using e
  · intro h
    apply BitVec.eq_of_getLsbD_eq
    intro i hi
    have hi' := h ⟨i, hi⟩
    have e : (slotMask (burstWords b) s).getLsbD i = decide ((⟨i, hi⟩ - s : Slot).val < burstWords b) :=
      getLsbD_slotMask hw s ⟨i, hi⟩
    rw [BitVec.getLsbD_and, e]
    by_cases hm : (⟨i, hi⟩ - s : Slot).val < burstWords b
    · simp [hm, hi' hm]
    · simp [hm]

/-- Clearing the flags of one burst slot leaves those of the burst slots behind it, as far as the ring goes. -/
theorem slotDone_clear {b : Bool} {f : Byte} {s : Slot} {j : Nat} (h1 : burstWords b ≤ j) (h2 : j + burstWords b ≤ 8) :
    slotDone b (f &&& ~~~(slotMask (burstWords b) s)) (s + Fin.ofNat 8 j) = slotDone b f (s + Fin.ofNat 8 j) := by
  rw [Bool.eq_iff_iff, slotDone_iff, slotDone_iff]
  refine forall_congr' fun i => imp_congr_right fun hi => ?_
  have hout : ¬(i - s).val < burstWords b := by
    simp only [Fin.val_sub, Fin.val_add, Fin.ofNat] at hi ⊢
    omega
  rw [BitVec.getLsbD_and, BitVec.getLsbD_not, getLsbD_slotMask (by omega), decide_eq_false hout, decide_eq_true i.isLt,
    Bool.not_false, Bool.and_true, Bool.and_true]

/-- A burst slot whose flags have been cleared is not complete. -/
theorem slotDone_cleared (b : Bool) (f : Byte) (s : Slot) :
    slotDone b (f &&& ~~~(slotMask (burstWords b) s)) s = false := by
  have hw : burstWords b ≤ 8 := by cases b <;> decide
  rw [Bool.eq_false_iff, ne_eq, slotDone_iff]
  intro h
  have hpos : (s - s).val < burstWords b := by simpa using burstWords_pos b
  have hs := h s hpos
  rw [BitVec.getLsbD_and, BitVec.getLsbD_not, getLsbD_slotMask hw, decide_eq_true hpos, Bool.not_true, Bool.and_false,
    Bool.and_false] at hs
  cases hs

/-- The burst slots complete behind a cleared one are those that were complete before. -/
theorem readySlots_clear {b : Bool} {f : Byte} {s : Slot} {k j : Nat} (h1 : burstWords b ≤ j)
    (h2 : j + k * burstWords b ≤ 8) :
    readySlots b (f &&& ~~~(slotMask (burstWords b) s)) k (s + Fin.ofNat 8 j) = readySlots b f k (s + Fin.ofNat 8 j) := by
  induction k generalizing j with
  | zero => rfl
  | succ k ih =>
    have hk : (k + 1) * burstWords b = k * burstWords b + burstWords b := Nat.succ_mul _ _
    rw [readySlots, readySlots, slotDone_clear h1 (by omega), add_assoc, ofNat_add_ofNat, ih (by omega) (by omega)]

/-! ### The burst drain (R236) -/

/-- `m'` is `m` with the bytes of `n` word-slots of `data`, in ring order from `s` on, stored from `base` on. -/
def Delivers (data : Vector Word 8) (s : Slot) (base n : Nat) (m m' : Memory) : Prop :=
  ∀ a, cellRead m' a =
    if base ≤ a ∧ a < base + 4 * n then some (wordByte data[s + Fin.ofNat 8 ((a - base) / 4)] ((a - base) % 4))
    else cellRead m a

theorem Delivers.none (data : Vector Word 8) (s : Slot) (base : Nat) (m : Memory) : Delivers data s base 0 m m :=
  fun a => (if_neg (by omega)).symm

theorem Delivers.append {data : Vector Word 8} {s : Slot} {base n k : Nat} {m m' m'' : Memory}
    (h1 : Delivers data s base n m m') (h2 : Delivers data (s + Fin.ofNat 8 n) (base + 4 * n) k m' m'') :
    Delivers data s base (n + k) m m'' := by
  intro a
  rw [h2 a, h1 a]
  by_cases hlow : a < base + 4 * n
  · rw [if_neg (by omega)]
    exact if_congr (by omega) rfl rfl
  · rw [if_neg (show ¬(base ≤ a ∧ a < base + 4 * n) by omega)]
    refine if_ctx_congr (by omega) (fun h => ?_) fun _ => rfl
    simp only [add_assoc, ofNat_add_ofNat, show n + (a - (base + 4 * n)) / 4 = (a - base) / 4 by omega,
      show (a - (base + 4 * n)) % 4 = (a - base) % 4 by omega]

theorem Delivers.word (data : Vector Word 8) (s : Slot) (base : Nat) (m : Memory) :
    Delivers data s base 1 m (cellWriteAll m base (wordBytes data[s])) := by
  intro a
  rw [cellRead_cellWriteAll]
  refine if_ctx_congr Iff.rfl (fun h => ?_) fun _ => rfl
  have hs : s + Fin.ofNat 8 ((a - base) / 4) = s := by rw [show (a - base) / 4 = 0 by omega]; simp
  rw [wordBytes_getElem? _ _ (by omega), show (a - base) % 4 = a - base by omega]
  simp only [hs]

theorem Delivers.allocated {data : Vector Word 8} {s : Slot} {base n x k : Nat} {m m' : Memory}
    (h : Delivers data s base n m m') (ha : Allocated m x k) : Allocated m' x k := by
  intro i hi
  rw [h]
  split_ifs
  · rfl
  · exact ha i hi

/-- The offset after bytes that fit in 32 bits. -/
theorem dataOff_add {off : Word} {n : Nat} (h : off.toNat + n < 2 ^ 32) : (off + BitVec.ofNat 32 n).toNat = off.toNat + n := by
  rw [BitVec.toNat_add, BitVec.toNat_ofNat, Nat.mod_eq_of_lt (show n < 2 ^ 32 by omega), Nat.mod_eq_of_lt h]

/-- The instance with its offset grown by `n` bytes. -/
def Device.advanced (n : Nat) (d : Device) : Device :=
  { d with tp := { d.tp with dataOff := d.tp.dataOff + BitVec.ofNat 32 n } }

theorem Device.advanced_zero (d : Device) : d.advanced 0 = d := by simp [Device.advanced]

theorem Device.advanced_advanced (m n : Nat) (d : Device) : (d.advanced m).advanced n = d.advanced (m + n) := by
  simp only [Device.advanced, BitVec.ofNat_add, BitVec.add_assoc]

/-- Word-slots are delivered in ring order, and the offset grows by four for each. -/
theorem drainWords_allocated {n : Nat} {s : Slot} {l : Ctx} (hq : l.dev.inter = [])
    (hroom : l.dev.tp.dataOff.toNat + 4 * n < 2 ^ 32)
    (ha : Allocated l.mem (l.dev.tp.buf.toNat + l.dev.tp.dataOff.toNat) (4 * n)) :
    ∃ mem : Memory, drainWords n s l = .next { l with dev := l.dev.advanced (4 * n), mem := mem } ∧
      Delivers l.dev.mb.data s (l.dev.tp.buf.toNat + l.dev.tp.dataOff.toNat) n l.mem mem := by
  induction n generalizing s l with
  | zero => exact ⟨l.mem, by rw [Nat.mul_zero, Device.advanced_zero]; rfl, .none _ _ _ _⟩
  | succ n ih =>
    have hword := Delivers.word l.dev.mb.data s (l.dev.tp.buf.toNat + l.dev.tp.dataOff.toNat) l.mem
    have hoff : (l.dev.advanced 4).tp.dataOff.toNat = l.dev.tp.dataOff.toNat + 4 := dataOff_add (by omega)
    have hbase : (l.dev.advanced 4).tp.buf.toNat + (l.dev.advanced 4).tp.dataOff.toNat =
        l.dev.tp.buf.toNat + l.dev.tp.dataOff.toNat + 4 * 1 := by rw [hoff, Nat.mul_one, ← Nat.add_assoc]; rfl
    obtain ⟨mem, e, hdel⟩ := ih (s := s + 1)
      (l := { l with
        dev := l.dev.advanced 4
        mem := cellWriteAll l.mem (l.dev.tp.buf.toNat + l.dev.tp.dataOff.toNat) (wordBytes l.dev.mb.data[s]) })
      hq (by simp only [hoff]; omega)
      (by simp only [hbase]; exact (hword.allocated ha).mono (by omega) (by omega))
    refine ⟨mem, ?_, ?_⟩
    · rw [drainWords, dataGet_quiet hq]
      simp only
      rw [writeBytes_quiet hq (ha.mono le_rfl (by rw [wordBytes_length]; omega)), andThen_next]
      refine e.trans ?_
      rw [Device.advanced_advanced, Nat.mul_succ, Nat.add_comm (4 * n)]
    · rw [hbase] at hdel
      rw [Nat.add_comm n 1]
      exact hword.append hdel

/-- The instance after `n` turns of the drain. -/
def Device.drained (b : Bool) (n : Nat) (d : Device) : Device :=
  { d with
    tp := { d.tp with
      dataOff := BitVec.ofNat 32 (d.tp.dataOff.toNat + 4 * burstWords b * n)
      regIdx := d.tp.regIdx + Fin.ofNat 8 (burstWords b * n)
      burstCnt := BitVec.ofNat 16 (d.tp.burstCnt.toNat - n) }
    mb := { d.mb with
      rdflag := d.mb.rdflag &&& ~~~(readyMask b n d.tp.regIdx)
      rdfclr := if n = 0 then d.mb.rdfclr else 0 } }

theorem Device.drained_zero (b : Bool) (d : Device) : d.drained b 0 = d := by
  have hflag : d.mb.rdflag &&& ~~~(readyMask b 0 d.tp.regIdx) = d.mb.rdflag := by
    rw [readyMask, Nat.zero_mul, slotMask, show ~~~(0 : Byte) = BitVec.allOnes 8 by decide, BitVec.and_allOnes]
  simp [Device.drained, hflag]

/-- A turn and `n` more are `n + 1` turns. -/
theorem Device.drained_succ {b : Bool} {n : Nat} {d : Device}
    (hroom : d.tp.dataOff.toNat + 4 * burstWords b * (n + 1) < 2 ^ 32) :
    (d.drained b 1).drained b n = d.drained b (n + 1) := by
  have hmul : 4 * burstWords b * (n + 1) = 4 * burstWords b + 4 * burstWords b * n := by
    rw [Nat.mul_succ, Nat.add_comm]
  have hmask : readyMask b (n + 1) d.tp.regIdx =
      slotMask (burstWords b) d.tp.regIdx ||| readyMask b n (d.tp.regIdx + Fin.ofNat 8 (burstWords b)) := by
    rw [readyMask, Nat.succ_mul, Nat.add_comm, slotMask_add]
    rfl
  have hflag : d.mb.rdflag &&& ~~~(readyMask b 1 d.tp.regIdx) &&&
      ~~~(readyMask b n (d.tp.regIdx + Fin.ofNat 8 (burstWords b))) = d.mb.rdflag &&& ~~~(readyMask b (n + 1) d.tp.regIdx) := by
    rw [hmask, readyMask, Nat.one_mul, BitVec.and_assoc, BitVec.not_or]
  have hidx : d.tp.regIdx + Fin.ofNat 8 (burstWords b) + Fin.ofNat 8 (burstWords b * n) =
      d.tp.regIdx + Fin.ofNat 8 (burstWords b * (n + 1)) := by
    rw [add_assoc, ofNat_add_ofNat, Nat.mul_succ, Nat.add_comm (burstWords b)]
  have hcnt : (d.tp.burstCnt.toNat - 1) % 2 ^ 16 = d.tp.burstCnt.toNat - 1 := by
    have := d.tp.burstCnt.isLt; omega
  have hoff : (d.tp.dataOff.toNat + 4 * burstWords b) % 2 ^ 32 = d.tp.dataOff.toNat + 4 * burstWords b := by omega
  simp only [Device.drained, Nat.mul_one, BitVec.toNat_ofNat, hcnt, hoff, hflag, hidx, hmul, Nat.add_assoc, Nat.sub_sub,
    Nat.add_comm 1 n]
  simp

/-- A turn of the drain cannot raise the line. -/
theorem Device.Latched.drained {p : Config.Params} {d : Device} (h : d.Latched p) (b : Bool) (n : Nat) :
    (d.drained b n).Latched p := fun hr hl =>
  h hr (irqLevel_of_rdflag_le (v := d.drained b n) (c := readyMask b n d.tp.regIdx) rfl rfl rfl rfl rfl hl)

/-- The context after `n` turns of the drain, with the given host memory and further observations. -/
def Ctx.drained (n : Nat) (mem : Memory) (obs : List Obs) (l : Ctx) : Ctx :=
  { l with dev := l.dev.drained l.params.burst16 n, mem := mem, trace := obs ++ l.trace }

/-- The drain has gone on after `n` turns: their bytes are delivered and their flags cleared. -/
def Drains (n : Nat) (l : Ctx) (r : Res) : Prop :=
  ∃ (mem : Memory) (obs : List Obs),
    r = .next (l.drained n mem obs) ∧
    Delivers l.dev.mb.data l.dev.tp.regIdx (l.dev.tp.buf.toNat + l.dev.tp.dataOff.toNat)
      (burstWords l.params.burst16 * n) l.mem mem

theorem drains_none {n : Nat} {l : Ctx} {r : Res} (hn : n = 0) (h : r = .next l) : Drains n l r := by
  subst hn
  exact ⟨l.mem, [], by rw [Ctx.drained, Device.drained_zero]; exact h, .none _ _ _ _⟩

/-- A turn, and the `n` turns after it. -/
theorem Drains.andThen {n : Nat} {l : Ctx} {r : Res} {f : Ctx → Res} (h : Drains 1 l r)
    (hroom : l.dev.tp.dataOff.toNat + 4 * burstWords l.params.burst16 * (n + 1) < 2 ^ 32)
    (hf : ∀ (mem : Memory) (obs : List Obs),
      Delivers l.dev.mb.data l.dev.tp.regIdx (l.dev.tp.buf.toNat + l.dev.tp.dataOff.toNat) (burstWords l.params.burst16)
        l.mem mem →
      Drains n (l.drained 1 mem obs) (f (l.drained 1 mem obs))) : Drains (n + 1) l (andThen r f) := by
  obtain ⟨mem, obs, rfl, hdel⟩ := h
  rw [Nat.mul_one] at hdel
  obtain ⟨mem', obs', e, hdel'⟩ := hf mem obs hdel
  have hoff : (l.dev.tp.dataOff.toNat + 4 * burstWords l.params.burst16) % 2 ^ 32 =
      l.dev.tp.dataOff.toNat + 4 * burstWords l.params.burst16 := by
    rw [Nat.mul_succ] at hroom; omega
  refine ⟨mem', obs' ++ obs, ?_, ?_⟩
  · rw [andThen_next, e]
    simp only [Ctx.drained, Device.drained_succ hroom, List.append_assoc]
  · rw [show burstWords l.params.burst16 * (n + 1) = burstWords l.params.burst16 + burstWords l.params.burst16 * n by
      rw [Nat.mul_succ, Nat.add_comm]]
    refine hdel.append ?_
    simpa only [Ctx.drained, Device.drained, Nat.mul_one, BitVec.toNat_ofNat, hoff, Nat.add_assoc] using hdel'

/-- The end of a turn of the drain: its flags are cleared, cursor and counter move on (R236). -/
def endTurn (l m : Ctx) : Ctx :=
  (rdflagClear (slotMask (burstWords l.params.burst16) l.dev.tp.regIdx) m).mapTP fun tp =>
    { tp with
      regIdx := l.dev.tp.regIdx + Fin.ofNat 8 (burstWords l.params.burst16)
      burstCnt := tp.burstCnt - 1 }

/-- A turn of the drain, and the turns after it. -/
theorem drainSlots_turn {k : Nat} {f : Byte} {l : Ctx} (hc : l.dev.tp.burstCnt ≠ 0)
    (hdone : slotDone l.params.burst16 f l.dev.tp.regIdx = true) :
    drainSlots (k + 1) f l =
      andThen (andThen (drainWords (burstWords l.params.burst16) l.dev.tp.regIdx l) fun m => .next (endTurn l m))
        (drainSlots k (f &&& ~~~(slotMask (burstWords l.params.burst16) l.dev.tp.regIdx))) := by
  have hturn : ¬(l.dev.tp.burstCnt = 0 ∨ f &&& slotMask (burstWords l.params.burst16) l.dev.tp.regIdx ≠
      slotMask (burstWords l.params.burst16) l.dev.tp.regIdx) := by
    rintro (h | h)
    · exact hc h
    · exact h (by simpa [slotDone] using hdone)
  rw [drainSlots, if_neg hturn]
  cases drainWords (burstWords l.params.burst16) l.dev.tp.regIdx l <;> rfl

/-- The drain stops at a slot that is not complete. -/
theorem drainSlots_stop {k : Nat} {f : Byte} {l : Ctx} (hdone : slotDone l.params.burst16 f l.dev.tp.regIdx = false) :
    drainSlots k f l = .next l := by
  cases k with
  | zero => rfl
  | succ k =>
    have hstop : f &&& slotMask (burstWords l.params.burst16) l.dev.tp.regIdx ≠
        slotMask (burstWords l.params.burst16) l.dev.tp.regIdx := by simpa [slotDone] using hdone
    rw [drainSlots, if_pos (.inr hstop)]

/-- The drain stops when the counter is at zero. -/
theorem drainSlots_empty {k : Nat} {f : Byte} {l : Ctx} (hc : l.dev.tp.burstCnt = 0) : drainSlots k f l = .next l := by
  cases k with
  | zero => rfl
  | succ k => rw [drainSlots, if_pos (.inl hc)]

theorem sub_one_eq_ofNat {c : BitVec 16} (hc : c ≠ 0) : c - 1 = BitVec.ofNat 16 (c.toNat - 1) := by bv_omega

/-- One turn of the drain (R236). -/
theorem drainTurn_allocated {l : Ctx} (hq : l.dev.inter = []) (hs : l.dev.Latched l.params)
    (hroom : l.dev.tp.dataOff.toNat + 4 * burstWords l.params.burst16 < 2 ^ 32) (hc : l.dev.tp.burstCnt ≠ 0)
    (ha : Allocated l.mem (l.dev.tp.buf.toNat + l.dev.tp.dataOff.toNat) (4 * burstWords l.params.burst16)) :
    Drains 1 l (andThen (drainWords (burstWords l.params.burst16) l.dev.tp.regIdx l) fun m =>
      .next (endTurn l m)) := by
  obtain ⟨mem, e, hdel⟩ := drainWords_allocated (s := l.dev.tp.regIdx) hq hroom ha
  have hclear := rdflagClear_quiet (mask := slotMask (burstWords l.params.burst16) l.dev.tp.regIdx)
    (l := { l with dev := l.dev.advanced (4 * burstWords l.params.burst16), mem := mem }) hq hs
  have hoff : l.dev.tp.dataOff + BitVec.ofNat 32 (4 * burstWords l.params.burst16) =
      BitVec.ofNat 32 (l.dev.tp.dataOff.toNat + 4 * burstWords l.params.burst16) := by
    rw [BitVec.ofNat_add, BitVec.ofNat_toNat, BitVec.setWidth_eq]
  have hcnt := sub_one_eq_ofNat hc
  rw [e, andThen_next, endTurn, hclear]
  refine ⟨mem, [.wrote l.id .mRdfclr 0,
    .wrote l.id .mRdfclr ((slotMask (burstWords l.params.burst16) l.dev.tp.regIdx).setWidth 32)],
    congrArg Res.next ?_, by rwa [Nat.mul_one]⟩
  simp only [Ctx.drained, Ctx.mapTP, Ctx.mapDev, Device.advanced, Device.drained, readyMask, Nat.mul_one, Nat.one_mul, hoff, hcnt,
    if_neg Nat.one_ne_zero]
  rfl

/-- The drain with the flags `f` sampled, `j` burst slots before the end of the ring and turns for all of them: it delivers the
slots complete in a row, as far as the counter goes. Behind the `j` slots stands one already delivered, unless the drain has only
begun. -/
theorem drainSlots_allocated {j k n : Nat} {f : Byte} {l : Ctx} (hq : l.dev.inter = []) (hs : l.dev.Latched l.params)
    (hjk : j ≤ k) (hring : j * burstWords l.params.burst16 ≤ 8)
    (hend : j < k → j * burstWords l.params.burst16 = 8 ∨
      slotDone l.params.burst16 f (l.dev.tp.regIdx + Fin.ofNat 8 (j * burstWords l.params.burst16)) = false)
    (hn : n = min l.dev.tp.burstCnt.toNat (readySlots l.params.burst16 f j l.dev.tp.regIdx))
    (hroom : l.dev.tp.dataOff.toNat + 4 * burstWords l.params.burst16 * n < 2 ^ 32)
    (ha : Allocated l.mem (l.dev.tp.buf.toNat + l.dev.tp.dataOff.toNat) (4 * burstWords l.params.burst16 * n)) :
    Drains n l (drainSlots k f l) := by
  induction j generalizing k f l n with
  | zero =>
    refine drains_none (by simpa [readySlots] using hn) ?_
    cases k with
    | zero => rfl
    | succ k => exact drainSlots_stop (by simpa using (hend (Nat.succ_pos k)).resolve_left (by omega))
  | succ j ih =>
    obtain ⟨k, rfl⟩ : ∃ k', k = k' + 1 := ⟨k - 1, by omega⟩
    by_cases hc : l.dev.tp.burstCnt = 0
    · exact drains_none (by simpa [hc] using hn) (drainSlots_empty hc)
    by_cases hdone : slotDone l.params.burst16 f l.dev.tp.regIdx = true
    case neg => exact drains_none (by simpa [readySlots, hdone] using hn) (drainSlots_stop (by simpa using hdone))
    have hwords : (j + 1) * burstWords l.params.burst16 = j * burstWords l.params.burst16 + burstWords l.params.burst16 :=
      Nat.succ_mul _ _
    have hcnt : 0 < l.dev.tp.burstCnt.toNat := Nat.pos_of_ne_zero fun h => hc (BitVec.eq_of_toNat_eq h)
    have hready : readySlots l.params.burst16 f (j + 1) l.dev.tp.regIdx = 1 +
        readySlots l.params.burst16 (f &&& ~~~(slotMask (burstWords l.params.burst16) l.dev.tp.regIdx)) j
          (l.dev.tp.regIdx + Fin.ofNat 8 (burstWords l.params.burst16)) := by
      rw [readySlots, if_pos hdone, readySlots_clear le_rfl (by omega)]
    obtain ⟨n, rfl⟩ : ∃ n', n = n' + 1 := ⟨n - 1, by omega⟩
    rw [Nat.mul_succ] at ha
    rw [drainSlots_turn hc hdone]
    refine (drainTurn_allocated hq hs (by rw [Nat.mul_succ] at hroom; omega) hc (ha.mono le_rfl (by omega))).andThen hroom
      fun mem obs hdel => ?_
    have hoff : (l.dev.drained l.params.burst16 1).tp.dataOff.toNat =
        l.dev.tp.dataOff.toNat + 4 * burstWords l.params.burst16 := by
      rw [Nat.mul_succ] at hroom
      simp only [Device.drained, Nat.mul_one, BitVec.toNat_ofNat]
      omega
    have hcnt' : (l.dev.drained l.params.burst16 1).tp.burstCnt.toNat = l.dev.tp.burstCnt.toNat - 1 := by
      have := l.dev.tp.burstCnt.isLt
      simp only [Device.drained, BitVec.toNat_ofNat]
      omega
    have hidx : (l.dev.drained l.params.burst16 1).tp.regIdx =
        l.dev.tp.regIdx + Fin.ofNat 8 (burstWords l.params.burst16) := by simp only [Device.drained, Nat.mul_one]
    rw [Nat.mul_succ] at hroom
    refine ih (l := l.drained 1 mem obs) hq (hs.drained l.params.burst16 1) (by omega)
      (show j * burstWords l.params.burst16 ≤ 8 by omega) (fun hlt => .inr ?_) ?_ ?_ ?_
    · simp only [Ctx.drained, hidx, add_assoc, ofNat_add_ofNat]
      rw [Nat.add_comm, ← hwords]
      rcases hend (by omega) with h8 | hout
      · have hs8 : l.dev.tp.regIdx + Fin.ofNat 8 ((j + 1) * burstWords l.params.burst16) = l.dev.tp.regIdx := by
          rw [h8]; exact add_zero _
        rw [hs8]
        exact slotDone_cleared _ _ _
      · exact Bool.eq_false_iff.mpr fun h => absurd (slotDone_mono h) (by rw [hout]; simp)
    · simp only [Ctx.drained, hcnt', hidx]
      omega
    · simp only [Ctx.drained, hoff]
      omega
    · simp only [Ctx.drained, hoff]
      exact (hdel.allocated ha).mono (by simp [Device.drained]) (by simp only [Device.drained]; omega)

/-- Settles O23: with no error flag the event is the drain, which with nothing to deliver changes nothing. -/
theorem burstDrainDeliversSlots : Obligations.BurstDrainDeliversSlots := by
  unfold Obligations.BurstDrainDeliversSlots
  intro s d hd hq hs hsig hp h1 h2 h3 h4 w n base hroom ha
  have harm : dispatchArm d = .deliver := by simp [dispatchArm_read hsig (.inl hp), readArm, h1, h2, h3, h4]
  have hevent : evBurstSlot (s.ctx s.cur d) = drainSlots 8 d.mb.rdflag (s.ctx s.cur d) := by
    have hact : evBurstSlot (s.ctx s.cur d) =
        if d.tp.burstCnt ≠ 0 ∧ d.tp.phase = .read then burstDrain (s.ctx s.cur d) else .next (s.ctx s.cur d) := by
      simp only [evBurstSlot, State.ctx_dev, harm]
      rfl
    rw [hact]
    split_ifs with hc
    · rw [burstDrain, rdflagGet_quiet (l := s.ctx s.cur d) hq]
      rfl
    · exact (drainSlots_empty (by by_contra h0; exact hc ⟨h0, hp⟩)).symm
  have hring : 8 / burstWords s.params.burst16 * burstWords s.params.burst16 = 8 := by cases s.params.burst16 <;> rfl
  obtain ⟨mem, obs, e, hdel⟩ := drainSlots_allocated (l := s.ctx s.cur d) (f := d.mb.rdflag) (n := n) hq hs
    (Nat.div_le_self 8 w) hring.le (fun _ => .inl hring) rfl (show d.tp.dataOff.toNat + 4 * w * n < 2 ^ 32 by omega) ha
  refine ⟨mem, obs, onInstance_become_mem .iep hd (hevent.trans e), fun a => ?_⟩
  rw [hdel a, Nat.mul_assoc]
  rfl

end Sys2Proof.Machine
end

section
/-! PROOFS. R230: the refill with nothing between its accesses, unit by unit. -/

namespace Sys2Proof.Machine

/-! ### Fetching the write buffer -/

section
variable {l : Ctx} (hq : l.dev.inter = []) (ha : Allocated l.mem l.dev.tp.buf.toNat l.dev.tp.totalLen.toNat)
include hq ha

/-- The next byte of an allocated write buffer, 0 past its end. -/
theorem nextByte_allocated (f : Byte → Ctx → Res) :
    nextByte f l =
      f (bufferByte l.mem l.dev.tp.buf.toNat l.dev.tp.totalLen.toNat l.dev.tp.dataOff.toNat)
        { l with dev := l.dev.advanced 1 } :=
  padByte_quiet hq fun h => ha _ h

/-- The next unit of an allocated write buffer. -/
theorem nextWord_allocated (f : Word → Ctx → Res) (hroom : l.dev.tp.dataOff.toNat + 4 < 2 ^ 32) :
    nextWord f l =
      f (bufferWord l.mem l.dev.tp.buf.toNat l.dev.tp.totalLen.toNat l.dev.tp.dataOff.toNat)
        { l with dev := l.dev.advanced 4 } := by
  have hoff : ∀ k, k < 4 → (l.dev.advanced k).tp.dataOff.toNat = l.dev.tp.dataOff.toNat + k :=
    fun k hk => dataOff_add (by omega)
  unfold nextWord
  rw [nextByte_allocated hq ha, nextByte_allocated (l := { l with dev := l.dev.advanced 1 }) hq ha,
    nextByte_allocated (l := { l with dev := (l.dev.advanced 1).advanced 1 }) hq ha,
    nextByte_allocated (l := { l with dev := ((l.dev.advanced 1).advanced 1).advanced 1 }) hq ha]
  simp only [Device.advanced_advanced, Nat.reduceAdd, hoff 1 (by omega), hoff 2 (by omega), hoff 3 (by omega)]
  rfl

end

/-! ### The units -/

/-- The word-slots `data'` are `data` with `n` units of a buffer of `total` bytes at `base`, from offset `off` on, in the ring slots
of their offsets. -/
def Refills (m : Memory) (base total off n : Nat) (data data' : Vector Word 8) : Prop :=
  ∀ i : Slot, data'[i] =
    if (i - slotOfOffset off).val < n then bufferWord m base total (off + 4 * (i - slotOfOffset off).val) else data[i]

theorem Refills.none (m : Memory) (base total off : Nat) (data : Vector Word 8) : Refills m base total off 0 data data :=
  fun _ => (if_neg (Nat.not_lt_zero _)).symm

/-- The next unit's ring slot is the next slot. -/
theorem slotOfOffset_add (off : Nat) : slotOfOffset (off + 4) = slotOfOffset off + 1 := by
  apply Fin.ext
  simp only [slotOfOffset, Fin.ofNat, Fin.val_add, Fin.val_one]
  omega

/-- A unit, and the `n` units after it. -/
theorem Refills.unit {m : Memory} {base total off n : Nat} {data data' : Vector Word 8} (hn : n < 8)
    (h : Refills m base total (off + 4) n
      (data.set (slotOfOffset off).val (bufferWord m base total off) (slotOfOffset off).isLt) data') :
    Refills m base total off (n + 1) data data' := by
  intro i
  rw [h i, slotOfOffset_add]
  simp only [Fin.getElem_fin, Vector.getElem_set]
  by_cases hi : i = slotOfOffset off
  · have hlast : ¬(i - (slotOfOffset off + 1)).val < n := by
      subst hi
      simp only [Fin.val_sub, Fin.val_add, Fin.val_one]
      omega
    rw [if_neg hlast, if_pos (by rw [hi]), hi]
    simp
  · have hne : ¬(slotOfOffset off).val = i.val := fun e => hi (Fin.ext e.symm)
    have hsub : (i - slotOfOffset off).val = (i - (slotOfOffset off + 1)).val + 1 := by
      simp only [Fin.val_sub, Fin.val_add, Fin.val_one]
      omega
    rw [if_neg hne, hsub]
    refine if_ctx_congr (by omega) (fun _ => ?_) fun _ => rfl
    congr 1
    omega

/-- The instance after `n` units of the refill, with the given word-slots (R230). -/
def Device.refilled (n : Nat) (data : Vector Word 8) (d : Device) : Device :=
  { d with
    tp := { d.tp with
      dataOff := BitVec.ofNat 32 (d.tp.dataOff.toNat + 4 * n)
      burstCnt := BitVec.ofNat 16 (d.tp.burstCnt.toNat - n) }
    mb := { d.mb with
      data := data
      inten := if d.tp.burstCnt.toNat = n then d.mb.inten &&& ~~~0x18 else d.mb.inten } }

/-- One unit, before the enables are looked at. -/
def Device.unit (w : Word) (d : Device) : Device :=
  { d with
    tp := { d.tp with dataOff := d.tp.dataOff + 4, burstCnt := d.tp.burstCnt - 1 }
    mb := { d.mb with data := d.mb.data.set (slotOfOffset d.tp.dataOff.toNat).val w (slotOfOffset d.tp.dataOff.toNat).isLt } }

/-- A unit and `n` more are `n + 1` units. -/
theorem Device.refilled_unit {n : Nat} {w : Word} {data : Vector Word 8} {d : Device} (hc : 0 < d.tp.burstCnt.toNat)
    (hroom : d.tp.dataOff.toNat + 4 < 2 ^ 32) : (d.unit w).refilled n data = d.refilled (n + 1) data := by
  have hoff : (d.tp.dataOff + 4).toNat = d.tp.dataOff.toNat + 4 := dataOff_add (n := 4) hroom
  have hcnt : (d.tp.burstCnt - 1).toNat = d.tp.burstCnt.toNat - 1 := by bv_omega
  have hlast : d.tp.burstCnt.toNat - 1 = n ↔ d.tp.burstCnt.toNat = n + 1 := by omega
  simp only [Device.refilled, Device.unit, hoff, hcnt, hlast, Nat.sub_sub, Nat.add_assoc, Nat.add_comm 1 n,
    Nat.mul_succ, Nat.add_comm 4 (4 * n)]

/-- After the last unit the two enables are cleared. -/
theorem Device.refilled_last {d : Device} (hc : d.tp.burstCnt = 0) :
    d.refilled 0 d.mb.data = { d with mb := { d.mb with inten := d.mb.inten &&& ~~~0x18 } } := by
  have hzero : d.tp.burstCnt.toNat = 0 := by rw [hc]; rfl
  simp only [Device.refilled, Nat.mul_zero, Nat.add_zero, Nat.sub_zero, BitVec.ofNat_toNat, BitVec.setWidth_eq,
    if_pos hzero]

/-- The units cannot raise the line. -/
theorem Device.Latched.refilled {p : Config.Params} {d : Device} (h : d.Latched p) (n : Nat) (data : Vector Word 8) :
    (d.refilled n data).Latched p := by
  have hinten : (d.refilled n data).mb.inten = d.mb.inten &&& ~~~(if d.tp.burstCnt.toNat = n then 0x18 else 0) := by
    simp only [Device.refilled]
    split_ifs
    · rfl
    · rw [show ~~~(0 : BitVec 9) = BitVec.allOnes 9 by decide, BitVec.and_allOnes]
  exact fun hr hl => h hr (irqLevel_of_inten_le hinten rfl rfl rfl rfl hl)

/-- One unit of the refill goes to its ring slot (R230). -/
theorem refillUnits_succ {k : Nat} {l : Ctx} (hq : l.dev.inter = []) (hs : l.dev.Latched l.params)
    (hroom : l.dev.tp.dataOff.toNat + 4 < 2 ^ 32)
    (ha : Allocated l.mem l.dev.tp.buf.toNat l.dev.tp.totalLen.toNat) :
    let w := bufferWord l.mem l.dev.tp.buf.toNat l.dev.tp.totalLen.toNat l.dev.tp.dataOff.toNat
    let m : Ctx := { l with
      dev := l.dev.unit w, trace := .wrote l.id (.mData (slotOfOffset l.dev.tp.dataOff.toNat)) w :: l.trace }
    refillUnits (k + 1) l = if l.dev.tp.burstCnt - 1 = 0 then .next (intenClr 0x18 m) else refillUnits k m := by
  intro w m
  rw [refillUnits]
  rw [nextWord_allocated hq ha _ hroom]
  simp only
  rw [dataPut_quiet (l := { l with dev := l.dev.advanced 4 }) hq hs]
  rfl

/-- The units of the refill, as many as the counter and the run allow. -/
theorem refillUnits_allocated {k : Nat} {l : Ctx} (hk : k < 8) (hq : l.dev.inter = []) (hs : l.dev.Latched l.params)
    (hc : l.dev.tp.burstCnt ≠ 0) (hroom : l.dev.tp.dataOff.toNat + 4 * k < 2 ^ 32)
    (ha : Allocated l.mem l.dev.tp.buf.toNat l.dev.tp.totalLen.toNat) :
    ∃ (data : Vector Word 8) (obs : List Obs),
      refillUnits k l =
        .next { l with dev := l.dev.refilled (min k l.dev.tp.burstCnt.toNat) data, trace := obs ++ l.trace } ∧
      Refills l.mem l.dev.tp.buf.toNat l.dev.tp.totalLen.toNat l.dev.tp.dataOff.toNat (min k l.dev.tp.burstCnt.toNat)
        l.dev.mb.data data := by
  have hpos : 0 < l.dev.tp.burstCnt.toNat := Nat.pos_of_ne_zero fun h => hc (BitVec.eq_of_toNat_eq h)
  induction k generalizing l with
  | zero =>
    refine ⟨l.dev.mb.data, [], ?_, by rw [Nat.zero_min]; exact .none _ _ _ _ _⟩
    simp [refillUnits, Device.refilled, hpos.ne']
  | succ k ih =>
    let w := bufferWord l.mem l.dev.tp.buf.toNat l.dev.tp.totalLen.toNat l.dev.tp.dataOff.toNat
    let m : Ctx := { l with
      dev := l.dev.unit w, trace := .wrote l.id (.mData (slotOfOffset l.dev.tp.dataOff.toNat)) w :: l.trace }
    have hoff : m.dev.tp.dataOff.toNat = l.dev.tp.dataOff.toNat + 4 := dataOff_add (n := 4) (by omega)
    have hcnt : m.dev.tp.burstCnt.toNat = l.dev.tp.burstCnt.toNat - 1 := by
      show (l.dev.tp.burstCnt - 1).toNat = _
      bv_omega
    have hmin : min (k + 1) l.dev.tp.burstCnt.toNat = min k m.dev.tp.burstCnt.toNat + 1 := by omega
    have hrest : ∃ (data : Vector Word 8) (obs : List Obs),
        refillUnits (k + 1) l =
          .next { m with dev := m.dev.refilled (min k m.dev.tp.burstCnt.toNat) data, trace := obs ++ m.trace } ∧
        Refills l.mem l.dev.tp.buf.toNat l.dev.tp.totalLen.toNat m.dev.tp.dataOff.toNat (min k m.dev.tp.burstCnt.toNat)
          m.dev.mb.data data := by
      rw [refillUnits_succ hq hs (by omega) ha]
      split_ifs with hlast
      · have hzero : m.dev.tp.burstCnt = 0 := hlast
        have hn : min k m.dev.tp.burstCnt.toNat = 0 := by rw [hzero]; exact Nat.min_zero k
        rw [hn]
        refine ⟨m.dev.mb.data, [.wrote l.id .mInten ((m.dev.mb.inten &&& ~~~0x18).setWidth 32)], ?_, .none _ _ _ _ _⟩
        rw [intenClr_quiet (l := m) hq hs, Device.refilled_last hzero]
        rfl
      · exact ih (l := m) (by omega) hq hs hlast (by omega) ha (Nat.pos_of_ne_zero fun h => hlast (BitVec.eq_of_toNat_eq h))
    obtain ⟨data, obs, e, hdata⟩ := hrest
    refine ⟨data, obs ++ [.wrote l.id (.mData (slotOfOffset l.dev.tp.dataOff.toNat)) w], ?_, ?_⟩
    · rw [e, hmin, List.append_assoc, Device.refilled_unit hpos (by omega)]
      rfl
    · rw [hmin]
      rw [hoff] at hdata
      exact hdata.unit (by omega)

theorem writeArm_refill {tp : TP} (h0 : tp.irq.activeDone = false) (h1 : tp.irq.addrNack = false)
    (h2 : tp.irq.dataNack = false) (h3 : tp.irq.sclHold = false) (h4 : tp.irq.fifoEmpty = false) (hc : tp.burstCnt ≠ 0)
    (hp : tp.phase = .write) : writeArm tp = .refill := by
  simp only [writeArm, h0, h1, h2, h3, h4, Bool.or_self, Bool.false_eq_true, if_false, if_pos (And.intro hc hp)]

/-- Settles O22: the refill moves its units, and the threshold flag is cleared after them. -/
theorem refillMovesUnits : Obligations.RefillMovesUnits := by
  unfold Obligations.RefillMovesUnits
  intro s d hd hq hs hsig hp h0 h1 h2 h3 h4 hc hoff ha n off
  let c := setIrq (fun f => { f with emptyThreshold := true }) (s.ctx s.cur d)
  have harm : dispatchArm c.dev = .refill := by
    rw [dispatchArm_write (d := c.dev) hsig (.inl hp)]
    exact writeArm_refill (tp := c.dev.tp) h0 h1 h2 h3 h4 hc hp
  have hevent : evEmptyThreshold (s.ctx s.cur d) = refill c := by simp only [evEmptyThreshold, c, harm]
  obtain ⟨data, obs, e, hdata⟩ := refillUnits_allocated (k := 4) (l := c) (by omega) hq hs hc
    (show d.tp.dataOff.toNat + 4 * 4 < 2 ^ 32 by omega) ha
  have hlatched : (c.dev.refilled n data).Latched s.params := Device.Latched.refilled (d := c.dev) hs n data
  refine ⟨data, [.wrote s.cur .mStclr 0, .wrote s.cur .mStclr (BitVec.setWidth 32 0x08#7)] ++ obs,
    onInstance_become .iep hd ?_, hdata⟩
  rw [hevent, refill, e, andThen_next, statusClear_quiet (by exact hq) (by exact hlatched)]
  rfl

end Sys2Proof.Machine
end

section
/-! PROOFS. R280 to R285, R31: what the moves of the engines, of the timer and of the oracle leave of an instance, and that they and
the admission of a command keep the control invariant. -/

namespace Sys2Proof.Machine

/-! ### What a move of an engine or of the oracle leaves -/

/-- From `d` to `v` nothing the block programs differs, a stopped engine's registers are as they were, and a high line that is
pending stays so (R281, R31). -/
structure Device.Moved (p : Config.Params) (d v : Device) : Prop where
  same : d.SameProgramme v
  master : d.beActive = false → v.mb = d.mb
  dma : d.deActive = false → v.db = d.db
  latched : d.Latched p → v.Latched p

section
variable {p : Config.Params} {d v : Device}

theorem Device.Moved.refl (p : Config.Params) (d : Device) : d.Moved p d := ⟨.refl d, fun _ => rfl, fun _ => rfl, id⟩

theorem Device.SameProgramme.engines (h : d.SameProgramme v) : v.beActive = d.beActive ∧ v.deActive = d.deActive := by
  simp only [Device.SameProgramme] at h
  simp [h]

theorem Device.Moved.trans {w : Device} (h1 : d.Moved p v) (h2 : v.Moved p w) : d.Moved p w where
  same := h1.same.trans h2.same
  master hb := by rw [h2.master (by rw [h1.same.engines.1, hb]), h1.master hb]
  dma hb := by rw [h2.dma (by rw [h1.same.engines.2, hb]), h1.dma hb]
  latched h := h2.latched (h1.latched h)

theorem latch_latched (p : Config.Params) (old new : Device) : (latch p old new).Latched p := by
  intro hr hl
  have hr' : new.iepRun = false := hr
  have hl' : irqLevel p new = true := hl
  simp [hr', hl']

theorem beMove_moved (p : Config.Params) (m : BeMove) (d : Device) : d.Moved p (beMove p m d) where
  same := beMove_sameProgramme p m d
  master h := by rw [beMove_inactive h]
  dma _ := by unfold beMove; split <;> rfl
  latched h := by
    unfold beMove
    split
    · exact latch_latched _ _ _
    · exact h

theorem deMove_moved (m : DeMove) (l : Ctx) : l.dev.Moved l.params (deMove m l).dev := by
  have hsame := (deMove_frame m l).programme
  rcases deMove_cases m l with h | ⟨ha, -, ⟨_, -, h⟩ | ⟨_, _, -, -, -, h⟩ | ⟨_, _, _, -, -, -, -, -, h⟩ |
      ⟨_, _, _, -, -, -, -, h⟩ | ⟨_, _, -, -, -, -, h⟩⟩ <;> rw [h] at hsame ⊢
  · exact .refl _ _
  · exact ⟨hsame, fun _ => rfl, fun h0 => absurd (h0 ▸ ha) (by simp), fun _ => latch_latched _ _ _⟩
  all_goals exact ⟨hsame, fun _ => rfl, fun _ => rfl, id⟩

/-- An engine runs only from the trigger to the exit, where the instance is busy (R281). -/
theorem Device.Control.moved (h : d.Control p) (hm : d.Moved p v) : v.Control p := by
  have hs := hm.same
  simp only [Device.SameProgramme] at hs
  obtain ⟨hctrl, -, -, -, -, -, hstclr, hrdfclr, hdir, -, -, -, htp, hseq, hcmdl, -, hmap, -, hrun, hbe, hde, -, -, -, -,
    hstuckSeq, hstuckIep⟩ := hs
  refine
    { busy_iff := by rw [htp, hseq]; exact h.busy_iff
      rests := by rw [hseq]; exact h.rests
      phase_eq := by rw [htp, hseq, hcmdl, hstuckSeq]; exact h.phase_eq
      counts := by rw [htp, hcmdl]; exact h.counts
      baseline := ?_
      mapped := by rw [hmap, hcmdl]; exact h.mapped
      run_stuck := by rw [hrun, hstuckIep]; exact h.run_stuck
      pending := hm.latched h.pending
      strobes := by rw [hstclr, hrdfclr]; exact h.strobes
      triggered := by rw [hbe, hde, hseq]; exact h.triggered
      master_quiet := fun hb => ?_
      dma_quiet := fun hb => ?_
      dma_runs := by rw [hde, hcmdl, hdir]; exact h.dma_runs
      direction := by rw [hseq, hctrl, hcmdl]; exact h.direction
      dma_direction := by rw [hseq, hctrl, hcmdl, hdir]; exact h.dma_direction
      trigger_mode := by rw [hseq, hctrl, hcmdl]; exact h.trigger_mode }
  · intro hidle
    rw [htp] at hidle
    obtain ⟨hmb, hdb, hbe0, hde0, hmap0⟩ := h.baseline hidle
    rw [hm.master hbe0, hm.dma hde0, hbe, hde, hmap]
    exact ⟨hmb, hdb, hbe0, hde0, hmap0⟩
  · rw [hbe] at hb
    rw [hm.master hb]
    exact h.master_quiet hb
  · rw [hde] at hb
    rw [hm.dma hb]
    exact h.dma_quiet hb

/-! ### The timeout -/

/-- The sequencer leaves S9 for S11, where it is as active as before (R183, R184). -/
theorem Device.Control.leave_s9 (h : d.Control p) (hseq : d.seq = .s9) (r : Result) :
    ({ d with res := r, seq := .s11 } : Device).Control p :=
  { h with
    busy_iff := by have := h.busy_iff; rw [hseq] at this; exact this
    rests := by simp
    phase_eq := by
      refine h.phase_eq.imp id fun hp => ?_
      rw [hseq] at hp
      cases hp.2.2
    triggered := fun _ => .inr rfl
    direction := by simp
    dma_direction := by simp
    trigger_mode := by simp }

theorem timerExpire_cases (l : Ctx) :
    timerExpire l = l ∨
      l.dev.seq = .s9 ∧ seqEnabled l.dev = true ∧ ∃ r, timerExpire l = l.mapDev fun d => { d with res := r, seq := .s11 } := by
  unfold timerExpire
  split_ifs with h h'
  · exact .inr ⟨h.1, h.2, l.dev.tp.result, rfl⟩
  · exact .inr ⟨h.1, h.2, .timeout, rfl⟩
  · exact .inl rfl

/-! ### The admission of a command -/

/-- A transaction starts from the baseline (R174, R194). -/
theorem startTransaction_control {c : Cmd} (h : d.Control p) (hidle : d.tp.busy = false) (hc : countsValid c = true)
    (q : Config.Params) (host : Nat) : (startTransaction q host c d).Control p := by
  obtain ⟨hmb, hdb, hbe, hde, hmap⟩ := h.baseline hidle
  exact
    { h with
      busy_iff := rfl
      rests := by simp [startTransaction]
      phase_eq := .inl rfl
      counts := fun _ => hc
      baseline := fun hb => by cases hb
      mapped := fun hm => by rw [show d.map.valid = true from hm] at hmap; cases hmap
      triggered := fun ht => by
        rcases ht with hb | hb
        · rw [show d.beActive = true from hb] at hbe; cases hbe
        · rw [show d.deActive = true from hb] at hde; cases hde
      dma_runs := fun hb => by rw [show d.deActive = true from hb] at hde; cases hde
      direction := by simp [startTransaction]
      dma_direction := by simp [startTransaction]
      trigger_mode := by simp [startTransaction] }

end

/-! ### A host has one command in flight (R286) -/

/-- An instance is replaced by one that serves the same host, is idle, or serves a host that did not wait. -/
theorem OneCommandPerHost.set {devs : List Device} {k : Nat} {d v : Device} (h : OneCommandPerHost devs)
    (hk : devs[k]? = some d)
    (hv : v.tp.busy = true → (d.tp.busy = true ∧ v.caller = d.caller) ∨ waiting v.caller devs = false) :
    OneCommandPerHost (devs.set k v) := by
  have other : ∀ (i : Nat) (w : Device), i ≠ k → devs[i]? = some w → v.tp.busy = true → w.tp.busy = true →
      v.caller = w.caller → False := by
    intro i w hi hw hvb hwb hcaller
    rcases hv hvb with ⟨hdb, hdc⟩ | hfree
    · exact hi (h i k w d hw hk hwb hdb (hcaller.symm.trans hdc))
    · have hwait : waiting v.caller devs = true :=
        List.any_eq_true.mpr ⟨w, List.mem_of_getElem? hw, by simp [hwb, hcaller]⟩
      rw [hwait] at hfree
      cases hfree
  intro i j x y hx hy hxb hyb hcaller
  rw [List.getElem?_set] at hx hy
  by_cases hi : k = i <;> by_cases hj : k = j
  · exact hi.symm.trans hj
  · rw [if_pos hi] at hx
    rw [if_neg hj] at hy
    split_ifs at hx
    injection hx with hx
    subst hx
    exact (other j y (Ne.symm hj) hy hxb hyb hcaller).elim
  · rw [if_neg hi] at hx
    rw [if_pos hj] at hy
    split_ifs at hy
    injection hy with hy
    subst hy
    exact (other i x (Ne.symm hi) hx hyb hxb hcaller.symm).elim
  · rw [if_neg hi] at hx
    rw [if_neg hj] at hy
    exact h i j x y hx hy hxb hyb hcaller

end Sys2Proof.Machine
end

section
/-! PROOFS. R20, R80, R286: the machine about the instance in hand of one of its agents. Whatever falls between the agent's accesses
keeps every fact of the other instances that the environment's moves keep, and that a host has one command in flight. -/

namespace Sys2Proof.Machine

/-- A fact of one instance that the moves of its engines, of its oracle and of its timer, and the admission of a command, keep. -/
structure Enduring (p : Config.Params) (I : Device → Prop) : Prop where
  moved : ∀ {d v : Device}, d.Moved p v → I d → I v
  leave_s9 : ∀ {d : Device} (r : Result), d.seq = .s9 → I d → I { d with res := r, seq := .s11 }
  start : ∀ {d : Device} {c : Cmd} (host : Nat), d.tp.busy = false → countsValid c = true → I d →
    I (startTransaction p host c d)

theorem control_enduring (p : Config.Params) : Enduring p (Device.Control p) where
  moved hm h := h.moved hm
  leave_s9 r hs h := h.leave_s9 hs r
  start host hb hc h := startTransaction_control h hb hc p host

/-! ### Moves of the environment agents of one instance -/

/-- A move of an environment agent: it keeps the fact, the snapshot and the host served. -/
structure Calms (p : Config.Params) (I : Device → Prop) (f : Ctx → Ctx) : Prop where
  onOwn : OnOwn f
  keeps : ∀ l : Ctx, l.params = p → I l.dev → I (f l).dev
  claim : ∀ l : Ctx, (f l).dev.tp = l.dev.tp ∧ (f l).dev.caller = l.dev.caller

theorem Device.SameProgramme.claim {d v : Device} (h : d.SameProgramme v) : v.tp = d.tp ∧ v.caller = d.caller := by
  simp only [Device.SameProgramme] at h
  simp [h]

theorem answerMap_moved (p : Config.Params) (r : Option Word) (l : Ctx) : l.dev.Moved p (answerMap r l).dev :=
  ⟨(answerMap_frame r l).programme, fun _ => rfl, fun _ => rfl, fun hl => hl⟩

section
variable {p : Config.Params} {I : Device → Prop} (hI : Enduring p I)
include hI

theorem calms_be (m : BeMove) : Calms p I fun l => l.mapDev (beMove l.params m) where
  onOwn := onOwn_be m
  keeps l hp h := hI.moved (hp ▸ beMove_moved l.params m l.dev) h
  claim l := (beMove_sameProgramme l.params m l.dev).claim

theorem calms_deMove (m : DeMove) : Calms p I (deMove m) where
  onOwn := onOwn_deMove m
  keeps l hp h := hI.moved (hp ▸ deMove_moved m l) h
  claim l := (deMove_frame m l).programme.claim

theorem calms_answerMap (r : Option Word) : Calms p I (answerMap r) where
  onOwn := onOwn_answerMap r
  keeps l _ h := hI.moved (answerMap_moved p r l) h
  claim _ := ⟨rfl, rfl⟩

theorem calms_timerExpire : Calms p I timerExpire where
  onOwn := onOwn_timerExpire
  keeps l _ h := by
    rcases timerExpire_cases l with e | ⟨hs, -, r, e⟩ <;> rw [e]
    · exact h
    · exact hI.leave_s9 r hs h
  claim l := by
    rcases timerExpire_cases l with e | ⟨-, -, r, e⟩ <;> rw [e] <;> exact ⟨rfl, rfl⟩

end

/-! ### The world about the instance in hand -/

/-- The instance in hand stands in its place, the fact holds of every other instance, and no host has two commands in flight. -/
structure Ctx.World (p : Config.Params) (I : Device → Prop) (l : Ctx) : Prop where
  params : l.params = p
  placed : l.Placed
  peers : ∀ v ∈ l.before ++ l.after, I v
  hosts : OneCommandPerHost l.devices

section
variable {p : Config.Params} {I : Device → Prop} {l : Ctx} {k : Nat}

/-- The instance in hand may change while it serves its host, or become idle. -/
theorem Ctx.World.own (h : l.World p I) {v : Device} (mem : Memory) (trace : List Obs)
    (hb : v.tp.busy = true → l.dev.tp.busy = true) (hc : v.caller = l.dev.caller) :
    ({ l with dev := v, mem := mem, trace := trace } : Ctx).World p I where
  params := h.params
  placed := h.placed
  peers := h.peers
  hosts := by
    show OneCommandPerHost ({ l with dev := v } : Ctx).devices
    rw [Ctx.devices_dev h.placed]
    exact h.hosts.set (Ctx.devices_self h.placed) fun hv => .inl ⟨hb hv, hc⟩

theorem Ctx.World.mapDev (h : l.World p I) {f : Device → Device} (hb : (f l.dev).tp.busy = true → l.dev.tp.busy = true)
    (hc : (f l.dev).caller = l.dev.caller) : (l.mapDev f).World p I := h.own l.mem l.trace hb hc

theorem Ctx.World.setPeer {v w : Device} (h : l.World p I) (hk : k ≠ l.id) (hp : l.peer? k = some v) (hw : I w)
    (hclaim : w.tp.busy = true → (v.tp.busy = true ∧ w.caller = v.caller) ∨ waiting w.caller l.devices = false) :
    (l.setPeer k w).World p I where
  params := by rw [Ctx.setPeer_params]; exact h.params
  placed := by
    show (l.setPeer k w).before.length = (l.setPeer k w).id
    rw [Ctx.setPeer_before, Ctx.setPeer_id]
    exact h.placed
  peers x hx := by
    rcases Ctx.mem_setPeer hx with rfl | hx
    · exact hw
    · exact h.peers x hx
  hosts := by
    rw [Ctx.devices_setPeer h.placed hk]
    exact h.hosts.set (by rw [← Ctx.peer?_eq h.placed hk]; exact hp) hclaim

theorem Ctx.World.onPeer {f : Ctx → Ctx} (hf : Calms p I f) (h : l.World p I) (hk : k ≠ l.id) :
    (onPeer k f l).World p I := by
  rcases onPeer_cases k f l with ⟨-, e⟩ | ⟨v, hv, e⟩ <;> rw [e]
  · exact h
  · obtain ⟨htp, hcaller⟩ := hf.claim { l with id := k, dev := v }
    have hw := hf.keeps { l with id := k, dev := v } h.params (h.peers v (Ctx.peer?_mem hv))
    exact Ctx.World.setPeer (h.own _ _ (fun hb => hb) rfl) hk hv hw fun hb => .inl ⟨by rw [htp] at hb; exact hb, hcaller⟩

theorem Ctx.World.onAny {f : Ctx → Ctx} (hf : Calms p I f) (h : l.World p I) : (onAny k f l).World p I := by
  unfold Machine.onAny
  split_ifs with hk
  · obtain ⟨v, mem, trace, e⟩ := hf.onOwn l
    obtain ⟨htp, hcaller⟩ := hf.claim l
    rw [e] at htp hcaller ⊢
    exact h.own mem trace (fun hb => by rw [← htp]; exact hb) hcaller
  · exact h.onPeer hf hk

theorem Ctx.World.answer (h : l.World p I) (host : Nat) (c : Cmd) (r : Result) : (answer host c r l).World p I :=
  ⟨h.params, h.placed, h.peers, h.hosts⟩

variable (hI : Enduring p I)
include hI

theorem Ctx.World.hostCommand (h : l.World p I) (host : Nat) (c : Cmd) : (hostCommand host c l).World p I := by
  rcases hostCommand_cases host c l with e | ⟨r, e⟩ | ⟨hk, hwait, v, hv, hidle, hcounts, e⟩ <;> rw [e]
  · exact h
  · exact h.answer host c r
  · obtain rfl := h.params
    exact Ctx.World.setPeer (l := { l with callCmd := c, host := host }) ⟨h.params, h.placed, h.peers, h.hosts⟩ hk hv
      (hI.start host hidle hcounts (h.peers v (Ctx.peer?_mem hv))) fun _ => .inr hwait

/-- Whatever falls between two accesses of the instance in hand keeps the world about it (R280). -/
theorem Ctx.World.envMove (h : l.World p I) (m : EnvMove) : (envMove l m).World p I := by
  cases m with
  | be k m => exact Ctx.World.onAny (f := fun l => l.mapDev (beMove l.params m)) (calms_be hI m) h
  | de k m => exact h.onAny (calms_deMove hI m)
  | expire k =>
    show (if k = l.id then l else Machine.onPeer k timerExpire l).World p I
    split_ifs with hk
    · exact h
    · exact h.onPeer (calms_timerExpire hI) hk
  | mapAnswer k r => exact h.onAny (calms_answerMap hI r)
  | store a b => exact h.own _ _ (fun hb => hb) rfl
  | free a => exact h.own _ _ (fun hb => hb) rfl
  | command host c => exact h.hostCommand hI host c

theorem Ctx.World.pump (h : l.World p I) : (pump l).World p I :=
  pump_induct_all (P := Ctx.World p I) (fun _ _ h => h.own _ _ (fun hb => hb) rfl) (fun _ m h => h.envMove hI m) l h

omit hI in
/-- What falls between two accesses does to the instance in hand what its engines and its oracle do. -/
theorem envMove_moved (m : EnvMove) (l : Ctx) (hp : l.params = p) : l.dev.Moved p (Machine.envMove l m).dev := by
  have onAny : ∀ (k : Nat) (f : Ctx → Ctx), l.dev.Moved p (f l).dev → l.dev.Moved p (Machine.onAny k f l).dev := by
    intro k f hf
    unfold Machine.onAny
    split_ifs
    · exact hf
    · rw [onPeer_dev]; exact .refl _ _
  cases m with
  | be k m => exact onAny k _ (hp ▸ beMove_moved l.params m l.dev)
  | de k m => exact onAny k _ (hp ▸ deMove_moved m l)
  | expire k =>
    show l.dev.Moved p (if k = l.id then l else Machine.onPeer k timerExpire l).dev
    split_ifs
    · exact .refl _ _
    · rw [onPeer_dev]; exact .refl _ _
  | mapAnswer k r => exact onAny k _ (answerMap_moved p r l)
  | store a b => exact .refl _ _
  | free a => exact .refl _ _
  | command host c => exact hostCommand_dev host c l ▸ .refl _ _

end

/-! ### What falls before an access -/

/-- From `l` to `m` only the environment has moved: it has kept the world about the instance in hand, and done to that instance what
its engines and its oracle do. -/
structure Ctx.Drifts (p : Config.Params) (I : Device → Prop) (l m : Ctx) : Prop where
  world : m.World p I
  moved : l.dev.Moved p m.dev

section
variable {p : Config.Params} {I : Device → Prop} {l m n : Ctx}

theorem Ctx.Drifts.refl (h : l.World p I) : l.Drifts p I l := ⟨h, .refl _ _⟩

theorem Ctx.Drifts.trans (h1 : l.Drifts p I m) (h2 : m.Drifts p I n) : l.Drifts p I n := ⟨h2.world, h1.moved.trans h2.moved⟩

theorem Ctx.Drifts.setMem (h : l.Drifts p I m) (mem : Memory) : l.Drifts p I { m with mem := mem } :=
  ⟨h.world.own _ _ (fun hb => hb) rfl, h.moved⟩

variable (hI : Enduring p I)
include hI

theorem Ctx.World.drifts_pump (h : l.World p I) : l.Drifts p I (Machine.pump l) :=
  pump_induct_all (P := fun x => l.Drifts p I x)
    (fun x rest hx => hx.trans ⟨hx.world.own _ _ (fun hb => hb) rfl,
      ⟨by simp [Device.SameProgramme], fun _ => rfl, fun _ => rfl, fun hl => hl⟩⟩)
    (fun x m hx => hx.trans ⟨hx.world.envMove hI m, envMove_moved m x hx.world.params⟩) l (.refl h)

theorem writeByte_drifts (a : Nat) (b : Byte) (h : l.World p I) : (writeByte a b l).Ends (l.Drifts p I) := by
  unfold writeByte
  split
  · exact (h.drifts_pump hI).setMem _
  · exact h.drifts_pump hI

theorem writeBytes_drifts (a : Nat) (bs : List Byte) (h : l.World p I) : (writeBytes a bs l).Ends (l.Drifts p I) := by
  induction bs generalizing a l with
  | nil => exact .refl h
  | cons b bs ih =>
    exact andThen_ends (writeByte_drifts hI a b h) (fun m hm => (ih (a + 1) hm.world).mono fun _ => hm.trans) fun _ hm => hm

theorem gatherWords_drifts (n : Nat) (s : Slot) (h : l.World p I) : l.Drifts p I (gatherWords n s l).2 := by
  induction n generalizing s l with
  | zero => exact .refl h
  | succ n ih =>
    have hp := h.drifts_pump hI
    exact hp.trans (ih (s + 1) hp.world)

/-- A register write keeps the world. -/
theorem Ctx.World.regWrite (h : l.World p I) (r : Reg) (v : Word) : (regWrite r v l).World p I :=
  (h.pump hI).own _ _ (by simp) (by simp)

theorem Ctx.World.rmw (h : l.World p I) (r : Reg) (mask v : Word) : (rmw r mask v l).World p I :=
  (h.pump hI).regWrite hI r _

theorem Ctx.World.pulse (h : l.World p I) (r : Reg) (mask : Word) : (pulse r mask l).World p I :=
  (h.regWrite hI r mask).regWrite hI r 0

end

end Sys2Proof.Machine
end

section
/-! PROOFS. R281: up to the trigger, and after a reset, both engines are stopped, so that of the instance in hand only the moves to
fall and the oracle's answer change between the accesses. -/

namespace Sys2Proof.Machine

/-! ### Stopped engines -/

/-- Nothing stands in the status registers. -/
structure Device.Silent (d : Device) : Prop where
  status : d.mb.status = 0 := by rfl
  ovf : d.mb.ovf = 0 := by rfl
  rdflag : d.mb.rdflag = 0 := by rfl
  dma : d.db.status = 0 := by rfl

/-- Both engines are stopped. -/
structure Device.Stopped (d : Device) : Prop where
  bus : d.beActive = false := by rfl
  dma : d.deActive = false := by rfl

section
variable {d v : Device}

/-- The status registers are silent whatever else changes. -/
theorem Device.Silent.same (h : d.Silent) (h1 : v.mb.status = d.mb.status := by rfl) (h2 : v.mb.ovf = d.mb.ovf := by rfl)
    (h3 : v.mb.rdflag = d.mb.rdflag := by rfl) (h4 : v.db.status = d.db.status := by rfl) : v.Silent :=
  ⟨h1.trans h.status, h2.trans h.ovf, h3.trans h.rdflag, h4.trans h.dma⟩

/-- The engines are stopped whatever else changes. -/
theorem Device.Stopped.same (h : d.Stopped) (h1 : v.beActive = d.beActive := by rfl)
    (h2 : v.deActive = d.deActive := by rfl) : v.Stopped := ⟨h1.trans h.bus, h2.trans h.dma⟩

end

theorem someSlotDone_zero (b : Bool) : someSlotDone b 0 = false := by cases b <;> decide

/-- With nothing in the status registers the line is low. -/
theorem Device.Silent.low {d : Device} (h : d.Silent) (p : Config.Params) : irqLevel p d = false := by
  simp only [irqLevel, h.status, h.ovf, h.rdflag, h.dma, someSlotDone_zero]
  simp

section
variable {p : Config.Params} {d : Device}

/-- Before the trigger, and between transactions, both engines are stopped (R281). -/
theorem Device.Control.stopped (h : d.Control p) (h1 : d.seq ≠ .s9) (h2 : d.seq ≠ .s11) : d.Stopped where
  bus := by
    by_contra hb
    rcases h.triggered (.inl (by simpa using hb)) with hs | hs
    · exact h1 hs
    · exact h2 hs
  dma := by
    by_contra hb
    rcases h.triggered (.inr (by simpa using hb)) with hs | hs
    · exact h1 hs
    · exact h2 hs

/-- Stopped engines have left nothing in the status registers (R281, R358). -/
theorem Device.Control.silent (h : d.Control p) (hs : d.Stopped) : d.Silent := by
  obtain ⟨h1, h2, h3⟩ := h.master_quiet hs.bus
  exact ⟨h1, h2, h3, h.dma_quiet hs.dma⟩

/-- Between S1 and the trigger. -/
theorem Device.Control.programming (h : d.Control p) (ha : d.seq.active = true) (h1 : d.seq ≠ .s9) (h2 : d.seq ≠ .s11) :
    d.Stopped ∧ d.Silent ∧ d.tp.busy = true :=
  ⟨h.stopped h1 h2, h.silent (h.stopped h1 h2), h.busy_iff.trans ha⟩

end

/-! ### An instance known but for the moves to fall -/

/-- `v` is `d` but for the moves still to fall between accesses and the oracle's next answer. -/
def Device.Later (d v : Device) : Prop := ∃ t o, v = { d with inter := t, oracle := o }

theorem Device.Later.refl (d : Device) : d.Later d := ⟨d.inter, d.oracle, rfl⟩

/-- The invariants look neither at the moves to fall nor at the oracle. -/
theorem Device.Later.control {p : Config.Params} {d v : Device} (h : d.Later v) (hd : d.Control p) : v.Control p := by
  obtain ⟨t, o, rfl⟩ := h
  exact { hd with }

theorem Device.Later.sizing {p : Config.Params} {d v : Device} (h : d.Later v) (hd : d.Sizing p) : v.Sizing p := by
  obtain ⟨t, o, rfl⟩ := h
  exact { hd with }

theorem poke_later {d v : Device} (h : d.Later v) (r : Reg) (w : Word) : (poke r w d).Later (poke r w v) := by
  obtain ⟨t, o, rfl⟩ := h
  refine ⟨t, o, ?_⟩
  cases r with
  | mCtrl => simp only [poke]; split <;> rfl
  | _ => rfl

theorem peek_later {d v : Device} (h : d.Later v) (r : Reg) : peek r v = peek r d := by
  obtain ⟨t, o, rfl⟩ := h
  cases r <;> rfl

theorem Device.Later.irqLevel {p : Config.Params} {d v : Device} (h : d.Later v) :
    Machine.irqLevel p v = Machine.irqLevel p d := by
  obtain ⟨t, o, rfl⟩ := h
  rfl

/-- The instance in hand is `d`, but for the moves to fall and the oracle's answer, and the world about it stands. -/
structure Ctx.Now (p : Config.Params) (I : Device → Prop) (d : Device) (l : Ctx) : Prop where
  world : l.World p I
  later : d.Later l.dev

section
variable {p : Config.Params} {I : Device → Prop} {d : Device} {l : Ctx}

theorem Ctx.World.now (h : l.World p I) : l.Now p I l.dev := ⟨h, .refl _⟩

/-- A change of the instance in hand that keeps it serving its host. -/
theorem Ctx.Now.own (h : l.Now p I d) {d' v : Device} (mem : Memory) (trace : List Obs) (hv : d'.Later v)
    (hb : d'.tp.busy = true → d.tp.busy = true) (hc : d'.caller = d.caller) :
    ({ l with dev := v, mem := mem, trace := trace } : Ctx).Now p I d' := by
  obtain ⟨t, o, e⟩ := h.later
  obtain ⟨t', o', rfl⟩ := hv
  exact ⟨h.world.own mem trace (fun hb' => by rw [e]; exact hb hb') (by rw [e]; exact hc), t', o', rfl⟩

/-- The same of a change of one field or several. -/
theorem Ctx.Now.mapDev (h : l.Now p I d) {f : Device → Device} (hf : ∀ v, d.Later v → (f d).Later (f v))
    (hb : (f d).tp.busy = true → d.tp.busy = true) (hc : (f d).caller = d.caller) : (l.mapDev f).Now p I (f d) :=
  h.own l.mem l.trace (hf _ h.later) hb hc

/-- A change of the snapshot. -/
theorem Ctx.Now.mapTP (h : l.Now p I d) (f : TP → TP) (hb : (f d.tp).busy = d.tp.busy) :
    (l.mapTP f).Now p I { d with tp := f d.tp } :=
  h.mapDev (f := fun d => { d with tp := f d.tp }) (fun v ⟨t, o, e⟩ => ⟨t, o, by rw [e]⟩)
    (fun hb' => by rw [← hb]; exact hb') rfl

theorem Ctx.Now.goto (h : l.Now p I d) (q : SeqStep) : (goto q l).Now p I { d with seq := q } :=
  h.mapDev (f := fun d => { d with seq := q }) (fun v ⟨t, o, e⟩ => ⟨t, o, by rw [e]⟩) (fun hb => hb) rfl

variable (hI : Enduring p I)
include hI

theorem Ctx.Now.pump (h : l.Now p I d) (hd : d.Stopped) : (pump l).Now p I d := by
  refine ⟨h.world.pump hI, ?_⟩
  obtain ⟨t, o, e⟩ := h.later
  refine ⟨l.dev.inter.tail, (Machine.pump l).dev.oracle, ?_⟩
  rw [pump_inactive (l := l) (by rw [e]; exact hd.bus) (by rw [e]; exact hd.dma), e]

/-- A register write after which the line is low. -/
theorem Ctx.Now.regWrite (h : l.Now p I d) (hd : d.Stopped) (r : Reg) (w : Word) (hlow : (poke r w d).Silent) :
    (regWrite r w l).Now p I (poke r w d) := by
  have hp := h.pump hI hd
  have hlater := poke_later hp.later r w
  refine ⟨h.world.regWrite hI r w, ?_⟩
  rw [regWrite_dev, latch_of_low (by rw [hlater.irqLevel]; exact hlow.low _)]
  exact hlater

/-- A read-modify-write that stores the word `w`, after which the line is low. -/
theorem Ctx.Now.rmw (h : l.Now p I d) (hd : d.Stopped) (r : Reg) (mask v w : Word)
    (hw : (peek r d &&& ~~~mask) ||| (v &&& mask) = w) (hlow : (poke r w d).Silent) :
    (rmw r mask v l).Now p I (poke r w d) := by
  have hp := h.pump hI hd
  rw [rmw_eq, peek_later hp.later, hw]
  exact hp.regWrite hI hd r w hlow

/-- The controller reset with the engines stopped. -/
theorem Ctx.Now.ctrlReset (h : l.Now p I d) (hd : d.Stopped) : (ctrlReset l).Now p I (resetController d) := by
  have e := poke_mCtrl_reset (d := d) (v := (peek .mCtrl d &&& ~~~1) ||| (1 &&& 1)) (by simp)
  have hr := h.rmw hI hd .mCtrl 1 1 _ rfl (by rw [e]; exact {})
  rw [e] at hr
  exact hr

end

end Sys2Proof.Machine
end

section
/-! PROOFS. R175 to R185: the loops of the staging and the exit, and what each step of the sequencer owes the invariants. -/

namespace Sys2Proof.Machine

/-! ### The loops of S5 and S11, for any fact that what falls before an access keeps -/

section
variable {P : Ctx → Prop} (hpump : ∀ l, P l → P (pump l)) {l : Ctx}
include hpump

theorem padByte_ends {base off n : Nat} {f : Byte → Ctx → Res} (hf : ∀ b m, P m → (f b m).Ends P) (h : P l) :
    (padByte base off n f l).Ends P := by
  unfold padByte
  split
  · exact readByte_ends (fun b => hf b _ (hpump l h)) (hpump l h)
  · exact hf 0 l h

theorem loadWord_ends {base off n : Nat} {f : Word → Ctx → Res} (hf : ∀ w m, P m → (f w m).Ends P) (h : P l) :
    (loadWord base off n f l).Ends P :=
  padByte_ends hpump (fun _ _ h0 => padByte_ends hpump (fun _ _ h1 => padByte_ends hpump (fun _ _ h2 =>
    padByte_ends hpump (fun _ _ h3 => hf _ _ h3) h2) h1) h0) h

theorem loadSlots_ends (hslot : ∀ i w l, P l → P (dataPut i w l)) {src n i k : Nat} (h : P l) :
    (loadSlots src n i k l).Ends P := by
  induction k generalizing i l with
  | zero => exact h
  | succ k ih => exact loadWord_ends hpump (fun _ _ h' => ih (hslot _ _ _ h')) h

theorem copyBytesIn_ends (hput : ∀ i b l, P l → P (scratchPut i b l)) {src i n : Nat} (h : P l) :
    (copyBytesIn src i n l).Ends P := by
  induction n generalizing i l with
  | zero => exact h
  | succ n ih => exact readByte_ends (fun b => ih (hput _ _ _ (hpump l h))) (hpump l h)

theorem copyBytesOut_ends (hmem : ∀ l mem, P l → P { l with mem := mem }) {dst i n : Nat} (h : P l) :
    (copyBytesOut dst i n l).Ends P := by
  induction n generalizing i l with
  | zero => exact h
  | succ n ih =>
    refine andThen_ends (P := P) ?_ (fun _ h' => ih h') fun _ h' => h'
    show (writeByte _ _ (pump l)).Ends P
    unfold writeByte
    split
    · exact hmem _ _ (hpump _ (hpump l h))
    · exact hpump _ (hpump l h)

end

/-! ### Staging -/

/-- The instance in hand is `d`, but for its word-slots, its scratch buffer, the moves to fall and the oracle's answer. -/
def Ctx.Staged (p : Config.Params) (I : Device → Prop) (d : Device) (l : Ctx) : Prop :=
  ∃ (data : Vector Word 8) (scratch : List Host.Cell),
    l.Now p I { d with mb := { d.mb with data := data }, scratch := scratch }

section
variable {p : Config.Params} {I : Device → Prop} {d : Device} {l : Ctx}

theorem Ctx.Now.staged (h : l.Now p I d) : l.Staged p I d := ⟨d.mb.data, d.scratch, h⟩

variable (hI : Enduring p I) (hstop : d.Stopped) (hsil : d.Silent)
include hI hstop

theorem Ctx.Staged.pump (h : l.Staged p I d) : (pump l).Staged p I d := by
  obtain ⟨data, scratch, h⟩ := h
  exact ⟨data, scratch, h.pump hI hstop.same⟩

theorem Ctx.Staged.scratchPut (h : l.Staged p I d) (i : Nat) (b : Byte) : (scratchPut i b l).Staged p I d := by
  obtain ⟨data, scratch, h⟩ := h
  refine ⟨data, cellWrite scratch i b, ?_⟩
  have hp := h.pump hI hstop.same
  exact hp.own _ _ (hp.later.elim fun t ⟨o, e⟩ => ⟨t, o, by rw [e]⟩) (fun hb => hb) rfl

theorem copyBytesIn_staged {src i n : Nat} (h : l.Staged p I d) : (copyBytesIn src i n l).Ends (Ctx.Staged p I d) :=
  copyBytesIn_ends (fun _ h => h.pump hI hstop) (fun i b _ h => h.scratchPut hI hstop i b) h

include hsil

theorem Ctx.Staged.dataPut (h : l.Staged p I d) (i : Slot) (w : Word) : (dataPut i w l).Staged p I d := by
  obtain ⟨data, scratch, h⟩ := h
  exact ⟨data.set i.val w i.isLt, scratch,
    h.regWrite hI hstop.same (.mData i) w hsil.same⟩

theorem dataLoad32_staged {src n : Nat} (h : l.Staged p I d) : (dataLoad32 src n l).Ends (Ctx.Staged p I d) :=
  loadSlots_ends (fun _ h => h.pump hI hstop) (fun i w _ h => h.dataPut hI hstop hsil i w) h

theorem restartLoad_staged (h : l.Staged p I d) : (restartLoad l).Ends (Ctx.Staged p I d) := by
  unfold restartLoad
  split
  · exact dataLoad32_staged hI hstop hsil h
  · exact h

end

/-! ### What each step owes the invariants -/

/-- From `d` to `v` the transaction is the same, whatever its step, its registers and its counters. -/
structure Device.SameOwner (d v : Device) : Prop where
  busy : v.tp.busy = d.tp.busy := by rfl
  phase : v.tp.phase = d.tp.phase := by rfl
  cmdl : v.cmdl = d.cmdl := by rfl
  iepRun : v.iepRun = d.iepRun := by rfl
  stuckIep : v.stuck.iep = d.stuck.iep := by rfl

section
variable {p : Config.Params} {d v : Device}

theorem Device.Control.phase_of_busy (h : d.Control p) (hb : d.tp.busy = true) (hs : d.seq ≠ .s11) :
    d.tp.phase = phaseOf d.cmdl.op := by
  rcases h.phase_eq with hp | ⟨-, -, hp⟩
  · rw [hp, if_pos hb]
  · exact absurd hp hs

/-- The control invariant of a busy instance before its exit, from the facts about its registers and its step. -/
theorem Device.Control.advance (h : d.Control p) (hb : d.tp.busy = true) (hs : d.seq ≠ .s11) (ho : d.SameOwner v)
    (hactive : v.seq.active = true) (hsil : v.Silent)
    (hmap : v.map.valid = true → isDmaOp d.cmdl.op = true)
    (hstrobes : v.mb.stclr = 0 ∧ v.mb.rdfclr = 0)
    (htrig : v.beActive = true ∨ v.deActive = true → v.seq = .s9)
    (hruns : v.deActive = true → isDmaOp d.cmdl.op = true ∧ v.db.dir = isReadOp d.cmdl.op)
    (hdir : v.seq = .s5 ∨ v.seq = .s6 ∨ v.seq = .s7 ∨ v.seq = .s8 → v.mb.ctrl.rw = isReadOp d.cmdl.op)
    (hdma : isDmaOp d.cmdl.op = true → v.seq = .s6 ∨ v.seq = .s7 ∨ v.seq = .s8 → v.db.dir = v.mb.ctrl.rw)
    (hmode : v.seq = .s7 ∨ v.seq = .s8 → v.mb.ctrl.auto = isDmaOp d.cmdl.op) : v.Control p := by
  have hvb : v.tp.busy = true := ho.busy.trans hb
  refine
    { busy_iff := by rw [hvb, hactive]
      rests := by refine ⟨?_, ?_, ?_⟩ <;> intro e <;> rw [e] at hactive <;> cases hactive
      phase_eq := .inl (by rw [if_pos hvb, ho.phase, ho.cmdl]; exact h.phase_of_busy hb hs)
      counts := fun _ => by rw [ho.cmdl]; exact h.counts hb
      baseline := fun hi => by rw [hvb] at hi; cases hi
      mapped := by rw [ho.cmdl]; exact hmap
      run_stuck := by rw [ho.iepRun, ho.stuckIep]; exact h.run_stuck
      pending := fun _ hl => by rw [hsil.low] at hl; cases hl
      strobes := hstrobes
      triggered := fun ht => .inl (htrig ht)
      master_quiet := fun _ => ⟨hsil.status, hsil.ovf, hsil.rdflag⟩
      dma_quiet := fun _ => hsil.dma
      dma_runs := by rw [ho.cmdl]; exact hruns
      direction := by rw [ho.cmdl]; exact hdir
      dma_direction := by rw [ho.cmdl]; exact hdma
      trigger_mode := by rw [ho.cmdl]; exact hmode }

/-- Up to S5 nothing is staged, and from S6 on everything is: within either the counters conserve the bytes where they stand. -/
theorem Device.Sizing.advance (h : d.Sizing p) (htp : v.tp = d.tp) (hcmdl : v.cmdl = d.cmdl) (hsig : v.sig = d.sig)
    (hrun : v.iepRun = d.iepRun)
    (hseq : (d.seq = .s2 ∨ d.seq = .s3 ∨ d.seq = .s4 ∨ d.seq = .s5) ∧
        (v.seq = .s2 ∨ v.seq = .s3 ∨ v.seq = .s4 ∨ v.seq = .s5) ∨
      (d.seq = .s6 ∨ d.seq = .s7 ∨ d.seq = .s8 ∨ d.seq = .s9 ∨ d.seq = .s11) ∧
        (v.seq = .s6 ∨ v.seq = .s7 ∨ v.seq = .s8 ∨ v.seq = .s9 ∨ v.seq = .s11)) : v.Sizing p where
  recorded := by rw [htp, hcmdl]; exact h.recorded
  read_conserves := by rw [htp, hcmdl, hsig, hrun]; exact h.read_conserves
  write_conserves hr hb hop hs := by
    rw [htp, hcmdl] at *
    rw [hrun] at hr
    rcases hseq with ⟨-, hv⟩ | ⟨hd, -⟩
    · rcases hs with e | e | e | e | e <;> rw [e] at hv <;> simp at hv
    · exact h.write_conserves hr hb hop hd
  write_unstaged hb hop hs := by
    rw [htp, hcmdl] at *
    rcases hseq with ⟨hd, -⟩ | ⟨-, hv⟩
    · exact h.write_unstaged hb hop hd
    · rcases hs with e | e | e | e <;> rw [e] at hv <;> simp at hv
  dma_zero := by rw [htp, hcmdl]; exact h.dma_zero
  cursor_aligned := by rw [htp]; exact h.cursor_aligned

end

/-! ### How an agent's move leaves its instance -/

/-- The world stands, and the instance in hand meets the control invariant, and the sizing invariant if it was met before. -/
structure Ctx.Rests (p : Config.Params) (I : Device → Prop) (d : Device) (l : Ctx) : Prop where
  world : l.World p I
  control : l.dev.Control p
  sizing : d.Sizing p → l.dev.Sizing p

/-- The move goes on in a context of which `R` holds, or is stuck in one of which it holds once the agent is halted. -/
def Res.Leaves (ag : Agent) (R : Ctx → Prop) : Res → Prop
  | .next l => R l
  | .stuck l => R (l.mapDev (halt ag))
  | .refused _ => True

theorem Ctx.Now.rests {p : Config.Params} {I : Device → Prop} {d v : Device} {l : Ctx} (h : l.Now p I v) (hc : v.Control p)
    (hz : d.Sizing p → v.Sizing p) : l.Rests p I d := ⟨h.world, h.later.control hc, fun hd => h.later.sizing (hz hd)⟩

theorem Ctx.Now.halt {p : Config.Params} {I : Device → Prop} {v : Device} {l : Ctx} (h : l.Now p I v) (ag : Agent) :
    (l.mapDev (Machine.halt ag)).Now p I (Machine.halt ag v) :=
  h.mapDev (f := Machine.halt ag) (fun v ⟨t, o, e⟩ => ⟨t, o, by rw [e]; cases ag <;> rfl⟩)
    (fun hb => by rw [halt_tp] at hb; exact hb) (by cases ag <;> rfl)

end Sys2Proof.Machine
end

section
/-! PROOFS. R175 to R182: each step of the sequencer up to the trigger, but for the staging, leaves its instance under the
invariants. -/

namespace Sys2Proof.Machine

/-! ### The primitives these steps issue -/

section
variable {p : Config.Params} {I : Device → Prop} {d : Device} {l : Ctx} (hI : Enduring p I) (h : l.Now p I d)
  (hstop : d.Stopped)
include hI h hstop

theorem Ctx.Now.addrClkSet (hsil : d.Silent) (freq : Word) (a : BitVec Config.addrWidth) :
    ∃ clk addr, (addrSet a (clkdivSet freq l)).Now p I { d with mb := { d.mb with clk := clk, addr := addr } } := by
  have hclk := h.rmw hI hstop .mClk (BitVec.ofNat 32 Config.divMax)
    (BitVec.ofNat 32 (divOf l.params.srcFreqKhz freq.toNat)) _ rfl hsil.same
  exact ⟨_, _, hclk.rmw hI hstop.same .mAddr 0x0000007F (a.setWidth 32) _ rfl hsil.same⟩

theorem Ctx.Now.modeSet (hsil : d.Silent) (m : ModeMask) (rw re au : Bool) :
    (modeSet m rw re au l).Now p I { d with mb := { d.mb with ctrl := modeAfter m rw re au d.mb.ctrl } } := by
  have e : (peek .mCtrl d &&& ~~~m.bits) ||| (modeOperand rw re au &&& m.bits) =
      modeOperand (modeAfter m rw re au d.mb.ctrl).rw (modeAfter m rw re au d.mb.ctrl).restart
        (modeAfter m rw re au d.mb.ctrl).auto := by
    cases m
    · exact modeOperand_all _ _ _ _ _ _
    · exact modeOperand_direction _ _ _ _ _ _
    · exact modeOperand_auto _ _ _ _ _ _
  have hset := h.rmw hI hstop .mCtrl m.bits (modeOperand rw re au) _ e (by rw [poke_mode]; exact hsil.same)
  rw [poke_mode] at hset
  exact hset

theorem Ctx.Now.cntSet (hsil : d.Silent) (wr rd : BitVec 16) :
    ∃ wrcnt rdcnt, (cntSet wr rd l).Now p I { d with mb := { d.mb with wrcnt := wrcnt, rdcnt := rdcnt } } :=
  ⟨_, _, h.regWrite hI hstop .mCnt (rd ++ wr) hsil.same⟩

theorem Ctx.Now.intenSet (hsil : d.Silent) (mask : BitVec 9) :
    ∃ inten, (intenSet mask l).Now p I { d with mb := { d.mb with inten := inten } } :=
  ⟨_, h.rmw hI hstop .mInten _ _ _ rfl hsil.same⟩

theorem Ctx.Now.dmaIntenSet (hsil : d.Silent) (mask : BitVec 6) :
    ∃ inten, (dmaIntenSet mask l).Now p I { d with db := { d.db with inten := inten } } :=
  ⟨_, h.rmw hI hstop .dInten _ _ _ rfl hsil.same⟩

theorem Ctx.Now.trigger (hsil : d.Silent) (hauto : d.mb.ctrl.auto = false) :
    (trigger l).Now p I { d with beActive := true } := by
  obtain ⟨b0, b1, b4, b5, b6⟩ := modeOperand_trig d.mb.ctrl.rw d.mb.ctrl.restart d.mb.ctrl.auto
  have hp : poke .mCtrl (peek .mCtrl d ||| 2#32) d = { d with beActive := d.beActive || !d.mb.ctrl.auto } := by
    simp only [poke, peek, b0, b1, b4, b5, b6]
    simp
  have hset := h.rmw hI hstop .mCtrl 2#32 2#32 _ (strobe_word _ _) (by rw [hp]; exact hsil.same)
  rw [hp, hauto, hstop.bus] at hset
  exact hset

theorem Ctx.Now.dmaGo (hsil : d.Silent) (hdir : d.db.dir = d.mb.ctrl.rw) :
    ∃ m, dmaGo l = .next m ∧ m.Now p I { d with deActive := true, beActive := d.mb.ctrl.auto } := by
  obtain ⟨-, -, b0, b1, -⟩ := dirWord_bits d.db.dir
  have hp : poke .dCtrl (peek .dCtrl d ||| 1#32) d = { d with deActive := true, beActive := d.mb.ctrl.auto } := by
    simp only [poke, peek, b0, b1, hstop.bus]
    simp
  have hset := h.rmw hI hstop .dCtrl 1#32 1#32 _ (strobe_word _ _) (by rw [hp]; exact hsil.same)
  rw [hp] at hset
  have hdir' : l.dev.db.dir = l.dev.mb.ctrl.rw := by
    obtain ⟨t, o, e⟩ := h.later
    rw [e]
    exact hdir
  exact ⟨_, by rw [Machine.dmaGo, if_pos hdir']; rfl, hset⟩

end

/-! ### The steps -/

/-- An engine that does not run is neither of a stopped instance's two. -/
theorem Device.Stopped.idle {d : Device} {P : Prop} (h : d.Stopped) : d.beActive = true ∨ d.deActive = true → P := by
  rw [h.bus, h.dma]
  simp

section
variable {p : Config.Params} {I : Device → Prop} {c : Ctx} (hI : Enduring p I) (hw : c.World p I) (h : c.dev.Control p)
include hI hw h

/-- S2 (R175). -/
theorem resetStep_rests (hs : c.dev.seq = .s2) : (goto .s3 (ctrlReset c)).Rests p I c.dev := by
  obtain ⟨hstop, -, hb⟩ := h.programming (by rw [hs]; rfl) (by simp [hs]) (by simp [hs])
  refine ((hw.now.ctrlReset hI hstop).goto .s3).rests ?_ fun hz => hz.advance rfl rfl rfl rfl (.inl (by simp [hs]))
  exact h.advance hb (by simp [hs]) {} rfl {} h.mapped ⟨rfl, rfl⟩ (by simp) (by simp) (by simp) (by simp) (by simp)

/-- S3 (R176). -/
theorem addressStep_rests (hs : c.dev.seq = .s3) (freq : Word) (a : BitVec Config.addrWidth) :
    (goto .s4 (addrSet a (clkdivSet freq c))).Rests p I c.dev := by
  obtain ⟨hstop, hsil, hb⟩ := h.programming (by rw [hs]; rfl) (by simp [hs]) (by simp [hs])
  obtain ⟨clk, addr, hset⟩ := hw.now.addrClkSet hI hstop hsil freq a
  refine (hset.goto .s4).rests ?_ fun hz => hz.advance rfl rfl rfl rfl (.inl (by simp [hs]))
  exact h.advance hb (by simp [hs]) {} rfl hsil.same h.mapped h.strobes hstop.idle h.dma_runs
    (by simp) (by simp) (by simp)

/-- S4 (R177). -/
theorem directionStep_rests (hs : c.dev.seq = .s4) (wr rd : BitVec 16) (re : Bool) :
    (goto .s5 (cntSet wr rd (modeSet .direction (isReadOp c.dev.cmdl.op) re false c))).Rests p I c.dev := by
  obtain ⟨hstop, hsil, hb⟩ := h.programming (by rw [hs]; rfl) (by simp [hs]) (by simp [hs])
  have hmode := hw.now.modeSet hI hstop hsil .direction (isReadOp c.dev.cmdl.op) re false
  obtain ⟨wrcnt, rdcnt, hset⟩ := hmode.cntSet hI hstop.same hsil.same wr rd
  refine (hset.goto .s5).rests ?_ fun hz => hz.advance rfl rfl rfl rfl (.inl (by simp [hs]))
  exact h.advance hb (by simp [hs]) {} rfl hsil.same h.mapped h.strobes hstop.idle h.dma_runs
    (fun _ => rfl) (by simp) (by simp)

/-- S6 (R179). -/
theorem modeStep_rests (hs : c.dev.seq = .s6) :
    (goto .s7 (modeSet .auto false false (isDmaOp c.dev.cmdl.op) c)).Rests p I c.dev := by
  obtain ⟨hstop, hsil, hb⟩ := h.programming (by rw [hs]; rfl) (by simp [hs]) (by simp [hs])
  have hset := hw.now.modeSet hI hstop hsil .auto false false (isDmaOp c.dev.cmdl.op)
  refine (hset.goto .s7).rests ?_ fun hz => hz.advance rfl rfl rfl rfl (.inr (by simp [hs]))
  exact h.advance hb (by simp [hs]) {} rfl hsil.same h.mapped h.strobes hstop.idle h.dma_runs
    (fun _ => h.direction (by simp [hs])) (fun hd _ => h.dma_direction hd (by simp [hs])) (fun _ => rfl)

/-- S7 (R180). -/
theorem armStep_rests (hs : c.dev.seq = .s7) : (goto .s8 (arm c)).Rests p I c.dev := by
  obtain ⟨hstop, hsil, hb⟩ := h.programming (by rw [hs]; rfl) (by simp [hs]) (by simp [hs])
  obtain ⟨inten, hset⟩ := hw.now.intenSet hI hstop hsil (cmdInten c.dev.cmdl c.dev.tp.burstCnt)
  have harm : ∃ dinten, (arm c).Now p I
      { c.dev with mb := { c.dev.mb with inten := inten }, db := { c.dev.db with inten := dinten } } := by
    unfold arm
    simp only
    split
    · exact hset.dmaIntenSet hI hstop.same hsil.same 0x01
    · exact ⟨c.dev.db.inten, hset⟩
  obtain ⟨dinten, harm⟩ := harm
  refine (harm.goto .s8).rests ?_ fun hz => hz.advance rfl rfl rfl rfl (.inr (by simp [hs]))
  exact h.advance hb (by simp [hs]) {} rfl hsil.same h.mapped h.strobes hstop.idle h.dma_runs
    (fun _ => h.direction (by simp [hs])) (fun hd _ => h.dma_direction hd (by simp [hs]))
    (fun _ => h.trigger_mode (by simp [hs]))

/-- S8: the engines start (R181, R266). -/
theorem triggerStep_leaves (hs : c.dev.seq = .s8) :
    (andThen (start c) fun l => .next (goto .s9 l)).Leaves .seq (Ctx.Rests p I c.dev) := by
  obtain ⟨hstop, hsil, hb⟩ := h.programming (by rw [hs]; rfl) (by simp [hs]) (by simp [hs])
  have hauto := h.trigger_mode (.inr hs)
  cases hdma : isDmaOp c.dev.cmdl.op with
  | false =>
    have hset := hw.now.trigger hI hstop hsil (hauto.trans hdma)
    rw [start, hdma]
    refine (hset.goto .s9).rests ?_ fun hz => hz.advance rfl rfl rfl rfl (.inr (by simp [hs]))
    exact h.advance hb (by simp [hs]) {} rfl hsil.same h.mapped h.strobes (fun _ => rfl)
      h.dma_runs (by simp) (by simp) (by simp)
  | true =>
    have hdir := h.dma_direction hdma (by simp [hs])
    obtain ⟨m, e, hset⟩ := hw.now.dmaGo hI hstop hsil hdir
    rw [start, hdma, if_pos rfl, e]
    refine (hset.goto .s9).rests ?_ fun hz => hz.advance rfl rfl rfl rfl (.inr (by simp [hs]))
    exact h.advance hb (by simp [hs]) {} rfl hsil.same h.mapped h.strobes (fun _ => rfl)
      (fun _ => ⟨hdma, hdir.trans (h.direction (by simp [hs]))⟩) (by simp) (by simp) (by simp)

end

end Sys2Proof.Machine
end

section
/-! PROOFS. R178, R261 to R264, R78: the staging, and a sequencer stuck in it, leave the instance under the invariants. -/

namespace Sys2Proof.Machine

/-- A chain whose first part ends in `P`, where the agent may be halted. -/
theorem Res.Leaves.andThen {ag : Agent} {P R : Ctx → Prop} {r : Res} {f : Ctx → Res} (h : r.Ends P)
    (hstuck : ∀ l, P l → R (l.mapDev (halt ag))) (hf : ∀ l, P l → (f l).Leaves ag R) :
    (Machine.andThen r f).Leaves ag R := by
  cases r with
  | next l => exact hf l h
  | stuck l => exact hstuck l h
  | refused e => trivial

theorem andThen_assoc (r : Res) (f g : Ctx → Res) :
    Machine.andThen (Machine.andThen r f) g = Machine.andThen r fun l => Machine.andThen (f l) g := by
  cases r <;> rfl

/-! ### The parts of the staging -/

section
variable {p : Config.Params} {I : Device → Prop} {d : Device} {l : Ctx}

theorem Ctx.Staged.cmdl (h : l.Staged p I d) : l.dev.cmdl = d.cmdl := by
  obtain ⟨_, _, -, t, o, e⟩ := h
  rw [e]

/-- Mapping the caller's buffer (R261). -/
theorem Ctx.Staged.dmaMap (h : l.Staged p I d) : ∃ map, (dmaMap l).Staged p I { d with map := map } := by
  obtain ⟨data, scratch, h⟩ := h
  obtain ⟨t, o, e⟩ := h.later
  exact ⟨(Machine.dmaMap l).dev.map, data, scratch,
    h.own l.mem (Machine.dmaMap l).trace ⟨t, o, by simp only [Machine.dmaMap, e]⟩ (fun hb => hb) rfl⟩

variable (hI : Enduring p I) (h : l.Staged p I d) (hstop : d.Stopped)
include hI h hstop

theorem Ctx.Staged.copyIn : (copyIn l).Ends (Ctx.Staged p I d) := by
  unfold Machine.copyIn
  simp only
  split
  · exact copyBytesIn_staged hI hstop h
  · exact h

/-- Programming the DMA engine (R263, R264). -/
theorem Ctx.Staged.dmaProgram (hsil : d.Silent) :
    ∃ addr len, (dmaProgram l).Staged p I
      { d with db := { d.db with addr := addr, len := len, dir := isReadOp d.cmdl.op } } := by
  have hop := h.cmdl
  obtain ⟨data, scratch, h⟩ := h
  unfold Machine.dmaProgram
  simp only [hop]
  have haddr := h.regWrite hI hstop.same .dAddr l.dev.map.devAddr hsil.same
  have hlen := haddr.rmw hI hstop.same .dLen 0x0000FFFF (((cmdLen d.cmdl).setWidth 16).setWidth 32) _ rfl
    hsil.same
  have hdir := hlen.rmw hI hstop.same .dCtrl 2#32 (0#30 ++ BitVec.ofBool (isReadOp d.cmdl.op) ++ 0#1) _
    (dirWord_set _ _) (by rw [poke_dir]; exact hsil.same)
  rw [poke_dir] at hdir
  exact ⟨_, _, data, scratch, hdir⟩

end

/-! ### The counters over the staging -/

section
variable {p : Config.Params} {d v : Device}

/-- The staging of a write loads its first 32 bytes (R178, R190). -/
theorem Device.Sizing.writeLoaded (h : d.Sizing p) (hop : d.cmdl.op = .write) (hs : d.seq = .s5)
    (htp : v.tp = { d.tp with dataOff := BitVec.ofNat 32 (min d.cmdl.args.wlen.toNat Config.nonburstCap) })
    (hcmdl : v.cmdl = d.cmdl) (hv : v.seq = .s6) : v.Sizing p where
  recorded hb := by rw [htp] at *; rw [hcmdl]; exact h.recorded hb
  read_conserves _ _ hr := by rw [hcmdl, hop] at hr; cases hr
  write_conserves _ hb _ _ := by
    rw [htp] at *
    rw [hcmdl]
    have hcnt := (h.write_unstaged hb hop (by simp [hs])).2
    have hcap : Config.nonburstCap = 32 := rfl
    have hoff : (BitVec.ofNat 32 (min d.cmdl.args.wlen.toNat Config.nonburstCap)).toNat = min d.cmdl.args.wlen.toNat 32 := by
      rw [BitVec.toNat_ofNat, hcap]
      omega
    rw [hoff, hcnt]
    split <;> omega
  write_unstaged := by simp [hv]
  dma_zero _ hd := by rw [hcmdl, hop] at hd; cases hd
  cursor_aligned := by rw [htp]; exact h.cursor_aligned

/-- No other staging touches the counters. -/
theorem Device.Sizing.staged (h : d.Sizing p) (hop : d.cmdl.op ≠ .write) (htp : v.tp = d.tp) (hcmdl : v.cmdl = d.cmdl)
    (hsig : v.sig = d.sig) (hrun : v.iepRun = d.iepRun) : v.Sizing p where
  recorded := by rw [htp, hcmdl]; exact h.recorded
  read_conserves := by rw [htp, hcmdl, hsig, hrun]; exact h.read_conserves
  write_conserves _ _ hw := absurd (hcmdl ▸ hw) hop
  write_unstaged _ hw := absurd (hcmdl ▸ hw) hop
  dma_zero := by rw [htp, hcmdl]; exact h.dma_zero
  cursor_aligned := by rw [htp]; exact h.cursor_aligned

end

/-! ### S5 -/

/-- An instance at S5, or past it, in a context of which only the word-slots, the scratch buffer, the mapping and the DMA registers
have changed since `c`. -/
def Ctx.Staging (p : Config.Params) (I : Device → Prop) (c l : Ctx) : Prop :=
  ∃ map, (map.valid = true → isDmaOp c.dev.cmdl.op = true) ∧ l.Staged p I { c.dev with map := map }

section
variable {p : Config.Params} {I : Device → Prop} {c l : Ctx} (hI : Enduring p I) (h : c.dev.Control p) (hs : c.dev.seq = .s5)
include h hs

/-- A sequencer stuck in its staging rests at S5 (R78). -/
theorem Ctx.Staging.halt (hl : Ctx.Staging p I c l) : (l.mapDev (halt .seq)).Rests p I c.dev := by
  obtain ⟨hstop, hsil, hb⟩ := h.programming (by rw [hs]; rfl) (by simp [hs]) (by simp [hs])
  obtain ⟨map, hmap, data, scratch, hl⟩ := hl
  refine (hl.halt .seq).rests ?_ fun hz => hz.advance rfl rfl rfl rfl (.inl (by simp [hs, Machine.halt]))
  exact h.advance hb (by simp [hs]) {} (by simp [Machine.halt, hs, SeqStep.active]) hsil.same
    hmap h.strobes hstop.idle h.dma_runs (fun _ => h.direction (.inl hs)) (by simp [Machine.halt, hs])
    (by simp [Machine.halt, hs])

/-- Staging ends at S6 with the direction programmed at S4. -/
theorem Device.Control.staged {v : Device} (ho : c.dev.SameOwner v) (hv : v.seq = .s6) (hsil : v.Silent) (hstop : v.Stopped)
    (hmap : v.map.valid = true → isDmaOp c.dev.cmdl.op = true) (hmb : v.mb.stclr = 0 ∧ v.mb.rdfclr = 0)
    (hctrl : v.mb.ctrl = c.dev.mb.ctrl) (hdir : isDmaOp c.dev.cmdl.op = true → v.db.dir = isReadOp c.dev.cmdl.op) :
    v.Control p := by
  have hb : c.dev.tp.busy = true := by rw [h.busy_iff, hs]; rfl
  have hrw := h.direction (.inl hs)
  exact h.advance hb (by simp [hs]) ho (by rw [hv]; rfl) hsil hmap hmb hstop.idle (fun hd => hstop.idle (.inr hd))
    (fun _ => by rw [hctrl]; exact hrw) (fun hd _ => by rw [hctrl, hdir hd, hrw]) (by simp [hv])

include hI

theorem writeStage_leaves (hw : c.World p I) (hop : c.dev.cmdl.op = .write) :
    (andThen (writeLoad c) fun l => .next (goto .s6 l)).Leaves .seq (Ctx.Rests p I c.dev) := by
  obtain ⟨hstop, hsil, -⟩ := h.programming (by rw [hs]; rfl) (by simp [hs]) (by simp [hs])
  unfold writeLoad
  simp only
  rw [andThen_assoc]
  refine .andThen (dataLoad32_staged hI hstop hsil hw.now.staged)
    (fun l hl => Ctx.Staging.halt h hs ⟨c.dev.map, h.mapped, hl⟩) fun l ⟨data, scratch, hl⟩ => ?_
  have hoff := hl.mapTP (fun tp =>
    { tp with dataOff := BitVec.ofNat 32 (min c.dev.cmdl.args.wlen.toNat Config.nonburstCap) }) rfl
  refine (hoff.goto .s6).rests ?_ fun hz => hz.writeLoaded hop hs rfl rfl rfl
  exact Device.Control.staged h hs {} rfl hsil.same hstop.same h.mapped h.strobes rfl
    (by simp [hop, isDmaOp])

theorem readStage_leaves (hw : c.World p I) (hop : c.dev.cmdl.op = .read) :
    (andThen (restartLoad c) fun l => .next (goto .s6 l)).Leaves .seq (Ctx.Rests p I c.dev) := by
  obtain ⟨hstop, hsil, -⟩ := h.programming (by rw [hs]; rfl) (by simp [hs]) (by simp [hs])
  refine .andThen (restartLoad_staged hI hstop hsil hw.now.staged)
    (fun l hl => Ctx.Staging.halt h hs ⟨c.dev.map, h.mapped, hl⟩) fun l ⟨data, scratch, hl⟩ => ?_
  refine (hl.goto .s6).rests ?_ fun hz => hz.staged (by simp [hop]) rfl rfl rfl rfl
  exact Device.Control.staged h hs {} rfl hsil.same hstop.same h.mapped h.strobes rfl
    (by simp [hop, isDmaOp])

theorem dmaStage_leaves (hw : c.World p I) (hop : isDmaOp c.dev.cmdl.op = true) :
    (andThen (andThen (restartLoad c) fun l => andThen (copyIn (dmaMap l)) fun l => .next (dmaProgram l)) fun l =>
      .next (goto .s6 l)).Leaves .seq (Ctx.Rests p I c.dev) := by
  obtain ⟨hstop, hsil, -⟩ := h.programming (by rw [hs]; rfl) (by simp [hs]) (by simp [hs])
  rw [andThen_assoc]
  refine .andThen (restartLoad_staged hI hstop hsil hw.now.staged)
    (fun l hl => Ctx.Staging.halt h hs ⟨c.dev.map, h.mapped, hl⟩) fun l hl => ?_
  obtain ⟨map, hmap⟩ := hl.dmaMap
  rw [andThen_assoc]
  refine .andThen (hmap.copyIn hI hstop.same)
    (fun l hl => Ctx.Staging.halt h hs ⟨map, fun _ => hop, hl⟩) fun l hl => ?_
  obtain ⟨addr, len, data, scratch, hprog⟩ := hl.dmaProgram hI hstop.same
    hsil.same
  refine (hprog.goto .s6).rests ?_ fun hz => hz.staged (by rintro e; rw [e] at hop; cases hop) rfl rfl rfl rfl
  exact Device.Control.staged h hs {} rfl hsil.same hstop.same (fun _ => hop)
    h.strobes rfl (fun _ => rfl)

/-- S5 (R178). -/
theorem stageStep_leaves (hw : c.World p I) :
    (andThen (stage c) fun l => .next (goto .s6 l)).Leaves .seq (Ctx.Rests p I c.dev) := by
  unfold stage
  cases hop : c.dev.cmdl.op with
  | write => exact writeStage_leaves hI h hs hw hop
  | read => exact readStage_leaves hI h hs hw hop
  | dmaRead => exact dmaStage_leaves hI h hs hw (by rw [hop]; rfl)
  | dmaWrite => exact dmaStage_leaves hI h hs hw (by rw [hop]; rfl)

end

end Sys2Proof.Machine
end

section
/-! PROOFS. R185, R194, R268, R78: the exit, and a sequencer stuck in it, leave the instance under the invariants; with it every
step of the sequencer does. -/

namespace Sys2Proof.Machine

/-! ### Where the exit can rest -/

section
variable {p : Config.Params} {d v : Device}

/-- Between transactions (R194). -/
theorem Device.Control.at_rest (hb : v.tp.busy = false) (hs : v.seq = .sidle) (hph : v.tp.phase = .idle) (hmb : v.mb = .zero)
    (hdb : v.db = .zero) (hstop : v.Stopped) (hmap : v.map.valid = false) (hrun : v.iepRun = v.stuck.iep) : v.Control p where
  busy_iff := by rw [hb, hs]; rfl
  rests := by simp [hs]
  phase_eq := .inl (by rw [hph, hb]; rfl)
  counts := by simp [hb]
  baseline _ := ⟨hmb, hdb, hstop.bus, hstop.dma, hmap⟩
  mapped := by simp [hmap]
  run_stuck := hrun
  pending _ hl := by
    rw [Device.Silent.low ⟨by rw [hmb]; rfl, by rw [hmb]; rfl, by rw [hmb]; rfl, by rw [hdb]; rfl⟩] at hl
    cases hl
  strobes := by rw [hmb]; exact ⟨rfl, rfl⟩
  triggered := hstop.idle
  master_quiet _ := by rw [hmb]; exact ⟨rfl, rfl, rfl⟩
  dma_quiet _ := by rw [hdb]; rfl
  dma_runs hd := hstop.idle (.inr hd)
  direction := by simp [hs]
  dma_direction := by simp [hs]
  trigger_mode := by simp [hs]

/-- A sequencer stuck in its copy-out has cleared the phase and the registers, and is busy (R185, R78). -/
theorem Device.Control.stuck_leaving (h : d.Control p) (hs : d.seq = .s11) (htp : v.tp = { d.tp with phase := .idle })
    (hcmdl : v.cmdl = d.cmdl) (hv : v.seq = .s11) (hstuck : v.stuck.seq = true) (hmb : v.mb = .zero) (hdb : v.db = .zero)
    (hstop : v.Stopped) (hmap : v.map = d.map) (hrun : v.iepRun = v.stuck.iep) : v.Control p where
  busy_iff := by rw [htp, hv]; exact h.busy_iff.trans (by rw [hs])
  rests := by simp [hv]
  phase_eq := .inr ⟨by rw [htp], hstuck, hv⟩
  counts := by rw [htp, hcmdl]; exact h.counts
  baseline hb := by rw [htp, h.busy_iff.trans (by rw [hs])] at hb; cases hb
  mapped := by rw [hmap, hcmdl]; exact h.mapped
  run_stuck := hrun
  pending _ hl := by
    rw [Device.Silent.low ⟨by rw [hmb]; rfl, by rw [hmb]; rfl, by rw [hmb]; rfl, by rw [hdb]; rfl⟩] at hl
    cases hl
  strobes := by rw [hmb]; exact ⟨rfl, rfl⟩
  triggered := hstop.idle
  master_quiet _ := by rw [hmb]; exact ⟨rfl, rfl, rfl⟩
  dma_quiet _ := by rw [hdb]; rfl
  dma_runs hd := hstop.idle (.inr hd)
  direction := by simp [hv]
  dma_direction := by simp [hv]
  trigger_mode := by simp [hv]

/-- An idle instance has no transfer to conserve. -/
theorem Device.Sizing.of_idle (hb : v.tp.busy = false) : v.Sizing p := by
  constructor <;> simp [hb]

/-- The counters do not look at the phase. -/
theorem Device.Sizing.leaving (h : d.Sizing p) (hs : d.seq = .s11) (htp : v.tp = { d.tp with phase := .idle })
    (hcmdl : v.cmdl = d.cmdl) (hv : v.seq = .s11) (hsig : v.sig = d.sig) (hrun : v.iepRun = d.iepRun) : v.Sizing p where
  recorded := by rw [htp, hcmdl]; exact h.recorded
  read_conserves := by rw [htp, hcmdl, hsig, hrun]; exact h.read_conserves
  write_conserves := by rw [htp, hcmdl, hv.trans hs.symm, hrun]; exact h.write_conserves
  write_unstaged := by rw [htp, hcmdl, hv.trans hs.symm]; exact h.write_unstaged
  dma_zero := by rw [htp, hcmdl]; exact h.dma_zero
  cursor_aligned := by rw [htp]; exact h.cursor_aligned

end

/-! ### S11 -/

/-- What the reset of S11 leaves of the instance (R185). -/
structure Device.Left (d v : Device) : Prop where
  tp : v.tp = { d.tp with phase := .idle }
  seq : v.seq = d.seq
  cmdl : v.cmdl = d.cmdl
  sig : v.sig = d.sig
  iepRun : v.iepRun = d.iepRun
  stuckIep : v.stuck.iep = d.stuck.iep
  mb : v.mb = .zero
  db : v.db = .zero
  stopped : v.Stopped

theorem exitReset_left (c : Ctx) : c.dev.Left (ctrlReset (c.mapTP fun tp => { tp with phase := .idle })).dev := by
  obtain ⟨v, hsame, -, hdev, -⟩ := rmw_reset (c.mapTP fun tp => { tp with phase := .idle })
  simp only [Device.SameProgramme] at hsame
  unfold ctrlReset
  rw [hdev]
  constructor
  case stopped => exact {}
  all_goals simp [hsame]

section
variable {p : Config.Params} {I : Device → Prop} {c l : Ctx} {v : Device}

/-- The end of S11. -/
theorem leave_rests (h : c.dev.Control p) (hv : c.dev.Left v) (hl : l.Now p I v)
    (hmap : v.map.valid = false) : (leave l).Rests p I c.dev := by
  obtain ⟨t, o, e⟩ := hl.later
  have hleft := hl.own (d' := { v with tp := { v.tp with busy := false }, seq := .sidle }) l.mem (leave l).trace
    (v := (leave l).dev) ⟨t, o, by simp only [leave, Ctx.mapDev, e]⟩ (by simp) rfl
  refine hleft.rests ?_ fun _ => .of_idle rfl
  exact .at_rest rfl rfl (congrArg TP.phase hv.tp) hv.mb hv.db hv.stopped.same hmap
    (by show v.iepRun = v.stuck.iep; rw [hv.iepRun, hv.stuckIep, h.run_stuck])

/-- A sequencer stuck in the copy-out (R78). -/
theorem copyOut_halt_rests (h : c.dev.Control p) (hs : c.dev.seq = .s11) (hv : c.dev.Left v) (hmap : v.map = c.dev.map)
    (hl : l.Now p I v) :
    (l.mapDev (halt .seq)).Rests p I c.dev := by
  refine (hl.halt .seq).rests ?_ fun hz => hz.leaving hs hv.tp hv.cmdl (hv.seq.trans hs) hv.sig hv.iepRun
  exact h.stuck_leaving hs hv.tp hv.cmdl (hv.seq.trans hs) rfl hv.mb hv.db hv.stopped.same hmap
    (by show v.iepRun = v.stuck.iep; rw [hv.iepRun, hv.stuckIep, h.run_stuck])

variable (hI : Enduring p I)
include hI

theorem copyBytesOut_now {dst i n : Nat} (hl : l.Now p I v) (hv : v.Stopped) :
    (copyBytesOut dst i n l).Ends (Ctx.Now p I v) :=
  copyBytesOut_ends (fun _ h => h.pump hI hv) (fun _ mem h => ⟨h.world.own mem _ (fun hb => hb) rfl, h.later⟩) hl

theorem dmaExit_leaves (h : c.dev.Control p) (hs : c.dev.seq = .s11) (hv : c.dev.Left v) (hmap : v.map = c.dev.map)
    (hl : l.Now p I v) :
    (andThen (dmaFinish l) fun l => .next (leave l)).Leaves .seq (Ctx.Rests p I c.dev) := by
  unfold dmaFinish
  simp only
  rw [andThen_assoc]
  refine .andThen (P := Ctx.Now p I v) ?_ (fun m hm => copyOut_halt_rests h hs hv hmap hm) fun m hm => ?_
  · split
    · exact copyBytesOut_now hI hl hv.stopped
    · exact hl
  · obtain ⟨t, o, e⟩ := hm.later
    have hfinish := fun trace => hm.own
      (d' := { v with map := { v.map with valid := false }, scratch := [], epoch := v.epoch + 1 }) m.mem trace
      (v := { m.dev with map := { m.dev.map with valid := false }, scratch := [], epoch := m.dev.epoch + 1 })
      ⟨t, o, by rw [e]⟩ (fun hb => hb) rfl
    exact leave_rests (v := { v with map := { v.map with valid := false }, scratch := [], epoch := v.epoch + 1 }) h
      { hv with stopped := hv.stopped.same } (hfinish _) rfl

/-- S11 (R185). -/
theorem exitStep_leaves (h : c.dev.Control p) (hs : c.dev.seq = .s11) (hw : c.World p I) :
    (exitTransaction c).Leaves .seq (Ctx.Rests p I c.dev) := by
  have hv := exitReset_left c
  have hmap : (ctrlReset (c.mapTP fun tp => { tp with phase := .idle })).dev.map = c.dev.map := ctrlReset_map _
  have hworld : (ctrlReset (c.mapTP fun tp => { tp with phase := .idle })).World p I :=
    (hw.mapDev (f := fun d => { d with tp := { d.tp with phase := .idle } }) (fun hb => hb) rfl).rmw hI _ _ _
  unfold exitTransaction
  simp only
  split
  · exact dmaExit_leaves hI h hs hv hmap hworld.now
  · rename_i hdma
    refine leave_rests h hv hworld.now ?_
    rw [hmap]
    rw [hv.cmdl] at hdma
    exact Bool.eq_false_iff.mpr fun hm => hdma (h.mapped hm)

/-- Every step of the sequencer (R170). -/
theorem seqMove_leaves (h : c.dev.Control p) (hw : c.World p I) : (seqMove c).Leaves .seq (Ctx.Rests p I c.dev) := by
  have hstay : c.Rests p I c.dev := ⟨hw, h, fun hz => hz⟩
  unfold seqMove
  split
  · unfold seqStep
    simp only
    split <;> rename_i hs
    case h_5 => exact resetStep_rests hI hw h hs
    case h_6 => exact addressStep_rests hI hw h hs _ _
    case h_7 => exact directionStep_rests hI hw h hs _ _ _
    case h_8 => exact stageStep_leaves hI h hs hw
    case h_9 => exact modeStep_rests hI hw h hs
    case h_10 => exact armStep_rests hI hw h hs
    case h_11 => exact triggerStep_leaves hI hw h hs
    case h_12 =>
      split
      · exact ⟨hw.mapDev (f := fun d => { d with res := d.tp.result, seq := .s11 }) (fun hb => hb) rfl, h.leave_s9 hs _,
          fun hz => hz.advance rfl rfl rfl rfl (.inr (by simp [hs, wake, Ctx.mapDev]))⟩
      · exact hstay
    case h_13 => exact exitStep_leaves hI h hs hw
    all_goals exact hstay
  · exact hstay

end

end Sys2Proof.Machine
end

section
/-! PROOFS. R230, R236, R237: what falls between the accesses of the handler's loops over memory, whatever the loops do to the
offset. -/

namespace Sys2Proof.Machine

section
variable {S S' : Prop} {P P' Q Q' : Ctx → Prop} {r : Res}

theorem Res.Ends.within (h : r.Ends Q) (hs : S) (hp : ∀ l, Q l → P l) : r.Within S P Q := by
  cases r with
  | next l => exact h
  | stuck l => exact ⟨hs, hp l h⟩
  | refused e => trivial

theorem Res.Within.imp (h : r.Within S P Q) (hs : S → S') (hp : ∀ l, P l → P' l) (hq : ∀ l, Q l → Q' l) :
    r.Within S' P' Q' := by
  cases r with
  | next l => exact hq l h
  | stuck l => exact ⟨hs h.1, hp l h.2⟩
  | refused e => trivial

end

section
variable {p : Config.Params} {I : Device → Prop} {l m : Ctx}

theorem Device.Moved.mapTP {d v : Device} (h : d.Moved p v) (f : TP → TP) :
    ({ d with tp := f d.tp } : Device).Moved p { v with tp := f v.tp } where
  same := by have hs := h.same; simp only [Device.SameProgramme] at *; simp [hs]
  master := h.master
  dma := h.dma
  latched hl := h.latched hl

/-- A change of the offset made before, or after, what falls. -/
theorem Ctx.Drifts.mapOff (h : l.Drifts p I m) (f : Word → Word) :
    (l.mapTP fun tp => { tp with dataOff := f tp.dataOff }).Drifts p I (m.mapTP fun tp => { tp with dataOff := f tp.dataOff }) :=
  ⟨h.world.mapDev (f := fun d => { d with tp := { d.tp with dataOff := f d.tp.dataOff } }) (fun hb => hb) rfl,
    h.moved.mapTP fun tp => { tp with dataOff := f tp.dataOff }⟩

/-- `data_off` grows by `n`. -/
def Ctx.shifted (n : Nat) (l : Ctx) : Ctx := l.mapTP fun tp => { tp with dataOff := tp.dataOff + BitVec.ofNat 32 n }

theorem Ctx.shifted_zero (l : Ctx) : l.shifted 0 = l := by
  cases l; simp [Ctx.shifted, Ctx.mapTP, Ctx.mapDev]

theorem Ctx.shifted_shifted (a b : Nat) (l : Ctx) : (l.shifted a).shifted b = l.shifted (a + b) := by
  simp only [Ctx.shifted, Ctx.mapTP, Ctx.mapDev, BitVec.ofNat_add, BitVec.add_assoc]

theorem Ctx.Drifts.shifted (h : l.Drifts p I m) (n : Nat) : (l.shifted n).Drifts p I (m.shifted n) :=
  h.mapOff fun off => off + BitVec.ofNat 32 n

theorem Ctx.World.shifted (h : l.World p I) (n : Nat) : (l.shifted n).World p I :=
  h.mapDev (f := fun d => { d with tp := { d.tp with dataOff := d.tp.dataOff + BitVec.ofNat 32 n } }) (fun hb => hb) rfl

variable (hI : Enduring p I)
include hI

/-- The fetch of `n` bytes of the write buffer (R230). -/
theorem Fetched.drifts {n : Nat} (h : Fetched n l m) (hw : l.World p I) : (l.shifted n).Drifts p I m := by
  induction h with
  | zero l => rw [Ctx.shifted_zero]; exact .refl hw
  | padded _ ih => rw [← Ctx.shifted_shifted _ 1]; exact (ih hw).shifted 1
  | read _ ih =>
    rw [← Ctx.shifted_shifted _ 1]
    have hd := ih hw
    exact (hd.trans (hd.world.drifts_pump hI)).shifted 1

/-- The delivery of `n` word-slots: the offset grows by their bytes, or by fewer where the handler is stuck (R236). -/
theorem drainWords_drifts (n : Nat) (s : Slot) (hw : l.World p I) :
    (drainWords n s l).Within True (fun m => ∃ k, (l.shifted k).Drifts p I m) fun m => (l.shifted (4 * n)).Drifts p I m := by
  induction n generalizing s l with
  | zero =>
    show (l.shifted (4 * 0)).Drifts p I l
    rw [Nat.mul_zero, Ctx.shifted_zero]
    exact .refl hw
  | succ n ih =>
    have hp := hw.drifts_pump hI
    refine ((writeBytes_drifts hI _ (wordBytes (dataGet s l).1) hp.world).within trivial fun m hm => ?_).andThen fun m hm => ?_
    · exact ⟨0, by rw [Ctx.shifted_zero]; exact hp.trans hm⟩
    · have h4 := (hp.trans hm).shifted 4
      refine (ih (s + 1) h4.world).imp (fun hs => hs) (fun r ⟨k, hr⟩ => ⟨4 + k, ?_⟩) fun r hr => ?_
      · rw [← Ctx.shifted_shifted]
        exact (h4.shifted k).trans hr
      · rw [Nat.mul_succ, Nat.add_comm, ← Ctx.shifted_shifted]
        exact (h4.shifted (4 * n)).trans hr

/-- The finish: it is the success procedure after the delivery of the remainder, or it is stuck in that delivery (R237). -/
theorem finishRead_drifts (hw : l.World p I) :
    (finishRead l).Within (l.dev.tp.burstRem ≠ 0) (fun m => l.Drifts p I m) fun m =>
      ∃ k, l.Drifts p I k ∧ m = succeed (k.shifted l.dev.tp.burstRem.toNat) := by
  unfold finishRead
  simp only
  split_ifs with hn
  · exact ⟨l, .refl hw, by rw [hn, Ctx.shifted_zero]⟩
  · have hg := gatherWords_drifts hI (ceilDiv l.dev.tp.burstRem.toNat 4) l.dev.tp.regIdx hw
    exact ((writeBytes_drifts hI _ _ hg.world).within (fun e => hn (by rw [e]; rfl)) fun m hm => hg.trans hm).andThen
      fun m hm => ⟨m, hg.trans hm, rfl⟩

end

end Sys2Proof.Machine
end

section
/-! PROOFS. R8, R220, R230, R236, R237, R281: the parts of the invariants that stand in the course of a handler run, from the trigger
to the exit, and what its acts owe the counters. -/

namespace Sys2Proof.Machine

/-! ### The parts of the invariants that stand in the course of a run -/

/-- From `v` to `w` the transaction, its step and the run in progress are the same. -/
structure Device.SameRun (v w : Device) : Prop where
  seq : w.seq = v.seq := by rfl
  cmdl : w.cmdl = v.cmdl := by rfl
  map : w.map = v.map := by rfl
  iepRun : w.iepRun = v.iepRun := by rfl
  stuckSeq : w.stuck.seq = v.stuck.seq := by rfl
  stuckIep : w.stuck.iep = v.stuck.iep := by rfl
  busy : w.tp.busy = v.tp.busy := by rfl
  phase : w.tp.phase = v.tp.phase := by rfl

/-- A stopped engine has left nothing in the status registers, and a running DMA engine serves the command (R281, R358, R264). -/
structure Device.Tidy (v : Device) : Prop where
  master : v.beActive = false → v.mb.status = 0 ∧ v.mb.ovf = 0 ∧ v.mb.rdflag = 0
  dma : v.deActive = false → v.db.status = 0
  runs : v.deActive = true → isDmaOp v.cmdl.op = true ∧ v.db.dir = isReadOp v.cmdl.op

/-- The clear strobes are released (R39, R42). -/
def Device.Released (v : Device) : Prop := v.mb.stclr = 0 ∧ v.mb.rdfclr = 0

/-- Where a run that acts finds the instance: in the wait or the exit of a valid command, its phase the command's or left. -/
structure Device.Engaged (v : Device) : Prop where
  seq : v.seq = .s9 ∨ v.seq = .s11
  busy : v.tp.busy = true
  counts : countsValid v.cmdl = true
  phase : v.tp.phase ≠ .idle → v.tp.phase = phaseOf v.cmdl.op

/-- The sizing invariant as it stands once the run in progress returns. -/
def Device.Conserves (p : Config.Params) (v : Device) : Prop := ({ v with iepRun := false } : Device).Sizing p

section
variable {p : Config.Params} {v w x : Device}

theorem Device.SameRun.trans (h1 : v.SameRun w) (h2 : w.SameRun x) : v.SameRun x where
  seq := h2.seq.trans h1.seq
  cmdl := h2.cmdl.trans h1.cmdl
  map := h2.map.trans h1.map
  iepRun := h2.iepRun.trans h1.iepRun
  stuckSeq := h2.stuckSeq.trans h1.stuckSeq
  stuckIep := h2.stuckIep.trans h1.stuckIep
  busy := h2.busy.trans h1.busy
  phase := h2.phase.trans h1.phase

theorem Device.SameProgramme.sameRun (h : v.SameProgramme w) : v.SameRun w := by
  simp only [Device.SameProgramme] at h
  constructor <;> simp [h]

theorem Device.Moved.sameRun (h : v.Moved p w) : v.SameRun w := h.same.sameRun

theorem poke_sameRun (r : Reg) (u : Word) (v : Device) : v.SameRun (poke r u v) := by
  constructor <;> simp

theorem Device.Engaged.of_same (h : v.Engaged) (hs : v.SameRun w) : w.Engaged where
  seq := by rw [hs.seq]; exact h.seq
  busy := hs.busy.trans h.busy
  counts := by rw [hs.cmdl]; exact h.counts
  phase := by rw [hs.phase, hs.cmdl]; exact h.phase

/-- An active phase tells the command (R106). -/
theorem Device.Engaged.op (h : v.Engaged) {op : Op} (hp : v.tp.phase = phaseOf op) : v.cmdl.op = op := by
  have he := h.phase (by rw [hp]; cases op <;> simp [phaseOf])
  rw [hp] at he
  revert he
  cases op <;> cases v.cmdl.op <;> simp [phaseOf]

theorem Device.Tidy.moved (h : v.Tidy) (hm : v.Moved p w) : w.Tidy := by
  obtain ⟨hbe, hde⟩ := hm.same.engines
  have hs := hm.same
  simp only [Device.SameProgramme] at hs
  refine ⟨fun hb => ?_, fun hb => ?_, ?_⟩
  · rw [hbe] at hb
    rw [hm.master hb]
    exact h.master hb
  · rw [hde] at hb
    rw [hm.dma hb]
    exact h.dma hb
  · simpa only [hs] using h.runs

theorem Device.Released.moved (h : v.Released) (hm : v.Moved p w) : w.Released := by
  have hs := hm.same
  simp only [Device.SameProgramme] at hs
  simpa only [Device.Released, hs] using h

/-- Only stores to the control registers start or stop an engine, and only the engines set a status bit (R281). -/
theorem Device.Tidy.poke {r : Reg} (h : v.Tidy) (h1 : r ≠ .mCtrl) (h2 : r ≠ .dCtrl) (u : Word) : (poke r u v).Tidy := by
  obtain ⟨hm, hd, hr⟩ := h
  cases r <;> simp only [ne_eq, not_true_eq_false] at h1 h2 <;> refine ⟨?_, ?_, hr⟩ <;>
    simp +contextual [Machine.poke, hm, hd]

/-! ### The counters -/

/-- The counters do not look at the flags and the result, and once signalled nothing is claimed of a read. -/
theorem Device.Conserves.record (h : v.Conserves p) (hs : v.SameRun w) (irq : IrqFlags) (dma : DmaFlags) (res : Result)
    (htp : w.tp = { v.tp with irq := irq, dma := dma, result := res }) (hsig : w.sig = false → v.sig = false) :
    w.Conserves p where
  recorded := by rw [htp, hs.cmdl]; exact h.recorded
  read_conserves := by rw [htp, hs.cmdl]; exact fun hr hb ho hg => h.read_conserves hr hb ho (hsig hg)
  write_conserves := by rw [htp, hs.cmdl, hs.seq]; exact h.write_conserves
  write_unstaged := by rw [htp, hs.cmdl, hs.seq]; exact h.write_unstaged
  dma_zero := by rw [htp, hs.cmdl]; exact h.dma_zero
  cursor_aligned := by rw [htp]; exact h.cursor_aligned

theorem Device.Conserves.moved (h : v.Conserves p) (hm : v.Moved p w) : w.Conserves p := by
  have hs := hm.same
  simp only [Device.SameProgramme] at hs
  exact h.record hm.sameRun v.tp.irq v.tp.dma v.tp.result (by simp [hs]) (by simp [hs])

theorem burstCnt_pred {c : BitVec 16} (hc : c ≠ 0) : (c - 1).toNat + 1 = c.toNat := by bv_omega

/-- A unit of the refill moves four bytes from the units left to the bytes staged (R230, R245). -/
theorem Device.Conserves.unit (h : v.Conserves p) (he : v.Engaged) (hs : v.SameRun w) (hop : v.cmdl.op = .write)
    (hc : v.tp.burstCnt ≠ 0)
    (htp : w.tp = { v.tp with dataOff := v.tp.dataOff + BitVec.ofNat 32 4, burstCnt := v.tp.burstCnt - 1 }) :
    w.Conserves p where
  recorded := by rw [htp, hs.cmdl]; exact h.recorded
  read_conserves := by rw [htp, hs.cmdl, hop]; simp
  write_conserves _ hb _ _ := by
    have hbytes := h.write_conserves rfl he.busy hop (by rcases he.seq with e | e <;> simp [e])
    have hcount := he.counts
    rw [countsValid_of_write (by rw [hop]; rfl)] at hcount
    have hmax : v.cmdl.args.wlen.toNat ≤ 65535 := by
      by_contra hlt
      rw [(countValid_eq_false_iff _).mpr (.inr (by omega))] at hcount
      cases hcount
    have hpred := burstCnt_pred hc
    simp only at hbytes
    rw [htp, hs.cmdl]
    simp only
    have hoff : (v.tp.dataOff + BitVec.ofNat 32 4).toNat = v.tp.dataOff.toNat + 4 := dataOff_add (by split_ifs at hbytes <;> omega)
    rw [hoff, ← hbytes]
    omega
  write_unstaged _ _ hq := by
    have hseq := he.seq
    rw [hs.seq] at hq
    rcases hseq with e | e <;> simp [e] at hq
  dma_zero := by rw [htp, hs.cmdl, hop]; simp [isDmaOp]
  cursor_aligned := by rw [htp]; exact h.cursor_aligned

/-- A burst slot of the drain moves a unit's bytes from the units left to the bytes delivered (R236, R244). -/
theorem Device.Conserves.slot (h : v.Conserves p) (he : v.Engaged) (hs : v.SameRun w) (hop : v.cmdl.op = .read)
    (hc : v.tp.burstCnt ≠ 0) (hsig : v.sig = false)
    (htp : w.tp = { v.tp with
      dataOff := v.tp.dataOff + BitVec.ofNat 32 (4 * burstWords p.burst16)
      regIdx := v.tp.regIdx + Fin.ofNat 8 (burstWords p.burst16)
      burstCnt := v.tp.burstCnt - 1 }) : w.Conserves p where
  recorded := by rw [htp, hs.cmdl]; exact h.recorded
  read_conserves _ hb _ _ := by
    have hbytes := h.read_conserves rfl he.busy hop hsig
    have hlen := v.cmdl.args.rlen.isLt
    have hpred := burstCnt_pred hc
    simp only [rdBurstBytes_eq, ← hpred, Nat.mul_succ] at hbytes
    rw [htp, hs.cmdl]
    simp only
    have hoff := dataOff_add (off := v.tp.dataOff) (n := 4 * burstWords p.burst16) (by omega)
    rw [hoff, ← hbytes, rdBurstBytes_eq]
    omega
  write_conserves := by rw [htp, hs.cmdl, hop]; simp
  write_unstaged := by rw [htp, hs.cmdl, hop]; simp
  dma_zero := by rw [htp, hs.cmdl, hop]; simp [isDmaOp]
  cursor_aligned h16 hb := by
    have hcur := h.cursor_aligned h16 he.busy
    rw [htp]
    simp only [burstWords, h16, if_true] at hcur ⊢
    rcases hcur with e | e <;> rw [e] <;> decide

/-- The finish: nothing is claimed of a read once it has signalled, and on a DMA path there is no remainder (R237, R270). -/
theorem Device.Conserves.finish (h : v.Conserves p) (he : v.Engaged) (hs : v.SameRun w)
    (hop : v.cmdl.op = .read ∨ v.cmdl.op = .dmaRead) (hsig : w.sig = true) (res : Result)
    (htp : w.tp = { v.tp with dataOff := v.tp.dataOff + BitVec.ofNat 32 v.tp.burstRem.toNat, result := res }) :
    w.Conserves p where
  recorded := by rw [htp, hs.cmdl]; exact h.recorded
  read_conserves _ _ _ hg := by rw [show w.sig = false from hg] at hsig; cases hsig
  write_conserves _ _ hw := by rw [hs.cmdl] at hw; rcases hop with e | e <;> rw [e] at hw <;> cases hw
  write_unstaged _ hw := by rw [hs.cmdl] at hw; rcases hop with e | e <;> rw [e] at hw <;> cases hw
  dma_zero _ hd := by
    have hz := h.dma_zero he.busy (by rw [← hs.cmdl]; exact hd)
    simp only at hz
    rw [htp]
    simp [hz]
  cursor_aligned := by rw [htp]; exact h.cursor_aligned

end

end Sys2Proof.Machine
end

section
/-! PROOFS. R8, R220: every act of a handler run keeps the world about its instance, and of the instance what the invariants say of
a run in progress. -/

namespace Sys2Proof.Machine

/-- From `l` to `m` an operation of the handler has kept the world and the invariants of a run in progress, but perhaps for the
clear strobes. -/
structure Ctx.Carries (p : Config.Params) (I : Device → Prop) (l m : Ctx) : Prop where
  world : m.World p I
  same : l.dev.SameRun m.dev
  tidy : l.dev.Tidy → m.dev.Tidy
  conserves : l.dev.Conserves p → m.dev.Conserves p

/-- It has also left the clear strobes released. -/
structure Ctx.RunsOn (p : Config.Params) (I : Device → Prop) (l m : Ctx) : Prop extends l.Carries p I m where
  released : l.dev.Released → m.dev.Released

section
variable {p : Config.Params} {I : Device → Prop} {l m n : Ctx}

theorem Ctx.Carries.trans (h1 : l.Carries p I m) (h2 : m.Carries p I n) : l.Carries p I n :=
  ⟨h2.world, h1.same.trans h2.same, fun h => h2.tidy (h1.tidy h), fun h => h2.conserves (h1.conserves h)⟩

theorem Ctx.RunsOn.trans (h1 : l.RunsOn p I m) (h2 : m.RunsOn p I n) : l.RunsOn p I n :=
  ⟨h1.toCarries.trans h2.toCarries, fun h => h2.released (h1.released h)⟩

theorem Ctx.RunsOn.refl (h : l.World p I) : l.RunsOn p I l := ⟨⟨h, {}, fun h => h, fun h => h⟩, fun h => h⟩

theorem Ctx.Drifts.runsOn (h : l.Drifts p I m) : l.RunsOn p I m :=
  ⟨⟨h.world, h.moved.sameRun, fun ht => ht.moved h.moved, fun hc => hc.moved h.moved⟩, fun hr => hr.moved h.moved⟩

/-! ### Changes of the snapshot -/

/-- A change of the snapshot, and perhaps of the signal, that keeps the phase and the transaction. -/
theorem Ctx.World.runsOn_become (h : l.World p I) {tp : TP} {sig : Bool} (hb : tp.busy = l.dev.tp.busy)
    (hp : tp.phase = l.dev.tp.phase)
    (hc : l.dev.Conserves p → ({ l.dev with tp := tp, sig := sig } : Device).Conserves p) :
    l.RunsOn p I (l.mapDev fun d => { d with tp := tp, sig := sig }) where
  world := h.mapDev (f := fun d => { d with tp := tp, sig := sig }) (fun hb' => by rw [← hb]; exact hb') rfl
  same := { busy := hb, phase := hp }
  tidy ht := ⟨ht.master, ht.dma, ht.runs⟩
  released hr := hr
  conserves := hc

theorem Ctx.World.runsOn_record (h : l.World p I) (irq : IrqFlags) (dma : DmaFlags) (res : Result) {sig : Bool}
    (hsig : sig = false → l.dev.sig = false) :
    l.RunsOn p I (l.mapDev fun d => { d with tp := { l.dev.tp with irq := irq, dma := dma, result := res }, sig := sig }) :=
  h.runsOn_become rfl rfl fun hc => hc.record {} irq dma res rfl hsig

theorem succeed_runsOn (h : l.World p I) : l.RunsOn p I (succeed l) :=
  h.runsOn_record l.dev.tp.irq l.dev.tp.dma .success (sig := true) (by simp)

/-! ### Register accesses -/

/-- The strobes after a store to any register but `M_CTRL`. -/
theorem regWrite_strobes {r : Reg} (h1 : r ≠ .mCtrl) (u : Word) (l : Ctx) :
    (regWrite r u l).dev.mb.stclr = (if r = .mStclr then u.setWidth 7 else l.dev.mb.stclr) ∧
      (regWrite r u l).dev.mb.rdfclr = (if r = .mRdfclr then u.setWidth 8 else l.dev.mb.rdfclr) := by
  have hs := pump_sameProgramme l
  simp only [Device.SameProgramme] at hs
  rw [regWrite_dev]
  cases r <;> simp only [ne_eq, not_true_eq_false] at h1 <;> simp [poke, hs]

variable (hI : Enduring p I)
include hI

theorem regWrite_carries {r : Reg} (h1 : r ≠ .mCtrl) (h2 : r ≠ .dCtrl) (u : Word) (h : l.World p I) :
    l.Carries p I (regWrite r u l) := by
  have hp := (h.drifts_pump hI).runsOn
  have hsame : (pump l).dev.SameRun (regWrite r u l).dev := by
    rw [regWrite_dev]
    obtain ⟨h1, h2, h3, h4, h5, h6, h7, h8⟩ := poke_sameRun r u (pump l).dev
    exact ⟨h1, h2, h3, h4, h5, h6, h7, h8⟩
  refine ⟨h.regWrite hI r u, hp.same.trans hsame, fun ht => ?_, fun hc => ?_⟩
  · have hpoke := (hp.tidy ht).poke h1 h2 u
    rw [regWrite_dev]
    exact ⟨hpoke.master, hpoke.dma, hpoke.runs⟩
  · exact (hp.conserves hc).record hsame (pump l).dev.tp.irq (pump l).dev.tp.dma (pump l).dev.tp.result (by simp) (by simp)

theorem regWrite_runsOn {r : Reg} (h1 : r ≠ .mCtrl) (h2 : r ≠ .dCtrl) (h3 : r ≠ .mStclr) (h4 : r ≠ .mRdfclr) (u : Word)
    (h : l.World p I) : l.RunsOn p I (regWrite r u l) where
  toCarries := regWrite_carries hI h1 h2 u h
  released hr := by
    obtain ⟨hs, hf⟩ := regWrite_strobes h1 u l
    rw [if_neg h3] at hs
    rw [if_neg h4] at hf
    exact ⟨hs.trans hr.1, hf.trans hr.2⟩

theorem pulse_runsOn {r : Reg} (hr : r = .mStclr ∨ r = .mRdfclr) (mask : Word) (h : l.World p I) :
    l.RunsOn p I (pulse r mask l) where
  toCarries := by
    have h1 : r ≠ .mCtrl := by rcases hr with rfl | rfl <;> simp
    have h2 : r ≠ .dCtrl := by rcases hr with rfl | rfl <;> simp
    have hset := regWrite_carries hI h1 h2 mask h
    exact hset.trans (regWrite_carries hI h1 h2 0 hset.world)
  released := by
    rintro ⟨hs, hf⟩
    rcases hr with rfl | rfl <;>
      simp [Device.Released, pulse, (regWrite_strobes _ _ _).1, (regWrite_strobes _ _ _).2, hs, hf, -regWrite_dev]

/-- The error procedure (R231). -/
theorem terminate_runsOn (e : Result) (h : l.World p I) : l.RunsOn p I (terminate e l) := by
  have hmark := h.runsOn_record { l.dev.tp.irq with activeDone := true } l.dev.tp.dma e (sig := true) (by simp)
  obtain ⟨v, hv, hdev⟩ := terminate_dev e l
  have hs := hv.sameRun
  simp only [Device.SameProgramme] at hv
  have hsame : l.dev.SameRun (terminate e l).dev := by
    rw [hdev]
    exact ⟨hs.seq, hs.cmdl, hs.map, hs.iepRun, hs.stuckSeq, hs.stuckIep, hs.busy, hs.phase⟩
  refine ⟨⟨hmark.world.rmw hI .mCtrl 1 1, hsame, fun _ => ?_, fun hc => ?_⟩, fun _ => ?_⟩
  · rw [hdev]
    exact ⟨fun _ => ⟨rfl, rfl, rfl⟩, fun _ => rfl, by simp⟩
  · exact hc.record hsame { l.dev.tp.irq with activeDone := true } l.dev.tp.dma e (by rw [hdev]; simp [hv])
      (by rw [hdev]; simp [hv])
  · rw [hdev]
    exact ⟨rfl, rfl⟩

/-! ### The loops over memory -/

omit hI in
/-- An operation that moves `k` bytes and then accounts for them. -/
theorem Ctx.RunsOn.account {k : Nat} (h : (l.shifted k).RunsOn p I m) {tp : TP} {sig : Bool} (hb : tp.busy = m.dev.tp.busy)
    (hp : tp.phase = m.dev.tp.phase)
    (hc : l.dev.SameRun { m.dev with tp := tp, sig := sig } → l.dev.Conserves p →
      ({ m.dev with tp := tp, sig := sig } : Device).Conserves p) :
    l.RunsOn p I { m with dev := { m.dev with tp := tp, sig := sig } } := by
  obtain ⟨h1, h2, h3, h4, h5, h6, h7, h8⟩ := h.same
  have hsame : l.dev.SameRun { m.dev with tp := tp, sig := sig } := ⟨h1, h2, h3, h4, h5, h6, hb.trans h7, hp.trans h8⟩
  refine ⟨⟨h.world.own m.mem m.trace (fun hb' => by rw [← hb]; exact hb') rfl, hsame, fun ht => ?_, hc hsame⟩,
    fun hr => h.released hr⟩
  have ht' := h.tidy ⟨ht.master, ht.dma, ht.runs⟩
  exact ⟨ht'.master, ht'.dma, ht'.runs⟩

/-- A unit of the refill (R230). -/
theorem refillUnit_runsOn {l' : Ctx} (he : l.dev.Engaged) (hop : l.dev.cmdl.op = .write) (hc : l.dev.tp.burstCnt ≠ 0)
    (hf : Fetched 4 l l') (i : Slot) (w : Word) (h : l.World p I) :
    l.RunsOn p I ((dataPut i w l').mapTP fun tp => { tp with burstCnt := tp.burstCnt - 1 }) := by
  have hd := hf.drifts hI h
  have hput := hd.runsOn.trans (regWrite_runsOn hI (r := .mData i) (by simp) (by simp) (by simp) (by simp) w hd.world)
  refine hput.account rfl rfl fun hsame hcons => hcons.unit he hsame hop hc ?_
  rw [← dataPut, dataPut_tp, hd.moved.same.claim.1]
  rfl

/-- A burst slot of the drain (R236). -/
theorem drainSlot_runsOn {l' : Ctx} (he : l.dev.Engaged) (hop : l.dev.cmdl.op = .read) (hc : l.dev.tp.burstCnt ≠ 0)
    (hs : l.dev.sig = false) (hw : drainWords (burstWords l.params.burst16) l.dev.tp.regIdx l = .next l') (mask : Byte)
    (h : l.World p I) :
    l.RunsOn p I ((rdflagClear mask l').mapTP fun tp =>
      { tp with regIdx := l.dev.tp.regIdx + Fin.ofNat 8 (burstWords l.params.burst16), burstCnt := tp.burstCnt - 1 }) := by
  have hd := drainWords_drifts hI (burstWords l.params.burst16) l.dev.tp.regIdx h
  rw [hw] at hd
  have hdrift : (l.shifted (4 * burstWords l.params.burst16)).Drifts p I l' := hd
  have hclear := hdrift.runsOn.trans (pulse_runsOn hI (.inr rfl) (mask.setWidth 32) hdrift.world)
  have htp : (rdflagClear mask l').dev.tp = (l.shifted (4 * burstWords l.params.burst16)).dev.tp := by
    rw [rdflagClear, pulse_tp, hdrift.moved.same.claim.1]
  refine hclear.account rfl rfl fun hsame hcons => hcons.slot he hsame hop hc hs ?_
  simp only [htp, h.params]
  rfl

/-- The finish (R237). -/
theorem finishRead_runsOn {l' : Ctx} (he : l.dev.Engaged) (hop : l.dev.cmdl.op = .read ∨ l.dev.cmdl.op = .dmaRead)
    (hf : finishRead l = .next l') (h : l.World p I) : l.RunsOn p I l' := by
  have hd := finishRead_drifts hI h
  rw [hf] at hd
  obtain ⟨k, hk, rfl⟩ := hd
  have hshift := hk.shifted l.dev.tp.burstRem.toNat
  have htp : (k.shifted l.dev.tp.burstRem.toNat).dev.tp = (l.shifted l.dev.tp.burstRem.toNat).dev.tp := hshift.moved.same.claim.1
  refine hshift.runsOn.account (sig := true) rfl rfl fun hsame hcons => hcons.finish he hsame hop rfl .success ?_
  simp only [Ctx.mapTP_dev, htp]
  rfl

/-! ### Every act -/

/-- Every act of a handler run, from the trigger to the exit. -/
theorem HandlerAct.runsOn (h : HandlerAct l m) (he : l.dev.Engaged) (hw : l.World p I) : l.RunsOn p I m := by
  cases h with
  | moves => exact (hw.drifts_pump hI).runsOn
  | clear r mask hr => exact pulse_runsOn hI hr mask hw
  | disable mask =>
    have hp := hw.drifts_pump hI
    exact hp.runsOn.trans (regWrite_runsOn hI (r := .mInten) (by simp) (by simp) (by simp) (by simp) _ hp.world)
  | ackDma v => exact regWrite_runsOn hI (by simp) (by simp) (by simp) (by simp) v hw
  | flags f g => exact hw.runsOn_record f g l.dev.tp.result (sig := l.dev.sig) (fun hs => hs)
  | unit l' w hp hc hf => exact refillUnit_runsOn hI he (he.op hp) hc hf _ w hw
  | slot l' mask hs hp hc hdrain => exact drainSlot_runsOn hI he (he.op hp) hc hs hdrain mask hw
  | finish _ hs hp hf => exact finishRead_runsOn hI he (hp.imp (he.op ·) (he.op ·)) hf hw
  | success hs hp => exact succeed_runsOn hw
  | fail e hs hp => exact terminate_runsOn hI e hw

theorem HandlerActs.runsOn (h : HandlerActs l m) (he : l.dev.Engaged) (hw : l.World p I) : l.RunsOn p I m :=
  h.induct (P := fun x => l.RunsOn p I x)
    (fun _ _ ha hx => hx.trans (ha.runsOn hI (he.of_same hx.same) hx.world)) (.refl hw)

end

end Sys2Proof.Machine
end

section
/-! PROOFS. R243, R8, R78: a handler run from the trigger to the exit leaves its instance under the invariants, whether it returns
or is stuck at a byte of host memory. -/

namespace Sys2Proof.Machine

/-! ### Where the handler is stuck (R78) -/

section
variable {p : Config.Params} {I : Device → Prop} {l m : Ctx} (hI : Enduring p I)
include hI

/-- At the access that sticks, the handler may have moved the offset, on a programmed path only. -/
theorem HandlerStop.drifts (h : HandlerStop l m) (he : l.dev.Engaged) (hw : l.World p I) :
    ∃ k, (l.shifted k).Drifts p I m ∧ (isDmaOp l.dev.cmdl.op = true → k = 0) := by
  cases h with
  | unit l' n hp hc hn hf =>
    have hd := hf.drifts hI hw
    exact ⟨n, hd.trans (hd.world.drifts_pump hI), by rw [he.op (op := .write) hp]; simp [isDmaOp]⟩
  | slot _ hs hp hc hdrain =>
    have hd := drainWords_drifts hI (burstWords l.params.burst16) l.dev.tp.regIdx hw
    rw [hdrain] at hd
    obtain ⟨-, k, hk⟩ := hd
    exact ⟨k, hk, by rw [he.op (op := .read) hp]; simp [isDmaOp]⟩
  | finish _ hs hp hf =>
    have hd := finishRead_drifts hI hw
    rw [hf] at hd
    exact ⟨0, by rw [Ctx.shifted_zero]; exact hd.2, fun _ => rfl⟩

end

/-! ### The invariants at the end of a run -/

section
variable {p : Config.Params} {d v w : Device}

/-- The control invariant of an instance in the wait or the exit, after a run that has returned or is stuck. -/
theorem Device.Control.after_run (h : d.Control p) (hseq : d.seq = .s9 ∨ d.seq = .s11) (ht : v.Tidy) (hr : v.Released)
    (hs : ({ d with irqPend := false, iepRun := true } : Device).SameRun v) {run pend : Bool} {k : Stuck}
    (hk : k.seq = v.stuck.seq) (hrun : run = k.iep)
    (hp : ({ v with iepRun := run, irqPend := pend, stuck := k } : Device).Latched p) :
    ({ v with iepRun := run, irqPend := pend, stuck := k } : Device).Control p := by
  have hactive : d.tp.busy = true := by rcases hseq with e | e <;> rw [h.busy_iff, e] <;> rfl
  obtain ⟨h1, h2, h3, -, h5, h6, h7, h8⟩ := hs
  refine
    { busy_iff := by rw [h7, h1]; exact h.busy_iff
      rests := by rw [h1]; exact h.rests
      phase_eq := by rw [h7, h8, h1, h2, hk, h5]; exact h.phase_eq
      counts := by rw [h7, h2]; exact h.counts
      baseline := fun hb => by rw [h7] at hb; exact absurd (hactive.symm.trans hb) (by simp)
      mapped := by rw [h3, h2]; exact h.mapped
      run_stuck := hrun
      pending := hp
      strobes := hr
      triggered := fun _ => by rw [h1]; exact hseq
      master_quiet := ht.master
      dma_quiet := ht.dma
      dma_runs := ht.runs
      direction := fun hq => ?_
      dma_direction := fun _ hq => ?_
      trigger_mode := fun hq => ?_ }
  all_goals
    rw [h1] at hq
    rcases hseq with e | e <;> simp [e] at hq

theorem Device.Sizing.conserves (h : d.Sizing p) (hr : d.iepRun = false) : d.Conserves p :=
  { h with read_conserves := fun _ => h.read_conserves hr, write_conserves := fun _ => h.write_conserves hr }

/-- Of a handler stuck in its run little is claimed (log 28). -/
theorem Device.Conserves.stopped {k : Nat} (h : v.Conserves p) (he : v.Engaged) (hs : v.SameRun w)
    (htp : w.tp = { v.tp with dataOff := v.tp.dataOff + BitVec.ofNat 32 k }) (hk : isDmaOp v.cmdl.op = true → k = 0)
    (hrun : w.iepRun = true) : w.Sizing p where
  recorded := by rw [htp, hs.cmdl]; exact h.recorded
  read_conserves hr := by rw [hrun] at hr; cases hr
  write_conserves hr := by rw [hrun] at hr; cases hr
  write_unstaged _ _ hq := by
    rw [hs.seq] at hq
    rcases he.seq with e | e <;> simp [e] at hq
  dma_zero _ hd := by
    rw [hs.cmdl] at hd
    have hz := h.dma_zero he.busy hd
    simp only at hz
    rw [htp, hk hd]
    simp [hz]
  cursor_aligned := by rw [htp]; exact h.cursor_aligned

end

/-! ### The run -/

section
variable {p : Config.Params} {I : Device → Prop} {c : Ctx} (hI : Enduring p I) (hw : c.World p I) (h : c.dev.Control p)
  (hseq : c.dev.seq = .s9 ∨ c.dev.seq = .s11)

theorem Device.Control.engaged {d : Device} (h : d.Control p) (hseq : d.seq = .s9 ∨ d.seq = .s11) : d.Engaged where
  seq := hseq
  busy := by rcases hseq with e | e <;> rw [h.busy_iff, e] <;> rfl
  counts := h.counts (by rcases hseq with e | e <;> rw [h.busy_iff, e] <;> rfl)
  phase hp := (h.phase_active hp).2

include hI hw h hseq

/-- A run while an engine may run. -/
theorem handlerRun_leaves_engaged (hrun : c.dev.iepRun = false) : (handlerRun c).Leaves .iep (Ctx.Rests p I c.dev) := by
  have hw0 : (handlerEnter c).World p I :=
    hw.mapDev (f := fun d => { d with irqPend := false, iepRun := true }) (fun hb => hb) rfl
  have he := h.engaged hseq
  have he0 : (handlerEnter c).dev.Engaged := ⟨he.seq, he.busy, he.counts, he.phase⟩
  have ht0 : (handlerEnter c).dev.Tidy := ⟨h.master_quiet, h.dma_quiet, h.dma_runs⟩
  have hz0 : c.dev.Sizing p → (handlerEnter c).dev.Conserves p := fun hz => { hz.conserves hrun with }
  rcases handlerRun_acts c with ⟨m, hacts, e⟩ | ⟨m, l', hacts, hstop, e⟩ <;> rw [e]
  · have hm := hacts.runsOn hI he0 hw0
    refine ⟨hm.world.own _ _ (fun hb => hb) rfl, ?_, fun hz => { hm.conserves (hz0 hz) with }⟩
    exact h.after_run hseq (hm.tidy ht0) (hm.released h.strobes) hm.same (k := m.dev.stuck) rfl
      (by rw [hm.same.stuckIep]; exact hrun.symm.trans h.run_stuck)
      (by rw [← hm.world.params]; exact latch_latched _ _ _)
  · have hm := hacts.runsOn hI he0 hw0
    have hem := he0.of_same hm.same
    obtain ⟨k, hd, hk⟩ := hstop.drifts hI hem hm.world
    have hlast := hd.runsOn
    obtain ⟨h1, h2, h3, h4, h5, h6, h7, h8⟩ := hlast.same
    have hsame : m.dev.SameRun l'.dev := ⟨h1, h2, h3, h4, h5, h6, h7, h8⟩
    have hrunning : l'.dev.iepRun = true := hsame.iepRun.trans hm.same.iepRun
    have htidy : l'.dev.Tidy := hlast.tidy ⟨(hm.tidy ht0).master, (hm.tidy ht0).dma, (hm.tidy ht0).runs⟩
    refine ⟨hd.world.mapDev (f := halt .iep) (fun hb => hb) rfl, ?_, fun hz => ?_⟩
    · exact h.after_run hseq htidy (hlast.released (hm.released h.strobes)) (hm.same.trans hsame) (run := l'.dev.iepRun)
        (pend := l'.dev.irqPend) (k := { l'.dev.stuck with iep := true }) rfl hrunning
        (fun hr => by rw [show l'.dev.iepRun = false from hr] at hrunning; cases hrunning)
    · have hsizing : l'.dev.Sizing p := (hm.conserves (hz0 hz)).stopped hem hsame hd.moved.same.claim.1 hk hrunning
      exact { hsizing with }

end

end Sys2Proof.Machine
end

section
/-! PROOFS. R220, R281: with both engines stopped a handler run finds no status bit set; it records that and acts on nothing. With it
every move of the handler leaves its instance under the invariants. -/

namespace Sys2Proof.Machine

theorem slotDone_zero (b : Bool) (s : Slot) : slotDone b 0 s = false := by revert b s; decide

section
variable {p : Config.Params} {I : Device → Prop} {d : Device} {l : Ctx}

theorem Ctx.Now.peek (h : l.Now p I d) (r : Reg) : peek r l.dev = Machine.peek r d := peek_later h.later r

/-- With no flag set nothing is dispatched, but for a refill that finds no threshold, and a drain. -/
theorem dispatchArm_clear (h : d.tp.irq = .zero) :
    dispatchArm d = .none ∨ dispatchArm d = .refill ∨ dispatchArm d = .deliver := by
  rcases dispatchArm_cases d with e | ⟨-, -, e⟩ | ⟨-, -, e⟩
  · exact .inl e
  · rw [e, writeArm, h]
    simp [IrqFlags.zero]
    tauto
  · rw [e, readArm, h]
    simp [IrqFlags.zero]

/-- The return from a run when the line is low. -/
theorem Ctx.Now.handlerReturn (h : l.Now p I d) (hsil : d.Silent) : (handlerReturn l).Now p I { d with iepRun := false } := by
  obtain ⟨t, o, e⟩ := h.later
  have hlow : irqLevel l.params { l.dev with iepRun := false } = false := by
    rw [e]
    exact Device.Silent.low hsil.same _
  unfold Machine.handlerReturn
  rw [latch_of_low hlow]
  exact h.own l.mem l.trace ⟨t, o, by rw [e]⟩ (fun hb => hb) rfl

variable (hI : Enduring p I) (h : l.Now p I d) (hstop : d.Stopped) (hsil : d.Silent)
include hI h hstop hsil

/-- Clearing the status when no bit of it is set. -/
theorem Ctx.Now.statusClear (hclr : d.mb.stclr = 0) (mask : BitVec 7) : (statusClear mask l).Now p I d := by
  obtain ⟨h1, h2, h3, h4⟩ := hsil
  have hset := h.regWrite hI hstop .mStclr (mask.setWidth 32) ⟨by simp [poke, h1], h2, h3, h4⟩
  have hclear := hset.regWrite hI hstop.same .mStclr 0 ⟨by simp [poke, h1], h2, h3, h4⟩
  have e : poke .mStclr 0 (poke .mStclr (mask.setWidth 32) d) = d := by
    show _ = ({ d with mb := { d.mb with stclr := d.mb.stclr, status := d.mb.status } } : Device)
    simp [poke, h1, hclr]
  rw [e] at hclear
  exact hclear

/-- A drain that finds no burst slot complete. -/
theorem evBurstSlot_idle : ∃ m, evBurstSlot l = .next m ∧ m.Now p I d := by
  have hp := h.pump hI hstop
  have hflags : (rdflagGet l).1 = 0 := by
    show (Machine.peek .mRdflag (pump l).dev).setWidth 8 = 0
    rw [hp.peek, Machine.peek, hsil.rdflag]
    rfl
  unfold evBurstSlot
  split
  · split_ifs
    · refine ⟨pump l, ?_, hp⟩
      show drainSlots 8 (rdflagGet l).1 (pump l) = _
      rw [hflags]
      exact drainSlots_stop (slotDone_zero _ _)
    · exact ⟨l, rfl, h⟩
  · exact ⟨l, rfl, h⟩

theorem dispatch_idle (hf : d.tp.irq = .zero) : ∃ m, dispatch l = .next m ∧ m.Now p I d := by
  have hirq : ∀ {m : Ctx}, m.Now p I d → m.dev.tp.irq = .zero := fun hm => by
    obtain ⟨t, o, e⟩ := hm.later
    rw [e]
    exact hf
  unfold dispatch
  rcases dispatchArm_clear (hirq h) with e | e | e <;> rw [e]
  · exact ⟨l, rfl, h⟩
  · exact ⟨l, by simp [hirq h, IrqFlags.zero], h⟩
  · obtain ⟨m, hm, hnow⟩ := evBurstSlot_idle hI h hstop hsil
    exact ⟨m, by simp [hm, hirq hnow, IrqFlags.zero], hnow⟩

/-- I6 to I9 when no DMA status bit is set (R239, R243). -/
theorem handlerDma_idle :
    (handlerDma l).Now p I { d with iepRun := false, tp := { d.tp with dma := .zero } } := by
  have hp := h.pump hI hstop
  have hstatus : (dmaStatusGetclr l).1 = 0 := by
    show (Machine.peek .dStatus (pump l).dev).setWidth 6 = 0
    rw [hp.peek, Machine.peek, hsil.dma]
    rfl
  have hack : (dmaStatusGetclr l).2.Now p I d := by
    have e : (dmaStatusGetclr l).2 = regWrite .dStatus ((dmaStatusGetclr l).1.setWidth 32) (pump l) := rfl
    have hpoke : poke .dStatus ((0 : BitVec 6).setWidth 32) d = d := by
      show _ = ({ d with db := { d.db with status := d.db.status } } : Device)
      simp [poke, hsil.dma]
    rw [e, hstatus]
    have hw := hp.regWrite hI hstop .dStatus ((0 : BitVec 6).setWidth 32) (by rw [hpoke]; exact hsil)
    rwa [hpoke] at hw
  have hdma : dmaOfStatus (dmaStatusGetclr l).1 = .zero := by rw [hstatus]; decide
  have hrec : (setDma (fun _ => dmaOfStatus (dmaStatusGetclr l).1) (dmaStatusGetclr l).2).Now p I
      { d with tp := { d.tp with dma := .zero } } := by
    rw [hdma]
    exact hack.mapTP (fun tp => { tp with dma := .zero }) rfl
  have hdone : (setDma (fun _ => dmaOfStatus (dmaStatusGetclr l).1) (dmaStatusGetclr l).2).dev.tp.dma.done = false := by
    rw [hdma]
    rfl
  have hrun : handlerDma l = handlerReturn (setDma (fun _ => dmaOfStatus (dmaStatusGetclr l).1) (dmaStatusGetclr l).2) := by
    unfold handlerDma
    simp only
    rw [if_neg (by rw [hdone]; simp)]
  rw [hrun]
  exact hrec.handlerReturn hsil.same

/-- I1 to I4 when no status bit is set: every flag decoded is clear (R221, R222). -/
theorem handlerFlags_idle (hclr : d.mb.stclr = 0) :
    (setIrq (fun f => { f with rdOverflow := (ovfGet (setIrq (irqOfStatus (statusGet l).1)
        (statusClear 0x7F (statusGet l).2))).1 != 0 })
      (ovfGet (setIrq (irqOfStatus (statusGet l).1) (statusClear 0x7F (statusGet l).2))).2).Now p I
        { d with tp := { d.tp with irq := .zero } } := by
  have hp := h.pump hI hstop
  have hstatus : (statusGet l).1 = 0 := by
    show (Machine.peek .mStatus (pump l).dev).setWidth 7 = 0
    rw [hp.peek, Machine.peek, hsil.status]
    rfl
  have hclear : (statusClear 0x7F (statusGet l).2).Now p I d := hp.statusClear hI hstop hsil hclr 0x7F
  rw [hstatus]
  have hirq : (setIrq (irqOfStatus 0) (statusClear 0x7F (statusGet l).2)).Now p I
      { d with tp := { d.tp with irq := irqOfStatus 0 d.tp.irq } } :=
    hclear.mapTP (fun tp => { tp with irq := irqOfStatus 0 tp.irq }) rfl
  have hp' := hirq.pump hI hstop.same
  have hovf : (ovfGet (setIrq (irqOfStatus 0) (statusClear 0x7F (statusGet l).2))).1 = 0 := by
    show Machine.peek .mOvf (pump _).dev = 0
    rw [hp'.peek, Machine.peek, hsil.ovf]
    rfl
  rw [hovf]
  exact hp'.mapTP (fun tp => { tp with irq := { tp.irq with rdOverflow := false } }) rfl

end

section
variable {p : Config.Params} {I : Device → Prop} {c : Ctx} (hI : Enduring p I) (hw : c.World p I) (h : c.dev.Control p)
include hI hw h

/-- A run while both engines are stopped records that no flag is set (R220). -/
theorem handlerRun_idle (hstop : c.dev.Stopped) :
    ∃ m, handlerRun c = .next m ∧
      m.Now p I { c.dev with irqPend := false, iepRun := false, tp := { c.dev.tp with irq := .zero, dma := .zero } } := by
  have hsil := h.silent hstop
  have hsil' : ∀ run tp, ({ c.dev with irqPend := false, iepRun := run, tp := tp } : Device).Silent := fun _ _ =>
    hsil.same
  have hstop' : ∀ run tp, ({ c.dev with irqPend := false, iepRun := run, tp := tp } : Device).Stopped := fun _ _ =>
    hstop.same
  have henter : (handlerEnter c).Now p I { c.dev with irqPend := false, iepRun := true } :=
    hw.now.mapDev (f := fun d => { d with irqPend := false, iepRun := true }) (fun v ⟨t, o, e⟩ => ⟨t, o, by rw [e]⟩)
      (fun hb => hb) rfl
  have hflags := handlerFlags_idle hI henter (hstop' _ _) (hsil' _ _) h.strobes.1
  obtain ⟨m, hm, hnow⟩ := dispatch_idle hI hflags (hstop' _ _) (hsil' _ _) rfl
  refine ⟨handlerDma m, ?_, handlerDma_idle hI hnow (hstop' _ _) (hsil' _ _)⟩
  have hm' : dispatch (handlerStatus c) = .next m := hm
  rw [handlerRun, hm']
  rfl

/-- Every move of the handler (R220). -/
theorem irqMove_leaves : (irqMove c).Leaves .iep (Ctx.Rests p I c.dev) := by
  unfold irqMove
  split
  · rename_i hen
    have hrun : c.dev.iepRun = false := by
      simp only [handlerEnabled, Bool.and_eq_true, Bool.not_eq_true'] at hen
      exact hen.1.2
    by_cases hseq : c.dev.seq = .s9 ∨ c.dev.seq = .s11
    · exact handlerRun_leaves_engaged hI hw h hseq hrun
    · rw [not_or] at hseq
      have hstop := h.stopped hseq.1 hseq.2
      have hsil := h.silent hstop
      obtain ⟨m, e, hm⟩ := handlerRun_idle hI hw h hstop
      rw [e]
      refine hm.rests { h with run_stuck := hrun.symm.trans h.run_stuck, pending := fun _ hl => ?_ } fun hz => ?_
      · exact absurd (hl.symm.trans (Device.Silent.low hsil.same p)) (by simp)
      · exact (hz.conserves hrun).record
          (w := { c.dev with irqPend := false, iepRun := false, tp := { c.dev.tp with irq := .zero, dma := .zero } })
          { iepRun := hrun.symm } .zero .zero c.dev.tp.result rfl fun hs => hs
  · exact ⟨hw, h, fun hz => hz⟩

end

end Sys2Proof.Machine
end

section
/-! PROOFS. R174, R190, R191, R270: the sizing invariant bears the moves of the environment, and S1 sets it up. -/

namespace Sys2Proof.Machine

section
variable {p : Config.Params} {d v : Device} {c : Cmd}

theorem Device.Sizing.moved (h : d.Sizing p) (hm : d.Moved p v) : v.Sizing p := by
  obtain ⟨-, -, -, -, -, -, -, -, -, -, -, -, htp, hseq, hcmdl, -, -, hsig, hrun, -⟩ := hm.same
  exact
    { recorded := by rw [htp, hcmdl]; exact h.recorded
      read_conserves := by rw [htp, hcmdl, hsig, hrun]; exact h.read_conserves
      write_conserves := by rw [htp, hcmdl, hseq, hrun]; exact h.write_conserves
      write_unstaged := by rw [htp, hcmdl, hseq]; exact h.write_unstaged
      dma_zero := by rw [htp, hcmdl]; exact h.dma_zero
      cursor_aligned := by rw [htp]; exact h.cursor_aligned }

/-- A count that passed S0 fits 16 bits (R173). -/
theorem cmdLen_le_of_countsValid (hc : countsValid c = true) : (cmdLen c).toNat ≤ 65535 := by
  have hmax : Config.countMax = 65535 := rfl
  unfold countsValid countValid at hc
  unfold cmdLen
  split_ifs at hc ⊢ <;> simp only [hmax, Bool.and_eq_true, decide_eq_true_eq] at hc
  · exact hc.1.2
  · exact hc.2

/-- S1 sets the counters up (R174, R190, R191, R270). -/
theorem startTransaction_sizing (hc : countsValid c = true) (host : Nat) : (startTransaction p host c d).Sizing p := by
  have hlen := cmdLen_le_of_countsValid hc
  refine
    { recorded := fun _ => ⟨rfl, ?_, rfl⟩
      read_conserves := fun _ _ hop _ => ?_
      write_conserves := by simp [startTransaction]
      write_unstaged := fun _ hop _ => ⟨rfl, ?_⟩
      dma_zero := fun _ hop => ?_
      cursor_aligned := fun _ _ => .inl rfl }
  · show ((cmdLen c).setWidth 16).toNat = _
    rw [BitVec.toNat_setWidth]
    exact Nat.mod_eq_of_lt (by omega)
  · have hop' : c.op = .read := hop
    have hrlen : c.args.rlen.toNat ≤ 65535 := by simpa [cmdLen, hop', isReadOp] using hlen
    have hcnt : (burstCount p c) = c.args.rlen.toNat / p.rdBurstBytes := by simp [burstCount, hop']
    have hrem : (burstRemainder p c) = c.args.rlen.toNat % p.rdBurstBytes := by simp [burstRemainder, hop']
    have hsplit := Nat.div_add_mod c.args.rlen.toNat p.rdBurstBytes
    have hdiv := Nat.div_le_self c.args.rlen.toNat p.rdBurstBytes
    have hmod : c.args.rlen.toNat % p.rdBurstBytes < 16 := by
      unfold Config.Params.rdBurstBytes
      split <;> omega
    show 0 + p.rdBurstBytes * (BitVec.ofNat 16 (burstCount p c)).toNat + (BitVec.ofNat 4 (burstRemainder p c)).toNat =
      c.args.rlen.toNat
    rw [BitVec.toNat_ofNat, BitVec.toNat_ofNat, hcnt, hrem, Nat.mod_eq_of_lt (by omega), Nat.mod_eq_of_lt (by omega)]
    omega
  · have hop' : c.op = .write := hop
    have hwlen : c.args.wlen.toNat ≤ 65535 := by simpa [cmdLen, hop', isReadOp] using hlen
    have hcap : Config.nonburstCap = 32 := rfl
    have hunit : Config.wrBurstBytes = 4 := rfl
    show (BitVec.ofNat 16 (burstCount p c)).toNat =
      if c.args.wlen.toNat ≤ 32 then 0 else (c.args.wlen.toNat - 32 + 3) / 4
    simp only [BitVec.toNat_ofNat, burstCount, hop', hcap, hunit, ceilDiv]
    split_ifs <;> omega
  · have hop' : isDmaOp c.op = true := hop
    show BitVec.ofNat 16 (burstCount p c) = 0 ∧ BitVec.ofNat 4 (burstRemainder p c) = 0 ∧ _ ∧ _
    cases e : c.op <;> simp [e, isDmaOp] at hop' <;> simp [burstCount, burstRemainder, e, startTransaction, startTP, TP.zero]

/-- Both invariants of an instance bear the environment's moves. -/
theorem sizing_enduring (p : Config.Params) : Enduring p fun d => d.Control p ∧ d.Sizing p where
  moved hm h := ⟨h.1.moved hm, h.2.moved hm⟩
  leave_s9 r hs h := ⟨h.1.leave_s9 hs r, h.2.advance rfl rfl rfl rfl (.inr (by simp [hs]))⟩
  start host hb hc h := ⟨startTransaction_control h.1 hb hc p host, startTransaction_sizing hc host⟩

end

end Sys2Proof.Machine
end

section
/-! PROOFS. R7, R22, R192, R244, R245, R270, R280, R286: one step of the machine keeps what its agents' moves keep of their instance,
the environment's moves of theirs and the command port of the instance a command names. -/

namespace Sys2Proof.Machine

/-- A fact holds of every instance, and no host has two commands in flight. -/
def State.Holds (I : Device → Prop) (s : State) : Prop := (∀ d ∈ s.devs, I d) ∧ OneCommandPerHost s.devs

/-- An enduring fact with the control invariant that the moves of the block's agents keep. -/
structure Invariant (p : Config.Params) (I : Device → Prop) : Prop extends Enduring p I where
  control : ∀ {d : Device}, I d → d.Control p
  rests : ∀ {d : Device} {l : Ctx}, l.Rests p I d → I d → I l.dev

theorem control_invariant (p : Config.Params) : Invariant p (Device.Control p) where
  toEnduring := control_enduring p
  control h := h
  rests hl _ := hl.control

theorem sizing_invariant (p : Config.Params) : Invariant p fun d => d.Control p ∧ d.Sizing p where
  toEnduring := sizing_enduring p
  control h := h.1
  rests hl h := ⟨hl.control, hl.sizing h.2⟩

section
variable {I : Device → Prop} {s t : State} {k : Nat} {d : Device} {l : Ctx}

/-! ### Taking an instance in hand and putting it back -/

theorem State.Holds.ctx (h : s.Holds I) (hd : s.devs[k]? = some d) : (s.ctx k d).World s.params I where
  params := rfl
  placed := State.ctx_placed hd
  peers v hv := by
    rcases List.mem_append.mp hv with hv | hv
    · exact h.1 v (List.mem_of_mem_take hv)
    · exact h.1 v (List.mem_of_mem_drop hv)
  hosts := by rw [State.ctx_devices hd]; exact h.2

theorem Ctx.World.holds {p : Config.Params} (h : l.World p I) (hd : I l.dev) (s : State) : (s.putCtx l).Holds I := by
  refine ⟨fun v hv => ?_, h.hosts⟩
  rcases List.mem_append.mp (show v ∈ l.before ++ l.dev :: l.after from hv) with hv | hv
  · exact h.peers v (List.mem_append_left _ hv)
  · rcases List.mem_cons.mp hv with rfl | hv
    · exact hd
    · exact h.peers v (List.mem_append_right _ hv)

/-- A move of an agent of an instance. -/
theorem moveOn_holds {ag : Agent} {f : Ctx → Res} (h : s.Holds I)
    (hf : ∀ c : Ctx, c.World s.params I → I c.dev → (f c).Leaves ag fun l => l.World s.params I ∧ I l.dev)
    (e : moveOn ag k f s = .next t) : t.params = s.params ∧ t.Holds I := by
  rcases moveOn_next e with ⟨-, rfl⟩ | ⟨d, l, hd, hl⟩
  · exact ⟨rfl, h⟩
  · have hleaves := hf (s.ctx k d) (h.ctx hd) (h.1 d (List.mem_of_getElem? hd))
    rcases hl with ⟨hl, rfl⟩ | ⟨hl, rfl⟩ <;> rw [hl] at hleaves
    · exact ⟨rfl, Ctx.World.holds hleaves.1 hleaves.2 s⟩
    · exact ⟨rfl, Ctx.World.holds hleaves.1 hleaves.2 s⟩

/-- A move of an environment agent. -/
theorem envOn_holds {f : Ctx → Ctx} (hf : Calms s.params I f) (h : s.Holds I) (e : envOn k f s = .next t) :
    t.params = s.params ∧ t.Holds I := by
  refine moveOn_holds h (fun c hw hc => ?_) e
  have hself := hw.onAny (k := c.id) hf
  rw [onAny, if_pos rfl] at hself
  exact ⟨hself, hf.keeps c hw.params hc⟩

/-- A command entering the port (R171 to R174, R286). -/
theorem commandPort_holds {host : Nat} {ws : List Word} (hI : Enduring s.params I) (h : s.Holds I)
    (e : commandPort host ws s = .next t) : t.params = s.params ∧ t.Holds I := by
  unfold commandPort at e
  split at e
  · injection e with e
    exact e ▸ ⟨rfl, h⟩
  · rename_i hwait
    split at e
    · rename_i i hi
      obtain ⟨c, rfl, -⟩ := decode_cmd_owner hi host
      cases hd : s.devs[c.args.dev.toNat]? with
      | none =>
        rw [exec_command_absent (s := { s with host := host }) hd] at e
        injection e with e
        exact e ▸ ⟨rfl, h⟩
      | some d =>
        rw [exec_command_present (s := { s with host := host }) hd] at e
        injection e with e
        cases hb : d.tp.busy with
        | true =>
          rw [admission_of_busy c hb] at e
          exact e ▸ ⟨rfl, h⟩
        | false =>
          rw [admission_of_idle c hb] at e
          split at e
          · rename_i hc
            subst e
            refine ⟨rfl, fun v hv => ?_, h.2.set hd fun _ => .inr ?_⟩
            · rcases List.mem_or_eq_of_mem_set hv with hv | rfl
              · exact h.1 v hv
              · exact hI.start host hb hc (h.1 d (List.mem_of_getElem? hd))
            · exact Bool.eq_false_iff.mpr hwait
          · exact e ▸ ⟨rfl, h⟩
    · cases e

theorem Res.Leaves.mono {ag : Agent} {R R' : Ctx → Prop} {r : Res} (h : r.Leaves ag R) (hR : ∀ l, R l → R' l) :
    r.Leaves ag R' := by
  cases r with
  | next l => exact hR _ h
  | stuck l => exact hR _ h
  | refused e => trivial

/-- One move of the schedule. -/
theorem runMove_holds {m : Move} (hI : Invariant s.params I) (h : s.Holds I) (e : runMove m s = .next t) :
    t.params = s.params ∧ t.Holds I := by
  cases m with
  | host host ws => exact commandPort_holds hI.toEnduring h e
  | hostStore a b =>
    injection e with e
    exact e ▸ ⟨rfl, h⟩
  | hostFree a =>
    injection e with e
    exact e ▸ ⟨rfl, h⟩
  | mapAnswer j r => exact envOn_holds (calms_answerMap hI.toEnduring r) h e
  | seq j =>
    refine moveOn_holds h (fun c hw hc => ?_) e
    exact (seqMove_leaves hI.toEnduring (hI.control hc) hw).mono fun l hl => ⟨hl.world, hI.rests hl hc⟩
  | tmr j => exact envOn_holds (calms_timerExpire hI.toEnduring) h e
  | irq j =>
    refine moveOn_holds h (fun c hw hc => ?_) e
    exact (irqMove_leaves hI.toEnduring hw (hI.control hc)).mono fun l hl => ⟨hl.world, hI.rests hl hc⟩
  | be j m => exact envOn_holds (calms_be hI.toEnduring m) h e
  | de j m => exact envOn_holds (calms_deMove hI.toEnduring m) h e

/-- One step of the machine. -/
theorem step_holds (hI : Invariant s.params I) (h : s.Holds I) (e : step s = .next t) : t.params = s.params ∧ t.Holds I := by
  unfold step at e
  split at e
  · injection e with e
    exact e ▸ ⟨rfl, h⟩
  · rename_i m rest _
    exact runMove_holds (s := { s with agenda := rest }) hI h e

end

/-- Every step keeps the control invariant. -/
theorem step_keeps_controlInv {s t : State} (h : s.ControlInv) (e : step s = .next t) : t.ControlInv := by
  obtain ⟨hp, ht⟩ := step_holds (control_invariant s.params) h e
  exact ⟨fun d hd => hp ▸ ht.1 d hd, ht.2⟩

/-- Settles O53: what the moves of every agent keep of an instance, with whatever falls between their accesses, every step keeps. -/
theorem stepKeepsSizingInvariant : Obligations.StepKeepsSizingInvariant := by
  unfold Obligations.StepKeepsSizingInvariant
  intro s t ⟨hcontrol, hsizing⟩ e
  obtain ⟨hp, ht⟩ := step_holds (sizing_invariant s.params)
    ⟨fun d hd => ⟨hcontrol.1 d hd, hsizing d hd⟩, hcontrol.2⟩ e
  exact ⟨step_keeps_controlInv hcontrol e, fun d hd => hp ▸ (ht.1 d hd).2⟩

end Sys2Proof.Machine
end

section
/-! PROOFS. R104, R144, R264, U13, U14, U22: what is refused. The primitives refuse the two programmings that are never made; under the
control invariant the block itself reaches neither, so that only the decoder refuses. -/

namespace Sys2Proof.Machine

/-! ### The two programmings -/

/-- `DMA_GO` by the two directions (R161, R264). -/
theorem exec_dmaGo {s : State} {d : Device} (hd : s.InHand d) :
    exec .dmaGo s =
      if d.db.dir = d.mb.ctrl.rw then .next (s.putCtx (rmw .dCtrl 1 1 (s.ctx s.cur d)))
      else .refused .directionMismatch := by
  refine (onInstance_inHand hd .seq dmaGo).trans ?_
  unfold dmaGo
  by_cases h : d.db.dir = d.mb.ctrl.rw <;> simp [h]

/-- Settles O37: neither mask with the direction bits admits a restart of a write, and `DMA_GO` compares the two directions. -/
theorem forbiddenProgrammingIsRefused : Obligations.ForbiddenProgrammingIsRefused := by
  unfold Obligations.ForbiddenProgrammingIsRefused
  intro s d hd
  refine ⟨fun auto => ⟨rfl, rfl⟩, ?_⟩
  rw [exec_dmaGo hd]
  by_cases h : d.db.dir = d.mb.ctrl.rw <;> simp [h]

/-! ### The block's agents are not refused -/

theorem dataLoad32_ends (src n : Nat) (l : Ctx) : (dataLoad32 src n l).Ends fun _ => True :=
  loadSlots_ends (fun _ _ => trivial) (fun _ _ _ _ => trivial) trivial

theorem restartLoad_ends (l : Ctx) : (restartLoad l).Ends fun _ => True := by
  unfold restartLoad
  split
  · exact dataLoad32_ends _ _ l
  · trivial

theorem copyIn_ends (l : Ctx) : (copyIn l).Ends fun _ => True := by
  unfold copyIn
  simp only
  split
  · exact copyBytesIn_ends (fun _ _ => trivial) (fun _ _ _ _ => trivial) trivial
  · trivial

/-- S5 programs nothing that could be refused (R178). -/
theorem stage_ends (l : Ctx) : (stage l).Ends fun _ => True := by
  have hdma : (andThen (restartLoad l) fun l => andThen (copyIn (dmaMap l)) fun l => .next (dmaProgram l)).Ends
      fun _ => True :=
    andThen_ends (restartLoad_ends l)
      (fun m _ => andThen_ends (copyIn_ends (dmaMap m)) (fun _ _ => trivial) fun _ h => h) fun _ h => h
  unfold stage
  split
  · exact andThen_ends (dataLoad32_ends _ _ l) (fun _ _ => trivial) fun _ h => h
  · exact restartLoad_ends l
  · exact hdma
  · exact hdma

/-- At S8 the DMA direction agrees with the master's (R264). -/
theorem Device.Control.start_ends {p : Config.Params} {l : Ctx} (h : l.dev.Control p) (hs : l.dev.seq = .s8) :
    (start l).Ends fun _ => True := by
  unfold start
  split
  · rename_i hdma
    rw [dmaGo, if_pos (h.dma_direction hdma (.inr (.inr hs)))]
    trivial
  · trivial

theorem exitTransaction_ends (l : Ctx) : (exitTransaction l).Ends fun _ => True := by
  refine andThen_ends (P := fun _ => True) ?_ (fun _ _ => trivial) fun _ h => h
  split
  · exact (exiting_ctrlReset l).dmaFinish.mono fun _ _ => trivial
  · trivial

/-- No step of the sequencer is refused: S4 and S6 set the mode as the spec allows, and S8 triggers in the master's direction. -/
theorem Device.Control.seqMove_ends {p : Config.Params} {l : Ctx} (h : l.dev.Control p) :
    (seqMove l).Ends fun _ => True := by
  unfold seqMove
  split
  · cases hs : l.dev.seq <;> simp only [seqStep, hs]
    case s5 => exact andThen_ends (stage_ends l) (fun _ _ => trivial) fun _ h => h
    case s8 => exact andThen_ends (h.start_ends hs) (fun _ _ => trivial) fun _ h => h
    case s11 => exact exitTransaction_ends l
    all_goals trivial
  · trivial

/-- No handler run is refused. -/
theorem irqMove_ends (l : Ctx) : (irqMove l).Ends fun _ => True := by
  unfold irqMove
  split
  · rcases handlerRun_acts l with ⟨m, -, e⟩ | ⟨m, l', -, -, e⟩ <;> rw [e] <;> trivial
  · trivial

/-! ### The machine -/

/-- A move of an instance that its operation does not refuse is not refused: where the instance is absent, nothing moves. -/
theorem moveOn_not_refused {ag : Agent} {k : Nat} {f : Ctx → Res} {s : State} {r : Refusal}
    (hf : ∀ d, s.devs[k]? = some d → (f (s.ctx k d)).Ends fun _ => True) : moveOn ag k f s ≠ .refused r := by
  intro e
  unfold moveOn at e
  split_ifs at e with hk
  obtain ⟨d, hd⟩ : ∃ d, s.devs[k]? = some d := ⟨_, List.getElem?_eq_getElem hk⟩
  have hend := hf d hd
  unfold onInstance at e
  rw [hd] at e
  cases hr : f (s.ctx k d) with
  | next l => simp [hr] at e
  | stuck l => simp [hr] at e
  | refused x =>
    rw [hr] at hend
    exact hend

/-- The command port refuses what the decoder rejects (R104). -/
theorem commandPort_refused {h : Nat} {ws : List Word} {s : State} {r : Refusal} (e : commandPort h ws s = .refused r) :
    ∃ x, decode ⟨.cmd, ws⟩ = .error x ∧ r = .badDescriptor x := by
  unfold commandPort at e
  split at e
  · cases e
  split at e
  · rename_i i hi
    obtain ⟨c, rfl, -⟩ := decode_cmd_owner hi h
    rw [exec_command] at e
    cases e
  · rename_i x hx
    injection e with e
    exact ⟨x, hx, e.symm⟩

/-- With every instance under the control invariant, a refused move is a command the decoder rejects. -/
theorem runMove_refused {m : Move} {s : State} {r : Refusal} (hc : ∀ d ∈ s.devs, d.Control s.params)
    (e : runMove m s = .refused r) :
    ∃ h ws x, m = .host h ws ∧ decode ⟨.cmd, ws⟩ = .error x ∧ r = .badDescriptor x := by
  have env : ∀ {k : Nat} {f : Ctx → Ctx}, envOn k f s ≠ .refused r := moveOn_not_refused fun _ _ => trivial
  cases m with
  | host h ws =>
    obtain ⟨x, hx, hr⟩ := commandPort_refused e
    exact ⟨h, ws, x, rfl, hx, hr⟩
  | hostStore a b => cases e
  | hostFree a => cases e
  | mapAnswer k r => exact absurd e env
  | seq k =>
    exact absurd e (moveOn_not_refused fun d hd =>
      Device.Control.seqMove_ends (l := s.ctx k d) (hc d (List.mem_of_getElem? hd)))
  | tmr k => exact absurd e env
  | irq k => exact absurd e (moveOn_not_refused fun _ _ => irqMove_ends _)
  | be k m => exact absurd e env
  | de k m => exact absurd e env

/-- Settles O57: the agents are not refused under the control invariant, the environment's moves never. -/
theorem onlyBadDescriptorsAreRefused : Obligations.OnlyBadDescriptorsAreRefused := by
  unfold Obligations.OnlyBadDescriptorsAreRefused
  intro s r ⟨hcontrol, _⟩ e
  cases hagenda : s.agenda with
  | nil =>
    rw [step_nil hagenda] at e
    cases e
  | cons m rest =>
    rw [step_cons hagenda] at e
    obtain ⟨h, ws, x, rfl, hx, hr⟩ := runMove_refused (s := { s with agenda := rest }) hcontrol e
    exact ⟨h, ws, rest, x, rfl, hx, hr⟩

end Sys2Proof.Machine
end

section
/-! PROOFS. R178, R261 to R264, R268: the DMA coordinator's part of S5 and of S11 with nothing between its accesses: the mapping, the
copies through the scratch buffer byte by byte, the programming of the DMA block and the unmapping. -/

namespace Sys2Proof.Machine

/-- What a step of the sequencer makes of its instance, of host memory and of the trace, the machine becomes. -/
theorem step_seq_become {s : State} {d v : Device} {mem : Memory} {obs : List Obs} {rest : List Move}
    (hagenda : s.agenda = .seq s.cur :: rest) (hd : s.InHand d) (hen : seqEnabled d = true)
    (hf : seqStep (s.ctx s.cur d) = .next { s.ctx s.cur d with dev := v, mem := mem, trace := obs ++ s.trace }) :
    step s = .next ({ s with agenda := rest }.become v mem obs) := by
  have hd' : ({ s with agenda := rest } : State).InHand d := hd
  have hmove : seqMove (s.ctx s.cur d) = .next { s.ctx s.cur d with dev := v, mem := mem, trace := obs ++ s.trace } :=
    (if_pos hen).trans hf
  rw [step_cons hagenda, runMove, moveOn_some (s := { s with agenda := rest }) hd']
  exact onInstance_become_mem .seq hd' hmove

/-- The instance in hand of a machine that has become it. -/
theorem State.InHand.become_getElem? {s : State} {d : Device} (hd : s.InHand d) (v : Device) (mem : Memory) (obs : List Obs) :
    (s.become v mem obs).devs[s.cur]? = some v := List.getElem?_set_self hd.lt

/-! ### The mapping (R261) -/

/-- The mapping record the oracle's answer selects. -/
def Device.mapping (d : Device) : MapRec :=
  match d.oracle with
  | some a => { useScratch := false, devAddr := a, valid := true }
  | none => { useScratch := true, devAddr := d.handle.scratchDev, valid := true }

theorem Device.mapping_useScratch_iff (d : Device) : d.mapping.useScratch = true ↔ d.oracle = none := by
  unfold Device.mapping
  cases d.oracle <;> simp

theorem dmaMap_eq (l : Ctx) :
    dmaMap l =
      { l with
        dev := { l.dev with map := l.dev.mapping }
        trace := .mapped l.id (cmdBuf l.dev.cmdl) (cmdLen l.dev.cmdl) (isReadOp l.dev.cmdl.op) l.dev.oracle :: l.trace } := by
  unfold dmaMap Device.mapping
  cases l.dev.oracle <;> rfl

/-! ### The parts of S5 -/

/-- The restart payload is loaded slot by slot, where there is one (R178). -/
theorem restartLoad_quiet {l : Ctx} (hq : l.dev.inter = []) (hs : l.dev.Latched l.params)
    (ha : cmdRestart l.dev.cmdl = true → Allocated l.mem l.dev.cmdl.args.wbuf.toNat l.dev.cmdl.args.wlen.toNat) :
    ∃ (data : Vector Word 8) (obs : List Obs),
      restartLoad l =
        .next { l with dev := { l.dev with mb := { l.dev.mb with data := data } }, trace := obs ++ l.trace } ∧
      (cmdRestart l.dev.cmdl = false → data = l.dev.mb.data) ∧
      (cmdRestart l.dev.cmdl = true → ∀ i : Slot,
        data[i] = bufferWord l.mem l.dev.cmdl.args.wbuf.toNat l.dev.cmdl.args.wlen.toNat (4 * i.val)) := by
  unfold restartLoad
  cases hr : cmdRestart l.dev.cmdl with
  | false => exact ⟨l.dev.mb.data, [], rfl, fun _ => rfl, nofun⟩
  | true =>
    obtain ⟨data, obs, e, hdata⟩ := loadSlots_allocated (i := 0) (k := 8) hq hs rfl (ha hr)
    exact ⟨data, obs, e, nofun, fun _ i => (hdata i).trans (if_pos (Nat.zero_le _))⟩

/-- The copy-in from index `i` on writes the bytes of an allocated buffer into the scratch buffer (R262). -/
theorem copyBytesIn_quiet {src i n : Nat} {l : Ctx} (hq : l.dev.inter = []) (ha : Allocated l.mem src (i + n)) :
    ∃ scratch : List Host.Cell,
      copyBytesIn src i n l = .next { l with dev := { l.dev with scratch := scratch } } ∧
      ∀ k, cellRead scratch k =
        if i ≤ k ∧ k < i + n then cellRead l.mem (src + k) else cellRead l.dev.scratch k := by
  induction n generalizing i l with
  | zero => exact ⟨l.dev.scratch, rfl, fun k => (if_neg (by omega)).symm⟩
  | succ n ih =>
    obtain ⟨b, hb⟩ := Option.isSome_iff_exists.mp (ha i (by omega))
    obtain ⟨scratch, e, hscratch⟩ := ih (i := i + 1)
      (l := { l with dev := { l.dev with scratch := cellWrite l.dev.scratch i b } }) hq (ha.mono le_rfl (by omega))
    refine ⟨scratch, ?_, fun k => ?_⟩
    · rw [copyBytesIn, readByte_quiet hq, hb]
      simp only [scratchPut, pump_quiet hq]
      exact e
    · rw [hscratch k]
      show (if _ then _ else cellRead (cellWrite l.dev.scratch i b) k) = _
      rw [cellRead_cellWrite]
      by_cases hk : k = i
      · subst hk
        rw [if_neg (by omega), if_pos rfl, if_pos (by omega), hb]
      · rw [if_neg hk]
        exact if_congr (by omega) rfl rfl

/-- Only `DMA_WRITE` through the scratch buffer copies in (R262). -/
theorem copyIn_quiet {l : Ctx} (hq : l.dev.inter = [])
    (ha : l.dev.cmdl.op = .dmaWrite → Allocated l.mem l.dev.cmdl.args.wbuf.toNat l.dev.cmdl.args.wlen.toNat) :
    ∃ scratch : List Host.Cell,
      copyIn l = .next { l with dev := { l.dev with scratch := scratch } } ∧
      (l.dev.map.useScratch = true ∧ l.dev.cmdl.op = .dmaWrite → ∀ k, cellRead scratch k =
        if k < l.dev.cmdl.args.wlen.toNat then cellRead l.mem (l.dev.cmdl.args.wbuf.toNat + k)
        else cellRead l.dev.scratch k) ∧
      (¬(l.dev.map.useScratch = true ∧ l.dev.cmdl.op = .dmaWrite) → scratch = l.dev.scratch) := by
  unfold copyIn
  by_cases hc : l.dev.map.useScratch = true ∧ l.dev.cmdl.op = .dmaWrite
  · obtain ⟨scratch, e, hscratch⟩ := copyBytesIn_quiet (i := 0) hq (by simpa using ha hc.2)
    exact ⟨scratch, (if_pos hc).trans e, fun _ k => by simpa using hscratch k, fun hn => absurd hc hn⟩
  · exact ⟨l.dev.scratch, if_neg hc, fun h => absurd h hc, fun _ => rfl⟩

/-- Address, length and direction, and nothing else of the registers (R263, R264). -/
theorem dmaProgram_quiet {l : Ctx} (hq : l.dev.inter = []) (hs : l.dev.Latched l.params) :
    ∃ obs : List Obs,
      dmaProgram l =
        { l with
          dev := { l.dev with
            db := { l.dev.db with
              dir := isReadOp l.dev.cmdl.op, addr := l.dev.map.devAddr, len := (cmdLen l.dev.cmdl).setWidth 16 } }
          trace := obs ++ l.trace } := by
  refine ⟨[.wrote l.id .dCtrl (if isReadOp l.dev.cmdl.op = true then 2 else 0),
    .wrote l.id .dLen (((cmdLen l.dev.cmdl).setWidth 16).setWidth 32), .wrote l.id .dAddr l.dev.map.devAddr], ?_⟩
  show dmaDirSet _ (dmaLenSet _ (dmaAddrSet _ l)) = _
  rw [dmaAddrSet_quiet hq hs, dmaLenSet_quiet, dmaDirSet_quiet]
  · rfl
  exacts [hq, hs, hq, hs]

/-! ### S5 of a DMA command -/

/-- The instance after S5 of a DMA command, with what stands in its word-slots and in its scratch buffer. -/
def Device.dmaStaged (data : Vector Word 8) (scratch : List Host.Cell) (d : Device) : Device :=
  { d with
    mb := { d.mb with data := data }
    map := d.mapping
    scratch := scratch
    db := { d.db with dir := isReadOp d.cmdl.op, addr := d.mapping.devAddr, len := (cmdLen d.cmdl).setWidth 16 } }

/-- S5 of both DMA commands (R178). -/
theorem stage_dma {l : Ctx} (hop : isDmaOp l.dev.cmdl.op = true) :
    stage l = andThen (restartLoad l) fun l => andThen (copyIn (dmaMap l)) fun l => .next (dmaProgram l) := by
  unfold stage
  cases hc : l.dev.cmdl.op
  case dmaRead | dmaWrite => rfl
  all_goals
    rw [hc] at hop
    cases hop

theorem stage_dma_quiet {l : Ctx} (hq : l.dev.inter = []) (hs : l.dev.Latched l.params) (hop : isDmaOp l.dev.cmdl.op = true)
    (hb : BuffersAllocated l.mem l.dev.cmdl) :
    let c := l.dev.cmdl
    ∃ (data : Vector Word 8) (scratch : List Host.Cell) (obs : List Obs),
      stage l = .next { l with dev := l.dev.dmaStaged data scratch, trace := obs ++ l.trace } ∧
      .mapped l.id (cmdBuf c) (cmdLen c) (isReadOp c.op) l.dev.oracle ∈ obs ∧
      (cmdRestart c = false → data = l.dev.mb.data) ∧
      (cmdRestart c = true → ∀ i : Slot, data[i] = bufferWord l.mem c.args.wbuf.toNat c.args.wlen.toNat (4 * i.val)) ∧
      (l.dev.oracle = none ∧ c.op = .dmaWrite → ∀ k, cellRead scratch k =
        if k < c.args.wlen.toNat then cellRead l.mem (c.args.wbuf.toNat + k) else cellRead l.dev.scratch k) ∧
      (¬(l.dev.oracle = none ∧ c.op = .dmaWrite) → scratch = l.dev.scratch) := by
  intro c
  obtain ⟨hread, -⟩ := hb
  obtain ⟨data, obs, hload, hkept, hloaded⟩ := restartLoad_quiet hq hs fun hr =>
    hread (.inr (Bool.and_eq_true_iff.mp hr).2)
  let m : Ctx := dmaMap { l with dev := { l.dev with mb := { l.dev.mb with data := data } }, trace := obs ++ l.trace }
  have hm : m = { l with
      dev := { l.dev with mb := { l.dev.mb with data := data }, map := l.dev.mapping }
      trace := .mapped l.id (cmdBuf c) (cmdLen c) (isReadOp c.op) l.dev.oracle :: (obs ++ l.trace) } := dmaMap_eq _
  obtain ⟨scratch, hcopy, hin, hnone⟩ := copyIn_quiet (l := m) (by rw [hm]; exact hq)
    (by rw [hm]; exact fun hw => hread (.inl (congrArg isReadOp hw)))
  obtain ⟨obs', hprog⟩ := dmaProgram_quiet (l := { m with dev := { m.dev with scratch := scratch } })
    (by rw [hm]; exact hq) (by rw [hm]; exact hs)
  rw [hm] at hin hnone hprog
  simp only [Device.mapping_useScratch_iff] at hin hnone
  refine ⟨data, scratch, obs' ++ .mapped l.id (cmdBuf c) (cmdLen c) (isReadOp c.op) l.dev.oracle :: obs, ?_,
    List.mem_append_right _ List.mem_cons_self, hkept, hloaded, hin, hnone⟩
  rw [stage_dma hop, hload]
  show andThen (copyIn m) _ = _
  rw [hcopy]
  show Res.next (dmaProgram _) = _
  rw [hm, hprog, List.append_assoc]
  rfl

/-- Settles O13: the restart payload, the mapping, the copy-in and the programming each change their own part of the instance. -/
theorem dmaStagingMapsCopiesPrograms : Obligations.DmaStagingMapsCopiesPrograms := by
  unfold Obligations.DmaStagingMapsCopiesPrograms
  intro s d rest hagenda hd hq ⟨hrun, hs⟩ hstuck hseq hop _ hb c
  obtain ⟨data, scratch, obs, hstage, hmapped, hkept, hloaded, hin, hnone⟩ :=
    stage_dma_quiet (l := s.ctx s.cur d) hq hs hop hb
  have hstep : seqStep (s.ctx s.cur d) =
      .next { s.ctx s.cur d with
        dev := { d.dmaStaged data scratch with seq := .s6 }, mem := s.mem, trace := obs ++ s.trace } := by
    unfold seqStep
    rw [show (s.ctx s.cur d).dev.seq = .s5 from hseq, hstage]
    rfl
  refine ⟨_, _, step_seq_become hagenda hd (by simp [seqEnabled, hrun, hstuck]) hstep,
    State.InHand.become_getElem? (s := { s with agenda := rest }) hd _ _ _, rfl, rfl, rfl, rfl, rfl, ?_,
    fun (hread : d.cmdl.op = .dmaRead) (hr : d.cmdl.args.restart = true) => ?_,
    List.mem_append_left _ hmapped, fun ⟨hw, ho⟩ => hin ⟨ho, hw⟩, fun h => hnone ?_⟩
  · rintro (h : d.cmdl.op = .dmaWrite ∨ d.cmdl.args.restart = false)
    have hdata : data = d.mb.data := hkept (by rcases h with h | h <;> simp [cmdRestart, h, isReadOp])
    rw [hdata]
    rfl
  · exact ⟨rfl, hloaded (by simp [cmdRestart, hread, hr, isReadOp])⟩
  · rintro ⟨ho, hw⟩
    rcases h with h | h
    · cases h.symm.trans hw
    · exact h ho

/-! ### S11 (R268) -/

/-- The copy-out from index `i` on writes the scratch bytes into an allocated buffer (R268). -/
theorem copyBytesOut_quiet {dst i n : Nat} {l : Ctx} (hq : l.dev.inter = []) (ha : Allocated l.mem dst (i + n)) :
    ∃ mem : Memory,
      copyBytesOut dst i n l = .next { l with mem := mem } ∧
      ∀ a, cellRead mem a =
        if dst + i ≤ a ∧ a < dst + (i + n) then some (scratchRead l (a - dst)) else cellRead l.mem a := by
  induction n generalizing i l with
  | zero => exact ⟨l.mem, rfl, fun a => (if_neg (by omega)).symm⟩
  | succ n ih =>
    have hstore : writeByte (dst + i) (scratchRead l i) l =
        .next { l with mem := cellWrite l.mem (dst + i) (scratchRead l i) } := by
      rw [writeByte, pump_quiet hq, memStore_eq_some.mpr ⟨ha i (by omega), rfl⟩]
    obtain ⟨mem, e, hmem⟩ := ih (i := i + 1) (l := { l with mem := cellWrite l.mem (dst + i) (scratchRead l i) }) hq
      (ha.mono le_rfl (by omega)).cellWrite
    refine ⟨mem, ?_, fun a => ?_⟩
    · simp only [copyBytesOut, scratchGet, pump_quiet hq, hstore, andThen_next]
      exact e
    · rw [hmem a]
      show (if _ then _ else cellRead (cellWrite l.mem (dst + i) (scratchRead l i)) a) = _
      rw [cellRead_cellWrite]
      by_cases hx : a = dst + i
      · subst hx
        rw [if_neg (by omega), if_pos rfl, if_pos (by omega), Nat.add_sub_cancel_left]
      · rw [if_neg hx]
        exact if_congr (by omega) rfl rfl

/-- The path on which the scratch buffer is copied out: a read that succeeded through it (R268). -/
abbrev Device.CopiesOut (d : Device) : Prop :=
  d.cmdl.op = .dmaRead ∧ d.map.useScratch = true ∧ d.res = .success

/-- The observation of the unmapping, where the buffer itself was mapped. -/
def unmapping (k : Nat) (d : Device) : List Obs :=
  if d.map.useScratch = true then [] else [.unmapped k (cmdBuf d.cmdl) (cmdLen d.cmdl) (isReadOp d.cmdl.op)]

/-- The instance after the DMA finish: nothing is mapped, and the scratch contents are free again (R262, log 10). -/
def Device.finished (d : Device) : Device :=
  { d with map := { d.map with valid := false }, scratch := [], epoch := d.epoch + 1 }

theorem dmaFinish_quiet {l : Ctx} (hq : l.dev.inter = [])
    (ha : l.dev.cmdl.op = .dmaRead → Allocated l.mem l.dev.cmdl.args.rbuf.toNat l.dev.cmdl.args.rlen.toNat) :
    ∃ mem : Memory,
      dmaFinish l =
        .next { l with dev := l.dev.finished, mem := mem, trace := unmapping l.id l.dev ++ l.trace } ∧
      (l.dev.CopiesOut → ∀ a, cellRead mem a =
        if l.dev.cmdl.args.rbuf.toNat ≤ a ∧ a < l.dev.cmdl.args.rbuf.toNat + l.dev.cmdl.args.rlen.toNat then
          some (scratchRead l (a - l.dev.cmdl.args.rbuf.toNat))
        else cellRead l.mem a) ∧
      (¬l.dev.CopiesOut → mem = l.mem) := by
  have htrace : ∀ trace : List Obs,
      (if l.dev.map.useScratch = true then trace
        else .unmapped l.id (cmdBuf l.dev.cmdl) (cmdLen l.dev.cmdl) (isReadOp l.dev.cmdl.op) :: trace) =
      unmapping l.id l.dev ++ trace := fun trace => by
    unfold unmapping
    split <;> rfl
  by_cases hc : l.dev.CopiesOut
  · obtain ⟨mem, e, hmem⟩ := copyBytesOut_quiet (i := 0) hq (by simpa using ha hc.1)
    refine ⟨mem, ?_, fun _ a => by simpa using hmem a, fun hn => absurd hc hn⟩
    rw [dmaFinish, if_pos hc, e]
    exact congrArg (fun trace => Res.next { l with dev := l.dev.finished, mem := mem, trace := trace }) (htrace l.trace)
  · refine ⟨l.mem, ?_, fun h => absurd h hc, fun _ => rfl⟩
    rw [dmaFinish, if_neg hc]
    exact congrArg (fun trace => Res.next { l with dev := l.dev.finished, trace := trace }) (htrace l.trace)

/-- What S11 makes of the trace: the reset's store, the unmapping of a DMA command, the return. -/
def exitObs (k : Nat) (d : Device) : List Obs :=
  .returned d.caller d.cmdl.args.dev d.res ::
    ((if isDmaOp d.cmdl.op = true then unmapping k d else []) ++ [.wrote k .mCtrl (peek .mCtrl d ||| 1)])

theorem exitTransaction_quiet {l : Ctx} (hq : l.dev.inter = [])
    (ha : l.dev.cmdl.op = .dmaRead → Allocated l.mem l.dev.cmdl.args.rbuf.toNat l.dev.cmdl.args.rlen.toNat) :
    ∃ (v : Device) (mem : Memory),
      exitTransaction l = .next { l with dev := v, mem := mem, trace := exitObs l.id l.dev ++ l.trace } ∧
      (l.dev.CopiesOut → ∀ a, cellRead mem a =
        if l.dev.cmdl.args.rbuf.toNat ≤ a ∧ a < l.dev.cmdl.args.rbuf.toNat + l.dev.cmdl.args.rlen.toNat then
          some (scratchRead l (a - l.dev.cmdl.args.rbuf.toNat))
        else cellRead l.mem a) ∧
      (¬l.dev.CopiesOut → mem = l.mem) := by
  let r : Ctx := { l with
    dev := resetController { l.dev with tp := { l.dev.tp with phase := .idle } }
    trace := .wrote l.id .mCtrl (peek .mCtrl l.dev ||| 1) :: l.trace }
  have hexit : exitTransaction l =
      andThen (if isDmaOp l.dev.cmdl.op = true then dmaFinish r else .next r) fun l => .next (leave l) := by
    unfold exitTransaction
    rw [ctrlReset_quiet (l := l.mapTP fun tp => { tp with phase := .idle }) hq]
    rfl
  rw [hexit]
  cases hdma : isDmaOp l.dev.cmdl.op with
  | true =>
    obtain ⟨mem, e, hout, hkept⟩ := dmaFinish_quiet (l := r) hq ha
    refine ⟨(leave { r with dev := r.dev.finished }).dev, mem, ?_, hout, hkept⟩
    rw [if_pos rfl, e, exitObs, if_pos hdma, List.cons_append, List.append_assoc]
    rfl
  | false =>
    refine ⟨(leave r).dev, l.mem, ?_, fun ⟨hop, _⟩ => ?_, fun _ => rfl⟩
    · rw [if_neg (by decide), exitObs, hdma]
      rfl
    · rw [hop] at hdma
      cases hdma

/-- Settles O16: only the copy-out stores, and the finish observes the unmapping exactly where the buffer itself was mapped. -/
theorem copyOutOnlyOnSuccess : Obligations.CopyOutOnlyOnSuccess := by
  unfold Obligations.CopyOutOnlyOnSuccess
  intro s d rest hagenda hd _ hq hen hseq hb c
  obtain ⟨v, mem, hexit, hout, hkept⟩ := exitTransaction_quiet (l := s.ctx s.cur d) hq
    fun hop => hb.2 (congrArg isReadOp hop)
  have hstep : seqStep (s.ctx s.cur d) =
      .next { s.ctx s.cur d with dev := v, mem := mem, trace := exitObs s.cur d ++ s.trace } := by
    unfold seqStep
    rw [show (s.ctx s.cur d).dev.seq = .s11 from hseq]
    exact hexit
  refine ⟨_, step_seq_become hagenda hd hen hstep, hout, hkept, fun hdma => ?_⟩
  show _ ∈ exitObs s.cur d ++ s.trace ↔ _
  cases hu : d.map.useScratch <;> simp [exitObs, unmapping, hu, show isDmaOp d.cmdl.op = true from hdma, c]

end Sys2Proof.Machine
end

section
/-! PROOFS. R22, R114, R286: every step keeps the control invariant, and a step whose move is a command executes it. -/

namespace Sys2Proof.Machine

/-- Settles O52: the moves of every agent keep the control invariant, and so does whatever falls between their accesses. -/
theorem stepKeepsControlInvariant : Obligations.StepKeepsControlInvariant := by
  unfold Obligations.StepKeepsControlInvariant
  exact fun _ _ h e => step_keeps_controlInv h e

/-- A waiting host's command changes nothing (R286). -/
theorem commandPort_waiting {h : Nat} {s : State} (hwait : waiting h s.devs = true) (ws : List Word) :
    commandPort h ws s = .next s := if_pos hwait

/-- A free host's command is executed for it (R114). -/
theorem commandPort_free {h : Nat} {ws : List Word} {s : State} {i : Instr} (hfree : waiting h s.devs = false)
    (hi : decode ⟨.cmd, ws⟩ = .ok i) : commandPort h ws s = exec i { s with host := h } := by
  rw [commandPort, hfree, if_neg Bool.false_ne_true, hi]

/-- Settles O5: the step is the command port's, which executes what the descriptor decodes to unless the host waits. -/
theorem stepRunsDecodedCommand : Obligations.StepRunsDecodedCommand := by
  unfold Obligations.StepRunsDecodedCommand
  intro s h ws rest i hagenda hi
  rw [step_cons hagenda]
  exact ⟨fun hfree => commandPort_free (s := { s with agenda := rest }) hfree hi,
    fun hwait => commandPort_waiting (s := { s with agenda := rest }) hwait ws⟩

end Sys2Proof.Machine
end

section
/-! PROOFS. R280 to R283, R39 to R41, R78, R86, R261, R271: the moves of the bus engine and of the DMA engine as steps of the
machine. -/

namespace Sys2Proof.Machine

/-! ### From the instance in hand to the machine -/

section
variable {s : State} {d : Device} {f : Ctx → Ctx} (hd : s.InHand d)
include hd

theorem envOn_inHand : envOn s.cur f s = .next (s.putCtx (f (s.ctx s.cur d))) :=
  (moveOn_some hd).trans (onInstanceDo_inHand hd f)

/-- What a move of an environment agent makes of its instance, of host memory and of the trace, the machine becomes. -/
theorem envOn_become {v : Device} {mem : Memory} {obs : List Obs}
    (hf : f (s.ctx s.cur d) = { s.ctx s.cur d with dev := v, mem := mem, trace := obs ++ s.trace }) :
    envOn s.cur f s = .next (s.become v mem obs) := by
  rw [envOn_inHand hd, hf, State.putCtx_become hd]

/-- A move of an environment agent that changes nothing of its instance changes nothing of the machine. -/
theorem envOn_idle (hf : f (s.ctx s.cur d) = s.ctx s.cur d) : envOn s.cur f s = .next s :=
  moveOn_idle hd (congrArg Res.next hf)

/-- A move of an environment agent completes, and its instance is then what the move has made of it. -/
theorem envOn_completes (hf : EnvFrame (s.ctx s.cur d) (f (s.ctx s.cur d))) :
    ∃ t : State, envOn s.cur f s = .next t ∧ t.devs[s.cur]? = some (f (s.ctx s.cur d)).dev ∧
      t.mem = (f (s.ctx s.cur d)).mem := by
  have hid : (f (s.ctx s.cur d)).id = s.cur := hf.id
  have hplaced : (f (s.ctx s.cur d)).Placed := hf.before.trans ((State.ctx_placed hd).trans hf.id.symm)
  have hself := State.putCtx_getElem? (s := s) hplaced
  rw [hid] at hself
  exact ⟨_, envOn_inHand hd, hself, rfl⟩

end

/-! ### The bus engine -/

/-- The bit of one word-slot. -/
theorem slotBit_getLsbD (i j : Slot) : (1#8 <<< i.val).getLsbD j.val = decide (j = i) := by
  revert i j; decide

section
variable (i : Slot) (w : Word) (mb : MBlock)

theorem deliverWord_data_self : (deliverWord i w mb).data[i] = w := by simp [deliverWord]

theorem deliverWord_data_other {j : Slot} (h : j ≠ i) : (deliverWord i w mb).data[j] = mb.data[j] := by
  have hij : i.val ≠ j.val := fun e => h (Fin.ext e.symm)
  simp [deliverWord, hij]

/-- The slot's overflow bit is set where its flag still stands (R40). -/
theorem deliverWord_ovf (j : Slot) :
    (deliverWord i w mb).ovf.getLsbD j.val = (mb.ovf.getLsbD j.val || (decide (j = i) && mb.rdflag.getLsbD i.val)) := by
  unfold deliverWord
  dsimp only
  split
  · rename_i h; rw [BitVec.getLsbD_or, slotBit_getLsbD, h, Bool.and_true]
  · rename_i h; rw [Bool.eq_false_iff.mpr h, Bool.and_false, Bool.or_false]

/-- The slot's flag is set where its strobe is released (R41). -/
theorem completeSlot_rdflag (j : Slot) :
    (completeSlot i mb).rdflag.getLsbD j.val =
      (mb.rdflag.getLsbD j.val || (decide (j = i) && !mb.rdfclr.getLsbD i.val)) := by
  have hbit : (completeSlot i mb).rdflag.getLsbD j.val =
      (mb.rdflag.getLsbD j.val || (decide (j = i) && !mb.rdfclr.getLsbD j.val)) := by
    simp only [completeSlot, BitVec.getLsbD_or, BitVec.getLsbD_and, BitVec.getLsbD_not, slotBit_getLsbD, j.isLt,
      decide_true, Bool.true_and]
  rw [hbit]
  by_cases h : j = i
  · rw [h]
  · simp [h]

end

/-- A move of a running bus engine is its effect on the registers, with the line's new level latched (R281, R31). -/
theorem step_be_become {s : State} {d v : Device} {m : BeMove} {rest : List Move} (hagenda : s.agenda = .be s.cur m :: rest)
    (hd : s.InHand d) (hs : d.Settled s.params) (ha : d.beActive = true) (hv : v = { d with mb := beEffect m d.mb }) :
    step s =
      .next ({ s with agenda := rest }.become { v with irqPend := d.irqPend || irqLevel s.params v } s.mem []) := by
  have hmove : beMove s.params m d = { v with irqPend := d.irqPend || irqLevel s.params v } := by
    rw [beMove, if_pos ha, ← hv]
    exact latch_settled hs (hv ▸ hs.1) (by rw [hv])
  rw [step_cons hagenda]
  exact envOn_become (s := { s with agenda := rest }) hd
    (congrArg (fun v : Device => { s.ctx s.cur d with dev := v }) hmove)

/-- Settles O47: each move has its effect on the registers, said bit by bit and slot by slot. -/
theorem busEngineMoves : Obligations.BusEngineMoves := by
  unfold Obligations.BusEngineMoves
  intro s d m rest hagenda hd hs ha
  refine ⟨{ d with mb := beEffect m d.mb }, step_be_become hagenda hd hs ha rfl, ?_⟩
  cases m with
  | set mask => rfl
  | fill i w =>
    by_cases hrw : d.mb.ctrl.rw = true
    · have heffect : beEffect (.fill i w) d.mb = completeSlot i (deliverWord i w d.mb) := if_pos hrw
      simp only [if_pos hrw, heffect]
      exact ⟨deliverWord_data_self i w d.mb, fun j hj => deliverWord_data_other i w d.mb hj,
        completeSlot_rdflag i (deliverWord i w d.mb), deliverWord_ovf i w d.mb, rfl⟩
    · have heffect : beEffect (.fill i w) d.mb = d.mb := if_neg hrw
      simp only [if_neg hrw, heffect]
  | partialFill i w =>
    by_cases hrw : d.mb.ctrl.rw = true
    · have heffect : beEffect (.partialFill i w) d.mb = deliverWord i w d.mb := if_pos hrw
      simp only [if_pos hrw, heffect]
      exact ⟨deliverWord_data_self i w d.mb, fun j hj => deliverWord_data_other i w d.mb hj,
        deliverWord_ovf i w d.mb, rfl⟩
    · have heffect : beEffect (.partialFill i w) d.mb = d.mb := if_neg hrw
      simp only [if_neg hrw, heffect]
  | take i => rfl

/-! ### The DMA engine -/

/-- With `D_ADDR` at the mapped address, `D_ADDR + i` names byte `i` of the mapped buffer or of the scratch buffer (log 25). -/
theorem resolve_mapped {d : Device} {i : Nat} (hv : d.map.valid = true) (ha : d.db.addr = d.map.devAddr)
    (hi : i < (cmdLen d.cmdl).toNat) :
    (d.map.useScratch = false → resolve d i = some (.host ((cmdBuf d.cmdl).toNat + i))) ∧
    (d.map.useScratch = true → i < 65535 → resolve d i = some (.scratch i)) := by
  have hoff : d.map.devAddr.toNat + i - d.map.devAddr.toNat = i := Nat.add_sub_cancel_left _ _
  have hcond : d.map.valid = true ∧ d.map.devAddr.toNat ≤ d.map.devAddr.toNat + i ∧ i < (cmdLen d.cmdl).toNat :=
    ⟨hv, Nat.le_add_right _ _, hi⟩
  refine ⟨fun hu => ?_, fun hu hs => ?_⟩ <;> simp only [resolve, ha, hoff]
  · rw [if_pos hcond, hu, if_neg Bool.false_ne_true]
  · rw [if_pos hcond, if_pos hu, if_pos hs]

section
variable {i : BitVec 16} {b : Byte} {l : Ctx}

/-- `READ` is no move of direction 1, nor from `D_LEN` on. -/
theorem deMove_read_idle (h : l.dev.db.dir = true ∨ l.dev.db.len.toNat ≤ i.toNat) : deMove (.read i) l = l := by
  rcases h with h | h <;> simp [deMove, h]

/-- `WRITE` is no move of direction 0, nor from `D_LEN` on. -/
theorem deMove_write_idle (h : l.dev.db.dir = false ∨ l.dev.db.len.toNat ≤ i.toNat) : deMove (.write i b) l = l := by
  rcases h with h | h <;> simp [deMove, h]

theorem deMove_mb (m : DeMove) (l : Ctx) : (deMove m l).dev.mb = l.dev.mb := by
  rcases deMove_cases m l with h | ⟨-, -, ⟨_, -, h⟩ | ⟨_, _, -, -, -, h⟩ | ⟨_, _, _, -, -, -, -, -, h⟩ |
    ⟨_, _, _, -, -, -, -, h⟩ | ⟨_, _, -, -, -, -, h⟩⟩ <;> rw [h] <;> rfl

variable (ha : l.dev.deActive = true) (hs : l.dev.stuck.de = false)
include ha hs

theorem deMove_set (mask : BitVec 6) :
    deMove (.set mask) l =
      { l with
        dev := latch l.params l.dev { l.dev with db := { l.dev.db with status := l.dev.db.status ||| mask } } } := by
  simp [deMove, ha, hs]

theorem deMove_read (hdir : l.dev.db.dir = false) (hi : i.toNat < l.dev.db.len.toNat) : deMove (.read i) l = deRead i l := by
  simp [deMove, ha, hs, hdir, hi]

theorem deMove_write (hdir : l.dev.db.dir = true) (hi : i.toNat < l.dev.db.len.toNat) :
    deMove (.write i b) l = deWrite i b l := by
  simp [deMove, ha, hs, hdir, hi]

end

section
variable {i : BitVec 16} {b : Byte} {l : Ctx} {a j : Nat}

/-- The device sees the byte named. -/
theorem deRead_host (hr : resolve l.dev i.toNat = some (.host a)) (hb : cellRead l.mem a = some b) :
    deRead i l = { l with trace := .fetched l.id i b :: l.trace } := by
  simp only [deRead, hr, hb]

theorem deRead_missing (hr : resolve l.dev i.toNat = some (.host a)) (hm : cellRead l.mem a = none) :
    deRead i l = haltEngine l := by
  simp only [deRead, hr, hm]

theorem deRead_scratch (hr : resolve l.dev i.toNat = some (.scratch j)) :
    deRead i l = { l with trace := .fetched l.id i (scratchRead l j) :: l.trace } := by
  simp only [deRead, hr]

/-- The byte is stored at once (R86). -/
theorem deWrite_host (hr : resolve l.dev i.toNat = some (.host a)) (ha : (cellRead l.mem a).isSome = true) :
    deWrite i b l = { l with mem := cellWrite l.mem a b } := by
  simp only [deWrite, hr, memStore_eq_some.mpr ⟨ha, rfl⟩]

theorem deWrite_missing (hr : resolve l.dev i.toNat = some (.host a)) (hm : cellRead l.mem a = none) :
    deWrite i b l = haltEngine l := by
  simp only [deWrite, hr, memStore, hm]

theorem deWrite_scratch (hr : resolve l.dev i.toNat = some (.scratch j)) :
    deWrite i b l = { l with dev := { l.dev with scratch := cellWrite l.dev.scratch j b } } := by
  simp only [deWrite, hr]
  rfl

end

/-- What a move of the DMA engine makes of its instance, of host memory and of the trace, the machine becomes. -/
theorem step_de_become {s : State} {d v : Device} {m : DeMove} {mem : Memory} {obs : List Obs} {rest : List Move}
    (hagenda : s.agenda = .de s.cur m :: rest) (hd : s.InHand d)
    (hf : deMove m (s.ctx s.cur d) = { s.ctx s.cur d with dev := v, mem := mem, trace := obs ++ s.trace }) :
    step s = .next ({ s with agenda := rest }.become v mem obs) := by
  rw [step_cons hagenda]
  exact envOn_become (s := { s with agenda := rest }) hd hf

/-- A move of the DMA engine that changes nothing. -/
theorem step_de_idle {s : State} {d : Device} {m : DeMove} {rest : List Move} (hagenda : s.agenda = .de s.cur m :: rest)
    (hd : s.InHand d) (hf : deMove m (s.ctx s.cur d) = s.ctx s.cur d) : step s = .next { s with agenda := rest } := by
  rw [step_cons hagenda]
  exact envOn_idle (s := { s with agenda := rest }) hd hf

/-- Settles O48: a move in the engine's direction and below `D_LEN` reaches the byte its address names. -/
theorem dmaEngineMoves : Obligations.DmaEngineMoves := by
  unfold Obligations.DmaEngineMoves
  intro s d m rest hagenda hd hs ha hde s' stuck mapped
  have hhost : ∀ {i}, mapped i → d.map.useScratch = false →
      resolve d i.toNat = some (.host ((cmdBuf d.cmdl).toNat + i.toNat)) := fun ⟨hi, hv, haddr, hlen⟩ =>
    (resolve_mapped hv haddr (hi.trans_le hlen)).1
  have hscratch : ∀ {i}, mapped i → d.map.useScratch = true → i.toNat < 65535 →
      resolve d i.toNat = some (.scratch i.toNat) := fun ⟨hi, hv, haddr, hlen⟩ =>
    (resolve_mapped hv haddr (hi.trans_le hlen)).2
  refine ⟨?_, ?_, ?_, ?_, ?_⟩
  · rintro mask rfl v
    have hlatch : latch s.params d v = { v with irqPend := d.irqPend || irqLevel s.params v } :=
      latch_settled hs hs.1 rfl
    exact step_de_become (obs := []) hagenda hd
      ((deMove_set (l := s.ctx s.cur d) ha hde mask).trans
        (congrArg (fun v : Device => { s.ctx s.cur d with dev := v }) hlatch))
  · rintro i rfl hdir hmap
    have hread := deMove_read (l := s.ctx s.cur d) ha hde hdir hmap.1
    refine ⟨fun hu o ho => ?_, fun hu hi => ?_⟩
    · cases o with
      | some b => exact step_de_become (obs := [_]) hagenda hd (hread.trans (deRead_host (hhost hmap hu) ho))
      | none => exact step_de_become (obs := []) hagenda hd (hread.trans (deRead_missing (hhost hmap hu) ho))
    · exact step_de_become (obs := [_]) hagenda hd (hread.trans (deRead_scratch (hscratch hmap hu hi)))
  · rintro i b rfl hdir hmap
    have hwrite := deMove_write (l := s.ctx s.cur d) (b := b) ha hde hdir hmap.1
    refine ⟨fun hu hsome => ?_, fun hu hnone => ?_, fun hu hi => ?_⟩
    · exact ⟨_, step_de_become (obs := []) hagenda hd (hwrite.trans (deWrite_host (hhost hmap hu) hsome)),
        fun a => cellRead_cellWrite _ _ _ _⟩
    · exact step_de_become (obs := []) hagenda hd (hwrite.trans (deWrite_missing (hhost hmap hu) hnone))
    · exact ⟨_, step_de_become (obs := []) hagenda hd (hwrite.trans (deWrite_scratch (hscratch hmap hu hi))),
        fun k => cellRead_cellWrite _ _ _ _⟩
  · rintro i b hi (rfl | rfl)
    · exact step_de_idle hagenda hd (deMove_read_idle (.inr hi))
    · exact step_de_idle hagenda hd (deMove_write_idle (.inr hi))
  · rintro i b (⟨rfl, hdir⟩ | ⟨rfl, hdir⟩)
    · exact step_de_idle hagenda hd (deMove_read_idle (.inl hdir))
    · exact step_de_idle hagenda hd (deMove_write_idle (.inl hdir))

/-! ### Both engines -/

/-- Settles O49: a stopped engine's guard is closed, and the frame of its moves holds from every state. -/
theorem enginesStayInTheirLane : Obligations.EnginesStayInTheirLane := by
  unfold Obligations.EnginesStayInTheirLane
  intro s d rest hd
  have hd' : ({ s with agenda := rest } : State).InHand d := hd
  refine ⟨fun m hagenda => ?_, fun m hagenda => ?_⟩ <;> rw [step_cons hagenda]
  · refine ⟨fun h => envOn_idle hd' ?_, ?_⟩
    · exact congrArg (fun v : Device => { s.ctx s.cur d with dev := v }) (beMove_inactive h)
    obtain ⟨t, e, hv, hmem⟩ := envOn_completes hd' (beMove_frame m _)
    exact ⟨t, _, e, hv, beMove_sameProgramme s.params m d, hmem⟩
  · refine ⟨fun h => envOn_idle hd' (deMove_inactive h), ?_⟩
    obtain ⟨t, e, hv, -⟩ := envOn_completes hd' (deMove_frame m _)
    exact ⟨t, _, e, hv, (deMove_frame m (s.ctx s.cur d)).programme, deMove_mb m (s.ctx s.cur d)⟩

end Sys2Proof.Machine
end

section
/-! PROOFS. R220 to R222, R224, R239, R240, R243: one handler run with nothing between its accesses. It reads the flags, takes the one
arm the chains select, reads the DMA status, and returns. -/

namespace Sys2Proof.Machine

/-! ### Reading the flags, I0 to I4 -/

/-- The context whose instance has become `v`, with the given host memory and further observations, latest first. -/
def Ctx.become (v : Device) (mem : Memory) (obs : List Obs) (l : Ctx) : Ctx :=
  { l with dev := v, mem := mem, trace := obs ++ l.trace }

/-- The instance in a run that has decoded its eight flags and cleared the status (R221, R222). -/
def Device.flagsRead (d : Device) : Device :=
  { d with
    irqPend := false
    iepRun := true
    tp := { d.tp with irq := irqOfStatus d.mb.status { d.tp.irq with rdOverflow := d.mb.ovf != 0 } }
    mb := { d.mb with status := 0, stclr := 0 } }

/-- The context at I5. -/
def Ctx.flagsRead (l : Ctx) : Ctx :=
  l.become l.dev.flagsRead l.mem [.wrote l.id .mStclr 0, .wrote l.id .mStclr 0x7F]

/-- In a run the latch rule asks nothing. -/
theorem Device.latched_of_run {p : Config.Params} {d : Device} (h : d.iepRun = true) : d.Latched p :=
  fun h' => absurd (h.symm.trans h') (by simp)

theorem handlerStatus_quiet {l : Ctx} (hq : l.dev.inter = []) : handlerStatus l = l.flagsRead := by
  have hclear : l.dev.mb.status &&& ~~~(0x7F : BitVec 7) = 0 := BitVec.and_zero
  have hovf : (l.dev.mb.ovf.setWidth 32 != (0 : Word)) = (l.dev.mb.ovf != 0) := by
    rw [Bool.eq_iff_iff, bne_iff_ne, bne_iff_ne, ne_eq, ne_eq, not_iff_not]
    exact ⟨fun h => by bv_omega, fun h => by rw [h]; rfl⟩
  unfold handlerStatus
  simp only
  rw [statusGet_quiet (l := handlerEnter l) hq, statusClear_quiet (l := handlerEnter l) hq (Device.latched_of_run rfl),
    ovfGet_quiet (by exact hq)]
  simp only [handlerEnter, Ctx.mapDev_dev, hclear, setIrq, Ctx.mapTP_dev, hovf]
  rfl

/-! ### The DMA status and the return, I6 to I9 -/

/-- The instance with its DMA status recorded and cleared (R239). -/
def Device.dmaRead (d : Device) : Device :=
  { d with tp := { d.tp with dma := dmaOfStatus d.db.status }, db := { d.db with status := 0 } }

/-- Success, signalled (R226, R237, R240). -/
def Device.succeeded (d : Device) : Device := { d with tp := { d.tp with result := .success }, sig := true }

/-- The DMA done flag stands, before the signal and in a DMA phase (R240). -/
def Device.dmaSucceeds (d : Device) : Bool := d.db.status.getLsbD 0 && (!d.sig && d.tp.phase.isDma)

/-- The instance after the DMA flags have been acted on. -/
def Device.dmaHandled (d : Device) : Device := if d.dmaSucceeds then d.dmaRead.succeeded else d.dmaRead

/-- The instance after the return: a line still high is pending (R243). -/
def Device.returned (p : Config.Params) (d : Device) : Device := latch p d.dmaHandled { d.dmaHandled with iepRun := false }

/-- Setting a flag that is set changes nothing. -/
theorem setIrq_of_set {f : IrqFlags → IrqFlags} {l : Ctx} (h : f l.dev.tp.irq = l.dev.tp.irq) : setIrq f l = l := by
  show ({ l with dev := { l.dev with tp := { l.dev.tp with irq := f l.dev.tp.irq } } } : Ctx) = l
  rw [h]

theorem setDma_of_set {f : DmaFlags → DmaFlags} {l : Ctx} (h : f l.dev.tp.dma = l.dev.tp.dma) : setDma f l = l := by
  show ({ l with dev := { l.dev with tp := { l.dev.tp with dma := f l.dev.tp.dma } } } : Ctx) = l
  rw [h]

theorem handlerDma_quiet {l : Ctx} (hq : l.dev.inter = []) (hrun : l.dev.iepRun = true) :
    handlerDma l =
      l.become (l.dev.returned l.params) l.mem [.wrote l.id .dStatus (l.dev.db.status.setWidth 32)] := by
  let m : Ctx := l.become l.dev.dmaRead l.mem [.wrote l.id .dStatus (l.dev.db.status.setWidth 32)]
  have hact : (if m.dev.tp.dma.done then evDmaDone m else m) = { m with dev := l.dev.dmaHandled } := by
    have hdone : m.dev.tp.dma.done = l.dev.db.status.getLsbD 0 := rfl
    rw [Device.dmaHandled, Device.dmaSucceeds, hdone]
    cases hst : l.dev.db.status.getLsbD 0 with
    | false => rfl
    | true =>
      have hset : setDma (fun f => { f with done := true }) m = m := setDma_of_set (by rw [← hst]; rfl)
      rw [if_pos rfl, evDmaDone, hset, Bool.true_and]
      show (if (!l.dev.sig && l.dev.tp.phase.isDma) = true then succeed m else m) = _
      split_ifs <;> rfl
  have hrun : handlerDma l = handlerReturn (if m.dev.tp.dma.done then evDmaDone m else m) := by
    unfold handlerDma
    rw [dmaStatusGetclr_quiet hq (Device.latched_of_run hrun)]
    rfl
  rw [hrun, hact]
  rfl

section
variable (p : Config.Params) (d : Device)

theorem Device.returned_phase : (d.returned p).tp.phase = d.tp.phase := by
  simp only [returned, dmaHandled, latch_tp]; split_ifs <;> rfl

theorem Device.returned_busy : (d.returned p).tp.busy = d.tp.busy := by
  simp only [returned, dmaHandled, latch_tp]; split_ifs <;> rfl

theorem Device.returned_dma : (d.returned p).tp.dma = dmaOfStatus d.db.status := by
  simp only [returned, dmaHandled, latch_tp]; split_ifs <;> rfl

theorem Device.returned_mb : (d.returned p).mb = d.mb := by
  simp only [returned, dmaHandled, latch_mb]; split_ifs <;> rfl

theorem Device.returned_db : (d.returned p).db = { d.db with status := 0 } := by
  simp only [returned, dmaHandled, latch_db]; split_ifs <;> rfl

/-- The result and the signal at the end of a run: only a bare DMA done flag still decides. -/
theorem Device.returned_result_sig :
    if d.dmaSucceeds = true then (d.returned p).tp.result = .success ∧ (d.returned p).sig = true
    else (d.returned p).tp.result = d.tp.result ∧ (d.returned p).sig = d.sig := by
  simp only [returned, dmaHandled, latch_tp, latch_sig]; split_ifs <;> exact ⟨rfl, rfl⟩

end

/-- Once signalled, a run's end leaves result and signal. -/
theorem Device.returned_signalled (p : Config.Params) {d : Device} (h : d.sig = true) :
    (d.returned p).tp.result = d.tp.result ∧ (d.returned p).sig = true := by
  have hend := d.returned_result_sig p
  have hno : d.dmaSucceeds = false := by simp [dmaSucceeds, h]
  rwa [if_neg (by simp [hno]), h] at hend

/-! ### The dispatch, I5 -/

/-- An arm is selected by its own flag. -/
def Arm.FlaggedBy (f : IrqFlags) : Arm → Prop
  | .done => f.activeDone = true
  | .nack => f.addrNack = true ∨ f.dataNack = true
  | .sclHold => f.sclHold = true
  | .fifoEmpty => f.fifoEmpty = true
  | .overflow => f.rdOverflow = true
  | .none | .refill | .deliver => True

theorem writeArm_flaggedBy (tp : TP) : (writeArm tp).FlaggedBy tp.irq := by
  unfold writeArm
  split_ifs with hdone hnack hscl hfifo
  exacts [hdone, Bool.or_eq_true_iff.mp hnack, hscl, hfifo, trivial, trivial]

theorem readArm_flaggedBy (tp : TP) : (readArm tp).FlaggedBy tp.irq := by
  unfold readArm
  split_ifs with hnack hscl hovf
  exacts [Bool.or_eq_true_iff.mp hnack, hscl, hovf, trivial]

theorem dispatchArm_flaggedBy {d : Device} {a : Arm} (h : dispatchArm d = a) : a.FlaggedBy d.tp.irq := by
  rw [← h]
  rcases dispatchArm_cases d with e | ⟨-, -, e⟩ | ⟨-, -, e⟩ <;> rw [e]
  exacts [trivial, writeArm_flaggedBy _, readArm_flaggedBy _]

section
variable {l : Ctx}

theorem dispatch_none (h : dispatchArm l.dev = .none) : dispatch l = .next l := by simp only [dispatch, h]

theorem dispatch_done (h : dispatchArm l.dev = .done) : dispatch l = .next (succeed l) := by
  have hflag : l.dev.tp.irq.activeDone = true := dispatchArm_flaggedBy h
  have hset : setIrq (fun f => { f with activeDone := true }) l = l := setIrq_of_set (by rw [← hflag])
  simp only [dispatch, h, evActiveDone, hset]

theorem dispatch_nack (h : dispatchArm l.dev = .nack) : dispatch l = .next (terminate .remoteNack l) := by
  have hflag : l.dev.tp.irq.addrNack = true ∨ l.dev.tp.irq.dataNack = true := dispatchArm_flaggedBy h
  simp only [dispatch, h]
  by_cases haddr : l.dev.tp.irq.addrNack = true
  · have hset : setIrq (fun f => { f with addrNack := true }) l = l := setIrq_of_set (by rw [← haddr])
    rw [if_pos haddr, evAddrNack_acting (by rw [hset, h]), hset]
  · have hset : setIrq (fun f => { f with dataNack := true }) l = l := setIrq_of_set (by rw [← hflag.resolve_left haddr])
    rw [if_neg haddr, evDataNack_acting (by rw [hset, h]), hset]

theorem dispatch_sclHold (h : dispatchArm l.dev = .sclHold) : dispatch l = .next (terminate .clockHeldTooLong l) := by
  have hflag : l.dev.tp.irq.sclHold = true := dispatchArm_flaggedBy h
  have hset : setIrq (fun f => { f with sclHold := true }) l = l := setIrq_of_set (by rw [← hflag])
  simp only [dispatch, h]
  rw [evSclHold_acting (by rw [hset, h]), hset]

theorem dispatch_fifoEmpty (h : dispatchArm l.dev = .fifoEmpty) : dispatch l = .next (terminate .fifoEmpty l) := by
  have hflag : l.dev.tp.irq.fifoEmpty = true := dispatchArm_flaggedBy h
  have hset : setIrq (fun f => { f with fifoEmpty := true }) l = l := setIrq_of_set (by rw [← hflag])
  simp only [dispatch, h]
  rw [evFifoEmpty_acting (by rw [hset, h]), hset]

theorem dispatch_overflow (h : dispatchArm l.dev = .overflow) : dispatch l = .next (terminate .readOverflow l) := by
  have hflag : l.dev.tp.irq.rdOverflow = true := dispatchArm_flaggedBy h
  have hset : setIrq (fun f => { f with rdOverflow := true }) l = l := setIrq_of_set (by rw [← hflag])
  simp only [dispatch, h]
  rw [evRdOverflow_acting (by rw [hset, h]), hset]

end

/-! ### Arms that leave the result open -/

/-- The dispatch has changed nothing of what decides the end of the run, `v` being the instance after it. -/
structure Device.Undecided (d v : Device) : Prop where
  inter : v.inter = d.inter := by rfl
  run : v.iepRun = d.iepRun := by rfl
  phase : v.tp.phase = d.tp.phase := by rfl
  busy : v.tp.busy = d.tp.busy := by rfl
  result : v.tp.result = d.tp.result := by rfl
  sig : v.sig = d.sig := by rfl
  db : v.db = d.db := by rfl

/-- A run that has decided nothing leaves the decision to a bare DMA done flag (R240). -/
theorem Device.Undecided.returned {d v : Device} (h : d.Undecided v) (p : Config.Params) (hs : d.sig = false) :
    if d.tp.phase.isDma = true ∧ d.db.status.getLsbD 0 = true then
      (v.returned p).tp.result = .success ∧ (v.returned p).sig = true
    else (v.returned p).tp.result = d.tp.result ∧ (v.returned p).sig = false := by
  have hdone : v.dmaSucceeds = true ↔ d.tp.phase.isDma = true ∧ d.db.status.getLsbD 0 = true := by
    simp [dmaSucceeds, h.db, h.sig, h.phase, hs, and_comm]
  have hend := v.returned_result_sig p
  rw [h.result, h.sig, hs] at hend
  exact (if_congr hdone rfl rfl).mp hend

section
variable {l : Ctx} (hq : l.dev.inter = []) (hrun : l.dev.iepRun = true)
include hq hrun

/-- No arm decides nothing, and neither does the refill, which moves units (R230). -/
theorem dispatch_undecided (h : dispatchArm l.dev = .none ∨ dispatchArm l.dev = .refill)
    (hroom : l.dev.tp.dataOff.toNat ≤ 65536) (ha : Allocated l.mem l.dev.tp.buf.toNat l.dev.tp.totalLen.toNat) :
    ∃ (v : Device) (obs : List Obs), dispatch l = .next (l.become v l.mem obs) ∧ l.dev.Undecided v := by
  rcases h with h | h
  · exact ⟨l.dev, [], dispatch_none h, {}⟩
  obtain ⟨-, -, hc⟩ := dispatchArm_refill h
  simp only [dispatch, h]
  split_ifs with hflag
  · have hset : setIrq (fun f => { f with emptyThreshold := true }) l = l := setIrq_of_set (by rw [← hflag])
    obtain ⟨data, obs, e, -⟩ := refillUnits_allocated (k := 4) (by decide) hq (Device.latched_of_run hrun) hc
      (by omega) ha
    simp only [evEmptyThreshold, hset, h]
    rw [refill, e, andThen_next, statusClear_quiet (by exact hq) (by exact Device.latched_of_run hrun)]
    exact ⟨_, .wrote l.id .mStclr 0 :: .wrote l.id .mStclr 0x08 :: obs, rfl, {}⟩
  · exact ⟨l.dev, [], rfl, {}⟩

/-- The drain delivers some units, as many as are left at most (R236). -/
theorem evBurstSlot_drains (h : dispatchArm l.dev = .deliver)
    (hroom : l.dev.tp.dataOff.toNat + 4 * burstWords l.params.burst16 * l.dev.tp.burstCnt.toNat < 2 ^ 32)
    (ha : Allocated l.mem (l.dev.tp.buf.toNat + l.dev.tp.dataOff.toNat)
      (4 * burstWords l.params.burst16 * l.dev.tp.burstCnt.toNat)) :
    ∃ n, n ≤ l.dev.tp.burstCnt.toNat ∧ Drains n l (evBurstSlot l) := by
  simp only [evBurstSlot, h]
  split_ifs with hc
  · let b := burstWords l.params.burst16
    let n := min l.dev.tp.burstCnt.toNat (readySlots l.params.burst16 l.dev.mb.rdflag (8 / b) l.dev.tp.regIdx)
    have hn : n ≤ l.dev.tp.burstCnt.toNat := Nat.min_le_left _ _
    have hle : 4 * b * n ≤ 4 * b * l.dev.tp.burstCnt.toNat := Nat.mul_le_mul_left _ hn
    have hring : 8 / b * b = 8 := by simp only [b]; cases l.params.burst16 <;> rfl
    rw [burstDrain, rdflagGet_quiet hq]
    exact ⟨n, hn, drainSlots_allocated hq (Device.latched_of_run hrun) (Nat.div_le_self 8 b) hring.le (fun _ => .inl hring)
      rfl (lt_of_le_of_lt (Nat.add_le_add_left hle _) hroom) (ha.mono le_rfl (Nat.add_le_add_left hle _))⟩
  · exact ⟨0, Nat.zero_le _, drains_none rfl rfl⟩

/-- The drain, and with active-done the finish, whose bytes are allocated: success exactly with active-done (R236, R237). -/
theorem dispatch_deliver (h : dispatchArm l.dev = .deliver)
    (hroom : l.dev.tp.dataOff.toNat + 4 * burstWords l.params.burst16 * l.dev.tp.burstCnt.toNat + l.dev.tp.burstRem.toNat ≤
      l.dev.tp.totalLen.toNat)
    (ha : Allocated l.mem l.dev.tp.buf.toNat l.dev.tp.totalLen.toNat) :
    ∃ (v : Device) (mem : Memory) (obs : List Obs), l.dev.Undecided v ∧
      dispatch l = .next (l.become (if l.dev.tp.irq.activeDone then v.succeeded else v) mem obs) := by
  obtain ⟨hsig, hp⟩ := dispatchArm_deliver h
  have hlen := l.dev.tp.totalLen.isLt
  obtain ⟨n, hn, mem, obs, e, hdel⟩ := evBurstSlot_drains hq hrun h (by omega) (ha.mono (by omega) (by omega))
  let m : Ctx := l.drained n mem obs
  have hle := Nat.mul_le_mul_left (4 * burstWords l.params.burst16) hn
  have hoff : m.dev.tp.dataOff.toNat = l.dev.tp.dataOff.toNat + 4 * burstWords l.params.burst16 * n := by
    simp only [m, Ctx.drained, Device.drained, BitVec.toNat_ofNat]
    omega
  simp only [dispatch, h, e, andThen_next]
  show ∃ v mem' obs', _ ∧ (if l.dev.tp.irq.activeDone = true then evActiveDone m else .next m) = _
  split_ifs with hdone
  · have harm : dispatchArm m.dev = .deliver := by
      rw [dispatchArm_read (d := m.dev) hsig hp]
      exact (dispatchArm_read hsig hp).symm.trans h
    have hset : setIrq (fun f => { f with activeDone := true }) m = m :=
      setIrq_of_set (by show _ = l.dev.tp.irq; rw [← hdone]; rfl)
    have hrem : Allocated m.mem (m.dev.tp.buf.toNat + m.dev.tp.dataOff.toNat) m.dev.tp.burstRem.toNat := by
      rw [hoff]
      exact (hdel.allocated ha).mono (Nat.le_add_right _ _) (by simp only [m, Ctx.drained, Device.drained]; omega)
    obtain ⟨mem', e', -⟩ := finishRead_allocated (l := m) hq hrem
    refine ⟨m.dev.advanced m.dev.tp.burstRem.toNat, mem', obs, {}, ?_⟩
    simp only [evActiveDone, hset, harm]
    exact e'
  · exact ⟨m.dev, mem, obs, {}, rfl⟩

end

/-- With no flag set and no burst slot complete a run acts on nothing. -/
theorem dispatch_clear {l : Ctx} (hq : l.dev.inter = []) (hf : l.dev.tp.irq = .zero) (hs : l.dev.mb.rdflag = 0) :
    dispatch l = .next l := by
  have hburst : evBurstSlot l = .next l := by
    unfold evBurstSlot
    split
    · split_ifs
      · rw [burstDrain, rdflagGet_quiet hq, hs]
        exact drainSlots_stop (slotDone_zero _ _)
      · rfl
    · rfl
  unfold dispatch
  rcases dispatchArm_clear hf with e | e | e <;> rw [e]
  · simp [hf, IrqFlags.zero]
  · simp [hburst, hf, IrqFlags.zero]

/-! ### The run as a step of the machine -/

/-- One handler run: what the dispatch made of the instance is returned (R220). -/
theorem step_irq_dispatched {s : State} {d v : Device} {mem : Memory} {obs : List Obs} {rest : List Move}
    (hagenda : s.agenda = .irq s.cur :: rest) (hd : s.InHand d) (hq : d.Quiet) (hen : handlerEnabled d = true)
    (hdisp : dispatch (s.ctx s.cur d).flagsRead = .next ((s.ctx s.cur d).flagsRead.become v mem obs))
    (hv : v.inter = []) (hrun : v.iepRun = true) :
    ∃ obs, step s = .next ({ s with agenda := rest }.become (v.returned s.params) mem obs) := by
  have hd' : ({ s with agenda := rest } : State).InHand d := hd
  have hmove : irqMove (s.ctx s.cur d) =
      .next { s.ctx s.cur d with
        dev := v.returned s.params, mem := mem,
        trace := (.wrote s.cur .dStatus (v.db.status.setWidth 32) ::
          (obs ++ [.wrote s.cur .mStclr 0, .wrote s.cur .mStclr 0x7F])) ++ s.trace } := by
    rw [irqMove, if_pos (by exact hen), handlerRun, handlerStatus_quiet (by exact hq), hdisp, andThen_next,
      handlerDma_quiet hv hrun, List.cons_append, List.append_assoc]
    rfl
  rw [step_cons hagenda, runMove, moveOn_some (s := { s with agenda := rest }) hd']
  exact ⟨_, onInstance_become_mem .iep hd' hmove⟩

section
variable {s : State} {d : Device} {rest : List Move} (hagenda : s.agenda = .irq s.cur :: rest) (hd : s.InHand d)
  (hq : d.Quiet) (hen : handlerEnabled d = true)
include hagenda hd hq hen

/-- A run that comes to the error procedure: the error is the result, and both blocks are zeroed, so that a DMA done flag of the
same reading is lost (R231, R314). -/
theorem step_irq_terminate {e : Result}
    (hdisp : dispatch (s.ctx s.cur d).flagsRead = .next (terminate e (s.ctx s.cur d).flagsRead)) :
    ∃ (t : State) (v : Device),
      step s = .next t ∧ t.devs[s.cur]? = some v ∧ v.tp.phase = d.tp.phase ∧ v.tp.busy = d.tp.busy ∧ t.mem = s.mem ∧
      v.tp.result = e ∧ v.sig = true ∧ v.mb = .zero ∧ v.db = .zero ∧ v.tp.dma = .zero := by
  rw [terminate_quiet (by exact hq)] at hdisp
  let v := d.flagsRead.terminated e
  obtain ⟨obs, hstep⟩ := step_irq_dispatched (v := v) (mem := s.mem) (obs := [_]) hagenda hd hq hen hdisp hq rfl
  obtain ⟨hresult, hsig⟩ := Device.returned_signalled s.params (d := v) rfl
  exact ⟨_, _, hstep, hd.become_getElem? _ s.mem obs, v.returned_phase _, v.returned_busy _, rfl, hresult, hsig,
    v.returned_mb _, v.returned_db _, (v.returned_dma _).trans (show dmaOfStatus 0 = .zero by decide)⟩

/-- A run that comes to success. -/
theorem step_irq_success {v : Device} {mem : Memory} {obs : List Obs} (hun : d.flagsRead.Undecided v)
    (hdisp : dispatch (s.ctx s.cur d).flagsRead = .next ((s.ctx s.cur d).flagsRead.become v.succeeded mem obs)) :
    ∃ (t : State) (w : Device),
      step s = .next t ∧ t.devs[s.cur]? = some w ∧ w.tp.phase = d.tp.phase ∧ w.tp.busy = d.tp.busy ∧ t.mem = mem ∧
      w.tp.result = .success ∧ w.sig = true := by
  obtain ⟨obs, hstep⟩ := step_irq_dispatched hagenda hd hq hen hdisp (hun.inter.trans hq) hun.run
  exact ⟨_, _, hstep, hd.become_getElem? _ mem obs, (v.succeeded.returned_phase _).trans hun.phase,
    (v.succeeded.returned_busy _).trans hun.busy, rfl, Device.returned_signalled s.params (d := v.succeeded) rfl⟩

/-- A run whose dispatch decides nothing before the signal: only a bare DMA done flag is success (R240). -/
theorem step_irq_undecided (hsig : d.sig = false) {v : Device} {mem : Memory} {obs : List Obs} (hun : d.flagsRead.Undecided v)
    (hdisp : dispatch (s.ctx s.cur d).flagsRead = .next ((s.ctx s.cur d).flagsRead.become v mem obs)) :
    ∃ (t : State) (w : Device),
      step s = .next t ∧ t.devs[s.cur]? = some w ∧ w.tp.phase = d.tp.phase ∧ w.tp.busy = d.tp.busy ∧ t.mem = mem ∧
      if d.tp.phase.isDma = true ∧ d.db.status.getLsbD 0 = true then w.tp.result = .success ∧ w.sig = true
      else w.tp.result = d.tp.result ∧ w.sig = false := by
  obtain ⟨obs, hstep⟩ := step_irq_dispatched hagenda hd hq hen hdisp (hun.inter.trans hq) hun.run
  exact ⟨_, _, hstep, hd.become_getElem? _ mem obs, (v.returned_phase _).trans hun.phase,
    (v.returned_busy _).trans hun.busy, rfl, hun.returned s.params hsig⟩

end

end Sys2Proof.Machine
end

section
/-! PROOFS. R225, R232, R240, R314, R318: what a whole handler run makes of the transaction, by the flags it read; and the late run,
which reads none. -/

namespace Sys2Proof.Machine

/-! ### The priority of the flags -/

theorem readArm_deliver {tp : TP} (h1 : tp.irq.addrNack = false) (h2 : tp.irq.dataNack = false)
    (h3 : tp.irq.sclHold = false) (h4 : tp.irq.rdOverflow = false) : readArm tp = .deliver := by
  simp [readArm, h1, h2, h3, h4]

theorem writeArm_undecided {tp : TP} (h0 : tp.irq.activeDone = false) (h1 : tp.irq.addrNack = false)
    (h2 : tp.irq.dataNack = false) (h3 : tp.irq.sclHold = false) (h4 : tp.irq.fifoEmpty = false) :
    writeArm tp = .none ∨ writeArm tp = .refill := by
  simp only [writeArm, h0, h1, h2, h3, h4, Bool.or_self, Bool.false_eq_true, if_false]
  split_ifs <;> simp

/-- Settles O28: the write chain on the decoded flags selects the arm, and the DMA done flag is looked at after it. -/
theorem writePhasePriority : Obligations.WritePhasePriority := by
  unfold Obligations.WritePhasePriority
  intro s d rest hagenda hd hq hen hsig hp hroom ha st
  let c := (s.ctx s.cur d).flagsRead
  have hdma : d.tp.phase = .dmaWrite ↔ d.tp.phase.isDma = true := by rcases hp with h | h <;> simp [h, Phase.isDma]
  split
  · next h0 =>
    exact step_irq_success (v := d.flagsRead) (obs := []) hagenda hd hq hen {}
      (dispatch_done (l := c) (dispatchArm_done hsig hp h0))
  rename_i h0
  rw [Bool.not_eq_true] at h0
  have hreach : c.dev.ErrorsReached := .inl ⟨hp, h0⟩
  split
  · next h1 =>
    exact step_irq_terminate hagenda hd hq hen (dispatch_nack (dispatchArm_nack hsig hreach (Bool.or_eq_true_iff.mp h1)))
  rename_i h1
  obtain ⟨h1, h2⟩ := Bool.or_eq_false_iff.mp (Bool.eq_false_iff.mpr h1)
  split
  · next h3 => exact step_irq_terminate hagenda hd hq hen (dispatch_sclHold (dispatchArm_sclHold hsig hreach h1 h2 h3))
  rename_i h3
  rw [Bool.not_eq_true] at h3
  split
  · next h4 =>
    exact step_irq_terminate hagenda hd hq hen (dispatch_fifoEmpty (dispatchArm_fifoEmpty hsig hp h0 h1 h2 h3 h4))
  rename_i h4
  rw [Bool.not_eq_true] at h4
  have harm : dispatchArm c.dev = .none ∨ dispatchArm c.dev = .refill := by
    rw [dispatchArm_write (d := c.dev) hsig hp]
    exact writeArm_undecided h0 h1 h2 h3 h4
  obtain ⟨v, obs, hdisp, hun⟩ := dispatch_undecided (l := c) hq rfl harm hroom ha
  have hend := step_irq_undecided hagenda hd hq hen hsig hun hdisp
  simp only [← hdma] at hend
  exact hend

/-- Settles O29: the read chain on the decoded flags selects the arm; without an error flag the delivery decides with active-done
only, and the DMA done flag is looked at after it. -/
theorem readPhasePriority : Obligations.ReadPhasePriority := by
  unfold Obligations.ReadPhasePriority
  intro s d rest hagenda hd hq hen hsig hp hroom ha st
  let c := (s.ctx s.cur d).flagsRead
  have hdma : d.tp.phase = .dmaRead ↔ d.tp.phase.isDma = true := by rcases hp with h | h <;> simp [h, Phase.isDma]
  have hreach : c.dev.ErrorsReached := .inr hp
  have hfail : ∀ {e : Result}, dispatch c = .next (terminate e c) →
      ∃ (t : State) (v : Device),
        step s = .next t ∧ t.devs[s.cur]? = some v ∧ v.tp.phase = d.tp.phase ∧ v.tp.busy = d.tp.busy ∧
        v.tp.result = e ∧ v.sig = true ∧ v.mb = .zero ∧ v.db = .zero ∧ v.tp.dma = .zero ∧ t.mem = s.mem := by
    intro e hdisp
    obtain ⟨t, v, hstep, hv, hphase, hbusy, hmem, hresult, hs, hmb, hdb, hclear⟩ :=
      step_irq_terminate hagenda hd hq hen hdisp
    exact ⟨t, v, hstep, hv, hphase, hbusy, hresult, hs, hmb, hdb, hclear, hmem⟩
  split
  · next h1 => exact hfail (dispatch_nack (dispatchArm_nack hsig hreach (Bool.or_eq_true_iff.mp h1)))
  rename_i h1
  obtain ⟨h1, h2⟩ := Bool.or_eq_false_iff.mp (Bool.eq_false_iff.mpr h1)
  split
  · next h3 => exact hfail (dispatch_sclHold (dispatchArm_sclHold hsig hreach h1 h2 h3))
  rename_i h3
  rw [Bool.not_eq_true] at h3
  split
  · next h4 => exact hfail (dispatch_overflow (dispatchArm_overflow hsig hp h1 h2 h3 (bne_iff_ne.mpr h4)))
  rename_i h4
  have hovf : c.dev.tp.irq.rdOverflow = false := bne_eq_false_iff_eq.mpr (not_not.mp h4)
  have harm : dispatchArm c.dev = .deliver := by
    rw [dispatchArm_read (d := c.dev) hsig hp]
    exact readArm_deliver h1 h2 h3 hovf
  rw [rdBurstBytes_eq] at hroom
  obtain ⟨v, mem, obs, hun, hdisp⟩ := dispatch_deliver (l := c) hq rfl harm hroom ha
  split
  · next h0 =>
    rw [if_pos (by exact h0)] at hdisp
    obtain ⟨t, w, hstep, hw, hphase, hbusy, -, hend⟩ := step_irq_success hagenda hd hq hen hun hdisp
    exact ⟨t, w, hstep, hw, hphase, hbusy, hend⟩
  · next h0 =>
    rw [if_neg (by exact h0)] at hdisp
    obtain ⟨t, w, hstep, hw, hphase, hbusy, -, hend⟩ := step_irq_undecided hagenda hd hq hen hsig hun hdisp
    exact ⟨t, w, hstep, hw, hphase, hbusy, by simpa only [hdma] using hend⟩

/-! ### The late run -/

section
variable {d : Device} (h : d.Silent)
include h

/-- With every status register clear the flags decoded are zero (R221, R222). -/
theorem Device.Silent.flagsRead_irq : d.flagsRead.tp.irq = .zero := by
  simp [flagsRead, irqOfStatus, h.status, h.ovf, IrqFlags.zero]

/-- A run that finds every status register clear and acts on nothing changes the two flag sets, to zeros, and the pending latch
(R318). -/
theorem Device.Silent.returned (p : Config.Params) (hrun : d.iepRun = false) (hclr : d.mb.stclr = 0) :
    d.flagsRead.returned p = { d with tp := { d.tp with irq := .zero, dma := .zero }, irqPend := false } := by
  have hno : d.flagsRead.dmaSucceeds = false := by simp [dmaSucceeds, flagsRead, h.dma]
  have hdma : dmaOfStatus d.db.status = .zero := by rw [h.dma]; decide
  have hlow : irqLevel p { d.flagsRead.dmaRead with iepRun := false } = false :=
    Silent.low (d := { d.flagsRead.dmaRead with iepRun := false }) ⟨rfl, h.ovf, h.rdflag, rfl⟩ p
  rw [Device.returned, dmaHandled, if_neg (by simp [hno]), latch_of_low hlow]
  show ({ d with
      tp := { d.tp with irq := d.flagsRead.tp.irq, dma := dmaOfStatus d.db.status }
      mb := { d.mb with status := 0, stclr := 0 }, db := { d.db with status := 0 }
      irqPend := false, iepRun := false } : Device) =
    { d with
      tp := { d.tp with irq := .zero, dma := .zero }
      mb := { d.mb with status := d.mb.status, stclr := d.mb.stclr }, db := { d.db with status := d.db.status }
      irqPend := false, iepRun := d.iepRun }
  rw [h.flagsRead_irq, hdma, h.status, hclr, h.dma, hrun]

end

/-- Settles O31: in each case both engines are stopped, so the run finds every status register clear. -/
theorem lateRunIsDiscarded : Obligations.LateRunIsDiscarded := by
  unfold Obligations.LateRunIsDiscarded
  intro s d rest hagenda hd hctl hq hen hcase
  have hstop : d.Stopped := by
    rcases hcase with hidle | ⟨h9, h11⟩ | ⟨hbus, hdma⟩
    · obtain ⟨-, -, hbus, hdma, -⟩ := hctl.baseline hidle
      exact ⟨hbus, hdma⟩
    · exact hctl.stopped h9 h11
    · exact ⟨hbus, hdma⟩
  have hsil := hctl.silent hstop
  have hrun : d.iepRun = false := by
    simp only [handlerEnabled, Bool.and_eq_true, Bool.not_eq_true'] at hen
    exact hen.1.2
  have hdisp : dispatch (s.ctx s.cur d).flagsRead = .next (s.ctx s.cur d).flagsRead :=
    dispatch_clear hq hsil.flagsRead_irq hsil.rdflag
  obtain ⟨obs, hstep⟩ :=
    step_irq_dispatched (v := d.flagsRead) (mem := s.mem) (obs := []) hagenda hd hq hen hdisp hq rfl
  rw [hsil.returned s.params hrun hctl.strobes.1] at hstep
  exact ⟨obs, hstep⟩

end Sys2Proof.Machine
end

section
/-! PROOFS. R6, R72, R140, R152, R162, R346, R355: what the register primitives do whatever falls between their accesses. Nothing that
falls there touches the programmed state, so a primitive leaves in it what it leaves with nothing in between; the status registers, the
slots and host memory are followed through the moves. -/

namespace Sys2Proof.Machine

/-! ### The programmed state under register accesses -/

section
variable {d v : Device} {l m : Ctx}

theorem Device.SameProgramme.symm (h : d.SameProgramme v) : v.SameProgramme d := by
  simp only [Device.SameProgramme] at *
  simp [h]

/-- A store to a register makes of the programmed state what is stored and the programmed state before it say. -/
theorem Device.SameProgramme.poke (h : d.SameProgramme v) (r : Reg) (w : Word) :
    (poke r w d).SameProgramme (Machine.poke r w v) := by
  simp only [Device.SameProgramme] at h
  cases r <;> simp only [Machine.poke] <;> (try split) <;> simp [Device.SameProgramme, h]

theorem Device.SameProgramme.setRet (h : d.SameProgramme v) (w : Word) :
    Device.SameProgramme { d with ret := w } { v with ret := w } := by
  simp only [Device.SameProgramme] at *
  simp [h]

/-- The registers no move of the environment changes, so that a read of one yields what the block programmed (R355). -/
def Reg.programmed : Reg → Bool
  | .mStatus | .mOvf | .mRdflag | .mData _ | .dStatus => false
  | .mCtrl | .mClk | .mAddr | .mCnt | .mInten | .mStclr | .mRdfclr | .mReserved => true
  | .dCtrl | .dAddr | .dLen | .dInten | .dReserved => true

theorem Device.SameProgramme.peek (h : d.SameProgramme v) {r : Reg} (hr : r.programmed = true) :
    Machine.peek r v = Machine.peek r d := by
  simp only [Device.SameProgramme] at h
  cases r <;> simp only [Reg.programmed, Bool.false_eq_true] at hr <;> simp [Machine.peek, h]

theorem pump_peek {r : Reg} (hr : r.programmed = true) (l : Ctx) : peek r (pump l).dev = peek r l.dev :=
  (pump_sameProgramme l).peek hr

/-- A register write, whatever falls before it, is its store. -/
theorem regWrite_pokes (r : Reg) (w : Word) (l : Ctx) : (poke r w l.dev).SameProgramme (regWrite r w l).dev := by
  rw [regWrite_dev]
  exact (pump_sameProgramme l).poke r w

/-- A read-modify-write of a programmed register, whatever falls before its accesses, is one store. -/
theorem rmw_pokes {r : Reg} {mask u w : Word} {l : Ctx} (hr : r.programmed = true)
    (hw : (peek r l.dev &&& ~~~mask) ||| (u &&& mask) = w) : (poke r w l.dev).SameProgramme (rmw r mask u l).dev := by
  rw [rmw_eq, pump_peek hr, hw]
  exact ((pump_sameProgramme l).poke r w).trans (regWrite_pokes r w (pump l))

theorem regWrite_sameProgramme (h : l.dev.SameProgramme m.dev) (r : Reg) (w : Word) :
    (regWrite r w l).dev.SameProgramme (regWrite r w m).dev :=
  (regWrite_pokes r w l).symm.trans ((h.poke r w).trans (regWrite_pokes r w m))

theorem rmw_sameProgramme (h : l.dev.SameProgramme m.dev) {r : Reg} (hr : r.programmed = true) (mask w : Word) :
    (rmw r mask w l).dev.SameProgramme (rmw r mask w m).dev := by
  have hm := rmw_pokes (mask := mask) (u := w) (l := m) hr rfl
  rw [h.peek hr] at hm
  exact (rmw_pokes hr rfl).symm.trans ((h.poke r _).trans hm)

theorem pulse_sameProgramme (h : l.dev.SameProgramme m.dev) (r : Reg) (mask : Word) :
    (pulse r mask l).dev.SameProgramme (pulse r mask m).dev :=
  regWrite_sameProgramme (regWrite_sameProgramme h r mask) r 0

end

/-- The operation bears every stable fact, and makes of the programmed state what its operands and the programmed state before it
say, whatever falls between its accesses. -/
structure Programs (f : Ctx → Ctx) : Prop where
  stable : ∀ {P : Ctx → Prop}, Stable P → ∀ {l : Ctx}, P l → P (f l)
  programme : ∀ {l m : Ctx}, l.params = m.params → l.dev.SameProgramme m.dev → (f l).dev.SameProgramme (f m).dev

theorem programs_regWrite (r : Reg) (w : Word) : Programs (regWrite r w) :=
  ⟨fun hP _ h => regWrite_stable hP h, fun _ h => regWrite_sameProgramme h r w⟩

theorem programs_rmw {r : Reg} (hr : r.programmed = true) (mask w : Word) : Programs (rmw r mask w) :=
  ⟨fun hP _ h => rmw_stable hP h, fun _ h => rmw_sameProgramme h hr mask w⟩

theorem programs_pulse (r : Reg) (mask : Word) : Programs (pulse r mask) :=
  ⟨fun hP _ h => pulse_stable hP h, fun _ h => pulse_sameProgramme h r mask⟩

theorem programs_clkdivSet (freq : Word) : Programs (clkdivSet freq) :=
  ⟨fun hP _ h => rmw_stable hP h, fun hp h => by
    unfold clkdivSet
    rw [hp]
    exact rmw_sameProgramme h rfl _ _⟩

/-- The same instance with nothing to fall between its accesses and its interrupt pending. -/
def Ctx.undisturbed (l : Ctx) : Ctx := l.mapDev fun d => { d with inter := [], irqPend := true }

theorem Ctx.undisturbed_latched (l : Ctx) : l.undisturbed.dev.Latched l.undisturbed.params := fun _ _ => rfl

/-- What falls between the accesses makes no difference to the programmed state. -/
theorem Programs.as_undisturbed {f : Ctx → Ctx} (hf : Programs f) {l q : Ctx} (hq : f l.undisturbed = q) :
    q.dev.SameProgramme (f l).dev :=
  hq ▸ hf.programme rfl (.refl l.dev)

/-! ### From the instance in hand to the machine -/

section
variable {s : State} {d : Device} (hd : s.InHand d)
include hd

/-- An operation of the instance in hand that goes on completes, and leaves in hand what it has made of the instance. -/
theorem onInstance_completes {f : Ctx → Res} {l : Ctx} {E : Device → Prop} (ag : Agent)
    (hs : ∀ {P : Ctx → Prop}, Stable P → ∀ {l : Ctx}, P l → (f l).Keeps P) (hf : f (s.ctx s.cur d) = .next l) (hE : E l.dev) :
    ∃ (t : State) (v : Device), onInstance ag s.cur f s = .next t ∧ t.devs[s.cur]? = some v ∧ E v := by
  have hplace := hs (placed_stable s.cur) (l := s.ctx s.cur d) ⟨State.ctx_placed hd, rfl⟩
  rw [hf] at hplace
  refine ⟨s.putCtx l, l.dev, by rw [onInstance_inHand hd, hf], ?_, hE⟩
  simpa only [hplace.2] using State.putCtx_getElem? (s := s) hplace.1

theorem onInstanceDo_completes {f : Ctx → Ctx} {E : Device → Prop}
    (hs : ∀ {P : Ctx → Prop}, Stable P → ∀ {l : Ctx}, P l → P (f l)) (hE : E (f (s.ctx s.cur d)).dev) :
    ∃ (t : State) (v : Device), onInstanceDo s.cur f s = .next t ∧ t.devs[s.cur]? = some v ∧ E v :=
  onInstance_completes hd .seq (fun hP _ h => Res.keeps_next.mpr (hs hP h)) rfl hE

/-- A primitive, whatever falls between its accesses, leaves of the programmed state what it leaves with nothing in between. -/
theorem onInstanceDo_programs {f : Ctx → Ctx} (hf : Programs f) {q : Ctx} (hq : f (s.ctx s.cur d).undisturbed = q) :
    ∃ (t : State) (v : Device),
      onInstanceDo s.cur f s = .next t ∧ t.devs[s.cur]? = some v ∧ q.dev.SameProgramme v :=
  onInstanceDo_completes hd hf.stable (hf.as_undisturbed hq)

end

/-! ### The master block under moves -/

/-- Of what falls between accesses only the instance's own bus engine writes its master block, and only while it runs (R281). -/
theorem envMove_mb (l : Ctx) (m : EnvMove) :
    (envMove l m).dev.mb = l.dev.mb ∨ l.dev.beActive = true ∧ ∃ b, (envMove l m).dev.mb = beEffect b l.dev.mb := by
  have hany : ∀ (k : Nat) (f : Ctx → Ctx), (f l).dev.mb = l.dev.mb → (onAny k f l).dev.mb = l.dev.mb := by
    intro k f hf
    unfold onAny
    split
    · exact hf
    · rw [onPeer_dev]
  cases m with
  | be k b =>
    cases ha : l.dev.beActive with
    | false => exact .inl (hany k _ (congrArg Device.mb (beMove_inactive ha)))
    | true =>
      show (onAny k _ l).dev.mb = _ ∨ true = true ∧ ∃ b, (onAny k _ l).dev.mb = _
      unfold onAny
      split
      · exact .inr ⟨rfl, b, by simp [beMove, ha]⟩
      · exact .inl (by rw [onPeer_dev])
  | de k e => exact .inl (hany k _ (deMove_mb e l))
  | expire k =>
    show (if k = l.id then l else onPeer k timerExpire l).dev.mb = _ ∨ _
    split
    · exact .inl rfl
    · exact .inl (by rw [onPeer_dev])
  | mapAnswer k r => exact .inl (hany k _ rfl)
  | store a b => exact .inl rfl
  | free a => exact .inl rfl
  | command h c => exact .inl (congrArg Device.mb (hostCommand_dev h c l))

/-- What the moves of a running bus engine keep of the master block holds at the access. -/
theorem pump_keeps_mb {Q : Bool → MBlock → Prop} (hbe : ∀ b mb, Q true mb → Q true (beEffect b mb)) {l : Ctx}
    (h : Q l.dev.beActive l.dev.mb) : Q (pump l).dev.beActive (pump l).dev.mb := by
  refine pump_induct_all (P := fun x => Q x.dev.beActive x.dev.mb) (fun _ _ hx => hx) (fun x m hx => ?_) l h
  rw [(envMove_frame x m).programme.engines.1]
  rcases envMove_mb x m with e | ⟨ha, b, e⟩ <;> rw [e]
  · exact hx
  · rw [ha] at hx ⊢
    exact hbe b _ hx

/-- Bits set but for those a strobe holds leave the held ones clear (R39, R42). -/
theorem held_bits {w : Nat} {x c : BitVec w} (y : BitVec w) (h : x &&& c = 0) : (x ||| (y &&& ~~~c)) &&& c = 0 := by
  apply BitVec.eq_of_getLsbD_eq
  intro i hi
  have e := congrArg (fun x => BitVec.getLsbD x i) h
  simp only [BitVec.getLsbD_and, BitVec.getLsbD_or, BitVec.getLsbD_not, hi, decide_true, Bool.true_and] at e ⊢
  revert e
  cases x.getLsbD i <;> cases c.getLsbD i <;> simp

/-- No status bit is set while its strobe is held (R39). -/
theorem pump_status_held {l : Ctx} (h : l.dev.mb.status &&& l.dev.mb.stclr = 0) :
    (pump l).dev.mb.status &&& (pump l).dev.mb.stclr = 0 := by
  refine pump_keeps_mb (Q := fun _ mb => mb.status &&& mb.stclr = 0) (fun b mb hmb => ?_) h
  cases b with
  | set mask => exact held_bits mask hmb
  | fill i w => simp only [beEffect]; split <;> exact hmb
  | partialFill i w => simp only [beEffect]; split <;> exact hmb
  | take i => exact hmb

/-- No completion flag is set while its strobe is held (R42). -/
theorem pump_rdflag_held {l : Ctx} (h : l.dev.mb.rdflag &&& l.dev.mb.rdfclr = 0) :
    (pump l).dev.mb.rdflag &&& (pump l).dev.mb.rdfclr = 0 := by
  refine pump_keeps_mb (Q := fun _ mb => mb.rdflag &&& mb.rdfclr = 0) (fun b mb hmb => ?_) h
  cases b with
  | set mask => exact hmb
  | fill i w =>
    simp only [beEffect]
    split
    · exact held_bits (1#8 <<< i.val) hmb
    · exact hmb
  | partialFill i w => simp only [beEffect]; split <;> exact hmb
  | take i => exact hmb

/-- The bus engine fills no slot: it does not run, or the direction is not a read (R281, R282). -/
def Device.FillsNoSlot (d : Device) : Prop := d.beActive = false ∨ d.mb.ctrl.rw = false

theorem Device.SameProgramme.fillsNoSlot {d v : Device} (h : d.SameProgramme v) (hd : d.FillsNoSlot) : v.FillsNoSlot := by
  simp only [Device.SameProgramme] at h
  simpa [Device.FillsNoSlot, h] using hd

theorem pump_data {l : Ctx} (h : l.dev.FillsNoSlot) : (pump l).dev.mb.data = l.dev.mb.data := by
  refine (pump_keeps_mb (Q := fun a mb => (a = false ∨ mb.ctrl.rw = false) ∧ mb.data = l.dev.mb.data) (fun b mb hmb => ?_)
    ⟨h, rfl⟩).2
  have hrw : mb.ctrl.rw = false := by simpa using hmb.1
  cases b <;> simpa [beEffect, hrw] using hmb.2

/-! ### Host memory under moves -/

/-- A move that neither stores into host memory nor frees any leaves it. -/
theorem envMove_mem {l : Ctx} {m : EnvMove} (hfree : ∀ a, m ≠ .free a) (hstore : ∀ a b, m ≠ .store a b)
    (hwrite : ∀ k i b, m ≠ .de k (.write i b)) : (envMove l m).mem = l.mem := by
  cases m with
  | be k b => exact onAny_mem (f := fun l => l.mapDev (beMove l.params b)) (P := fun x => x = l.mem) (fun _ h => h) rfl
  | de k e =>
    refine onAny_mem (P := fun x => x = l.mem) (fun x hx => ?_) rfl
    rcases deMove_cases e x with h | ⟨-, -, ⟨_, -, h⟩ | ⟨_, _, -, -, -, h⟩ | ⟨i, b, _, he, -, -, -, -, h⟩ |
      ⟨i, b, _, he, -, -, -, h⟩ | ⟨_, _, -, -, -, -, h⟩⟩
    case inr.inr.inr.inl => exact absurd (congrArg (EnvMove.de k) he) (hwrite k i b)
    all_goals rw [h]; exact hx
  | expire k =>
    show (if k = l.id then l else onPeer k timerExpire l).mem = l.mem
    split
    · rfl
    · exact onPeer_mem (P := fun x => x = l.mem) (fun x hx => (timerExpire_mem x).trans hx) rfl
  | mapAnswer k r => exact onAny_mem (f := answerMap r) (P := fun x => x = l.mem) (fun _ h => h) rfl
  | store a b => exact absurd rfl (hstore a b)
  | free a => exact absurd rfl (hfree a)
  | command h c => exact hostCommand_mem h c l

theorem pump_mem {l : Ctx} (h : l.dev.NoStores) : (pump l).mem = l.mem :=
  pump_induct (P := fun x => x.mem = l.mem) (fun _ _ hx => hx)
    (fun _ _ ⟨hfree, hstore, hwrite⟩ hx => (envMove_mem hfree hstore hwrite).trans hx) l h rfl

/-! ### `DATA_LOAD32` -/

section
variable {K : Ctx → Prop} {B : Nat → Byte → Prop} {base n off : Nat} {l : Ctx} (hpump : ∀ l, K l → K (pump l))
  (hread : ∀ l, K l → ∀ j < n, ∃ b, cellRead l.mem (base + j) = some b ∧ B j b) (hpad : ∀ j, n ≤ j → B j 0)
include hpump hread hpad

/-- A byte of a buffer whose bytes can be read wherever `K` holds, which the moves keep. -/
theorem padByte_yields (f : Byte → Ctx → Res) (h : K l) : ∃ b m, padByte base off n f l = f b m ∧ K m ∧ B off b := by
  unfold padByte
  split
  · rename_i hoff
    obtain ⟨b, hb, hB⟩ := hread (pump l) (hpump l h) off hoff
    exact ⟨b, pump l, by simp only [readByte, hb], hpump l h, hB⟩
  · exact ⟨0, l, rfl, h, hpad off (by omega)⟩

theorem loadWord_yields (f : Word → Ctx → Res) (h : K l) :
    ∃ w m, loadWord base off n f l = f w m ∧ K m ∧ ∀ k < 4, B (off + k) (wordByte w k) := by
  unfold loadWord
  obtain ⟨b0, l0, e0, h0, hb0⟩ := padByte_yields hpump hread hpad (off := off) _ h
  obtain ⟨b1, l1, e1, h1, hb1⟩ := padByte_yields hpump hread hpad (off := off + 1) _ h0
  obtain ⟨b2, l2, e2, h2, hb2⟩ := padByte_yields hpump hread hpad (off := off + 2) _ h1
  obtain ⟨b3, l3, e3, h3, hb3⟩ := padByte_yields hpump hread hpad (off := off + 3) _ h2
  refine ⟨wordOf b0 b1 b2 b3, l3, e0.trans (e1.trans (e2.trans e3)), h3, fun k hk => ?_⟩
  obtain ⟨w0, w1, w2, w3⟩ := wordByte_wordOf b0 b1 b2 b3
  match k, hk with
  | 0, _ => exact (congrArg (B off) w0).mpr hb0
  | 1, _ => exact (congrArg (B (off + 1)) w1).mpr hb1
  | 2, _ => exact (congrArg (B (off + 2)) w2).mpr hb2
  | 3, _ => exact (congrArg (B (off + 3)) w3).mpr hb3

end

/-- While `DATA_LOAD32` reads a buffer of an instance that was `d` with host memory at `mem`, slots below `i` done: the programmed
state stands and the buffer stays allocated; and where no slot is filled and nothing stored or freed, host memory stands too and
the slots done hold the buffer's words. -/
structure Ctx.Loading (d : Device) (mem : Memory) (src n i : Nat) (l : Ctx) : Prop where
  programme : d.SameProgramme l.dev
  noFrees : l.dev.NoFrees
  allocated : Allocated l.mem src n
  calm : d.FillsNoSlot → d.NoStores → l.dev.NoStores ∧ l.mem = mem ∧
    ∀ (x : Slot) (k : Nat), x.val < i → k < 4 → wordByte l.dev.mb.data[x] k = bufferByte mem src n (4 * x.val + k)

section
variable {d : Device} {mem : Memory} {src n i : Nat} {l : Ctx}

theorem Ctx.Loading.pump (h : l.Loading d mem src n i) : (pump l).Loading d mem src n i where
  programme := h.programme.trans (pump_sameProgramme l)
  noFrees := pump_gaps h.noFrees
  allocated := pump_allocated h.noFrees h.allocated
  calm hfill hstore := by
    obtain ⟨hl, hmem, hdata⟩ := h.calm hfill hstore
    refine ⟨pump_gaps hl, (pump_mem hl).trans hmem, ?_⟩
    rw [pump_data (h.programme.fillsNoSlot hfill)]
    exact hdata

/-- The next slot is written with the bytes read. -/
theorem Ctx.Loading.dataPut (h : l.Loading d mem src n i) (hi : i < 8) {w : Word}
    (hw : ∀ k < 4, d.FillsNoSlot → d.NoStores → wordByte w k = bufferByte mem src n (4 * i + k)) :
    (dataPut (Fin.ofNat 8 i) w l).Loading d mem src n (i + 1) where
  programme := h.pump.programme
  noFrees := regWrite_gaps h.noFrees
  allocated := h.pump.allocated
  calm hfill hstore := by
    obtain ⟨hl, hmem, hdata⟩ := h.pump.calm hfill hstore
    refine ⟨regWrite_gaps (h.calm hfill hstore).1, hmem, fun x k hx hk => ?_⟩
    have hv : (Fin.ofNat 8 i).val = i := Nat.mod_eq_of_lt hi
    show wordByte (((Machine.pump l).dev.mb.data.set (Fin.ofNat 8 i).val w (Fin.ofNat 8 i).isLt)[x.val]) k = _
    rw [Vector.getElem_set]
    split
    · rename_i hxi
      rw [hw k hk hfill hstore, ← hxi, hv]
    · exact hdata x k (by omega) hk

/-- `DATA_LOAD32` from slot `i` on completes, whatever falls between its accesses but a host's free. -/
theorem loadSlots_loading {k : Nat} (hk : i + k ≤ 8) (h : l.Loading d mem src n i) :
    ∃ m, loadSlots src n i k l = .next m ∧ m.Loading d mem src n (i + k) := by
  induction k generalizing i l with
  | zero => exact ⟨l, rfl, h⟩
  | succ k ih =>
    rw [loadSlots]
    obtain ⟨w, m, e, hm, hw⟩ := loadWord_yields (K := Ctx.Loading d mem src n i) (off := 4 * i)
      (B := fun j b => d.FillsNoSlot → d.NoStores → b = bufferByte mem src n j) (fun _ hl => hl.pump)
      (fun l hl j hj => by
        obtain ⟨b, hb⟩ := Option.isSome_iff_exists.mp (hl.allocated j hj)
        refine ⟨b, hb, fun hfill hstore => ?_⟩
        rw [bufferByte, if_pos hj, ← (hl.calm hfill hstore).2.1, hb, Option.getD_some])
      (fun j hj _ _ => by rw [bufferByte, if_neg (by omega)]) _ h
    rw [e]
    obtain ⟨m', e', hm'⟩ := ih (by omega) (hm.dataPut (by omega) hw)
    exact ⟨m', e', by rwa [Nat.add_right_comm, Nat.add_assoc] at hm'⟩

end

/-! ### `DMA_STATUS_GETCLR` -/

theorem dmaStatusGetclr_eq (l : Ctx) :
    dmaStatusGetclr l = ((pump l).dev.db.status, regWrite .dStatus ((pump l).dev.db.status.setWidth 32) (pump l)) := by
  simp only [dmaStatusGetclr, regRead, peek, setWidth_setWidth_self (show 6 ≤ 32 by decide)]

/-- Before an access falls one move. -/
theorem pump_one {l : Ctx} {m : EnvMove} {rest : List (List EnvMove)} (h : l.dev.inter = [m] :: rest) :
    pump l = envMove (l.mapDev fun d => { d with inter := rest }) m := by
  simp [pump, h]

/-- The DMA engine sets status bits before an access. -/
theorem pump_deSet {l : Ctx} {m : BitVec 6} {rest : List (List EnvMove)} (ha : l.dev.deActive = true)
    (hs : l.dev.stuck.de = false) (h : l.dev.inter = [.de l.id (.set m)] :: rest) :
    (pump l).dev.db.status = l.dev.db.status ||| m ∧ (pump l).dev.stuck.de = false := by
  have e : pump l = deMove (.set m) (l.mapDev fun d => { d with inter := rest }) := (pump_one h).trans (if_pos rfl)
  rw [e, deMove_set (l := l.mapDev fun d => { d with inter := rest }) ha hs]
  exact ⟨rfl, hs⟩

/-- A bit set beside those read survives their clearing. -/
theorem or_and_not_self {w : Nat} (x y : BitVec w) : (x ||| y) &&& ~~~x = y &&& ~~~x := by
  apply BitVec.eq_of_getLsbD_eq
  intro i hi
  simp only [BitVec.getLsbD_and, BitVec.getLsbD_or, BitVec.getLsbD_not, hi, decide_true, Bool.true_and]
  cases x.getLsbD i <;> simp

/-! ### The clear pulses -/

/-- Clearing the same bits on both sides loses none. -/
theorem bits_kept_clear {w : Nat} {x y : BitVec w} (c : BitVec w) (h : x &&& ~~~y = 0) :
    x &&& ~~~c &&& ~~~(y &&& ~~~c) = 0 := by
  apply BitVec.eq_of_getLsbD_eq
  intro i hi
  have e := congrArg (fun x => BitVec.getLsbD x i) h
  simp only [BitVec.getLsbD_and, BitVec.getLsbD_not, hi, decide_true, Bool.true_and] at e ⊢
  revert e
  cases x.getLsbD i <;> cases y.getLsbD i <;> cases c.getLsbD i <;> simp

/-- A write of the status strobes clears the bits selected and holds them (R39). -/
theorem regWrite_mStclr (mask : BitVec 7) (l : Ctx) :
    (regWrite .mStclr (mask.setWidth 32) l).dev.mb.status = (pump l).dev.mb.status &&& ~~~mask ∧
      (regWrite .mStclr (mask.setWidth 32) l).dev.mb.stclr = mask := by
  simp [poke]

/-- A write of the completion flags' strobes clears the flags selected and holds them (R42). -/
theorem regWrite_mRdfclr (mask : Byte) (l : Ctx) :
    (regWrite .mRdfclr (mask.setWidth 32) l).dev.mb.rdflag = (pump l).dev.mb.rdflag &&& ~~~mask ∧
      (regWrite .mRdfclr (mask.setWidth 32) l).dev.mb.rdfclr = mask := by
  simp [poke]

theorem and_not_self_and {w : Nat} (x c : BitVec w) : x &&& ~~~c &&& c = 0 := by
  rw [BitVec.and_assoc, BitVec.and_comm (~~~c), BitVec.and_not_self]
  exact BitVec.and_zero

theorem and_not_zero {w : Nat} (x : BitVec w) : x &&& ~~~0 = x := by simp

theorem pump_strobes (l : Ctx) :
    (pump l).dev.mb.stclr = l.dev.mb.stclr ∧ (pump l).dev.mb.rdfclr = l.dev.mb.rdfclr := by
  have h := pump_sameProgramme l
  simp only [Device.SameProgramme] at h
  simp [h]

/-- `STATUS_CLEAR`, whatever falls between its accesses: the bits selected are 0 at the end, and no other is lost. -/
theorem statusClear_bits (mask : BitVec 7) (l : Ctx) :
    (statusClear mask l).dev.mb.status &&& mask = 0 ∧
      l.dev.mb.status &&& ~~~mask &&& ~~~(statusClear mask l).dev.mb.status = 0 := by
  let m := regWrite .mStclr (mask.setWidth 32) l
  obtain ⟨hstatus, hstclr⟩ := regWrite_mStclr mask l
  have hend : (statusClear mask l).dev.mb.status = (pump m).dev.mb.status :=
    (regWrite_mStclr 0 m).1.trans (and_not_zero _)
  rw [hend]
  constructor
  · have hheld := pump_status_held (l := m) (by rw [hstatus, hstclr, and_not_self_and])
    rwa [(pump_strobes m).1, hstclr] at hheld
  · have hfirst := bits_kept_clear mask (pump_raised l).status
    rw [← hstatus] at hfirst
    exact bits_kept_trans hfirst (pump_raised m).status

/-- Of the programmed state `STATUS_CLEAR` releases its strobes and leaves the rest. -/
theorem statusClear_programme (mask : BitVec 7) (l : Ctx) :
    Device.SameProgramme { l.dev with mb := { l.dev.mb with stclr := 0 } } (statusClear mask l).dev :=
  (programs_pulse _ _).as_undisturbed (statusClear_quiet rfl l.undisturbed_latched)

/-- `RDFLAG_CLEAR`, whatever falls between its accesses: the flags selected are 0 at the end, and no other is lost. -/
theorem rdflagClear_bits (mask : Byte) (l : Ctx) :
    (rdflagClear mask l).dev.mb.rdflag &&& mask = 0 ∧
      l.dev.mb.rdflag &&& ~~~mask &&& ~~~(rdflagClear mask l).dev.mb.rdflag = 0 := by
  let m := regWrite .mRdfclr (mask.setWidth 32) l
  obtain ⟨hrdflag, hrdfclr⟩ := regWrite_mRdfclr mask l
  have hend : (rdflagClear mask l).dev.mb.rdflag = (pump m).dev.mb.rdflag :=
    (regWrite_mRdfclr 0 m).1.trans (and_not_zero _)
  rw [hend]
  constructor
  · have hheld := pump_rdflag_held (l := m) (by rw [hrdflag, hrdfclr, and_not_self_and])
    rwa [(pump_strobes m).2, hrdfclr] at hheld
  · have hfirst := bits_kept_clear mask (pump_raised l).rdflag
    rw [← hrdflag] at hfirst
    exact bits_kept_trans hfirst (pump_raised m).rdflag

/-! ### The primitives on the machine -/

section
variable {s : State} {d : Device} (hd : s.InHand d)
include hd

/-- `MODE_SET` of an admitted combination, whatever falls between its accesses (R144). -/
theorem modeSet_completes {m : ModeMask} {rw re au : Bool} (ha : modeAllowed m rw re = true) :
    ∃ (t : State) (v : Device), exec (.modeSet m rw re au) s = .next t ∧ t.devs[s.cur]? = some v ∧
      Device.SameProgramme { d with mb := { d.mb with ctrl := modeAfter m rw re au d.mb.ctrl } } v := by
  rw [show exec (.modeSet m rw re au) s = onInstanceDo s.cur (modeSet m rw re au) s from if_pos ha]
  exact onInstanceDo_programs hd (programs_rmw rfl _ _) (modeSet_quiet rfl (Ctx.undisturbed_latched _))

/-- `DATA_LOAD32`, whatever falls between its accesses but a host's free (R146). -/
theorem dataLoad32_completes {src : Word} {n : BitVec 6} (ha : Allocated s.mem src.toNat n.toNat) (hf : d.NoFrees) :
    ∃ (t : State) (v : Device), exec (.dataLoad32 src n) s = .next t ∧ t.devs[s.cur]? = some v ∧ d.SameProgramme v ∧
      (d.FillsNoSlot → d.NoStores → ∀ (i : Slot) (k : Nat), k < 4 →
        wordByte v.mb.data[i] k = bufferByte s.mem src.toNat n.toNat (4 * i.val + k)) := by
  obtain ⟨l, e, hl⟩ := loadSlots_loading (k := 8) (le_refl _)
    (show (s.ctx s.cur d).Loading d s.mem src.toNat n.toNat 0 from
      ⟨.refl d, hf, ha, fun _ hstore => ⟨hstore, rfl, fun _ _ h => absurd h (Nat.not_lt_zero _)⟩⟩)
  exact onInstance_completes (f := dataLoad32 src.toNat n.toNat) hd .seq (fun hP _ h => loadSlots_stable hP h) e
    ⟨hl.programme, fun hfill hstore i k hk => (hl.calm hfill hstore).2.2 i k (by omega) hk⟩

/-- `DMA_STATUS_GETCLR` returns the status at its read, and leaves the status at its write without the bits read (R162). -/
theorem dmaStatusGetclr_completes :
    let read := pump (s.ctx s.cur d)
    ∃ (t : State) (v : Device), exec .dmaStatusGetclr s = .next t ∧ t.devs[s.cur]? = some v ∧
      v.ret = read.dev.db.status.setWidth 32 ∧
      v.db.status = (pump read).dev.db.status &&& ~~~read.dev.db.status ∧
      Device.SameProgramme { d with ret := v.ret } v := by
  intro read
  refine onInstanceDo_completes
    (f := fun l => returning ((dmaStatusGetclr l).1.setWidth 32, (dmaStatusGetclr l).2)) hd
    (fun hP _ h => hP.mapDev (regWrite_stable hP (hP.pump _ h))) ?_
  rw [dmaStatusGetclr_eq]
  have hsame : d.SameProgramme (regWrite .dStatus (read.dev.db.status.setWidth 32) read).dev :=
    (pump_sameProgramme (s.ctx s.cur d)).trans (regWrite_pokes .dStatus _ read)
  exact ⟨rfl, by simp [returning, poke, read], hsame.setRet _⟩

/-- A status bit set before the read of `DMA_STATUS_GETCLR` is returned, and one set between its two accesses survives unless it was
read (R162). -/
theorem dmaStatusGetclr_between_sets {m₁ m₂ : BitVec 6} {rest : List (List EnvMove)} (ha : d.deActive = true)
    (hs : d.stuck.de = false) (hinter : d.inter = [.de s.cur (.set m₁)] :: [.de s.cur (.set m₂)] :: rest) :
    ∃ (t : State) (v : Device), exec .dmaStatusGetclr s = .next t ∧ t.devs[s.cur]? = some v ∧
      v.ret = (d.db.status ||| m₁).setWidth 32 ∧ v.db.status = m₂ &&& ~~~(d.db.status ||| m₁) := by
  let read := pump (s.ctx s.cur d)
  obtain ⟨hread, hreadStuck⟩ := pump_deSet (l := s.ctx s.cur d) ha hs hinter
  have hreadActive : read.dev.deActive = true := (pump_sameProgramme (s.ctx s.cur d)).engines.2.trans ha
  have hreadInter : read.dev.inter = [.de read.id (.set m₂)] :: rest := by
    rw [pump_inter, pump_id]
    exact congrArg List.tail hinter
  obtain ⟨hwritten, -⟩ := pump_deSet hreadActive hreadStuck hreadInter
  obtain ⟨t, v, hexec, hv, hret, hstatus, -⟩ := dmaStatusGetclr_completes hd
  rw [hread] at hret
  rw [hwritten, or_and_not_self, hread] at hstatus
  exact ⟨t, v, hexec, hv, hret, hstatus⟩

/-- `CTRL_RESET`, whatever falls between its accesses (R141). -/
theorem ctrlReset_completes :
    ∃ (t : State) (v : Device), exec .ctrlReset s = .next t ∧ t.devs[s.cur]? = some v ∧
      (resetController d).SameProgramme v ∧ v.mb = .zero ∧ v.db = .zero := by
  have hf : Programs ctrlReset := programs_rmw rfl 1 1
  obtain ⟨v, -, -, hdev, -⟩ := rmw_reset (s.ctx s.cur d)
  exact onInstanceDo_completes hd hf.stable
    ⟨hf.as_undisturbed (ctrlReset_quiet rfl), congrArg Device.mb hdev, congrArg Device.db hdev⟩

/-- `CLKDIV_SET`, whatever falls between its accesses: the divisor fits its field (R142). -/
theorem clkdivSet_completes (freq : Word) :
    ∃ (t : State) (v : Device), exec (.clkdivSet freq) s = .next t ∧ t.devs[s.cur]? = some v ∧
      v.mb.clk.toNat = divOf s.params.srcFreqKhz freq.toNat ∧
      Device.SameProgramme { d with mb := { d.mb with clk := v.mb.clk } } v := by
  have hf := programs_clkdivSet freq
  have hsame := hf.as_undisturbed (clkdivSet_quiet rfl (s.ctx s.cur d).undisturbed_latched)
  obtain ⟨-, hclk, -⟩ := id hsame
  refine onInstanceDo_completes hd hf.stable ?_
  rw [hclk]
  exact ⟨Nat.mod_eq_of_lt (Nat.lt_succ_of_le (divOf_le _ _)), hsame⟩

/-- `DMA_GO` with the directions in agreement, whatever falls between its accesses (R161). -/
theorem dmaGo_completes (hdir : d.db.dir = d.mb.ctrl.rw) :
    ∃ (t : State) (v : Device), exec .dmaGo s = .next t ∧ t.devs[s.cur]? = some v ∧
      Device.SameProgramme { d with deActive := true, beActive := d.beActive || d.mb.ctrl.auto } v := by
  have hgo : ∀ l : Ctx, l.dev.db.dir = l.dev.mb.ctrl.rw → dmaGo l = .next (rmw .dCtrl 1 1 l) := fun l h => if_pos h
  have hquiet := (hgo _ hdir).symm.trans (dmaGo_quiet rfl (s.ctx s.cur d).undisturbed_latched hdir)
  exact onInstance_completes hd .seq (fun hP _ h => dmaGo_stable hP h) (hgo _ hdir)
    ((programs_rmw rfl 1 1).as_undisturbed (Res.next.inj hquiet))

end

theorem poke_mInten (x : BitVec 9) (d : Device) :
    poke .mInten (x.setWidth 32) d = { d with mb := { d.mb with inten := x } } := by
  simp only [poke, setWidth_setWidth_self (show 9 ≤ 32 by decide)]

theorem poke_dInten (x : BitVec 6) (d : Device) :
    poke .dInten (x.setWidth 32) d = { d with db := { d.db with inten := x } } := by
  simp only [poke, setWidth_setWidth_self (show 6 ≤ 32 by decide)]

/-- Settles O45: nothing that falls between the accesses touches the programmed state, so each primitive leaves in it what it leaves
with nothing in between; the cleared bits are held by the strobes, and the slots loaded stand where nothing is filled. -/
theorem programmingUnderEngineMoves : Obligations.ProgrammingUnderEngineMoves := by
  unfold Obligations.ProgrammingUnderEngineMoves
  intro s d hd ends
  have hq := (s.ctx s.cur d).undisturbed_latched
  refine ⟨ctrlReset_completes hd, clkdivSet_completes hd,
    fun addr => onInstanceDo_programs hd (programs_rmw rfl _ _) (addrSet_quiet rfl hq),
    fun rw re au h =>
      ⟨modeSet_completes hd (modeAllowed_of_restart h), modeSet_completes hd (modeAllowed_of_restart h)⟩,
    fun rw re au => modeSet_completes hd rfl,
    fun wr rd => onInstanceDo_programs hd (programs_regWrite _ _) (cntSet_quiet rfl hq),
    fun src n _ _ ha hf => dataLoad32_completes hd ha hf, ?put, fun mask => ⟨?intenSet, ?intenClr⟩, ?status, ?rdflag,
    onInstanceDo_programs hd (programs_rmw rfl _ _) (trigger_quiet rfl hq),
    fun a => onInstanceDo_programs hd (programs_regWrite _ _) (dmaAddrSet_quiet rfl hq),
    fun n _ => onInstanceDo_programs hd (programs_rmw rfl _ _) (dmaLenSet_quiet rfl hq),
    fun dir => onInstanceDo_programs hd (programs_rmw rfl _ _) (dmaDirSet_quiet rfl hq), ?dmaIntenSet,
    dmaGo_completes hd, ?getclr, fun m₁ m₂ rest ha hs hinter => dmaStatusGetclr_between_sets hd ha hs hinter⟩
  case put =>
    intro slot w
    have hf : Programs (dataPut slot w) := programs_regWrite (.mData slot) w
    exact onInstanceDo_completes hd hf.stable ⟨Vector.getElem_set_self .., hf.as_undisturbed (dataPut_quiet rfl hq)⟩
  case intenSet =>
    have hf : Programs (intenSet mask) := programs_rmw rfl _ _
    exact onInstanceDo_completes hd hf.stable (poke_mInten _ d ▸ rmw_pokes rfl (set_mask d.mb.inten mask))
  case intenClr => exact onInstanceDo_programs hd (programs_rmw rfl _ _) (intenClr_quiet rfl hq)
  case status =>
    intro mask
    obtain ⟨hclear, hkept⟩ := statusClear_bits mask (s.ctx s.cur d)
    exact onInstanceDo_completes hd (programs_pulse _ _).stable ⟨hclear, hkept, statusClear_programme mask _⟩
  case rdflag =>
    intro mask
    have hf : Programs (rdflagClear mask) := programs_pulse _ _
    obtain ⟨hclear, hkept⟩ := rdflagClear_bits mask (s.ctx s.cur d)
    exact onInstanceDo_completes hd hf.stable ⟨hclear, hkept, hf.as_undisturbed (rdflagClear_quiet rfl hq)⟩
  case dmaIntenSet =>
    intro mask
    have hf : Programs (dmaIntenSet mask) := programs_rmw rfl _ _
    exact onInstanceDo_completes hd hf.stable (poke_dInten _ d ▸ rmw_pokes rfl (set_mask d.db.inten mask))
  case getclr =>
    exact ⟨(pump_raised (s.ctx s.cur d)).dma, (pump_raised (pump (s.ctx s.cur d))).dma, dmaStatusGetclr_completes hd⟩

end Sys2Proof.Machine
end

section
/-! PROOFS. R346, R39: the hazard of the lost status event: what the bus engine sets after the read the strobes clear, and what it
would set while they are held is not set. -/

namespace Sys2Proof.Machine

/-! ### Two instructions one after the other -/

theorem State.InHand.isStuck {s : State} {d : Device} (hd : s.InHand d) (ag : Agent) : s.isStuck ag = d.isStuck ag := by
  have h : s.devs[s.cur]? = some d := hd
  rw [State.isStuck, h]
  rfl

/-- The second instruction runs where the first has left its agent going on. -/
theorem execAll_pair {ag : Agent} {i j : Instr} {s t u : State} (hi : exec i s = .next t) (ht : t.isStuck ag = false)
    (hj : exec j t = .next u) : execAll ag [i, j] s = .next u := by
  simp [execAll, hi, ht, hj]

/-! ### The read and the clear -/

/-- `STATUS_GET` with nothing before its access, whatever falls before the later ones. -/
theorem statusGet_at_once {l : Ctx} {rest : List (List EnvMove)} (h : l.dev.inter = [] :: rest) :
    statusGet l = (l.dev.mb.status, l.mapDev fun d => { d with inter := rest }) := by
  have hpump : pump l = l.mapDev fun d => { d with inter := rest } := by simp [pump, h]
  simp [statusGet, regRead, hpump, peek]

theorem regWrite_inter (r : Reg) (w : Word) (l : Ctx) : (regWrite r w l).dev.inter = l.dev.inter.tail := by
  simp [pump_inter]

/-- `STATUS_CLEAR`, whatever falls between its accesses, keeps the value returned before it, releases its strobes and takes the
moves of two accesses off the list. -/
theorem statusClear_frame (mask : BitVec 7) (l : Ctx) :
    (statusClear mask l).dev.ret = l.dev.ret ∧ (statusClear mask l).dev.mb.stclr = 0 ∧
      (statusClear mask l).dev.inter = l.dev.inter.tail.tail := by
  have h := statusClear_programme mask l
  simp only [Device.SameProgramme] at h
  exact ⟨by simp [h], by simp [h], by rw [statusClear, pulse, regWrite_inter, regWrite_inter]⟩

/-- A bus-engine move before an access leaves host memory. -/
theorem pump_be_mem {l : Ctx} {k : Nat} {b : BeMove} {rest : List (List EnvMove)} (h : l.dev.inter = [.be k b] :: rest) :
    (pump l).mem = l.mem := by
  rw [pump_one h]
  exact envMove_mem (by simp) (by simp) (by simp)

/-- Settles O33: the bits set before the first strobe write are cleared by it, and those the engine would set before the second
one are held. -/
theorem statusEventCanBeLost : Obligations.StatusEventCanBeLost := by
  unfold Obligations.StatusEventCanBeLost
  intro s d m₁ m₂ rest hd _ hstuck hinter
  let v : Device := { d with inter := d.inter.tail, ret := d.mb.status.setWidth 32 }
  let t := s.become v s.mem []
  have hget : exec .statusGet s = .next t :=
    onInstanceDo_returning_setWidth (v := { d with inter := d.inter.tail }) (obs := []) hd
      (by rw [statusGet_at_once (l := s.ctx s.cur d) hinter, hinter]; rfl)
  have hv : t.InHand v := hd.become_getElem? v s.mem []
  let c := t.ctx t.cur v
  have hplace : (statusClear 0x7F c).Placed ∧ (statusClear 0x7F c).id = t.cur :=
    (programs_pulse _ _).stable (placed_stable t.cur) ⟨State.ctx_placed hv, rfl⟩
  obtain ⟨hret, hstclr, hrest⟩ := statusClear_frame 0x7F c
  obtain ⟨hstatus, -⟩ := statusClear_bits 0x7F c
  have hc : c.dev.inter = [.be s.cur (.set m₁)] :: [.be s.cur (.set m₂)] :: rest := congrArg List.tail hinter
  refine ⟨t.putCtx (statusClear 0x7F c), (statusClear 0x7F c).dev,
    execAll_pair hget ((hv.isStuck .iep).trans hstuck) (onInstanceDo_inHand hv _), ?_, hret, ?_, hstclr, ?_, ?_⟩
  · exact hplace.2 ▸ State.putCtx_getElem? (s := t) hplace.1
  · rwa [show (0x7F : BitVec 7) = BitVec.allOnes 7 by decide, BitVec.and_allOnes] at hstatus
  · rw [hrest, hc]
    rfl
  · have hfirst : (regWrite .mStclr (BitVec.setWidth 32 0x7F#7) c).mem = s.mem := pump_be_mem hc
    have hsecond : (regWrite .mStclr (BitVec.setWidth 32 0x7F#7) c).dev.inter = [.be s.cur (.set m₂)] :: rest := by
      rw [regWrite_inter, hc]
      rfl
    exact (pump_be_mem hsecond).trans hfirst

end Sys2Proof.Machine
end

section
/-! PROOFS. R31, R51, R340, R345: the power-on state. -/

namespace Sys2Proof.Machine

/-- After power-on every register reads 0 (R51). -/
theorem peek_reset (r : Reg) : peek r Device.reset = 0 := by
  cases r with
  | mData i => simp [peek, Device.reset, MBlock.zero]
  | _ => decide

/-- Settles O50: the one instance of the reset machine is `Device.reset`. -/
theorem powerOnState : Obligations.PowerOnState := by
  unfold Obligations.PowerOnState
  refine ⟨List.cons_ne_nil _ _, fun d hd => ?_⟩
  obtain rfl : d = .reset := List.mem_singleton.mp hd
  exact ⟨rfl, rfl, rfl, rfl, rfl, rfl, rfl, rfl, rfl, rfl, rfl, peek_reset, irqLevel_zero rfl rfl⟩

end Sys2Proof.Machine
end

section
/-! PROOFS. R101, R102, R107, R108, R113: the decoder reads back what the encoder wrote. A descriptor's fields stand at their bit
positions; the image of a register primitive selects its row of the primitives' table, and the row's reading takes the operand
words back. -/

namespace Sys2Proof.Machine

/-! ### Commands (R101, R102) -/

/-- The six words of a descriptor decode to the command they were written from. -/
theorem decode_encodeCmd (op : Op) (a : Args) : decode ⟨.cmd, encodeCmd op a⟩ = .ok (Cmd.instr ⟨op, a⟩) := by
  obtain ⟨hreserved, hop, hrestart, hdev, haddr⟩ := descriptorWord_fields op.code a.restart a.dev a.addr
  have h := decode_of_reservedClear a.freq a.wlen a.rlen a.wbuf a.rbuf hreserved
  rwa [descriptorCmd, descriptorArgs, hop, hrestart, hdev, haddr, Op_ofCode_code] at h

/-! ### The selector word of a primitive's image -/

/-- Each bit of it. -/
theorem selectorWord_getLsbD (r : RegSel) (i : Nat) :
    r.word.getLsbD i =
      if i < 16 then r.off.testBit i
      else if i = 16 then r.block == .db
      else if i < 21 then r.access.code.getLsbD (i - 17)
      else false := by
  unfold RegSel.word
  simp only [BitVec.getLsbD_append]
  by_cases h1 : i < 16
  · simp only [h1, if_true, BitVec.getLsbD_ofNat, decide_true, Bool.true_and]
  by_cases h2 : i = 16
  · subst h2; simp
  have h3 : ¬ i - 16 < 1 := by omega
  by_cases h4 : i < 21
  · have h5 : i - 16 - 1 < 4 := by omega
    simp only [h1, h2, h3, h4, h5, if_false, if_true]
    congr 1
  · have h5 : ¬ i - 16 - 1 < 4 := by omega
    simp [h1, h2, h3, h4, h5]

/-- An access code read back. -/
theorem Access.ofCode_code (a : Access) : Access.ofCode a.code = some a := by cases a <;> rfl

/-- The fields the decoder takes from a selector word are the ones the encoder put there. -/
theorem selectorWord_fields {r : RegSel} (hoff : r.off < 2 ^ 16) :
    r.word.extractLsb' 21 11 = 0 ∧ (r.word.extractLsb' 0 16).toNat = r.off ∧
    (if r.word.getLsbD 16 = true then Block.db else Block.mb) = r.block ∧ r.word.extractLsb' 17 4 = r.access.code := by
  refine ⟨?_, ?_, ?_, ?_⟩
  · apply BitVec.eq_of_getLsbD_eq; intro i hi
    rw [BitVec.getLsbD_extractLsb', selectorWord_getLsbD]
    simp [show ¬ 21 + i < 16 by omega, show ¬ 21 + i = 16 by omega, show ¬ 21 + i < 21 by omega]
  · have e : r.word.extractLsb' 0 16 = BitVec.ofNat 16 r.off := by
      apply BitVec.eq_of_getLsbD_eq; intro i hi
      rw [BitVec.getLsbD_extractLsb', selectorWord_getLsbD, BitVec.getLsbD_ofNat]
      simp [hi]
    rw [e, BitVec.toNat_ofNat, Nat.mod_eq_of_lt hoff]
  · rw [selectorWord_getLsbD]
    cases r.block <;> rfl
  · apply BitVec.eq_of_getLsbD_eq; intro i hi
    rw [BitVec.getLsbD_extractLsb', selectorWord_getLsbD]
    simp [hi, show ¬ 17 + i < 16 by omega, show ¬ 17 + i = 16 by omega, show 17 + i < 21 by omega]

/-! ### Operand words -/

theorem unary_setWidth {n : Nat} (hn : n ≤ 32) (f : BitVec n → Instr) (x : BitVec n) :
    unary n f (x.setWidth 32) 0 = .ok (f x) := by
  rw [unary, if_pos rfl, narrow_setWidth hn]
  rfl

theorem unary_word (f : Word → Instr) (x : Word) : unary 32 f x 0 = .ok (f x) := by
  rw [unary, if_pos rfl, narrow_word]
  rfl

theorem binary_setWidth {n m : Nat} (hn : n ≤ 32) (hm : m ≤ 32) (f : BitVec n → BitVec m → Instr) (x : BitVec n)
    (y : BitVec m) : binary n m f (x.setWidth 32) (y.setWidth 32) = .ok (f x y) := by
  rw [binary, narrow_setWidth hn, narrow_setWidth hm]

theorem binary_word {m : Nat} (hm : m ≤ 32) (f : Word → BitVec m → Instr) (x : Word) (y : BitVec m) :
    binary 32 m f x (y.setWidth 32) = .ok (f x y) := by
  rw [binary, narrow_word, narrow_setWidth hm]

theorem modeOf_modeOperand (m : ModeMask) (rw restart auto : Bool) :
    modeOf m (modeOperand rw restart auto) 0 = .ok (.modeSet m rw restart auto) := by
  obtain ⟨-, -, h4, h5, h6⟩ := modeOperand_bits rw restart auto
  rw [modeOf, h4, h5, h6, if_pos ⟨rfl, rfl⟩]

/-! ### Primitives (R113) -/

/-- A selector that names a register of its block: at a multiple of 4, inside the block (R72). -/
def RegSel.InBlock (r : RegSel) : Prop := r.off % 4 = 0 ∧ r.off < r.block.size

/-- The image of a primitive is read by the row of the primitives' table that its selector names. -/
theorem decodeReg_image {r : RegSel} (hr : RegSel.InBlock r) {read : Word → Word → Except Reject Instr}
    (hrow : regTable.find? (fun row => row.1 == r) = some (r, read)) (a b : Word) :
    decodeReg [r.word, r.mask, a, b] = read a b := by
  obtain ⟨halign, hsize⟩ := hr
  have hoff : r.off < 2 ^ 16 := lt_of_lt_of_le hsize (by cases r.block <;> decide)
  obtain ⟨hreserved, hoffset, hblock, haccess⟩ := selectorWord_fields hoff
  simp only [decodeReg, hreserved, hoffset, hblock, haccess, Access.ofCode_code, hrow, halign, hsize.not_ge, ne_eq,
    not_true_eq_false, if_false]

/-- A well-formed primitive whose row takes its operand words back. -/
theorem decode_primitive {i : Instr} {r : RegSel} {read : Word → Word → Except Reject Instr} {a b : Word} (hw : i.wf = true)
    (hsel : i.regSel = some r) (hr : RegSel.InBlock r) (hrow : regTable.find? (fun row => row.1 == r) = some (r, read))
    (hread : read a b = .ok i) : decode (encodeReg i.regSel a b) = .ok i := by
  rw [hsel]
  exact decode_of_raw ((decodeReg_image hr hrow a b).trans hread) hw

/-- Each word-slot has a row that writes it and one that reads it (R43). -/
theorem dataSlot_rows (slot : Slot) :
    RegSel.InBlock ⟨.mb, dataOffset slot, 0xFFFFFFFF, .fullWrite⟩ ∧
    regTable.find? (fun row => row.1 == ⟨.mb, dataOffset slot, 0xFFFFFFFF, .fullWrite⟩) =
      some (⟨.mb, dataOffset slot, 0xFFFFFFFF, .fullWrite⟩, unary 32 (.dataPut slot)) ∧
    regTable.find? (fun row => row.1 == ⟨.mb, dataOffset slot, 0xFFFFFFFF, .get⟩) =
      some (⟨.mb, dataOffset slot, 0xFFFFFFFF, .get⟩, nullary (.dataGet slot)) := by
  fin_cases slot <;> exact ⟨⟨rfl, by decide⟩, rfl, rfl⟩

/-- Settles O2: a command by its fields, an event by its pattern, a primitive by the row its selector names. -/
theorem decodeInvertsEncode : Obligations.DecodeInvertsEncode := by
  unfold Obligations.DecodeInvertsEncode
  intro i hw
  cases i with
  | read a => exact decode_encodeCmd .read a
  | write a => exact decode_encodeCmd .write a
  | dmaRead a => exact decode_encodeCmd .dmaRead a
  | dmaWrite a => exact decode_encodeCmd .dmaWrite a
  | evActiveDone | evAddrNack | evDataNack | evEmptyThreshold | evFifoEmpty | evFifoFull | evSclHold => rfl
  | evRdOverflow | evBurstSlot => rfl
  | evDmaDone | evDmaWcntErr | evDmaWbenErr | evDmaGdmaTimeout | evDmaIpTimeout | evDmaZeroLen => rfl
  | ctrlReset | statusGet | ovfGet | rdflagGet | trigger | dmaGo | dmaStatusGetclr =>
    exact decode_primitive hw rfl ⟨rfl, by decide⟩ rfl rfl
  | clkdivSet _ | dmaAddrSet _ => exact decode_primitive hw rfl ⟨rfl, by decide⟩ rfl (unary_word _ _)
  | addrSet _ | intenSet _ | intenClr _ | statusClear _ | rdflagClear _ | dmaLenSet _ | dmaIntenSet _ =>
    exact decode_primitive hw rfl ⟨rfl, by decide⟩ rfl (unary_setWidth (by decide) _ _)
  | modeSet m rw restart auto =>
    cases m <;> exact decode_primitive hw rfl ⟨rfl, by decide⟩ rfl (modeOf_modeOperand _ _ _ _)
  | cntSet _ _ => exact decode_primitive hw rfl ⟨rfl, by decide⟩ rfl (binary_setWidth (by decide) (by decide) _ _ _)
  | dataLoad32 _ _ => exact decode_primitive hw rfl ⟨rfl, by decide⟩ rfl (binary_word (by decide) _ _ _)
  | dataPut slot _ => exact decode_primitive hw rfl (dataSlot_rows slot).1 (dataSlot_rows slot).2.1 (unary_word _ _)
  | dataGet slot => exact decode_primitive hw rfl (dataSlot_rows slot).1 (dataSlot_rows slot).2.2 rfl
  | dmaDirSet dir =>
    exact decode_primitive hw rfl ⟨rfl, by decide⟩ rfl
      ((unary_setWidth (by decide) _ (BitVec.ofBool dir)).trans (by cases dir <;> rfl))

/-- Settles O1: the decoder evaluates on closed words. -/
theorem sampleWordsDecode : Obligations.SampleWordsDecode := by
  unfold Obligations.SampleWordsDecode
  decide

end Sys2Proof.Machine
end

section
/-! PROOFS. R84, R106, R174, R190, R191, R286, R315: what the admission of a command leaves of the instance it names, and that it is
one step, so that the next command to that instance finds it busy. -/

namespace Sys2Proof.Machine

section
variable {c : Cmd} {p : Config.Params}

/-- The transfer's length fits the snapshot's field (R173, R174). -/
theorem startTP_totalLen (hc : countsValid c = true) : (startTP p c).totalLen.toNat = (cmdLen c).toNat := by
  have hlen := cmdLen_le_of_countsValid hc
  show ((cmdLen c).setWidth 16).toNat = _
  rw [BitVec.toNat_setWidth]
  exact Nat.mod_eq_of_lt (by omega)

/-- The burst units and the remainder of a read (R191). -/
theorem startTP_read_units (hop : c.op = .read) (hc : countsValid c = true) :
    (startTP p c).burstCnt.toNat = c.args.rlen.toNat / p.rdBurstBytes ∧
    (startTP p c).burstRem.toNat = c.args.rlen.toNat % p.rdBurstBytes := by
  have hlen : c.args.rlen.toNat ≤ 65535 := by simpa [cmdLen, hop, isReadOp] using cmdLen_le_of_countsValid hc
  have hdiv := Nat.div_le_self c.args.rlen.toNat p.rdBurstBytes
  have hmod : c.args.rlen.toNat % p.rdBurstBytes < 16 := by
    unfold Config.Params.rdBurstBytes
    split <;> omega
  simp only [startTP, burstCount, burstRemainder, hop, BitVec.toNat_ofNat]
  exact ⟨Nat.mod_eq_of_lt (by omega), Nat.mod_eq_of_lt (by omega)⟩

/-- The used counts of a valid command (R173). -/
theorem countsValid_of_bounds
    (h : ((c.op = .write ∨ c.op = .dmaWrite) ∧ 1 ≤ c.args.wlen.toNat ∧ c.args.wlen.toNat ≤ 65535) ∨
      ((c.op = .read ∨ c.op = .dmaRead) ∧ 1 ≤ c.args.rlen.toNat ∧ c.args.rlen.toNat ≤ 65535 ∧
        (c.args.restart = true → 1 ≤ c.args.wlen.toNat ∧ c.args.wlen.toNat ≤ 32))) : countsValid c = true := by
  rw [← Bool.not_eq_false]
  intro hinvalid
  rcases h with ⟨hop, h1, h2⟩ | ⟨hop, h1, h2, h3⟩
  · have hwrite : isReadOp c.op = false := by rcases hop with e | e <;> rw [e] <;> rfl
    rw [countsValid_of_write hwrite, countValid_eq_false_iff] at hinvalid
    omega
  · have hread : isReadOp c.op = true := by rcases hop with e | e <;> rw [e] <;> rfl
    rw [countsValid_eq_false_of_read hread, countValid_eq_false_iff] at hinvalid
    rcases hinvalid with h | ⟨hr, h⟩
    · omega
    · have := h3 hr
      omega

end

/-- An idle instance admits a command with valid counts (R174). -/
theorem exec_command_admitted {c : Cmd} {s : State} {d : Device} (hd : s.devs[c.args.dev.toNat]? = some d)
    (hidle : d.tp.busy = false) (hc : countsValid c = true) : exec c.instr s = .next (s.admitted c d) := by
  rw [exec_command_present hd, admission_of_idle c hidle, if_pos hc]
  rfl

/-- Settles O9: the new snapshot is `startTP`, and its counters are those of the sizing rules. -/
theorem admissionSetsUpTheSnapshot : Obligations.AdmissionSetsUpTheSnapshot := by
  unfold Obligations.AdmissionSetsUpTheSnapshot
  intro c s d hd hidle hbounds
  have hc := countsValid_of_bounds hbounds
  have hlen := startTP_totalLen (p := s.params) hc
  have hsizing := startTransaction_sizing (p := s.params) (d := d) hc s.host
  refine ⟨startTP s.params c, exec_command_admitted hd hidle hc, rfl, rfl, rfl, rfl, rfl, rfl, rfl, fun hop => ?_,
    fun hop => ?_, fun hop => ?_, fun hop => ?_⟩
  · obtain ⟨-, hunits⟩ := hsizing.write_unstaged rfl hop (.inl rfl)
    refine ⟨?_, ?_, by simpa [cmdLen, isReadOp, hop] using hlen, ?_, hunits⟩ <;>
      simp [startTP, phaseOf, cmdBuf, isReadOp, burstRemainder, hop]
  · refine ⟨?_, ?_, by simpa [cmdLen, isReadOp, hop] using hlen, ?_, ?_⟩ <;>
      simp [startTP, phaseOf, cmdBuf, isReadOp, burstCount, burstRemainder, hop]
  · obtain ⟨hunits, hrem⟩ := startTP_read_units (p := s.params) hop hc
    refine ⟨?_, ?_, by simpa [cmdLen, isReadOp, hop] using hlen, hunits, hrem, ?_⟩
    · simp [startTP, phaseOf, hop]
    · simp [startTP, cmdBuf, isReadOp, hop]
    · rw [hunits, hrem]
      exact Nat.div_add_mod c.args.rlen.toNat s.params.rdBurstBytes
  · refine ⟨?_, ?_, by simpa [cmdLen, isReadOp, hop] using hlen, ?_, ?_⟩ <;>
      simp [startTP, phaseOf, cmdBuf, isReadOp, burstCount, burstRemainder, hop]

/-! ### Two hosts race for an instance (R84, R315) -/

/-- The admission of one host's command keeps no other host waiting. -/
theorem waiting_of_admitted {h : Nat} {s : State} {c : Cmd} {d : Device} (hh : s.host ≠ h) (hw : waiting h s.devs = false) :
    waiting h (s.admitted c d).devs = false := by
  simp only [waiting, List.any_eq_false] at hw ⊢
  intro v hv
  rcases List.mem_or_eq_of_mem_set hv with hv | rfl
  · exact hw v hv
  · simp [startTransaction, hh]

/-- Settles O11: the first command makes the instance busy in one step, and the second finds it so. -/
theorem admissionIsAtomic : Obligations.AdmissionIsAtomic := by
  unfold Obligations.AdmissionIsAtomic
  intro c₁ c₂ s d h₁ h₂ ws₁ ws₂ rest hdec₁ hdec₂ hagenda hne hfree₁ hfree₂ hdev hd hidle hc₁ _
  let s₁ : State := { s with agenda := .host h₂ ws₂ :: rest, host := h₁ }
  let t : State := s₁.admitted c₁ d
  let v : Device := startTransaction s.params h₁ c₁ d
  have hv : t.devs[c₁.args.dev.toNat]? = some v := List.getElem?_set_self (List.getElem?_eq_some_iff.mp hd).choose
  have hfree : waiting h₂ t.devs = false := waiting_of_admitted (s := s₁) hne hfree₂
  have hfirst : step s = .next t := by
    rw [step_cons hagenda, runMove, commandPort_free (s := { s with agenda := .host h₂ ws₂ :: rest }) hfree₁ hdec₁]
    exact exec_command_admitted (s := s₁) hd hidle hc₁
  let t₂ : State := { t with agenda := rest, host := h₂ }
  have hsecond : step t = .next (t₂.rejected c₂ .busy) := by
    have hv₂ : t₂.devs[c₂.args.dev.toNat]? = some v := by rw [hdev]; exact hv
    rw [step_cons (s := t) (m := .host h₂ ws₂) (rest := rest) rfl, runMove,
      commandPort_free (s := { t with agenda := rest }) hfree hdec₂]
    exact (exec_command_present hv₂).trans (by rw [admission_of_busy c₂ rfl]; rfl)
  exact ⟨t, t₂.rejected c₂ .busy, v, hfirst, hsecond, hv, rfl, rfl, rfl, rfl, rfl, rfl, rfl, rfl⟩

end Sys2Proof.Machine
end

section
/-! PROOFS. R182 to R184, R284, R315: the wake and the timeout at S9. R51: the power-on state under the invariants. -/

namespace Sys2Proof.Machine

/-- Becoming what it is changes nothing of the machine. -/
theorem State.become_self {s : State} {d : Device} (hd : s.InHand d) : s.become d s.mem [] = s := by
  have h : s.devs.set s.cur d = s.devs := by
    obtain ⟨hl, e⟩ := List.getElem?_eq_some_iff.mp hd
    rw [← e, List.set_getElem_self]
  unfold State.become
  rw [h]
  rfl

/-- A timeout that does what the timer does of its instance. -/
theorem step_tmr_become {s : State} {d v : Device} {rest : List Move} (hagenda : s.agenda = .tmr s.cur :: rest)
    (hd : s.InHand d) (hf : timerExpire (s.ctx s.cur d) = { s.ctx s.cur d with dev := v }) :
    step s = .next ({ s with agenda := rest }.become v s.mem []) := by
  rw [step_cons hagenda]
  exact envOn_become (s := { s with agenda := rest }) hd hf

/-- With the signal set both moves at S9 are the wake: the signal wins (R182, R183, R315). -/
theorem s9_signalled {l : Ctx} (hen : seqEnabled l.dev = true) (hseq : l.dev.seq = .s9) (hsig : l.dev.sig = true) :
    seqStep l = .next (wake l) ∧ timerExpire l = wake l := by
  simp [seqStep, timerExpire, hseq, hen, hsig]

/-- Without it the sequencer has no move at S9, and the timer's is the timeout (R184, R284). -/
theorem s9_unsignalled {l : Ctx} (hen : seqEnabled l.dev = true) (hseq : l.dev.seq = .s9) (hsig : l.dev.sig = false) :
    seqStep l = .next l ∧ timerExpire l = expire l := by
  simp [seqStep, timerExpire, hseq, hen, hsig]

/-- Settles O14: at S9 both moves look at the signal first, and elsewhere the timer's guard is closed. -/
theorem signalWakesAndTimeoutExpires : Obligations.SignalWakesAndTimeoutExpires := by
  unfold Obligations.SignalWakesAndTimeoutExpires
  intro s d m rest hagenda hd hen hm
  have hself : ({ s with agenda := rest } : State).become d s.mem [] = { s with agenda := rest } := State.become_self hd
  refine ⟨fun hseq hsig => ?_, fun hseq hsig hm => ?_, fun hseq hsig hm => ?_, fun hseq hm => ?_⟩
  · obtain ⟨hwake, htimer⟩ := s9_signalled (l := s.ctx s.cur d) hen hseq hsig
    rcases hm with rfl | rfl
    · exact step_seq_become (obs := []) hagenda hd hen hwake
    · exact step_tmr_become hagenda hd htimer
  · subst hm
    exact step_tmr_become hagenda hd (s9_unsignalled (l := s.ctx s.cur d) hen hseq hsig).2
  · subst hm
    rw [← hself]
    exact step_seq_become (obs := []) hagenda hd hen (s9_unsignalled (l := s.ctx s.cur d) hen hseq hsig).1
  · subst hm
    rw [← hself]
    exact step_tmr_become hagenda hd (if_neg fun h => hseq h.1)

/-- The power-on instance meets the control invariant. -/
theorem Device.reset_control (p : Config.Params) : Device.reset.Control p :=
  Device.Control.at_rest rfl rfl rfl rfl rfl ⟨rfl, rfl⟩ rfl rfl

/-- Settles O51: the one instance is at the baseline, and nothing is listed in either memory. -/
theorem resetMeetsInvariants : Obligations.ResetMeetsInvariants := by
  unfold Obligations.ResetMeetsInvariants
  have hone : ∀ {d : Device}, d ∈ State.reset.devs → d = .reset := List.mem_singleton.mp
  refine ⟨⟨⟨fun d hd => ?_, fun i j d v hi hj hbusy => ?_⟩, fun d hd => ?_⟩, reset_memory_wf, fun d hd => ?_⟩
  · exact hone hd ▸ Device.reset_control _
  · rw [hone (List.mem_of_getElem? hi)] at hbusy
    cases hbusy
  · exact hone hd ▸ Device.Sizing.of_idle rfl
  · exact hone hd ▸ rfl

end Sys2Proof.Machine
end

section
/-! PROOFS. R223, R243, R316, R317: what a handler run leaves as it was of its instance, whatever falls between its accesses, and how
the run ends: returned with the line looked at, or stuck with the run bit set. -/

namespace Sys2Proof.Machine

/-- What no act of a handler run changes of its instance: the sequencer's step and context, the mapping, the run in progress, the
agents that are stuck, the phase and the transaction's constants (R223, R316). -/
structure RunConstants where
  seq : SeqStep
  cmdl : Cmd
  res : Result
  map : MapRec
  caller : Nat
  seqStuck : Bool
  iepStuck : Bool
  handle : Handle
  epoch : Nat
  iepRun : Bool
  phase : Phase
  busy : Bool
  dev : BitVec 8
  buf : Word
  totalLen : BitVec 16
  burstRem : BitVec 4

/-- The constants of a run, of an instance. -/
def Device.constants (d : Device) : RunConstants :=
  ⟨d.seq, d.cmdl, d.res, d.map, d.caller, d.stuck.seq, d.stuck.iep, d.handle, d.epoch, d.iepRun, d.tp.phase, d.tp.busy,
    d.tp.dev, d.tp.buf, d.tp.totalLen, d.tp.burstRem⟩

theorem Device.SameProgramme.constants {d v : Device} (h : d.SameProgramme v) : v.constants = d.constants := by
  simp only [Device.SameProgramme] at h
  simp [Device.constants, h]

/-- The instance in hand has the constants `k`. -/
def Ctx.Constant (k : RunConstants) (l : Ctx) : Prop := l.dev.constants = k

section
variable {k : RunConstants} {l m : Ctx}

theorem EnvFrame.constant (hf : EnvFrame l m) (h : l.Constant k) : m.Constant k := hf.programme.constants.trans h

theorem Ctx.Constant.pump (h : l.Constant k) : (pump l).Constant k := (pump_frame l).constant h

theorem Ctx.Constant.regWrite {r : Reg} {v : Word} (h : l.Constant k) : (regWrite r v l).Constant k := by
  have hpoke : (poke r v (Machine.pump l).dev).constants = (Machine.pump l).dev.constants := by simp [Device.constants]
  rw [Ctx.Constant, regWrite_dev]
  exact hpoke.trans h.pump

theorem Ctx.Constant.rmw {r : Reg} {mask v : Word} (h : l.Constant k) : (rmw r mask v l).Constant k := h.pump.regWrite

theorem Ctx.Constant.pulse {r : Reg} {mask : Word} (h : l.Constant k) : (pulse r mask l).Constant k := h.regWrite.regWrite

/-! ### A handler run keeps the constants -/

theorem Fetched.constant {n : Nat} (hf : Fetched n l m) (h : l.Constant k) : m.Constant k :=
  hf.frame.constant (l := l.mapTP fun tp => { tp with dataOff := tp.dataOff + BitVec.ofNat 32 n }) h

theorem drainWords_constant {n : Nat} {s : Slot} (h : l.Constant k) : (drainWords n s l).Keeps (Ctx.Constant k) :=
  ((drainWords_ends n s l).mono fun _ ⟨off, hf⟩ =>
    hf.constant (l := l.mapTP fun tp => { tp with dataOff := off }) h).keeps

theorem finishRead_constant (h : l.Constant k) : (finishRead l).Keeps (Ctx.Constant k) := by
  unfold finishRead
  simp only
  split
  · exact h
  · exact ((writeBytes_ends _ _ _).mono fun _ hf => hf.constant ((gatherWords_frame _ _ l).constant h)).keeps.andThen
      fun _ hm => hm

theorem HandlerAct.constant (ha : HandlerAct l m) (h : l.Constant k) : m.Constant k := by
  cases ha with
  | moves => exact h.pump
  | clear => exact h.pulse
  | disable => exact h.rmw
  | ackDma => exact h.regWrite
  | flags => exact h
  | unit l' _ _ _ hf => exact (hf.constant h).regWrite
  | slot l' _ _ _ _ hw => exact (Res.keeps_next.mp (hw ▸ drainWords_constant h)).pulse
  | finish _ _ _ hf => exact Res.keeps_next.mp (hf ▸ finishRead_constant h)
  | success => exact h
  | fail e =>
    exact Ctx.Constant.rmw (l := (l.mapTP fun tp =>
      { tp with result := e, irq := { tp.irq with activeDone := true } }).mapDev signal) h

theorem HandlerActs.constant (ha : HandlerActs l m) (h : l.Constant k) : m.Constant k :=
  ha.induct (fun _ _ ha h => ha.constant h) h

theorem HandlerStop.constant (hs : HandlerStop l m) (h : l.Constant k) : m.Constant k := by
  cases hs with
  | unit l' _ _ _ _ hf => exact (hf.constant h).pump
  | slot _ _ _ _ hw => exact Res.keeps_stuck.mp (hw ▸ drainWords_constant h)
  | finish _ _ _ hf => exact Res.keeps_stuck.mp (hf ▸ finishRead_constant h)

end

/-- The instance after a handler run of `d`: it has returned and looked at the line, or it is stuck with the run bit set; the rest
of the constants are those of `d`. -/
structure Device.RunEnded (p : Config.Params) (d v : Device) : Prop where
  run : v.iepRun = v.stuck.iep
  pending : v.Latched p
  same : { v.constants with iepRun := d.iepRun, iepStuck := d.stuck.iep } = d.constants

theorem handlerReturn_ended {p : Config.Params} {d : Device} {m : Ctx} (hp : m.params = p) (hfree : d.stuck.iep = false)
    (hm : m.Constant { d.constants with iepRun := true }) : d.RunEnded p (handlerReturn m).dev where
  run := (hfree.symm.trans (congrArg RunConstants.iepStuck hm).symm)
  pending := hp ▸ latch_latched _ _ _
  same := congrArg (fun k => { k with iepRun := d.iepRun, iepStuck := d.stuck.iep }) hm

theorem handlerStuck_ended {p : Config.Params} {d : Device} {m : Ctx} (hm : m.Constant { d.constants with iepRun := true }) :
    d.RunEnded p (halt .iep m.dev) where
  run := congrArg RunConstants.iepRun hm
  pending hr := by
    have hrun : m.dev.iepRun = true := congrArg RunConstants.iepRun hm
    rw [show m.dev.iepRun = false from hr] at hrun
    cases hrun
  same := congrArg (fun k => { k with iepRun := d.iepRun, iepStuck := d.stuck.iep }) hm

/-- The parameters, like the place of the instance, stand through an agent's step. -/
theorem params_stable (p : Config.Params) : Stable fun l => l.params = p where
  own := fun _ _ _ _ _ h => h
  pump := fun l h => (pump_params l).trans h

/-- A handler run that starts ends as `RunEnded` says. -/
theorem irqMove_ended {c : Ctx} (hen : handlerEnabled c.dev = true) :
    (irqMove c).Leaves .iep fun l => c.dev.RunEnded c.params l.dev := by
  have hfree : c.dev.stuck.iep = false := by
    simp only [handlerEnabled, Bool.and_eq_true, Bool.not_eq_true'] at hen
    exact hen.2
  have h0 : (handlerEnter c).Constant { c.dev.constants with iepRun := true } := rfl
  rw [irqMove, if_pos hen]
  rcases handlerRun_acts c with ⟨m, hacts, e⟩ | ⟨m, l, hacts, hstop, e⟩ <;> rw [e]
  · exact handlerReturn_ended (hacts.stable (params_stable c.params) rfl) hfree (hacts.constant h0)
  · exact handlerStuck_ended (hstop.constant (hacts.constant h0))

/-- How a move of instance `k` leaves its instance, the machine holds it. -/
theorem moveOn_leaves_self {ag : Agent} {k : Nat} {f : Ctx → Res} {s t : State} {d v : Device} {R : Device → Prop}
    (hd : s.devs[k]? = some d) (hv : t.devs[k]? = some v) (hplace : (f (s.ctx k d)).Keeps fun l => l.Placed ∧ l.id = k)
    (hf : (f (s.ctx k d)).Leaves ag fun l => R l.dev) (h : moveOn ag k f s = .next t) : R v := by
  have put : ∀ m : Ctx, m.Placed ∧ m.id = k → t = s.putCtx m → v = m.dev := by
    rintro m ⟨hp, rfl⟩ rfl
    exact Option.some.inj (hv.symm.trans (State.putCtx_getElem? hp))
  rcases moveOn_next h with ⟨hn, -⟩ | ⟨d', l, hd', hl⟩
  · rw [hd] at hn
    cases hn
  · obtain rfl : d = d' := Option.some.inj (hd.symm.trans hd')
    rcases hl with ⟨e, ht⟩ | ⟨e, ht⟩ <;> rw [e] at hplace hf
    · exact put l hplace ht ▸ hf
    · exact put (l.mapDev (halt ag)) hplace ht ▸ hf

/-- Settles O32: a run's guard is `handlerEnabled`, its acts change none of the constants, and its return looks at the line. -/
theorem handlerEntryAndReturn : Obligations.HandlerEntryAndReturn := by
  unfold Obligations.HandlerEntryAndReturn
  intro s d rest hagenda hd
  have hd' : ({ s with agenda := rest } : State).InHand d := hd
  rw [step_cons hagenda]
  refine ⟨fun hidle => ?_, fun hen t v hstep hv => ?_⟩
  · exact moveOn_idle hd' (if_neg (by simp [hidle]))
  · have hplace := irqMove_stable (placed_stable s.cur) ⟨State.ctx_placed hd', rfl⟩
    obtain ⟨hrun, hpend, hsame⟩ : d.RunEnded s.params v := moveOn_leaves_self hd' hv hplace (irqMove_ended hen) hstep
    simp only [Device.constants, RunConstants.mk.injEq, true_and] at hsame
    obtain ⟨hseq, hcmdl, hres, hmap, hcaller, hstuck, hhandle, hepoch, hphase, hbusy, hdev, hbuf, hlen, hrem⟩ := hsame
    exact ⟨hrun, hpend, hseq, hcmdl, hres, hmap, hcaller, hstuck, hhandle, hepoch, hphase, hbusy, hdev, hbuf, hlen, hrem⟩

end Sys2Proof.Machine
end

section
/-! PROOFS. R114, R170, R175 to R181, R220, R224, R225, R232: the sequencer's steps and the handler run are the meanings of their
instructions one after another. An agent's operation on the instance in hand and the machine's execution of instructions are taken
through the same outcomes, so that a chain of the one is a chain of the other. -/

namespace Sys2Proof.Machine

/-! ### Operations of an agent and outcomes of the machine -/

/-- How the machine stands after an operation of an agent of the instance in hand. -/
def State.after (s : State) (ag : Agent) : Res → Host.Outcome State Fault Refusal
  | .next l => .next (s.putCtx l)
  | .stuck l => .next (s.putCtx (l.mapDev (halt ag)))
  | .refused e => .refused e

/-- Go on with `k` where the machine goes on and the agent is not stuck (R78). -/
def proceed (ag : Agent) (o : Host.Outcome State Fault Refusal) (k : State → Host.Outcome State Fault Refusal) :
    Host.Outcome State Fault Refusal :=
  match o with
  | .next t => if t.isStuck ag then .next t else k t
  | .fault e => .fault e
  | .refused e => .refused e

theorem execAll_cons (ag : Agent) (i : Instr) (rest : List Instr) (s : State) :
    execAll ag (i :: rest) s = proceed ag (exec i s) (execAll ag rest) := rfl

/-- The context of the instance in hand of the machine `s`, as an agent that is not stuck has it. -/
structure Ctx.Works (s : State) (ag : Agent) (l : Ctx) : Prop where
  placed : l.Placed
  id : l.id = s.cur
  params : l.params = s.params
  free : l.dev.isStuck ag = false

section
variable {s : State} {ag : Agent} {l m : Ctx}

theorem State.ctx_works {d : Device} (hd : s.InHand d) (hfree : d.isStuck ag = false) : (s.ctx s.cur d).Works s ag :=
  ⟨State.ctx_placed hd, rfl, rfl, hfree⟩

theorem onInstance_after {d : Device} (hd : s.InHand d) (f : Ctx → Res) :
    onInstance ag s.cur f s = s.after ag (f (s.ctx s.cur d)) := by
  rw [onInstance_inHand hd]
  cases f (s.ctx s.cur d) <;> rfl

theorem Ctx.Works.inHand (h : l.Works s ag) : (s.putCtx l).InHand l.dev := by
  have := State.putCtx_getElem? (s := s) h.placed
  rwa [h.id] at this

/-- An operation on the machine that holds a context is the operation on the context. -/
theorem Ctx.Works.onInstance (h : l.Works s ag) (ag' : Agent) (f : Ctx → Res) :
    onInstance ag' s.cur f (s.putCtx l) = s.after ag' (f l) := by
  have hctx : (s.putCtx l).ctx s.cur l.dev = l := by
    rw [← h.id]
    exact State.ctx_putCtx h.placed h.params
  have e : Machine.onInstance ag' s.cur f (s.putCtx l) = (s.putCtx l).after ag' (f ((s.putCtx l).ctx s.cur l.dev)) :=
    onInstance_after h.inHand f
  rw [e, hctx]
  cases f l <;> simp only [State.after, State.putCtx_putCtx]

theorem Ctx.Works.onInstanceDo (h : l.Works s ag) (f : Ctx → Ctx) :
    onInstanceDo s.cur f (s.putCtx l) = .next (s.putCtx (f l)) := h.onInstance .seq fun l => .next (f l)

/-- Whether the agent is stuck, of the machine that holds a context. -/
theorem isStuck_putCtx (hp : l.Placed) (hid : l.id = s.cur) (ag : Agent) : (s.putCtx l).isStuck ag = l.dev.isStuck ag := by
  have hd : (s.putCtx l).InHand l.dev := by
    have := State.putCtx_getElem? (s := s) hp
    rwa [hid] at this
  exact hd.isStuck ag

/-- An operation that leaves its agent free where it goes on, and the instance in its place where it is stuck. -/
def Res.Yields (s : State) (ag : Agent) (r : Res) : Prop :=
  r.Within True (fun l => l.Placed ∧ l.id = s.cur) (Ctx.Works s ag)

/-- Going on with the machine is going on with the context. -/
theorem proceed_after {r : Res} {k : State → Host.Outcome State Fault Refusal} {f : Ctx → Res} (hr : r.Yields s ag)
    (hk : ∀ l, l.Works s ag → k (s.putCtx l) = s.after ag (f l)) :
    proceed ag (s.after ag r) k = s.after ag (andThen r f) := by
  cases r with
  | next l =>
    have hw : l.Works s ag := hr
    simp only [State.after, proceed, isStuck_putCtx hw.placed hw.id, hw.free, andThen_next, Bool.false_eq_true, if_false]
    exact hk l hw
  | stuck l =>
    obtain ⟨-, hp, hid⟩ := hr
    have hstuck : (s.putCtx (l.mapDev (halt ag))).isStuck ag = true := by
      rw [isStuck_putCtx (l := l.mapDev (halt ag)) hp hid]
      cases ag <;> rfl
    simp only [State.after, proceed, hstuck, andThen_stuck, if_true]
  | refused e => rfl

/-! ### A register primitive after another -/

theorem Ctx.Works.pump (h : l.Works s ag) : (pump l).Works s ag := by
  obtain ⟨hp, hid⟩ := (placed_stable s.cur).pump l ⟨h.placed, h.id⟩
  have hsame := pump_sameProgramme l
  simp only [Device.SameProgramme] at hsame
  refine ⟨hp, hid, (pump_params l).trans h.params, ?_⟩
  rw [← h.free]
  cases ag <;> simp [Device.isStuck, hsame]

theorem Ctx.Works.regWrite (h : l.Works s ag) (r : Reg) (v : Word) : (regWrite r v l).Works s ag := by
  have hp := h.pump
  refine ⟨hp.placed, (regWrite_id r v l).trans h.id, (regWrite_params r v l).trans h.params, ?_⟩
  rw [regWrite_dev, ← hp.free]
  cases ag <;> simp [Device.isStuck]

theorem Ctx.Works.rmw (h : l.Works s ag) (r : Reg) (mask v : Word) : (rmw r mask v l).Works s ag := h.pump.regWrite r _

/-- A primitive that is one operation of the instance in hand. -/
def Performs (i : Instr) (f : Ctx → Ctx) : Prop := ∀ t : State, exec i t = onInstanceDo t.cur f t

theorem performs_modeSet {m : ModeMask} {rw re : Bool} (h : modeAllowed m rw re = true) (au : Bool) :
    Performs (.modeSet m rw re au) (modeSet m rw re au) := fun _ => if_pos h

theorem Performs.exec {i : Instr} {f : Ctx → Ctx} (hi : Performs i f) (h : l.Works s ag) :
    exec i (s.putCtx l) = .next (s.putCtx (f l)) := (hi _).trans (h.onInstanceDo f)

/-- The first primitive of a list is executed, and the rest after it. -/
theorem execAll_next {i : Instr} (hi : exec i (s.putCtx l) = .next (s.putCtx m)) (hm : m.Works s ag)
    (rest : List Instr) : execAll ag (i :: rest) (s.putCtx l) = execAll ag rest (s.putCtx m) := by
  rw [execAll_cons, hi, proceed, isStuck_putCtx hm.placed hm.id, hm.free]
  rfl

end

/-! ### The sequencer's steps -/

/-- The restart bit S4 programs is admitted (R144, R177). -/
theorem modeAllowed_cmdRestart (c : Cmd) : modeAllowed .direction (isReadOp c.op) (cmdRestart c) = true := by
  cases h : isReadOp c.op <;> simp [modeAllowed, cmdRestart, h]

section
variable {l : Ctx}

theorem seqStep_s2 (h : l.dev.seq = .s2) : seqStep l = .next (goto .s3 (ctrlReset l)) := by simp only [seqStep, h]

theorem seqStep_s3 (h : l.dev.seq = .s3) :
    seqStep l = .next (goto .s4 (addrSet l.dev.cmdl.args.addr (clkdivSet l.dev.cmdl.args.freq l))) := by
  simp only [seqStep, h]

theorem seqStep_s4 (h : l.dev.seq = .s4) :
    seqStep l = .next (goto .s5 (cntSet (cmdWrCnt l.dev.cmdl) (cmdRdCnt l.dev.cmdl)
      (modeSet .direction (isReadOp l.dev.cmdl.op) (cmdRestart l.dev.cmdl) false l))) := by simp only [seqStep, h]

theorem seqStep_s5 (h : l.dev.seq = .s5) : seqStep l = andThen (stage l) fun l => .next (goto .s6 l) := by
  simp only [seqStep, h]

theorem seqStep_s6 (h : l.dev.seq = .s6) :
    seqStep l = .next (goto .s7 (modeSet .auto false false (isDmaOp l.dev.cmdl.op) l)) := by simp only [seqStep, h]

theorem seqStep_s7 (h : l.dev.seq = .s7) : seqStep l = .next (goto .s8 (arm l)) := by simp only [seqStep, h]

theorem seqStep_s8 (h : l.dev.seq = .s8) : seqStep l = andThen (start l) fun l => .next (goto .s9 l) := by
  simp only [seqStep, h]

/-- S7 enables the path's interrupts, and those of the DMA block on a DMA path (R180). -/
theorem arm_eq (l : Ctx) :
    arm l =
      if isDmaOp l.dev.cmdl.op then dmaIntenSet 0x01 (intenSet (cmdInten l.dev.cmdl l.dev.tp.burstCnt) l)
      else intenSet (cmdInten l.dev.cmdl l.dev.tp.burstCnt) l := rfl

end

section
variable {s : State} {d : Device} {rest : List Move} (hagenda : s.agenda = .seq s.cur :: rest) (hd : s.InHand d)
  (hen : seqEnabled d = true)
include hagenda hd hen

/-- A step of the sequencer that is enabled. -/
theorem step_seq_after :
    step s = ({ s with agenda := rest } : State).after .seq (seqStep (({ s with agenda := rest } : State).ctx s.cur d)) := by
  have hd' : ({ s with agenda := rest } : State).InHand d := hd
  have hmove := onInstance_after (ag := .seq) hd' seqMove
  rw [seqMove, if_pos (show seqEnabled (State.ctx _ s.cur d).dev = true from hen)] at hmove
  rw [step_cons hagenda]
  exact (moveOn_some (s := { s with agenda := rest }) hd').trans hmove

/-- A step whose primitives, executed one after another, come to `m`. -/
theorem step_seq_performs {is : List Instr} {q : SeqStep} {m : Ctx}
    (hstep : seqStep (({ s with agenda := rest } : State).ctx s.cur d) = .next (goto q m))
    (hm : m.Works { s with agenda := rest } .seq)
    (hexec : execAll .seq is { s with agenda := rest } = .next (({ s with agenda := rest } : State).putCtx m)) :
    step s =
      match execAll .seq is { s with agenda := rest } with
      | .next t => onInstanceDo s.cur (goto q) t
      | .fault e => .fault e
      | .refused e => .refused e := by
  rw [step_seq_after hagenda hd hen, hstep, hexec]
  exact (hm.onInstanceDo (goto q)).symm

end

/-- Settles O7: each rule's primitives are performed in order, and only `DMA_GO` can be refused. -/
theorem sequencerStepsExecuteTheirPrograms : Obligations.SequencerStepsExecuteTheirPrograms := by
  unfold Obligations.SequencerStepsExecuteTheirPrograms
  intro s d rest is q hagenda hd hen hprog
  have hfree : d.isStuck .seq = false := by
    simp only [seqEnabled, Bool.and_eq_true, Bool.not_eq_true'] at hen
    exact hen.2
  let s' : State := { s with agenda := rest }
  let c : Ctx := s'.ctx s.cur d
  have hd' : s'.InHand d := hd
  have hw : c.Works s' .seq := State.ctx_works hd' hfree
  have hput : s'.putCtx c = s' := State.putCtx_ctx hd'
  have one : ∀ {i : Instr} {m : Ctx}, exec i (s'.putCtx c) = .next (s'.putCtx m) → m.Works s' .seq →
      execAll .seq [i] s' = .next (s'.putCtx m) := fun hi hm =>
    (congrArg (execAll .seq _) hput.symm).trans (execAll_next hi hm [])
  have two : ∀ {i j : Instr} {m n : Ctx}, exec i (s'.putCtx c) = .next (s'.putCtx m) → m.Works s' .seq →
      exec j (s'.putCtx m) = .next (s'.putCtx n) → n.Works s' .seq → execAll .seq [i, j] s' = .next (s'.putCtx n) :=
    fun hi hm hj hn => (congrArg (execAll .seq _) hput.symm).trans ((execAll_next hi hm _).trans (execAll_next hj hn []))
  have simple : ∀ {i : Instr} {f : Ctx → Ctx} {m : Ctx}, Performs i f → m.Works s' .seq →
      exec i (s'.putCtx m) = .next (s'.putCtx (f m)) := fun hi hm => hi.exec hm
  cases hseq : d.seq with
  | sidle | s0 | s1 | s5 | s9 | s10 | s11 => simp [seqProgram, hseq] at hprog
  | s2 =>
    simp only [seqProgram, hseq, Option.some.injEq, Prod.mk.injEq] at hprog
    obtain ⟨rfl, rfl⟩ := hprog
    have h1 : (ctrlReset c).Works s' .seq := hw.rmw _ _ _
    exact step_seq_performs hagenda hd hen (seqStep_s2 hseq) h1 (one (simple (fun _ => rfl) hw) h1)
  | s3 =>
    simp only [seqProgram, hseq, Option.some.injEq, Prod.mk.injEq] at hprog
    obtain ⟨rfl, rfl⟩ := hprog
    have h1 : (clkdivSet d.cmdl.args.freq c).Works s' .seq := hw.rmw _ _ _
    have h2 : (addrSet d.cmdl.args.addr (clkdivSet d.cmdl.args.freq c)).Works s' .seq := h1.rmw _ _ _
    exact step_seq_performs hagenda hd hen (seqStep_s3 hseq) h2
      (two (simple (fun _ => rfl) hw) h1 (simple (fun _ => rfl) h1) h2)
  | s4 =>
    simp only [seqProgram, hseq, Option.some.injEq, Prod.mk.injEq] at hprog
    obtain ⟨rfl, rfl⟩ := hprog
    have h1 : (modeSet .direction (isReadOp d.cmdl.op) (cmdRestart d.cmdl) false c).Works s' .seq := hw.rmw _ _ _
    have h2 := h1.regWrite .mCnt (cmdRdCnt d.cmdl ++ cmdWrCnt d.cmdl)
    exact step_seq_performs hagenda hd hen (seqStep_s4 hseq) h2
      (two (simple (performs_modeSet (modeAllowed_cmdRestart d.cmdl) false) hw) h1
        (simple (f := cntSet (cmdWrCnt d.cmdl) (cmdRdCnt d.cmdl)) (fun _ => rfl) h1) h2)
  | s6 =>
    simp only [seqProgram, hseq, Option.some.injEq, Prod.mk.injEq] at hprog
    obtain ⟨rfl, rfl⟩ := hprog
    have h1 : (modeSet .auto false false (isDmaOp d.cmdl.op) c).Works s' .seq := hw.rmw _ _ _
    exact step_seq_performs hagenda hd hen (seqStep_s6 hseq) h1 (one (simple (performs_modeSet rfl _) hw) h1)
  | s7 =>
    simp only [seqProgram, hseq, Option.some.injEq, Prod.mk.injEq] at hprog
    obtain ⟨rfl, rfl⟩ := hprog
    have h1 : (intenSet (cmdInten d.cmdl d.tp.burstCnt) c).Works s' .seq := hw.rmw _ _ _
    have hstep := (seqStep_s7 (l := c) hseq).trans (by rw [arm_eq])
    cases hdma : isDmaOp d.cmdl.op with
    | false =>
      rw [if_neg (show ¬isDmaOp c.dev.cmdl.op = true by simp [c, hdma])] at hstep
      exact step_seq_performs hagenda hd hen hstep h1 (one (simple (fun _ => rfl) hw) h1)
    | true =>
      have h2 : (dmaIntenSet 0x01 (intenSet (cmdInten d.cmdl d.tp.burstCnt) c)).Works s' .seq := h1.rmw _ _ _
      rw [if_pos (show isDmaOp c.dev.cmdl.op = true from hdma)] at hstep
      exact step_seq_performs hagenda hd hen hstep h2 (two (simple (fun _ => rfl) hw) h1 (simple (fun _ => rfl) h1) h2)
  | s8 =>
    simp only [seqProgram, hseq, Option.some.injEq, Prod.mk.injEq] at hprog
    obtain ⟨rfl, rfl⟩ := hprog
    have hstep := seqStep_s8 (l := c) hseq
    cases hdma : isDmaOp d.cmdl.op with
    | false =>
      have h1 : (trigger c).Works s' .seq := hw.rmw _ _ _
      rw [start, if_neg (show ¬isDmaOp c.dev.cmdl.op = true by simp [c, hdma])] at hstep
      exact step_seq_performs hagenda hd hen hstep h1 (one (simple (fun _ => rfl) hw) h1)
    | true =>
      have hgo := exec_dmaGo hd'
      rw [start, if_pos (show isDmaOp c.dev.cmdl.op = true from hdma), dmaGo] at hstep
      by_cases hdir : d.db.dir = d.mb.ctrl.rw
      · have h1 : (rmw .dCtrl 1 1 c).Works s' .seq := hw.rmw _ _ _
        rw [if_pos (show c.dev.db.dir = c.dev.mb.ctrl.rw from hdir)] at hstep
        rw [if_pos hdir] at hgo
        exact step_seq_performs hagenda hd hen hstep h1 (one (hput.symm ▸ hgo) h1)
      · rw [if_neg (show ¬c.dev.db.dir = c.dev.mb.ctrl.rw from hdir)] at hstep
        rw [if_neg hdir] at hgo
        have hall : execAll .seq [.dmaGo] s' = .refused .directionMismatch := by rw [execAll_cons, hgo]; rfl
        rw [step_seq_after hagenda hd hen, hstep]
        simp only [if_true]
        rw [hall]
        rfl

end Sys2Proof.Machine
end

section
/-! PROOFS. R114, R220, R224, R225, R232: a handler run reads and clears the status, executes the events its chains select, and does
the DMA part. The events are chained through `proceed_after`; each leaves a handler that goes on free. -/

namespace Sys2Proof.Machine

/-! ### The events selected, by the arm dispatched -/

/-- The events an arm acts on: of its flags, those that its events record. -/
def armEvents (f : IrqFlags) : Arm → List Instr
  | .none => []
  | .done => [.evActiveDone]
  | .nack => [if f.addrNack then .evAddrNack else .evDataNack]
  | .sclHold => [.evSclHold]
  | .fifoEmpty => [.evFifoEmpty]
  | .overflow => [.evRdOverflow]
  | .refill => if f.emptyThreshold then [.evEmptyThreshold] else []
  | .deliver => .evBurstSlot :: (if f.activeDone then [.evActiveDone] else [])

theorem armEvents_writeArm (tp : TP) :
    armEvents tp.irq (writeArm tp) =
      if tp.irq.activeDone then [.evActiveDone]
      else if tp.irq.addrNack then [.evAddrNack]
      else if tp.irq.dataNack then [.evDataNack]
      else if tp.irq.sclHold then [.evSclHold]
      else if tp.irq.fifoEmpty then [.evFifoEmpty]
      else if tp.phase = .write ∧ tp.burstCnt ≠ 0 ∧ tp.irq.emptyThreshold then [.evEmptyThreshold]
      else [] := by
  unfold writeArm
  split_ifs <;> simp_all [armEvents]

theorem armEvents_readArm (tp : TP) :
    armEvents tp.irq (readArm tp) =
      if tp.irq.addrNack then [.evAddrNack]
      else if tp.irq.dataNack then [.evDataNack]
      else if tp.irq.sclHold then [.evSclHold]
      else if tp.irq.rdOverflow then [.evRdOverflow]
      else if tp.irq.activeDone then [.evBurstSlot, .evActiveDone]
      else [.evBurstSlot] := by
  unfold readArm
  split_ifs <;> simp_all [armEvents]

theorem selectedEvents_eq (d : Device) : selectedEvents d = armEvents d.tp.irq (dispatchArm d) := by
  unfold selectedEvents dispatchArm
  cases d.sig with
  | true => rfl
  | false =>
    cases hp : d.tp.phase with
    | idle => rfl
    | write | dmaWrite => simp [armEvents_writeArm, hp]
    | read | dmaRead => simp [armEvents_readArm]

/-! ### An event leaves the handler free, or the instance in its place -/

section
variable {s : State} {l m : Ctx} {r : Res}

theorem HandlerActs.works (ha : HandlerActs l m) (h : l.Works s .iep) : m.Works s .iep := by
  obtain ⟨hp, hid⟩ := ha.stable (placed_stable s.cur) ⟨h.placed, h.id⟩
  exact ⟨hp, hid, ha.stable (params_stable s.params) h.params,
    (congrArg RunConstants.iepStuck (ha.constant (k := l.dev.constants) rfl)).trans h.free⟩

theorem Acts.yields (hr : Acts l r) (h : l.Works s .iep) : r.Yields s .iep := by
  cases r with
  | next m => exact HandlerActs.works hr h
  | stuck n =>
    obtain ⟨m, ha, hs⟩ := hr
    have hm := ha.works h
    exact ⟨trivial, hs.stable (placed_stable s.cur) ⟨hm.placed, hm.id⟩⟩
  | refused e => exact hr.elim

/-- One event executed. -/
theorem execAll_one {i : Instr} (hi : exec i (s.putCtx l) = s.after .iep r) (hr : r.Yields s .iep) :
    execAll .iep [i] (s.putCtx l) = s.after .iep r := by
  rw [execAll_cons, hi]
  have hend := proceed_after (k := execAll .iep []) (f := .next) hr fun _ _ => rfl
  refine hend.trans ?_
  cases r <;> rfl

/-! ### The drain keeps the flags decoded -/

/-- The flags decoded are `f`. -/
def Ctx.Decoded (f : IrqFlags) (l : Ctx) : Prop := l.dev.tp.irq = f

theorem EnvFrame.irq (hf : EnvFrame l m) : m.dev.tp.irq = l.dev.tp.irq := by
  have h := hf.programme
  simp only [Device.SameProgramme] at h
  simp [h]

theorem drainSlots_decoded {f : IrqFlags} {k : Nat} {fl : Byte} (h : l.Decoded f) : (drainSlots k fl l).Keeps (Ctx.Decoded f) := by
  induction k generalizing fl l with
  | zero => exact h
  | succ k ih =>
    rw [drainSlots]
    split_ifs
    · exact h
    · have hwords : (drainWords (burstWords l.params.burst16) l.dev.tp.regIdx l).Keeps (Ctx.Decoded f) :=
        ((drainWords_ends _ _ _).mono fun _ ⟨_, hf⟩ => hf.irq.trans h).keeps
      exact hwords.andThen fun n hn => ih ((congrArg TP.irq (pulse_tp _ _ n)).trans hn)

theorem evBurstSlot_decoded (l : Ctx) : (evBurstSlot l).Keeps (Ctx.Decoded l.dev.tp.irq) := by
  have hself : l.Decoded l.dev.tp.irq := rfl
  unfold evBurstSlot
  split
  · split_ifs
    · exact drainSlots_decoded (l := pump l) (congrArg TP.irq (pump_tp l))
    · exact hself
  · exact hself

/-! ### The dispatch -/

/-- Deliver: the burst slots, and then the finish where active-done was decoded. -/
theorem execAll_deliver (h : l.Works s .iep) :
    execAll .iep (armEvents l.dev.tp.irq .deliver) (s.putCtx l) =
      s.after .iep (andThen (evBurstSlot l) fun m => if m.dev.tp.irq.activeDone then evActiveDone m else .next m) := by
  have hflags : (andThen (evBurstSlot l) fun m => if m.dev.tp.irq.activeDone then evActiveDone m else .next m) =
      andThen (evBurstSlot l) fun m => if l.dev.tp.irq.activeDone then evActiveDone m else .next m := by
    have hkeep := evBurstSlot_decoded l
    cases he : evBurstSlot l with
    | next m =>
      rw [he] at hkeep
      simp only [andThen_next, show m.dev.tp.irq = l.dev.tp.irq from hkeep]
    | stuck m | refused e => rfl
  rw [hflags, armEvents, execAll_cons, show exec .evBurstSlot _ = _ from h.onInstance .iep evBurstSlot]
  refine proceed_after ((evBurstSlot_acts l).yields h) fun m hm => ?_
  split_ifs
  · exact execAll_one (hm.onInstance .iep evActiveDone) ((evActiveDone_acts m).yields hm)
  · rfl

/-- The dispatch is the execution of the events selected. -/
theorem execAll_selectedEvents (h : l.Works s .iep) :
    execAll .iep (selectedEvents l.dev) (s.putCtx l) = s.after .iep (dispatch l) := by
  have always : ∀ {i : Instr} {f : Ctx → Ctx}, Performs i f → HandlerActs l (f l) →
      execAll .iep [i] (s.putCtx l) = s.after .iep (.next (f l)) := fun hi ha =>
    execAll_one (hi.exec h) (ha.works h)
  rw [selectedEvents_eq, dispatch]
  cases dispatchArm l.dev with
  | none => rfl
  | done => exact execAll_one (h.onInstance .iep evActiveDone) ((evActiveDone_acts l).yields h)
  | nack =>
    simp only [armEvents]
    split_ifs
    · exact always (fun _ => rfl) (evAddrNack_acts l)
    · exact always (fun _ => rfl) (evDataNack_acts l)
  | sclHold => exact always (fun _ => rfl) (evSclHold_acts l)
  | fifoEmpty => exact always (fun _ => rfl) (evFifoEmpty_acts l)
  | overflow => exact always (fun _ => rfl) (evRdOverflow_acts l)
  | refill =>
    simp only [armEvents]
    split_ifs
    · exact execAll_one (h.onInstance .iep evEmptyThreshold) ((evEmptyThreshold_acts l).yields h)
    · rfl
  | deliver => exact execAll_deliver h

end

/-- Settles O6: the run is its entry, the dispatch and the DMA part, and each event selected is one operation of the handler. -/
theorem handlerRunExecutesSelectedEvents : Obligations.HandlerRunExecutesSelectedEvents := by
  unfold Obligations.HandlerRunExecutesSelectedEvents
  intro s d rest hagenda hd hen
  let s' : State := { s with agenda := rest }
  let c : Ctx := s'.ctx s.cur d
  have hd' : s'.InHand d := hd
  have hfree : d.isStuck .iep = false := by
    simp only [handlerEnabled, Bool.and_eq_true, Bool.not_eq_true'] at hen
    exact hen.2
  have hc : c.Works s' .iep := State.ctx_works hd' hfree
  have hl : (handlerStatus c).Works s' .iep :=
    (handlerStatus_acts c).works (l := handlerEnter c) ⟨hc.placed, hc.id, hc.params, hc.free⟩
  have hstep : step s = s'.after .iep (irqMove c) := by
    rw [step_cons hagenda]
    exact (moveOn_some hd').trans (onInstance_after hd' irqMove)
  rw [hstep, irqMove, if_pos (show handlerEnabled c.dev = true from hen), handlerRun]
  have hchain := proceed_after (k := onInstanceDo s.cur handlerDma) (f := fun m => .next (handlerDma m))
    ((dispatch_acts _).yields hl) fun m hm => hm.onInstanceDo handlerDma
  exact hchain.symm.trans (congrArg (proceed .iep · _) (execAll_selectedEvents hl).symm)

end Sys2Proof.Machine
end

section
/-! PROOFS. R70, R80, R262, R268: host memory and the scratch buffers stay in canonical form. A store of the block reaches listed
addresses only, one of a host 32-bit addresses, and one to a scratch buffer indices below `SCRATCH_SIZE`. -/

namespace Sys2Proof.Machine

/-- Host memory and every scratch buffer are canonical; the instance in hand has the command `c`. -/
structure Ctx.Canonical (c : Cmd) (l : Ctx) : Prop where
  mem : Memory.wf l.mem = true
  own : scratchWf l.dev.scratch = true
  peers : ∀ v ∈ l.before ++ l.after, scratchWf v.scratch = true
  cmdl : l.dev.cmdl = c

section
variable {c : Cmd} {l m : Ctx}

/-! ### What changes neither memory -/

theorem Ctx.Canonical.keep {v : Device} (trace : List Obs) (h : l.Canonical c) (hs : v.scratch = l.dev.scratch := by rfl)
    (hc : v.cmdl = l.dev.cmdl := by rfl) : ({ l with dev := v, trace := trace } : Ctx).Canonical c :=
  ⟨h.mem, hs ▸ h.own, h.peers, hc.trans h.cmdl⟩

theorem Ctx.Canonical.mapDev {f : Device → Device} (h : l.Canonical c) (hs : (f l.dev).scratch = l.dev.scratch := by rfl)
    (hc : (f l.dev).cmdl = l.dev.cmdl := by rfl) : (l.mapDev f).Canonical c := h.keep l.trace hs hc

theorem Ctx.Canonical.mapTP {f : TP → TP} (h : l.Canonical c) : (l.mapTP f).Canonical c := h.mapDev

theorem Ctx.Canonical.setMem {mem : Memory} (h : l.Canonical c) (hm : Memory.wf mem = true) :
    ({ l with mem := mem } : Ctx).Canonical c := ⟨hm, h.own, h.peers, h.cmdl⟩

/-- A byte of the scratch buffer is stored. -/
theorem Ctx.Canonical.putScratch {i : Nat} (b : Byte) (h : l.Canonical c) (hi : i < Config.scratchSize) :
    (l.mapDev fun d => { d with scratch := cellWrite d.scratch i b }).Canonical c :=
  ⟨h.mem, scratchWf_cellWrite h.own hi, h.peers, h.cmdl⟩

theorem Ctx.Canonical.setPeer {k : Nat} {v : Device} (h : l.Canonical c) (hv : scratchWf v.scratch = true) :
    (l.setPeer k v).Canonical c where
  mem := by rw [Ctx.setPeer_mem]; exact h.mem
  own := by rw [Ctx.setPeer_dev]; exact h.own
  peers x hx := (Ctx.mem_setPeer hx).elim (fun e => e ▸ hv) (h.peers x)
  cmdl := by rw [Ctx.setPeer_dev]; exact h.cmdl

/-! ### The moves of the environment -/

/-- An operation that keeps the canonical form and the command of the instance in hand. -/
def KeepsCanonical (f : Ctx → Ctx) : Prop := ∀ (c : Cmd) (l : Ctx), l.Canonical c → (f l).Canonical c

theorem keepsCanonical_be (m : BeMove) : KeepsCanonical fun l => l.mapDev (beMove l.params m) := fun _ l h => by
  refine h.mapDev ?_ ?_ <;> (unfold beMove; split <;> rfl)

theorem keepsCanonical_deMove (m : DeMove) : KeepsCanonical (deMove m) := fun _ l h => by
  rcases deMove_cases m l with e | ⟨-, -, ⟨_, -, e⟩ | ⟨_, _, -, -, -, e⟩ | ⟨_, _, _, -, -, -, -, ha, e⟩ |
    ⟨_, b, j, -, -, -, hj, e⟩ | ⟨_, _, -, -, -, -, e⟩⟩ <;> rw [e]
  · exact h
  · exact h.keep l.trace
  · exact h.keep _
  · exact h.setMem (Memory.wf_cellWrite h.mem (cellRead_lt h.mem ha))
  · obtain ⟨-, i, -, -, ⟨he, -⟩ | ⟨he, -, hi⟩⟩ := resolve_eq_some hj
    · cases he
    · obtain rfl : j = i := Target.scratch.inj he
      exact h.putScratch b hi
  · exact h.mapDev

theorem keepsCanonical_answerMap (r : Option Word) : KeepsCanonical (answerMap r) := fun _ _ h => h.mapDev

theorem keepsCanonical_timerExpire : KeepsCanonical timerExpire := fun _ l h => by
  rcases timerExpire_cases l with e | ⟨-, -, r, e⟩ <;> rw [e]
  · exact h
  · exact h.mapDev

theorem KeepsCanonical.onPeer {f : Ctx → Ctx} (hf : KeepsCanonical f) (k : Nat) : KeepsCanonical (onPeer k f) := fun _ l h => by
  rcases onPeer_cases k f l with ⟨-, e⟩ | ⟨v, hv, e⟩ <;> rw [e]
  · exact h
  · have hpeer : ({ l with id := k, dev := v } : Ctx).Canonical v.cmdl := ⟨h.mem, h.peers v (Ctx.peer?_mem hv), h.peers, rfl⟩
    exact Ctx.Canonical.setPeer ⟨(hf _ _ hpeer).mem, h.own, h.peers, h.cmdl⟩ (hf _ _ hpeer).own

theorem KeepsCanonical.onAny {f : Ctx → Ctx} (hf : KeepsCanonical f) (k : Nat) : KeepsCanonical (onAny k f) := fun _ _ h => by
  unfold Machine.onAny
  split
  · exact hf _ _ h
  · exact hf.onPeer k _ _ h

theorem Ctx.Canonical.hostCommand (host : Nat) (cmd : Cmd) (h : l.Canonical c) : (hostCommand host cmd l).Canonical c := by
  rcases hostCommand_cases host cmd l with e | ⟨r, e⟩ | ⟨-, -, v, hv, -, -, e⟩ <;> rw [e]
  · exact h
  · exact ⟨h.mem, h.own, h.peers, h.cmdl⟩
  · exact Ctx.Canonical.setPeer ⟨h.mem, h.own, h.peers, h.cmdl⟩ (h.peers v (Ctx.peer?_mem hv))

theorem Ctx.Canonical.envMove (m : EnvMove) (h : l.Canonical c) : (envMove l m).Canonical c := by
  cases m with
  | be k m => exact (keepsCanonical_be m).onAny k _ _ h
  | de k m => exact (keepsCanonical_deMove m).onAny k _ _ h
  | mapAnswer k r => exact (keepsCanonical_answerMap r).onAny k _ _ h
  | expire k =>
    show (if k = l.id then l else Machine.onPeer k timerExpire l).Canonical c
    split
    · exact h
    · exact keepsCanonical_timerExpire.onPeer k _ _ h
  | store a b => exact h.setMem (Memory.wf_cellWrite h.mem a.isLt)
  | free a => exact h.setMem (Memory.wf_cellErase h.mem)
  | command host cmd => exact h.hostCommand host cmd

theorem Ctx.Canonical.pump (h : l.Canonical c) : (pump l).Canonical c :=
  pump_induct_all (P := Ctx.Canonical c) (fun x rest h => h.mapDev (f := fun d => { d with inter := rest }))
    (fun _ m h => h.envMove m) l h

/-! ### The accesses of the block -/

theorem Ctx.Canonical.regWrite {r : Reg} {v : Word} (h : l.Canonical c) : (regWrite r v l).Canonical c :=
  h.pump.keep _ (by simp) (by simp)

theorem Ctx.Canonical.rmw {r : Reg} {mask v : Word} (h : l.Canonical c) : (rmw r mask v l).Canonical c :=
  h.pump.regWrite

theorem Ctx.Canonical.pulse {r : Reg} {mask : Word} (h : l.Canonical c) : (pulse r mask l).Canonical c := h.regWrite.regWrite

theorem writeByte_canonical (a : Nat) (b : Byte) (h : l.Canonical c) : (writeByte a b l).Ends (Ctx.Canonical c) := by
  have hp := h.pump
  unfold writeByte
  split
  · rename_i hm
    exact hp.setMem (Memory.wf_memStore hp.mem hm)
  · exact hp

theorem writeBytes_canonical (a : Nat) (bs : List Byte) (h : l.Canonical c) : (writeBytes a bs l).Ends (Ctx.Canonical c) := by
  induction bs generalizing a l with
  | nil => exact h
  | cons b bs ih => exact andThen_ends (writeByte_canonical a b h) (fun _ h' => ih _ h') fun _ h' => h'

theorem dataLoad32_canonical (src n : Nat) (h : l.Canonical c) : (dataLoad32 src n l).Ends (Ctx.Canonical c) :=
  loadSlots_ends (fun _ h => h.pump) (fun _ _ _ h => h.regWrite) h

/-! ### A handler run -/

theorem Fetched.canonical {n : Nat} (hf : Fetched n l m) (h : l.Canonical c) : m.Canonical c := by
  induction hf with
  | zero => exact h
  | padded _ ih => exact (ih h).mapTP
  | read _ ih => exact (ih h).pump.mapTP

theorem drainWords_canonical (n : Nat) (s : Slot) (h : l.Canonical c) : (drainWords n s l).Ends (Ctx.Canonical c) := by
  induction n generalizing s l with
  | zero => exact h
  | succ n ih =>
    exact andThen_ends (writeBytes_canonical _ _ h.pump) (fun _ h' => ih _ h'.mapTP) fun _ h' => h'

theorem gatherWords_canonical (n : Nat) (s : Slot) (h : l.Canonical c) : (gatherWords n s l).2.Canonical c := by
  induction n generalizing s l with
  | zero => exact h
  | succ n ih => exact ih _ h.pump

theorem finishRead_canonical (h : l.Canonical c) : (finishRead l).Ends (Ctx.Canonical c) := by
  unfold finishRead
  simp only
  split
  · exact h.mapTP.mapDev
  · exact andThen_ends (writeBytes_canonical _ _ (gatherWords_canonical _ _ h)) (fun _ h' => h'.mapTP.mapTP.mapDev)
      fun _ h' => h'

theorem HandlerAct.canonical (ha : HandlerAct l m) (h : l.Canonical c) : m.Canonical c := by
  cases ha with
  | moves => exact h.pump
  | clear => exact h.pulse
  | disable => exact h.rmw
  | ackDma => exact h.regWrite
  | flags => exact h.mapTP
  | unit l' _ _ _ hf => exact (hf.canonical h).regWrite.mapTP
  | slot l' _ _ _ _ hw => exact (Res.ends_next.mp (hw ▸ drainWords_canonical _ _ h)).pulse.mapTP
  | finish _ _ _ hf => exact Res.ends_next.mp (hf ▸ finishRead_canonical h)
  | success => exact h.mapTP.mapDev
  | fail => exact h.mapTP.mapDev.rmw

theorem HandlerStop.canonical (hs : HandlerStop l m) (h : l.Canonical c) : m.Canonical c := by
  cases hs with
  | unit l' _ _ _ _ hf => exact (hf.canonical h).pump
  | slot _ _ _ _ hw => exact Res.ends_stuck.mp (hw ▸ drainWords_canonical _ _ h)
  | finish _ _ _ hf => exact Res.ends_stuck.mp (hf ▸ finishRead_canonical h)

theorem irqMove_canonical (h : l.Canonical c) : (irqMove l).Keeps (Ctx.Canonical c) := by
  have h0 : (handlerEnter l).Canonical c := h.mapDev
  have acts : ∀ {n}, HandlerActs (handlerEnter l) n → n.Canonical c := fun ha =>
    ha.induct (fun _ _ ha h => ha.canonical h) h0
  unfold irqMove
  split
  · rcases handlerRun_acts l with ⟨n, ha, e⟩ | ⟨n, n', ha, hs, e⟩ <;> rw [e]
    · exact (acts ha).keep n.trace
    · exact hs.canonical (acts ha)
  · exact h

/-! ### A step of the sequencer -/

theorem restartLoad_canonical (h : l.Canonical c) : (restartLoad l).Ends (Ctx.Canonical c) := by
  unfold restartLoad
  split
  · exact dataLoad32_canonical _ _ h
  · exact h

theorem copyBytesIn_canonical {src i n : Nat} (hn : i + n ≤ Config.scratchSize) (h : l.Canonical c) :
    (copyBytesIn src i n l).Ends (Ctx.Canonical c) := by
  induction n generalizing i l with
  | zero => exact h
  | succ n ih =>
    have hp := h.pump
    exact readByte_ends (fun b => ih (by omega) (hp.pump.putScratch b (by omega))) hp

/-- The copy-in fills at most the scratch buffer: the count has been checked (R173, R262). -/
theorem copyIn_canonical (hc : countsValid c = true) (h : l.Canonical c) : (copyIn l).Ends (Ctx.Canonical c) := by
  unfold copyIn
  rw [h.cmdl]
  simp only
  split
  · rename_i hu
    have hlen := cmdLen_le_of_countsValid hc
    rw [cmdLen, hu.2] at hlen
    exact copyBytesIn_canonical (by rw [Nat.zero_add]; exact hlen) h
  · exact h

theorem stage_canonical (hc : countsValid c = true) (h : l.Canonical c) : (stage l).Ends (Ctx.Canonical c) := by
  have hdma : (andThen (restartLoad l) fun l => andThen (copyIn (dmaMap l)) fun l => .next (dmaProgram l)).Ends
      (Ctx.Canonical c) :=
    andThen_ends (restartLoad_canonical h) (fun m hm => andThen_ends (copyIn_canonical hc (hm.keep _))
      (fun _ hx => hx.regWrite.rmw.rmw) fun _ hx => hx) fun _ hm => hm
  unfold stage
  split
  · exact andThen_ends (dataLoad32_canonical _ _ h) (fun _ hm => hm.mapTP) fun _ hm => hm
  · exact restartLoad_canonical h
  · exact hdma
  · exact hdma

theorem copyBytesOut_canonical {dst i n : Nat} (h : l.Canonical c) : (copyBytesOut dst i n l).Ends (Ctx.Canonical c) := by
  induction n generalizing i l with
  | zero => exact h
  | succ n ih =>
    exact andThen_ends (writeByte_canonical _ _ h.pump) (fun _ h' => ih h') fun _ h' => h'

/-- The finish empties the scratch buffer (R268). -/
theorem dmaFinish_canonical (h : l.Canonical c) : (dmaFinish l).Ends (Ctx.Canonical c) := by
  refine andThen_ends (P := Ctx.Canonical c) ?_ (fun m hm => ⟨hm.mem, rfl, hm.peers, hm.cmdl⟩) fun _ hm => hm
  split
  · exact copyBytesOut_canonical h
  · exact h

theorem exitTransaction_canonical (h : l.Canonical c) : (exitTransaction l).Ends (Ctx.Canonical c) := by
  have h0 : (ctrlReset (l.mapTP fun tp => { tp with phase := .idle })).Canonical c := h.mapTP.rmw
  refine andThen_ends (P := Ctx.Canonical c) ?_ (fun m hm => hm.keep _) fun _ hm => hm
  split
  · exact dmaFinish_canonical h0
  · exact h0

theorem arm_canonical (h : l.Canonical c) : (arm l).Canonical c := by
  unfold arm
  simp only
  split
  · exact h.rmw.rmw
  · exact h.rmw

theorem start_canonical (h : l.Canonical c) : (start l).Keeps (Ctx.Canonical c) := by
  unfold start dmaGo
  split_ifs
  · exact h.rmw
  · trivial
  · exact h.rmw

theorem seqStep_canonical (hc : l.dev.Control l.params) (h : l.Canonical l.dev.cmdl) :
    (seqStep l).Keeps (Ctx.Canonical l.dev.cmdl) := by
  unfold seqStep
  cases hseq : l.dev.seq with
  | sidle | s0 | s1 | s10 => exact h
  | s2 => exact h.rmw.mapDev
  | s3 => exact h.rmw.rmw.mapDev
  | s4 => exact h.rmw.regWrite.mapDev
  | s5 =>
    have hcounts : countsValid l.dev.cmdl = true := hc.counts (by rw [hc.busy_iff, hseq]; rfl)
    exact (stage_canonical hcounts h).keeps.andThen fun _ hm => hm.mapDev
  | s6 => exact h.rmw.mapDev
  | s7 => exact (arm_canonical h).mapDev
  | s8 => exact (start_canonical h).andThen fun _ hm => hm.mapDev
  | s9 =>
    show (if l.dev.sig then wake l else l).Canonical _
    split
    · exact h.mapDev
    · exact h
  | s11 => exact (exitTransaction_canonical h).keeps

theorem seqMove_canonical (hc : l.dev.Control l.params) (h : l.Canonical l.dev.cmdl) :
    (seqMove l).Keeps (Ctx.Canonical l.dev.cmdl) := by
  unfold seqMove
  split
  · exact seqStep_canonical hc h
  · exact h

end

/-! ### The machine -/

section
variable {s t : State} {k : Nat}

theorem State.MemoryInv.ctx {d : Device} (h : s.MemoryInv) (hd : s.devs[k]? = some d) : (s.ctx k d).Canonical d.cmdl where
  mem := h.1
  own := h.2 d (List.mem_of_getElem? hd)
  peers v hv := (List.mem_append.mp hv).elim (fun hv => h.2 v (List.mem_of_mem_take hv))
    fun hv => h.2 v (List.mem_of_mem_drop hv)
  cmdl := rfl

theorem Ctx.Canonical.memoryInv {c : Cmd} {l : Ctx} (h : l.Canonical c) (s : State) : (s.putCtx l).MemoryInv := by
  refine ⟨h.mem, fun v hv => ?_⟩
  rcases List.mem_append.mp (show v ∈ l.before ++ l.dev :: l.after from hv) with hv | hv
  · exact h.peers v (List.mem_append_left _ hv)
  · rcases List.mem_cons.mp hv with rfl | hv
    · exact h.own
    · exact h.peers v (List.mem_append_right _ hv)

/-- A move of an agent of an instance. -/
theorem moveOn_memoryInv {ag : Agent} {f : Ctx → Res} (h : s.MemoryInv)
    (hf : ∀ d, s.devs[k]? = some d → (s.ctx k d).Canonical d.cmdl → (f (s.ctx k d)).Keeps (Ctx.Canonical d.cmdl))
    (e : moveOn ag k f s = .next t) : t.MemoryInv := by
  rcases moveOn_next e with ⟨-, rfl⟩ | ⟨d, l, hd, hl⟩
  · exact h
  · have hkeeps := hf d hd (h.ctx hd)
    rcases hl with ⟨hl, rfl⟩ | ⟨hl, rfl⟩ <;> rw [hl] at hkeeps
    · exact Ctx.Canonical.memoryInv hkeeps s
    · have hhalt : (l.mapDev (halt ag)).Canonical d.cmdl := by cases ag <;> exact Ctx.Canonical.mapDev hkeeps
      exact hhalt.memoryInv s

theorem envOn_memoryInv {f : Ctx → Ctx} (hf : KeepsCanonical f) (h : s.MemoryInv) (e : envOn k f s = .next t) :
    t.MemoryInv := moveOn_memoryInv (f := fun l => .next (f l)) h (fun _ _ hc => hf _ _ hc) e

/-- A command entering the port touches neither memory (R174). -/
theorem commandPort_memoryInv {host : Nat} {ws : List Word} (h : s.MemoryInv) (e : commandPort host ws s = .next t) :
    t.MemoryInv := by
  unfold commandPort at e
  split at e
  · injection e with e
    exact e ▸ h
  split at e
  · rename_i i hi
    obtain ⟨c, rfl, -⟩ := decode_cmd_owner hi host
    rcases exec_command_cases c { s with host := host } with ⟨r, -, he⟩ | ⟨d, hd, -, he⟩ <;> rw [he] at e <;>
      injection e with e
    · exact e ▸ h
    · subst e
      refine ⟨h.1, fun v hv => ?_⟩
      rcases List.mem_or_eq_of_mem_set hv with hv | rfl
      · exact h.2 v hv
      · exact h.2 d (List.mem_of_getElem? hd)
  · cases e

theorem runMove_memoryInv {m : Move} (hc : s.ControlInv) (h : s.MemoryInv) (e : runMove m s = .next t) : t.MemoryInv := by
  cases m with
  | host host ws => exact commandPort_memoryInv h e
  | hostStore a b =>
    injection e with e
    exact e ▸ ⟨Memory.wf_cellWrite h.1 a.isLt, h.2⟩
  | hostFree a =>
    injection e with e
    exact e ▸ ⟨Memory.wf_cellErase h.1, h.2⟩
  | mapAnswer j r => exact envOn_memoryInv (keepsCanonical_answerMap r) h e
  | tmr j => exact envOn_memoryInv keepsCanonical_timerExpire h e
  | be j m => exact envOn_memoryInv (keepsCanonical_be m) h e
  | de j m => exact envOn_memoryInv (keepsCanonical_deMove m) h e
  | seq j => exact moveOn_memoryInv h (fun d hd hd' => seqMove_canonical (l := s.ctx j d) (hc.1 d (List.mem_of_getElem? hd)) hd') e
  | irq j => exact moveOn_memoryInv h (fun _ _ hd => irqMove_canonical hd) e

end

/-- Settles O54: every access of every agent keeps the form; the copy-in's length was checked at admission. -/
theorem stepKeepsMemoryCanonical : Obligations.StepKeepsMemoryCanonical := by
  unfold Obligations.StepKeepsMemoryCanonical
  intro s t hc h e
  cases hagenda : s.agenda with
  | nil =>
    rw [step_nil hagenda] at e
    injection e with e
    exact e ▸ h
  | cons m rest =>
    rw [step_cons hagenda] at e
    exact runMove_memoryInv (s := { s with agenda := rest }) hc h e

end Sys2Proof.Machine
end

section
/-! PROOFS. R140 to R162: what a register primitive leaves of its instance, whatever falls between its accesses. Its own accesses and
the moves between them write registers; only the DMA engine writes the scratch buffer, and only a write of `D_CTRL` starts it. -/

namespace Sys2Proof.Machine

/-- From `d` to `v` the snapshot, the sequencer's context, the signal and what is stuck stand, no pending interrupt is lost, and with
the DMA engine stopped the scratch buffer stands too. -/
structure Device.Spares (d v : Device) : Prop where
  tp : v.tp = d.tp
  seq : v.seq = d.seq
  cmdl : v.cmdl = d.cmdl
  res : v.res = d.res
  map : v.map = d.map
  sig : v.sig = d.sig
  iepRun : v.iepRun = d.iepRun
  epoch : v.epoch = d.epoch
  stuckSeq : v.stuck.seq = d.stuck.seq
  stuckIep : v.stuck.iep = d.stuck.iep
  pend : d.irqPend = true → v.irqPend = true
  scratch : d.deActive = false → v.scratch = d.scratch

/-- The same, and a stopped DMA engine stays stopped. -/
structure Device.Rests (d v : Device) : Prop extends d.Spares v where
  stopped : d.deActive = false → v.deActive = false

theorem Device.Rests.refl (d : Device) : d.Rests d :=
  ⟨⟨rfl, rfl, rfl, rfl, rfl, rfl, rfl, rfl, rfl, rfl, id, fun _ => rfl⟩, id⟩

theorem Device.Rests.spares {d v w : Device} (h : d.Rests v) (h' : v.Spares w) : d.Spares w where
  tp := h'.tp.trans h.tp
  seq := h'.seq.trans h.seq
  cmdl := h'.cmdl.trans h.cmdl
  res := h'.res.trans h.res
  map := h'.map.trans h.map
  sig := h'.sig.trans h.sig
  iepRun := h'.iepRun.trans h.iepRun
  epoch := h'.epoch.trans h.epoch
  stuckSeq := h'.stuckSeq.trans h.stuckSeq
  stuckIep := h'.stuckIep.trans h.stuckIep
  pend hp := h'.pend (h.pend hp)
  scratch hs := (h'.scratch (h.stopped hs)).trans (h.scratch hs)

theorem Device.Rests.trans {d v w : Device} (h : d.Rests v) (h' : v.Rests w) : d.Rests w :=
  ⟨h.spares h'.toSpares, fun hs => h'.stopped (h.stopped hs)⟩

/-! ### The accesses -/

section
variable {d : Device} {l m : Ctx}

theorem EnvFrame.rests (hf : EnvFrame l m) : l.dev.Rests m.dev := by
  have hs := hf.programme
  simp only [Device.SameProgramme] at hs
  constructor
  · refine ⟨?_, ?_, ?_, ?_, ?_, ?_, ?_, ?_, ?_, ?_, hf.pend, hf.scratch⟩ <;> simp [hs]
  · simp [hs]

theorem spares_poke (p : Config.Params) (r : Reg) (v : Word) (d : Device) : d.Spares (latch p d (poke r v d)) := by
  constructor <;> simp +contextual [latch_irqPend]

theorem rests_poke (p : Config.Params) {r : Reg} (hr : r ≠ .dCtrl) (v : Word) (d : Device) :
    d.Rests (latch p d (poke r v d)) := by
  refine ⟨spares_poke p r v d, fun hs => Bool.eq_false_iff.mpr fun ha => ?_⟩
  rw [((poke_keeps hr v d).engine ha).1] at hs
  cases hs

theorem Device.Rests.pump (h : d.Rests l.dev) : d.Rests (pump l).dev := h.trans (pump_frame l).rests

theorem Device.Rests.regWrite_spares {r : Reg} {v : Word} (h : d.Rests l.dev) : d.Spares (regWrite r v l).dev :=
  h.pump.spares (spares_poke _ r v _)

theorem Device.Rests.regWrite {r : Reg} (hr : r ≠ .dCtrl) {v : Word} (h : d.Rests l.dev) : d.Rests (regWrite r v l).dev :=
  h.pump.trans (rests_poke _ hr v _)

/-- The value read is left with the issuing context. -/
theorem Device.Spares.setRet (h : d.Spares l.dev) (w : Word) : d.Spares (returning (w, l)).dev := { h with }

theorem dataLoad32_rests (src n : Nat) (l : Ctx) : (dataLoad32 src n l).Ends fun m => l.dev.Rests m.dev :=
  loadSlots_ends (P := fun m => l.dev.Rests m.dev) (fun _ h => h.pump) (fun _ _ _ h => h.regWrite (by simp)) (.refl _)

end

/-! ### The primitives -/

section
variable {s : State} {d : Device} (hd : s.InHand d)

/-- The primitive goes on, and leaves in hand an instance that it has spared. -/
def Completes (i : Instr) (s : State) (d : Device) : Prop :=
  ∃ (t : State) (v : Device), exec i s = .next t ∧ t.devs[s.cur]? = some v ∧ d.Spares v

include hd

/-- A read-modify-write of any register; what it writes may depend on the platform's parameters. -/
theorem rmw_completes (r : Reg) (mask : Word) (v : Ctx → Word) :
    ∃ (t : State) (w : Device), onInstanceDo s.cur (fun l => rmw r mask (v l) l) s = .next t ∧ t.devs[s.cur]? = some w ∧
      d.Spares w :=
  onInstanceDo_completes (f := fun l => rmw r mask (v l) l) hd (fun hP _ h => rmw_stable hP h)
    (Device.Rests.refl d).pump.regWrite_spares

/-- One full-register write. -/
theorem regWrite_completes (r : Reg) (v : Word) :
    ∃ (t : State) (w : Device), onInstanceDo s.cur (regWrite r v) s = .next t ∧ t.devs[s.cur]? = some w ∧ d.Spares w :=
  onInstanceDo_completes (f := regWrite r v) hd (fun hP _ h => regWrite_stable hP h) (Device.Rests.refl d).regWrite_spares

/-- A clear pulse. -/
theorem pulse_completes {r : Reg} (hr : r ≠ .dCtrl) (mask : Word) :
    ∃ (t : State) (w : Device), onInstanceDo s.cur (pulse r mask) s = .next t ∧ t.devs[s.cur]? = some w ∧ d.Spares w :=
  onInstanceDo_completes (f := pulse r mask) hd (fun hP _ h => pulse_stable hP h)
    ((Device.Rests.refl d).regWrite hr).regWrite_spares

/-- A read whose value, `value` of the instance, is returned. -/
theorem read_completes (value : Ctx → Word) :
    ∃ (t : State) (w : Device), onInstanceDo s.cur (fun l => returning (value l, pump l)) s = .next t ∧
      t.devs[s.cur]? = some w ∧ d.Spares w :=
  onInstanceDo_completes (f := fun l => returning (value l, pump l)) hd (fun hP _ h => hP.mapDev (hP.pump _ h))
    ((Device.Rests.refl d).pump.toSpares.setRet _)

theorem dataLoad32_spares {src : Word} {n : BitVec 6} (ha : Allocated s.mem src.toNat n.toNat) (hf : d.NoFrees) :
    Completes (.dataLoad32 src n) s d := by
  obtain ⟨l, e, -⟩ : ∃ l, dataLoad32 src.toNat n.toNat (s.ctx s.cur d) = .next l ∧ _ := loadSlots_loading (k := 8) (le_refl _)
    (show (s.ctx s.cur d).Loading d s.mem src.toNat n.toNat 0 from
      ⟨.refl d, hf, ha, fun _ hstore => ⟨hstore, rfl, fun _ _ h => absurd h (Nat.not_lt_zero _)⟩⟩)
  have hrests : d.Rests l.dev := Res.ends_next.mp (e ▸ dataLoad32_rests src.toNat n.toNat (s.ctx s.cur d))
  exact onInstance_completes (f := dataLoad32 src.toNat n.toNat) hd .seq (fun hP _ h => loadSlots_stable hP h) e hrests.toSpares

theorem dmaGo_spares (hdir : d.db.dir = d.mb.ctrl.rw) : Completes .dmaGo s d := by
  have e : dmaGo (s.ctx s.cur d) = .next (rmw .dCtrl 1 1 (s.ctx s.cur d)) := if_pos hdir
  exact onInstance_completes hd .seq (fun hP _ h => dmaGo_stable hP h) e (Device.Rests.refl d).pump.regWrite_spares

theorem dmaStatusGetclr_spares : Completes .dmaStatusGetclr s d := by
  refine onInstanceDo_completes
    (f := fun l => returning ((dmaStatusGetclr l).1.setWidth 32, (dmaStatusGetclr l).2)) hd
    (fun hP _ h => hP.mapDev (regWrite_stable hP (hP.pump _ h))) ?_
  exact (Device.Rests.refl d).pump.regWrite_spares.setRet _

/-- Every well-formed primitive, under the premises of its own rule. -/
theorem primitive_completes {i : Instr} (hreg : i.regSel ≠ none) (hwf : i.wf = true)
    (hload : ∀ src n, i = .dataLoad32 src n → Allocated s.mem src.toNat n.toNat ∧ d.NoFrees)
    (hgo : i = .dmaGo → d.db.dir = d.mb.ctrl.rw) : Completes i s d := by
  cases i with
  | read | write | dmaRead | dmaWrite => exact absurd rfl hreg
  | evActiveDone | evAddrNack | evDataNack | evEmptyThreshold | evFifoEmpty | evFifoFull | evSclHold => exact absurd rfl hreg
  | evRdOverflow | evBurstSlot => exact absurd rfl hreg
  | evDmaDone | evDmaWcntErr | evDmaWbenErr | evDmaGdmaTimeout | evDmaIpTimeout | evDmaZeroLen => exact absurd rfl hreg
  | ctrlReset | trigger => exact rmw_completes hd .mCtrl _ fun _ => _
  | clkdivSet freq => exact rmw_completes hd .mClk _ fun l => BitVec.ofNat 32 (divOf l.params.srcFreqKhz freq.toNat)
  | addrSet => exact rmw_completes hd .mAddr _ fun _ => _
  | intenSet | intenClr => exact rmw_completes hd .mInten _ fun _ => _
  | dmaLenSet => exact rmw_completes hd .dLen _ fun _ => _
  | dmaDirSet => exact rmw_completes hd .dCtrl _ fun _ => _
  | dmaIntenSet => exact rmw_completes hd .dInten _ fun _ => _
  | cntSet | dataPut | dmaAddrSet => exact regWrite_completes hd _ _
  | statusClear | rdflagClear => exact pulse_completes hd (by simp) _
  | statusGet => exact read_completes hd fun l => (statusGet l).1.setWidth 32
  | ovfGet => exact read_completes hd fun l => (ovfGet l).1
  | rdflagGet => exact read_completes hd fun l => (rdflagGet l).1.setWidth 32
  | dataGet slot => exact read_completes hd fun l => (dataGet slot l).1
  | modeSet m rw re au =>
    rw [Completes, (performs_modeSet hwf au) s]
    exact rmw_completes hd .mCtrl _ fun _ => _
  | dataLoad32 src n =>
    obtain ⟨ha, hf⟩ := hload src n rfl
    exact dataLoad32_spares hd ha hf
  | dmaGo => exact dmaGo_spares hd (hgo rfl)
  | dmaStatusGetclr => exact dmaStatusGetclr_spares hd

end

/-- Settles O46: every primitive is accesses that spare the contexts, and the DMA engine starts at the last of them at the earliest. -/
theorem primitivesNeverFailNorWriteTP : Obligations.PrimitivesNeverFailNorWriteTP := by
  unfold Obligations.PrimitivesNeverFailNorWriteTP
  intro s d i hd hreg hwf hload hgo
  obtain ⟨t, v, e, hv, h⟩ := primitive_completes hd hreg hwf hload hgo
  exact ⟨t, v, e, hv, h.tp, h.seq, h.cmdl, h.res, h.map, h.sig, h.iepRun, h.epoch, h.stuckSeq, h.stuckIep, h.pend, h.scratch⟩

end Sys2Proof.Machine
end

section
/-! PROOFS. R175 to R181: the entry sequence, with nothing between its accesses. Each step makes a device of the one before; after S2
no status bit is set, so that the line stays low whatever is enabled, and the devices are written out. -/

namespace Sys2Proof.Machine

/-! ### Steps of the sequencer one after another -/

/-- `n` steps of the sequencer, each enabled and each going on, lead from one context to the other. -/
inductive SeqPath : Nat → Ctx → Ctx → Prop
  | refl (l : Ctx) : SeqPath 0 l l
  | head {n : Nat} {l m r : Ctx} (hen : seqEnabled l.dev = true) (h : seqStep l = .next m) (t : SeqPath n m r) :
      SeqPath (n + 1) l r

theorem seqEnabled_iff {d : Device} : seqEnabled d = true ↔ d.iepRun = false ∧ d.stuck.seq = false := by
  simp [seqEnabled]

/-- What a step of the sequencer that goes on makes of a context, the machine that holds the context becomes. -/
theorem step_seq_putCtx {s : State} {l m : Ctx} {rest : List Move} (hagenda : s.agenda = .seq s.cur :: rest)
    (hw : l.Works s .seq) (hen : seqEnabled l.dev = true) (h : seqStep l = .next m) :
    step (s.putCtx l) = .next (({ s with agenda := rest } : State).putCtx m) := by
  have hctx : (s.putCtx l).ctx s.cur l.dev = l := by
    rw [← hw.id]
    exact State.ctx_putCtx hw.placed hw.params
  have hstep := step_seq_after (s := s.putCtx l) (rest := rest) hagenda hw.inHand hen
  rw [hstep]
  show State.after _ .seq (seqStep ((s.putCtx l).ctx s.cur l.dev)) = _
  rw [hctx, h]
  rfl

theorem SeqPath.runSteps {n : Nat} {l m : Ctx} (h : SeqPath n l m) {s : State} {rest : List Move}
    (hagenda : s.agenda = List.replicate n (.seq s.cur) ++ rest) (hp : l.Placed) (hid : l.id = s.cur)
    (hparams : l.params = s.params) : runSteps n (s.putCtx l) = .next (({ s with agenda := rest } : State).putCtx m) := by
  induction h generalizing s with
  | refl l => rw [← show s.agenda = rest from hagenda]; rfl
  | @head n l x m hen hstep _ ih =>
    have hw : l.Works s .seq := ⟨hp, hid, hparams, (seqEnabled_iff.mp hen).2⟩
    obtain ⟨hp', hid'⟩ := Res.keeps_next.mp (hstep ▸ seqStep_stable (placed_stable s.cur) ⟨hp, hid⟩)
    have hparams' : x.params = s.params := Res.keeps_next.mp (hstep ▸ seqStep_stable (params_stable s.params) hparams)
    rw [Machine.runSteps, step_seq_putCtx hagenda hw hen hstep]
    exact ih (s := { s with agenda := List.replicate n (.seq s.cur) ++ rest }) rfl hp' hid' hparams'

/-! ### The devices of the entry sequence -/

/-- After S2 (R175). -/
def Device.cleared (d : Device) : Device := { resetController d with seq := .s3 }

/-- After S3 (R176). -/
def Device.timed (p : Config.Params) (d : Device) : Device :=
  { d with
    mb := { d.mb with
      clk := BitVec.ofNat 11 (divOf p.srcFreqKhz d.cmdl.args.freq.toNat)
      addr := d.cmdl.args.addr }
    seq := .s4 }

/-- After S4 (R177). -/
def Device.directed (d : Device) : Device :=
  { d with
    mb := { d.mb with
      ctrl := { d.mb.ctrl with rw := isReadOp d.cmdl.op, restart := cmdRestart d.cmdl }
      wrcnt := cmdWrCnt d.cmdl
      rdcnt := cmdRdCnt d.cmdl }
    seq := .s5 }

/-- What S5 writes (R178). -/
structure Staging where
  data : Vector Word 8
  off : Word
  map : MapRec
  db : DBlock
  scratch : List Host.Cell

/-- After S5 (R178). -/
def Device.staged (x : Staging) (d : Device) : Device :=
  { d with
    mb := { d.mb with data := x.data }
    tp := { d.tp with dataOff := x.off }
    map := x.map
    db := x.db
    scratch := x.scratch
    seq := .s6 }

/-- After S6 (R179). -/
def Device.modeChosen (d : Device) : Device :=
  { d with mb := { d.mb with ctrl := { d.mb.ctrl with auto := isDmaOp d.cmdl.op } }, seq := .s7 }

/-- After S7 (R180). -/
def Device.armed (d : Device) : Device :=
  { d with
    mb := { d.mb with inten := d.mb.inten ||| cmdInten d.cmdl d.tp.burstCnt }
    db := if isDmaOp d.cmdl.op then { d.db with inten := d.db.inten ||| 0x01 } else d.db
    seq := .s8 }

/-- S7 changes of the DMA block its enables only. -/
theorem Device.armed_db (d : Device) : d.armed.db = { d.db with inten := d.armed.db.inten } := by
  unfold Device.armed
  dsimp only
  split <;> rfl

/-- After S8 (R181). -/
def Device.started (d : Device) : Device :=
  { d with beActive := true, deActive := d.deActive || isDmaOp d.cmdl.op, seq := .s9 }

/-- No status bit is set, no handler run in progress, and nothing falls between the accesses. -/
structure Device.Still (d : Device) : Prop where
  quiet : d.inter = []
  run : d.iepRun = false
  silent : d.Silent

theorem Device.Still.settled {d : Device} (h : d.Still) (p : Config.Params) : d.Settled p := by
  refine ⟨h.run, fun _ hl => ?_⟩
  rw [h.silent.low p] at hl
  cases hl

/-! ### S2 to S4 -/

section
variable {l : Ctx}

theorem seqStep_cleared (hq : l.dev.inter = []) (hseq : l.dev.seq = .s2) :
    ∃ obs, seqStep l = .next { l with dev := l.dev.cleared, trace := obs } := by
  rw [seqStep_s2 hseq, ctrlReset_quiet hq]
  exact ⟨_, rfl⟩

theorem seqStep_timed (h : l.dev.Still) (hseq : l.dev.seq = .s3) :
    ∃ obs, seqStep l = .next { l with dev := l.dev.timed l.params, trace := obs } := by
  have hl := (h.settled l.params).2
  rw [seqStep_s3 hseq, clkdivSet_quiet h.quiet hl, addrSet_quiet]
  exacts [⟨_, rfl⟩, h.quiet, hl]

theorem seqStep_directed (h : l.dev.Still) (hseq : l.dev.seq = .s4) :
    ∃ obs, seqStep l = .next { l with dev := l.dev.directed, trace := obs } := by
  have hl := (h.settled l.params).2
  rw [seqStep_s4 hseq, modeSet_quiet h.quiet hl, cntSet_quiet]
  exacts [⟨_, rfl⟩, h.quiet, hl]

/-! ### S5 -/

/-- What S5 stages for the command of `d` (R178, R261, R263, R264). -/
structure Staging.Serves (mem : Memory) (d : Device) (x : Staging) : Prop where
  data : ∀ i : Slot, x.data[i] = bufferWord mem d.cmdl.args.wbuf.toNat (stagedLen d.cmdl) (4 * i.val)
  off : x.off = if d.cmdl.op = .write then BitVec.ofNat 32 (min d.cmdl.args.wlen.toNat 32) else d.tp.dataOff
  direct : isDmaOp d.cmdl.op = false → x.map = d.map ∧ x.db = d.db
  mapped : isDmaOp d.cmdl.op = true → x.map.valid = true ∧
    x.db = { d.db with dir := isReadOp d.cmdl.op, addr := x.map.devAddr, len := (cmdLen d.cmdl).setWidth 16 }

/-- A buffer of no bytes is padding. -/
theorem bufferWord_nil (mem : Memory) (base off : Nat) : bufferWord mem base 0 off = 0 := by
  simp [bufferWord, bufferByte, wordOf]

/-- The word-slots after the restart payload, which were 0 (R178). -/
theorem restartData_staged {mem : Memory} {c : Cmd} {data data0 : Vector Word 8} (hop : c.op ≠ .write)
    (h0 : data0 = Vector.replicate 8 0) (hkept : cmdRestart c = false → data = data0)
    (hloaded : cmdRestart c = true → ∀ i : Slot, data[i] = bufferWord mem c.args.wbuf.toNat c.args.wlen.toNat (4 * i.val))
    (i : Slot) : data[i] = bufferWord mem c.args.wbuf.toNat (stagedLen c) (4 * i.val) := by
  rw [stagedLen, if_neg hop]
  change _ = bufferWord _ _ (if cmdRestart c = true then _ else 0) _
  cases hr : cmdRestart c with
  | true => rw [if_pos rfl, hloaded hr i]
  | false =>
    rw [if_neg Bool.false_ne_true, bufferWord_nil, hkept hr, h0]
    simp

theorem seqStep_staged (h : l.dev.Still) (hseq : l.dev.seq = .s5) (h0 : l.dev.mb.data = Vector.replicate 8 0)
    (hb : BuffersAllocated l.mem l.dev.cmdl) :
    ∃ (x : Staging) (obs : List Obs), x.Serves l.mem l.dev ∧
      seqStep l = .next { l with dev := l.dev.staged x, trace := obs } := by
  have hl := (h.settled l.params).2
  rw [seqStep_s5 hseq]
  cases hop : l.dev.cmdl.op with
  | write =>
    have ha : Allocated l.mem l.dev.cmdl.args.wbuf.toNat (min l.dev.cmdl.args.wlen.toNat 32) :=
      (hb.1 (.inl (congrArg isReadOp hop))).mono le_rfl (by omega)
    obtain ⟨data, obs, e, hdata⟩ := loadSlots_allocated (i := 0) (k := 8) h.quiet hl rfl ha
    refine ⟨⟨data, BitVec.ofNat 32 (min l.dev.cmdl.args.wlen.toNat 32), l.dev.map, l.dev.db, l.dev.scratch⟩, obs ++ l.trace,
      ⟨fun i => ?_, (if_pos hop).symm, fun _ => ⟨rfl, rfl⟩, fun hd => ?_⟩, ?_⟩
    · rw [stagedLen, if_pos hop]
      exact (hdata i).trans (if_pos (Nat.zero_le _))
    · rw [hop] at hd
      cases hd
    · have hload : dataLoad32 l.dev.cmdl.args.wbuf.toNat (min l.dev.cmdl.args.wlen.toNat Config.nonburstCap) l = _ := e
      simp only [stage, hop, writeLoad, hload, andThen_next]
      rfl
  | read =>
    obtain ⟨data, obs, e, hkept, hloaded⟩ := restartLoad_quiet h.quiet hl fun hr =>
      hb.1 (.inr (Bool.and_eq_true_iff.mp hr).2)
    refine ⟨⟨data, l.dev.tp.dataOff, l.dev.map, l.dev.db, l.dev.scratch⟩, obs ++ l.trace,
      ⟨restartData_staged (by rw [hop]; nofun) h0 hkept hloaded, ?_, fun _ => ⟨rfl, rfl⟩, fun hd => ?_⟩, ?_⟩
    · rw [if_neg (by rw [hop]; nofun)]
    · rw [hop] at hd
      cases hd
    · simp only [stage, hop, e, andThen_next]
      rfl
  | dmaRead | dmaWrite =>
    have hdma : isDmaOp l.dev.cmdl.op = true := congrArg isDmaOp hop
    obtain ⟨data, scratch, obs, e, -, hkept, hloaded, -, -⟩ := stage_dma_quiet h.quiet hl hdma hb
    refine ⟨⟨data, l.dev.tp.dataOff, l.dev.mapping, (l.dev.dmaStaged data scratch).db, scratch⟩, obs ++ l.trace,
      ⟨restartData_staged (by rw [hop]; nofun) h0 hkept hloaded, ?_, fun hd => ?_, fun _ => ⟨?_, rfl⟩⟩, ?_⟩
    · rw [if_neg (by rw [hop]; nofun)]
    · rw [hdma] at hd
      cases hd
    · unfold Device.mapping
      cases l.dev.oracle <;> rfl
    · rw [e]
      rfl

/-! ### S6 to S8 -/

theorem seqStep_modeChosen (h : l.dev.Still) (hseq : l.dev.seq = .s6) :
    ∃ obs, seqStep l = .next { l with dev := l.dev.modeChosen, trace := obs } := by
  rw [seqStep_s6 hseq, modeSet_quiet h.quiet (h.settled l.params).2]
  exact ⟨_, rfl⟩

/-- Enabling interrupts raises no line while no status bit is set. -/
theorem intenSet_still (h : l.dev.Still) (mask : BitVec 9) :
    ∃ obs, intenSet mask l =
      { l with dev := { l.dev with mb := { l.dev.mb with inten := l.dev.mb.inten ||| mask } }, trace := obs } := by
  have hlow := (h.silent.same (v := { l.dev with mb := { l.dev.mb with inten := l.dev.mb.inten ||| mask } })).low l.params
  rw [intenSet_quiet h.quiet (h.settled l.params), hlow, Bool.or_false]
  exact ⟨_, rfl⟩

theorem dmaIntenSet_still (h : l.dev.Still) (mask : BitVec 6) :
    ∃ obs, dmaIntenSet mask l =
      { l with dev := { l.dev with db := { l.dev.db with inten := l.dev.db.inten ||| mask } }, trace := obs } := by
  have hlow := (h.silent.same (v := { l.dev with db := { l.dev.db with inten := l.dev.db.inten ||| mask } })).low l.params
  rw [dmaIntenSet_quiet h.quiet (h.settled l.params), hlow, Bool.or_false]
  exact ⟨_, rfl⟩

theorem seqStep_armed (h : l.dev.Still) (hseq : l.dev.seq = .s7) :
    ∃ obs, seqStep l = .next { l with dev := l.dev.armed, trace := obs } := by
  obtain ⟨obs, e⟩ := intenSet_still h (cmdInten l.dev.cmdl l.dev.tp.burstCnt)
  rw [seqStep_s7 hseq, arm_eq, e]
  cases hdma : isDmaOp l.dev.cmdl.op with
  | false => exact ⟨obs, by simp [Device.armed, goto, Ctx.mapDev, hdma]⟩
  | true =>
    let m : Ctx := { l with
      dev := { l.dev with mb := { l.dev.mb with inten := l.dev.mb.inten ||| cmdInten l.dev.cmdl l.dev.tp.burstCnt } }
      trace := obs }
    obtain ⟨obs', e'⟩ := dmaIntenSet_still (l := m) ⟨h.quiet, h.run, h.silent.same⟩ 0x01
    rw [if_pos rfl, e']
    exact ⟨obs', by simp [m, Device.armed, goto, Ctx.mapDev, hdma]⟩

theorem seqStep_started (h : l.dev.Still) (hseq : l.dev.seq = .s8) (hauto : l.dev.mb.ctrl.auto = isDmaOp l.dev.cmdl.op)
    (hdir : isDmaOp l.dev.cmdl.op = true → l.dev.db.dir = l.dev.mb.ctrl.rw) :
    ∃ obs, seqStep l = .next { l with dev := l.dev.started, trace := obs } := by
  have hl := (h.settled l.params).2
  rw [seqStep_s8 hseq, start]
  cases hdma : isDmaOp l.dev.cmdl.op with
  | false =>
    rw [if_neg Bool.false_ne_true, trigger_quiet h.quiet hl]
    exact ⟨_, by simp [Device.started, goto, Ctx.mapDev, hauto, hdma]; rfl⟩
  | true =>
    rw [if_pos rfl, dmaGo_quiet h.quiet hl (hdir hdma)]
    exact ⟨_, by simp [Device.started, goto, Ctx.mapDev, hauto, hdma]; rfl⟩

end

/-! ### The whole sequence -/

/-- The instance S4 leaves, and the one S8 leaves. -/
def Device.entered (p : Config.Params) (d : Device) : Device := (d.cleared.timed p).directed

def Device.programmed (p : Config.Params) (x : Staging) (d : Device) : Device := ((d.entered p).staged x).modeChosen.armed.started

theorem Device.programmed_db_direct (p : Config.Params) (x : Staging) (d : Device) (h : isDmaOp d.cmdl.op = false) :
    (d.programmed p x).db = x.db := if_neg (Bool.eq_false_iff.mp h)

theorem Device.programmed_db_mapped (p : Config.Params) (x : Staging) (d : Device) (h : isDmaOp d.cmdl.op = true) :
    (d.programmed p x).db = { x.db with inten := x.db.inten ||| 0x01 } := if_pos h

theorem Device.cleared_still {d : Device} (hq : d.Quiet) (hrun : d.iepRun = false) : d.cleared.Still := ⟨hq, hrun, {}⟩

/-- S5 sets no status bit. -/
theorem Staging.Serves.status {mem : Memory} {d : Device} {x : Staging} (h : x.Serves mem d) : x.db.status = d.db.status := by
  cases hdma : isDmaOp d.cmdl.op with
  | false => rw [(h.direct hdma).2]
  | true => rw [(h.mapped hdma).2]

theorem entry_path {l : Ctx} (hq : l.dev.Quiet) (hen : seqEnabled l.dev = true) (hseq : l.dev.seq = .s2)
    (hb : BuffersAllocated l.mem l.dev.cmdl) :
    ∃ (x : Staging) (obs : List Obs), x.Serves l.mem (l.dev.entered l.params) ∧
      SeqPath 7 l { l with dev := l.dev.programmed l.params x, trace := obs } := by
  have h2 := Device.cleared_still hq (seqEnabled_iff.mp hen).1
  have h4 : (l.dev.entered l.params).Still := ⟨h2.quiet, h2.run, h2.silent.same⟩
  obtain ⟨o2, e2⟩ := seqStep_cleared hq hseq
  obtain ⟨o3, e3⟩ := seqStep_timed (l := { l with dev := l.dev.cleared, trace := o2 }) h2 rfl
  obtain ⟨o4, e4⟩ := seqStep_directed (l := { l with dev := l.dev.cleared.timed l.params, trace := o3 })
    ⟨h2.quiet, h2.run, h2.silent.same⟩ rfl
  obtain ⟨x, o5, hx, e5⟩ := seqStep_staged (l := { l with dev := l.dev.entered l.params, trace := o4 }) h4 rfl rfl hb
  have h5 : ((l.dev.entered l.params).staged x).Still := ⟨h4.quiet, h4.run, ⟨rfl, rfl, rfl, hx.status⟩⟩
  obtain ⟨o6, e6⟩ := seqStep_modeChosen (l := { l with dev := (l.dev.entered l.params).staged x, trace := o5 }) h5 rfl
  have h6 : ((l.dev.entered l.params).staged x).modeChosen.Still := ⟨h5.quiet, h5.run, h5.silent.same⟩
  obtain ⟨o7, e7⟩ := seqStep_armed (l := { l with dev := ((l.dev.entered l.params).staged x).modeChosen, trace := o6 }) h6 rfl
  have hdb : ((l.dev.entered l.params).staged x).modeChosen.armed.db.status = 0 :=
    (congrArg DBlock.status (Device.armed_db _)).trans h6.silent.dma
  have h7 : ((l.dev.entered l.params).staged x).modeChosen.armed.Still := ⟨h6.quiet, h6.run, ⟨rfl, rfl, rfl, hdb⟩⟩
  obtain ⟨o8, e8⟩ := seqStep_started
    (l := { l with dev := ((l.dev.entered l.params).staged x).modeChosen.armed, trace := o7 }) h7 rfl rfl fun hdma =>
      (congrArg DBlock.dir (Device.armed_db _)).trans (congrArg DBlock.dir (hx.mapped hdma).2)
  exact ⟨x, o8, hx, .head hen e2 (.head hen e3 (.head hen e4 (.head hen e5 (.head hen e6 (.head hen e7 (.head hen e8
    (.refl _)))))))⟩

/-! ### The counts -/

theorem toNat_setWidth_count {w : Word} (h : w.toNat ≤ 65535) : (w.setWidth 16).toNat = w.toNat := by
  rw [BitVec.toNat_setWidth]
  exact Nat.mod_eq_of_lt (by omega)

section
variable {c : Cmd} (hc : countsValid c = true)
include hc

/-- The write length, where there is a write phase, fits its field (R173). -/
theorem wlen_le_of_countsValid (h : ¬(isReadOp c.op = true ∧ c.args.restart = false)) : c.args.wlen.toNat ≤ 65535 := by
  have hmax : Config.countMax = 65535 := rfl
  have hcap : Config.restartWrCap = 32 := rfl
  unfold countsValid countValid at hc
  cases hr : isReadOp c.op with
  | false =>
    simp only [hr, hmax, Bool.false_eq_true, if_false, Bool.and_eq_true, decide_eq_true_eq] at hc
    exact hc.2
  | true =>
    cases hre : c.args.restart with
    | false => exact absurd ⟨hr, hre⟩ h
    | true =>
      simp only [hr, hre, hcap, if_true, Bool.not_true, Bool.false_or, Bool.and_eq_true, decide_eq_true_eq] at hc
      omega

theorem cmdWrCnt_toNat :
    (cmdWrCnt c).toNat = if isReadOp c.op = true ∧ c.args.restart = false then 0 else c.args.wlen.toNat := by
  unfold cmdWrCnt
  by_cases h : isReadOp c.op = true ∧ c.args.restart = false
  · simp [h]
  · rw [if_neg h, if_neg (by simpa using h), toNat_setWidth_count (wlen_le_of_countsValid hc h)]

theorem cmdLen_toNat : ((cmdLen c).setWidth 16).toNat = (cmdLen c).toNat :=
  toNat_setWidth_count (cmdLen_le_of_countsValid hc)

theorem cmdRdCnt_toNat : (cmdRdCnt c).toNat = if isReadOp c.op = true then c.args.rlen.toNat else 0 := by
  have hlen := cmdLen_toNat hc
  unfold cmdRdCnt
  unfold cmdLen at hlen
  split
  · rename_i h
    rwa [if_pos h] at hlen
  · rfl

end

/-- Settles O12: the seven devices are written out, and the line is low throughout. -/
theorem entrySequenceProgramsThePath : Obligations.EntrySequenceProgramsThePath := by
  unfold Obligations.EntrySequenceProgramsThePath
  intro s d rest hagenda hd hq ⟨hrun, _⟩ hstuck hseq hcounts hb c
  obtain ⟨x, obs, hx, hpath⟩ := entry_path (l := s.ctx s.cur d) hq (seqEnabled_iff.mpr ⟨hrun, hstuck⟩) hseq hb
  have hsteps := hpath.runSteps hagenda (State.ctx_placed hd) rfl rfl
  rw [State.putCtx_ctx hd] at hsteps
  have hclk : (BitVec.ofNat 11 (divOf s.params.srcFreqKhz c.args.freq.toNat)).toNat =
      divOf s.params.srcFreqKhz c.args.freq.toNat := Nat.mod_eq_of_lt (Nat.lt_succ_of_le (divOf_le _ _))
  have hdb : isDmaOp c.op = true → (d.programmed s.params x).db =
      { dir := isReadOp c.op, addr := x.map.devAddr, len := (cmdLen c).setWidth 16, status := 0, inten := 0x01 } := by
    intro hdma
    rw [Device.programmed_db_mapped s.params x d hdma, (hx.mapped hdma).2]
    exact congrArg (DBlock.mk _ _ _ _) BitVec.zero_or
  refine ⟨_, d.programmed s.params x, hsteps, rfl, ?_, rfl, rfl, hclk, rfl, rfl, rfl, cmdWrCnt_toNat hcounts,
    cmdRdCnt_toNat hcounts, hx.data, ?_, fun hdma => ?_, fun hdma => ?_, rfl, ?_, fun hdma => ?_, rfl, ?_, rfl, rfl, rfl, rfl,
    rfl, rfl, rfl, rfl, rfl, rfl⟩
  · exact State.putCtx_getElem? (l := { s.ctx s.cur d with dev := d.programmed s.params x, trace := obs })
      (State.ctx_placed hd)
  · exact congrArg (fun off => { d.tp with dataOff := off }) hx.off
  · obtain ⟨hmap, hzero⟩ := hx.direct hdma
    exact ⟨hmap, (Device.programmed_db_direct _ _ _ hdma).trans hzero⟩
  · have hend := hdb hdma
    exact ⟨(hx.mapped hdma).1, congrArg DBlock.dir hend, congrArg DBlock.addr hend,
      (congrArg (fun db => db.len.toNat) hend).trans (cmdLen_toNat hcounts), congrArg DBlock.status hend⟩
  · exact BitVec.zero_or
  · exact congrArg DBlock.inten (hdb hdma)
  · exact Bool.false_or _

end Sys2Proof.Machine
end
